-- ==== Sys2Proof/Word.lean ====
section
/-! DEFINITION. The word types of the node memory bus and of the SL7's records (scope chapter, "Conventions"). -/
namespace Sys2Proof

/-- One byte of SRAM, of the flash or of a record. -/
abbrev Byte := BitVec 8

/-- A word is 32 bits; words are little-endian (scope chapter, "Words and addresses"). -/
abbrev Word := BitVec 32

/-- A 48-bit station address; its first octet is bits 7:0 (formats chapter, opening paragraph). -/
abbrev Mac := BitVec 48

end Sys2Proof
end

