-- ==== Sys2Proof/Syntax.lean ====
section
/-! DEFINITION. The commands of the block: one constructor for each row of spec/opcode_table.json, in the table's order.
A row that a master or the flash device brings about carries what it brings; a row that acts on work the SL7 already has
in hand (the transaction in hand, the request taken, the port's access) carries nothing. -/
namespace Sys2Proof

/-- Direction of a bus transaction (R1). -/
inductive Dir where
  | read
  | write
deriving DecidableEq, Repr

/-- Form of a bus transaction (R1): a single access with the byte enables of its word, or a burst of whole words. -/
inductive Form where
  | single (enables : BitVec 4)
  | burst (count : Nat)
deriving DecidableEq, Repr

/-- What the PTU records on taking a transaction (R1). A single write carries one word, its bytes in their lanes; a
burst write one word for each word of the burst; a read carries none. -/
structure Transaction where
  addr   : Nat
  master : Fin 16
  dir    : Dir
  form   : Form
  data   : List Word
deriving DecidableEq, Repr

/-- The units that take the second boundary as an event of their own (R116; SUC by R190). -/
inductive BoundaryUnit where
  | ptu | cau | stu | cgu | scu | rmu | imu | suc
deriving DecidableEq, Repr

/-- The commands, one for each row of the table of operations and events. `flips` of a flash READ's end are the bits in
which the device's answer differs from the array's contents (log 7); `slot` is a station-table slot; `order` is the order
in which the units take one second boundary (R30, R71, R91, R95, R126, R142 leave it open; log 8). -/
inductive Instr where
  | powerOn
  | nodeRestart
  | flashNoResponse
  | configBlockReadEnd (flips : List Byte)
  | selectorScanReadEnd (flips : List Byte)
  | selectingDecision
  | readyLowHoldExpiry
  | busTransaction (t : Transaction)
  | sramPortGrant
  | passThroughSramDone
  | txDescriptorFetch
  | transmitDecision
  | txHoldExpiry
  | rxRingWrite
  | rxClosingWrite
  | rxHoldExpiry
  | peerFetchReadDone
  | controlWrite
  | consumerIndexWrite
  | classMapWrite
  | nodePolicyRecord
  | profileRecord
  | pinRecord
  | badKindRequest
  | requestClosingHeld
  | requestHoldExpiry
  | setTime
  | pauseStation
  | resumeStation
  | extendStation
  | forgetStation
  | importContext
  | imageOpen
  | imageClose
  | imageAbort
  | activate
  | activateCancel
  | bootConfirm
  | resultWriteDone
  | reportBodyWriteDone
  | producerIndexWriteDone
  | statusWriteDone
  | flashWindowRead
  | flashHoldExpiry
  | flashWindowWrite
  | stagingRead
  | stagingWrite
  | stagingWriteHoldExpiry
  | flashPortGrant
  | flashStatusPoll (busy suspended fail : Bool)
  | flashPassThroughReadEnd (flips : List Byte)
  | flashSuspended
  | suspendTimeout
  | minimumRunEnd
  | flashOperationTimeout
  | flashOperationGiveUp
  | verifyReadEnd (flips : List Byte)
  | selectorReadbackEnd (flips : List Byte)
  | secondBoundary (order : List BoundaryUnit)
  | minuteBoundary (order : List BoundaryUnit)
  | holdCountdownExpiry (slot : Nat)
  | gameLingerEnd (slot : Nat)
  | sweepVisit
  | pauseExpiry (slot : Nat)
  | extensionExpiry (slot : Nat)
  | estimateEntryExpiry (slot node : Nat)
  | backoffExpiry (slot : Nat)
  | steerTimeout (slot : Nat)
  | signalSummary
  | drainDeadline
  | trialExpiry
  | loadingReadStatus (busy : Bool)
deriving DecidableEq, Repr

end Sys2Proof
end

