-- ==== Sys2Proof/Decode.lean ====
section
/-! DEFINITION. The table gives no row any bits (every row's "fields" is empty and none has "fixed"), so no word spells a
command: the decoder answers none for every word (the commands come as events, not as encodings). -/
namespace Sys2Proof

/-- The command a word spells by the table's bits: none, since no row of spec/opcode_table.json gives bits. -/
def decodeTableWord (_nbits _w : Nat) : Option Instr := none

end Sys2Proof
end

