-- ==== Sys2Proof/Config.lean ====
section
/-! DEFINITION. What the manual leaves open: free values, which no proof can look into, and the two bytes that
memory nothing has written reads as. -/
namespace Sys2Proof.Config

/-- FREE VALUE (R30; log 4): of the reports that two units raise at the same moment, whether the next to join the
pending queue is the first unit's. The argument is the model's own counter `State.freeIdx`. -/
opaque freeOrder : Nat → Bool

/-- FREE VALUE (R172, R157; log 5): what a flash byte holds after a program or erase that failed, was given up or was
cut off by power-on, and which bits are cleared after an append whose read-back differs (R185; log 47). First argument: the counter
`State.freeIdx`; second: the flash address. -/
opaque partwayByte : Nat → Nat → Byte

/-- FREE VALUE (R184; log 6): which of two valid selector entries with the same highest sequence number counts as the
newest, by their positions; `true` takes the later one. -/
opaque tieNewest : Nat → Nat → Bool

/-- DESIGN CHOICE (log 2): what a byte of SRAM that nothing has written reads as; the manual gives no contents. -/
def sramUnwritten : Byte := 0x00

/-- R157: an erased byte of the flash reads as 0xFF. DESIGN CHOICE (log 3): the flash is blank in `State.reset`. -/
def flashErased : Byte := 0xFF

/-- R37: every byte of the control-area shadow is zero at power-on. -/
def shadowZero : Byte := 0x00

end Sys2Proof.Config
end

