-- ==== Sys2Proof/Machine/State.lean ====
section
/-! DEFINITION. Everything the manual gives the SL7 to hold, unit by unit (block table of the scope chapter), as plain data;
the SRAM and the flash behind its two ports; the lines; and the state right after power-on. Where a field is the model's own
and not the manual's, its docstring says so. -/
namespace Sys2Proof.Machine

/-! ## Outcomes that are not a next state -/

/-- Why the machine would stop with a fault. -/
inductive Fault where
  /-- Raised by BUS_TRANSACTION alone: the start address lies beyond the 28-bit bus (scope chapter, "Words and
  addresses"), so the transaction names an address that does not exist. Safe. -/
  | addressBeyondBus
deriving DecidableEq, Repr

/-- Why a command is refused. -/
inductive Refusal where
  /-- Raised by exec's arm of a command that has no meaning yet (none in this model). Safe. -/
  | notModelled (mnemonic : String)
  /-- Raised by BUS_TRANSACTION alone: a form that the node memory bus does not carry (section 1.1: alignment, byte
  enables, burst length, 32-byte boundary, words of data). Safe. -/
  | notABusTransaction
deriving DecidableEq, Repr

/-! ## Memories -/

/-- A byte memory in canonical form: addresses strictly rising, no entry equal to what an unlisted address reads as. -/
abbrev Memory := List Host.Cell

/-! ## Time base and lines -/

/-- The time base of R116: ms counter, sub-second count, second, minute of week, time-valid flag. -/
structure TimeBase where
  ms     : BitVec 32
  sub    : Nat
  second : Nat
  minute : Nat
  valid  : Bool
deriving DecidableEq, Repr

/-- The output lines (section 11.7): ATTN (R33), RESTART_REQ (R183), READY (R188). The inputs RESTART_IN and PORn are
the commands NODE_RESTART and POWER_ON; REFCLK is the tick. -/
structure Lines where
  attn       : Bool
  restartReq : Bool
  ready      : Bool
deriving DecidableEq, Repr

/-! ## Codes shared by several units -/

/-- The five states of a record in use (R63). -/
inductive StationState where
  | idle | expected | associated | steering | away
deriving DecidableEq, Repr

/-- The valid traffic classes (section 5.1). -/
inductive Class where
  | game | voice | stream | bulk | background
deriving DecidableEq, Repr

/-- Pause remaining of a record (R127): none, indefinite, or a number of seconds. -/
inductive Pause where
  | none
  | indefinite
  | timed (seconds : Nat)
deriving DecidableEq, Repr

/-- The two flash slots (R157). -/
inductive Slot where
  | a | b
deriving DecidableEq, Repr

/-- Boot state of a selector entry and of the SUC (R184). -/
inductive BootState where
  | confirmed | trial
deriving DecidableEq, Repr

/-- Window kinds (R6), in the order of their codes 1..8. -/
inductive WindowKind where
  | txRing | rxRing | control | report | boot | config | image | staging
deriving DecidableEq, Repr

/-- Session states (R162), in the order of their codes 0..8. -/
inductive SessionState where
  | idle | receiving | closing | verified | failed | armed | draining | committing | committed
deriving DecidableEq, Repr

/-- Reasons of IMAGE_STATE (section 11.2), in the order of their codes 0..8. -/
inductive Reason where
  | none | flashFault | flashTimeout | crcMismatch | readbackMismatch | aborted | cancelled
  | drainComplete | drainDeadline
deriving DecidableEq, Repr

/-- Result codes of a request (R28), codes 1..7. -/
inductive ResultCode where
  | done | badKind | range | state | unknownStation | tableFull | paused
deriving DecidableEq, Repr

/-- Why a record is freed (R74), codes 1..5. -/
inductive FreeReason where
  | idleTimeout | expectedTimeout | awayRelease | evicted | forgotten
deriving DecidableEq, Repr

/-- Edges of LEVEL_EDGE (R125), codes 1..3. -/
inductive LevelEdge where
  | windDown | gated | opened
deriving DecidableEq, Repr

/-- Causes of GAME_EDGE (R92), codes 1..4. -/
inductive GameCause where
  | detected | imported | lingerEnd | freed
deriving DecidableEq, Repr

/-- Causes of STEER (R145), codes 1 and 2. -/
inductive SteerCause where
  | evaluation | drain
deriving DecidableEq, Repr

/-- Areas of RECORD_REFUSED, codes 1 and 2. -/
inductive RefusedArea where
  | profile | pin
deriving DecidableEq, Repr

/-- Reasons of RECORD_REFUSED, codes 1 and 2. -/
inductive RefusedReason where
  | range | duplicate
deriving DecidableEq, Repr

/-- Reasons of PEER_REPORT_IGNORED (R57, R58, R137), codes 1..6. -/
inductive IgnoredReason where
  | address | short | queueFull | format | ownNode | badNode
deriving DecidableEq, Repr

/-- Reasons of CONFIG_DEFAULTED (R186), codes 1..8. -/
inductive DefaultedReason where
  | noFlash | magic | format | length | crc | node | port | windows
deriving DecidableEq, Repr

/-! ## Reports -/

/-- The kinds of report with their fields (section 11.3). -/
inductive ReportBody where
  | stationLearned (station : Mac) (state : StationState)
  | stationFreed (station : Mac) (state : StationState) (reason : FreeReason)
  | levelEdge (station : Mac) (edge : LevelEdge) (level target : Nat)
  | gameEdge (station : Mac) (on : Bool) (cause : GameCause) (count : Nat)
  | steer (station : Mac) (target : Nat) (cause : SteerCause) (localEst targetEst : Int)
  | steerFailed (station : Mac) (target failures : Nat) (unmovable : Bool) (backoff : Nat)
  | stationAway (station : Mac) (node : Nat) (left : StationState)
  | stationBack (station : Mac) (node : Nat)
  | contextExport (station : Mac) (pause : Pause) (extension level : Nat) (active : Bool)
      (linger failures : Nat)
  | signalSummary (station : Mac) (estimate : Int) (here : Bool)
  | imageState (state : SessionState) (reason : Reason) (pages : Nat) (version : Word)
  | protect (entry : Nat) (kind : WindowKind) (master : Nat) (dir : Dir) (addr further : Nat)
  | fallback (slot : Slot) (attempts : Nat) (firstTime : Bool)
  | recordRefused (area : RefusedArea) (index : Nat) (reason : RefusedReason)
  | peerReportIgnored (reason : IgnoredReason)
  | configDefaulted (reason : DefaultedReason)
deriving DecidableEq, Repr

/-- The time stamp of a report (R30): wall clock while time is valid, else the ms counter. -/
inductive Stamp where
  | wall (minute second : Nat)
  | counter (ms : BitVec 32)
deriving DecidableEq, Repr

/-- A report in the pending queue: stamped, with its own gap flag (R30). -/
structure Report where
  stamp : Stamp
  gap   : Bool
  body  : ReportBody
deriving DecidableEq, Repr

/-! ## Pass-Through Unit -/

/-- A used entry of the window map (R6), with its index 0..23. The ring fields bear on ring kinds only. -/
structure Window where
  entry      : Nat
  base       : Nat
  size       : Nat
  kind       : WindowKind
  readMask   : BitVec 16
  writeMask  : BitVec 16
  ringId     : Nat
  ringMaster : Nat
  descCount  : Nat
deriving DecidableEq, Repr

/-- What a pass-through transaction does at the SRAM port (R17): its own access, an inspected TX read, an RX closing
write that first needs a fill read for its decision, a closing write of the request slot that was held while a result was
pending, which is held until it completes (R5, R29), or an RX closing write whose decision (or expiry) is past, to be written
with DISCARD in its kind field or as it is (R54, R56). -/
inductive SramWork where
  | plain | inspected | closingFill | requestWrite
  | closingWrite (discard : Bool)
deriving DecidableEq, Repr

/-- How far the transaction in hand has come. -/
inductive Phase where
  /-- held because READY is low (R4) -/
  | readyLow
  /-- permitted, and handed to the unit its window's kind names (R12 to R15) -/
  | routed
  /-- waiting for the SRAM port -/
  | sramWait (work : SramWork)
  /-- holding the SRAM port -/
  | sramBusy (work : SramWork)
  /-- an inspected read whose eight words have been read from SRAM (R39) -/
  | fetched (words : List Word)
  /-- an inspected read held for its decision (R40) -/
  | txHeld (words : List Word)
  /-- a closing write of the request slot held while a result is pending (R29) -/
  | requestHeld
  /-- a read held for the flash-port arbiter (R13): flash address and number of bytes -/
  | flashHeld (addr len : Nat)
  /-- a STAGING write held for a free page buffer (R166) -/
  | stagingHeld
deriving DecidableEq, Repr

/-- The transaction in hand with its hold (section 1.1): at most one. `heldUs` is the hold time spent, in µs (R3, R4); `late`
says of an inspected read that its limit expired while it waited for its words at the SRAM port (R3, R49). -/
structure InHand where
  txn    : Transaction
  window : Option Window
  phase  : Phase
  heldUs : Nat
  late   : Bool := false
deriving DecidableEq, Repr

/-- How a transaction ended (R2). -/
inductive Ending where
  | data (words : List Word)
  | ack
  | err
deriving DecidableEq, Repr

/-- The bus's last reply: the transaction that ended and how. The model's own field (what the master saw on the bus). -/
structure BusReply where
  txn    : Transaction
  ending : Ending
deriving DecidableEq, Repr

/-- The internal accesses of section 1.5; the first two are the report path's. -/
inductive InternalKind where
  | reportBody | producerIndex | result | status | peerFetch
deriving DecidableEq, Repr

/-- An internal access: a write of `data`, or for a peer fetch a read of `len` bytes. -/
structure InternalAccess where
  kind : InternalKind
  addr : Nat
  data : List Byte
  len  : Nat
deriving DecidableEq, Repr

/-- An entry of the arbiter's queue with its wait count 0..8 (R16). -/
structure Queued where
  access : InternalAccess
  wait   : Nat
deriving DecidableEq, Repr

/-- Who has the SRAM port (R17, R18). `abandoned` marks an access that a node restart has overtaken: it completes, and
the unit it belonged to takes nothing from it (R20, R38, R59). -/
inductive SramPort where
  | free
  | passThrough
  | internal (access : InternalAccess) (abandoned : Bool)
deriving DecidableEq, Repr

/-- The PTU's state (section 1.6). `behind` is the access that a path has to make and may not issue yet, since an access of that
path which a node restart has overtaken still holds the port (section 1.5). -/
structure Ptu where
  windows      : List Window
  inspectLimit : Nat
  flashLimit   : Nat
  mapping      : Slot
  quiet        : Bool
  further      : Nat
  queue        : List Queued
  behind       : Option InternalAccess
  port         : SramPort
  inHand       : Option InHand
  reply        : Option BusReply
deriving DecidableEq, Repr

/-! ## Control Area Unit -/

/-- The slot state of the request slot (section 2.4). -/
inductive SlotState where
  | free | pending
deriving DecidableEq, Repr

/-- A request taken and not yet answered by its owner (R27): the value of w15 and w0 to w13. -/
structure Request where
  kind : Word
  args : List Word
deriving DecidableEq, Repr

/-- What the report path is doing (R31, R34). -/
inductive ReportPath where
  /-- the window map is not installed yet -/
  | notBegun
  /-- writing 0 into the producer index word -/
  | zeroing
  | idle
  /-- writing the record at the head of the pending queue -/
  | body
  /-- writing the producer index -/
  | index
deriving DecidableEq, Repr

/-- The CAU's state (sections 2.1, 2.4 to 2.6). -/
structure Cau where
  shadow       : Memory
  slot         : SlotState
  request      : Option Request
  writeIdx     : Nat
  published    : Nat
  consumer     : Nat
  pending      : List Report
  gap          : Bool
  path         : ReportPath
  refreshCount : BitVec 32
  /-- the status writes of the current refresh not yet issued: offset in the block and 32 bytes (R35, R36) -/
  statusLeft   : List (Nat × List Byte)
  /-- a status write is in the arbiter's queue, on the port, or waits behind an overtaken one of its path (section 1.5) -/
  statusOut    : Bool
deriving DecidableEq, Repr

/-- The node policy values in force (R24), each with its owning unit named there. -/
structure Policy where
  refRate       : Nat
  factor        : Nat
  threshold     : Nat
  sustain       : Nat
  linger        : Nat
  deferLimit    : Nat
  trigger       : Int
  margin        : Nat
  gameMargin    : Nat
  floor         : Int
  dwell         : Nat
  gameDwell     : Nat
  steerTimeout  : Nat
  drainDeadline : Nat
  maintCount    : Nat
  maintWindows  : List (Nat × Nat)
deriving DecidableEq, Repr

/-! ## Descriptor Inspection Unit -/

/-- A defer record that holds an address (R47). -/
structure Defer where
  addr  : Nat
  count : Nat
deriving DecidableEq, Repr

/-- The capture record of an RX ring (R51): the descriptor address, and words 1 to 7, each seen with its value or not. -/
structure Capture where
  addr  : Option Nat
  words : List (Option Word)
deriving DecidableEq, Repr

/-- An entry of the peer report queue (R57). -/
structure PeerBuffer where
  addr : Nat
  len  : Nat
deriving DecidableEq, Repr

/-- The fetch of the buffer at the queue's head (R58): the bytes read so far, the reporting node and number of entries
used once the header is taken, and how many entries have been handed. -/
structure Fetch where
  bytes  : List Byte
  taken  : Option (Nat × Nat)
  handed : Nat
deriving DecidableEq, Repr

/-- The DIU's state (section 3.8): 8 defer records, 4 capture records, the peer report queue with the fetch under way,
and the late counts. -/
structure Diu where
  defers    : List (Option Defer)
  captures  : List Capture
  peerQueue : List PeerBuffer
  fetch     : Fetch
  txLate    : BitVec 32
  rxLate    : BitVec 32
deriving DecidableEq, Repr

/-! ## The station table -/

/-- An entry of an estimate map (R135). -/
structure Estimate where
  node  : Nat
  value : Int
  age   : Nat
deriving DecidableEq, Repr

/-- A record in use with the fields of all its units (R63, R88, R99, R127, R135), and its slot 0..127. -/
structure Station where
  slot       : Nat
  addr       : Mac
  state      : StationState
  profile    : Nat
  pinned     : Option Class
  hold       : Option Nat
  age        : Nat
  level      : Nat
  pause      : Pause
  ext        : Nat
  gameCount  : Nat
  sustain    : Nat
  gameActive : Bool
  linger     : Nat
  tokens     : Int
  rate       : Nat
  cap        : Nat
  settled    : BitVec 32
  mark       : Bool
  estimates  : List Estimate
  dwell      : Nat
  candidate  : Option Nat
  steerTo    : Option Nat
  steerTimer : Nat
  failures   : Nat
  backoff    : Nat
  current    : Option Nat
  unmovable  : Bool
deriving DecidableEq, Repr

/-- A valid pin (R77); an empty entry of the list is `none`. -/
structure Pin where
  addr    : Mac
  profile : Nat
  cls     : Option Class
deriving DecidableEq, Repr

/-- The STU's state: the records in use, in ascending slot order (a slot not listed is FREE), and the 64 pins. -/
structure Stu where
  stations : List Station
  pins     : List (Option Pin)
deriving DecidableEq, Repr

/-- The CGU's state (sections 5.3, 5.5): the class map of 256 entries, the node game-active count, contention. -/
structure Cgu where
  classMap   : List Class
  count      : Nat
  contention : Bool
deriving DecidableEq, Repr

/-- A window of a profile (R118). -/
structure ProfileWindow where
  start : Nat
  stop  : Nat
  level : Nat
deriving DecidableEq, Repr

/-- A profile with its current target (R118). -/
structure Profile where
  ceiling      : Nat
  defaultLevel : Nat
  slope        : Nat
  count        : Nat
  windows      : List ProfileWindow
  target       : Nat
deriving DecidableEq, Repr

/-- The SCU's state besides the time base and the records (R118, R132). -/
structure Scu where
  profiles  : List Profile
  maintOpen : Bool
deriving DecidableEq, Repr

/-- The RMU's state besides the records (chapter 8, opening): drain mode, the summary toggle, and the slots whose summary
of the last summary boundary has not been raised yet (R150). -/
structure Rmu where
  drain     : Bool
  toggle    : Bool
  summaries : List Nat
deriving DecidableEq, Repr

/-! ## Image Unit and flash port -/

/-- The staging target (R162, R163). -/
inductive Target where
  | image (slot : Slot)
  | config
deriving DecidableEq, Repr

/-- A full page buffer in the program queue (R167). -/
structure PageBuffer where
  page  : Nat
  bytes : List Byte
deriving DecidableEq, Repr

/-- The staging session (R162), with the activation flags and the drain countdown (R178, R180). `crc` and `rbCrc` are the
values of R168 before the final complement; `current` is the page buffer being filled. -/
structure Session where
  state     : SessionState
  target    : Option Target
  length    : Nat
  expCrc    : Word
  version   : Word
  needed    : Nat
  crc       : Word
  nextWord  : Nat
  current   : List Byte
  queue     : List PageBuffer
  refused   : Bool
  pages     : Nat
  sectors   : Nat
  rbPos     : Nat
  rbCrc     : Word
  now       : Bool
  force     : Bool
  drainLeft : Nat
deriving DecidableEq, Repr

/-- A program of one page (its flash address and 256 bytes) or an erase of one sector (its flash address). -/
inductive FlashWork where
  | program (addr : Nat) (data : List Byte)
  | erase (addr : Nat)
deriving DecidableEq, Repr

/-- For whom a program or erase was started (R158). `pastSession` is an operation started for a session that has since
ended: it runs to its end and its outcome is ignored (R173, R177). -/
inductive OpOwner where
  | session | pastSession | startUp
deriving DecidableEq, Repr

/-- The suspension of an operation (R161). `wanted` says that the read SUSPEND was issued for still waits; a suspended operation's
READ is in transfer for the read that waits, since RESUME comes as soon as none does. -/
inductive Suspension where
  | running
  | suspending (wanted : Bool)
  | suspended
deriving DecidableEq, Repr

/-- A program or erase in progress (R158, R159, R161). `busyUs`: its busy time; `runUs`: busy time since RESUME;
`suspendUs`: time since SUSPEND; `lateUs`: time since it timed out. -/
structure FlashOp where
  work       : FlashWork
  owner      : OpOwner
  busyUs     : Nat
  suspension : Suspension
  suspendUs  : Nat
  inMinRun   : Bool
  runUs      : Nat
  answers    : Bool
  timedOut   : Bool
  lateUs     : Nat
deriving DecidableEq, Repr

/-- What a flash READ is for (R160). -/
inductive ReadFor where
  | passThrough | config | scan | readback | verify
deriving DecidableEq, Repr

/-- The flash port (R160). `live` says that whoever asked for the READ still wants it. -/
inductive FlashPort where
  | free
  | reading (purpose : ReadFor) (live : Bool) (addr len : Nat)
  | busy (op : FlashOp)
deriving DecidableEq, Repr

/-- The IMU's state (section 9.10): session, last failure reason, busy toggle, flash port. -/
structure Imu where
  session  : Session
  lastFail : Reason
  toggle   : Bool
  port     : FlashPort
deriving DecidableEq, Repr

/-! ## Start-Up Controller -/

/-- Start-up states (section 10.4). -/
inductive StartUp where
  | loading | selecting | ready
deriving DecidableEq, Repr

/-- Where LOADING stands (R186): asking READ_STATUS, reading the block header, reading the rest. -/
inductive LoadPhase where
  | status | header | body
deriving DecidableEq, Repr

/-- A selector-log entry (R184). -/
structure Entry where
  seq      : BitVec 32
  slot     : Slot
  boot     : BootState
  attempts : Nat
  fallback : Bool
deriving DecidableEq, Repr

/-- A scan of sector 5 under way (R184): bytes read, the newest valid entry so far with its position, the lowest erased
position so far. -/
structure Scan where
  pos    : Nat
  newest : Option (Nat × Entry)
  free   : Option Nat
deriving DecidableEq, Repr

/-- Who asked for an append (R182, R188, R191). A start's fallback carries a + 1 for its report. `nobody`: the owner has
gone in a node restart; the outcome is still taken into the copy of the log. -/
inductive AppendOwner where
  | commit | confirm | trialStart | fallbackStart (attempts : Nat) | nobody
deriving DecidableEq, Repr

/-- An append asked for and not yet issued (R185). -/
structure AppendJob where
  owner    : AppendOwner
  slot     : Slot
  boot     : BootState
  attempts : Nat
  fallback : Bool
deriving DecidableEq, Repr

/-- The operation an append has reached (R185). -/
inductive AppendPhase where
  | erase | program | readback
deriving DecidableEq, Repr

/-- The append in progress, with the sequence number it will carry. -/
structure Append where
  job   : AppendJob
  seq   : BitVec 32
  phase : AppendPhase
deriving DecidableEq, Repr

/-- The SUC's state (sections 10.3 to 10.7). `cfgBytes` are the block's bytes at offsets below 416 as read so far,
`cfgPos` how many bytes of the block have been read, `cfgCrc` the CRC value of R186 before its complement, `loadUs` the
time LOADING has waited for a flash that is not busy. `decided`: the decision of this SELECTING is made and its append
asked for. `noFlash`: the flash is taken as not responding for this SELECTING (R186, R188). -/
structure Suc where
  startUp      : StartUp
  load         : LoadPhase
  loadUs       : Nat
  cfgBytes     : List Byte
  cfgPos       : Nat
  cfgCrc       : Word
  node         : Nat
  backhaul     : Nat
  trialWindow  : Nat
  maxAttempts  : Nat
  defaulted    : Bool
  flashFault   : Bool
  newest       : Option Entry
  appendPos    : Option Nat
  stale        : Bool
  scan         : Option Scan
  decided      : Bool
  noFlash      : Bool
  boot         : BootState
  trialLeft    : Nat
  trialRunning : Bool
  jobs         : List AppendJob
  append       : Option Append
deriving DecidableEq, Repr

/-! ## The whole -/

/-- The state of the block. `pending` is the queue of commands waiting, `freeIdx` the counter the free values are read at;
both are the model's own. `sram` and `flash` are the memories behind the two ports. -/
structure State where
  pending : List Instr
  time    : TimeBase
  lines   : Lines
  ptu     : Ptu
  cau     : Cau
  policy  : Policy
  diu     : Diu
  stu     : Stu
  cgu     : Cgu
  scu     : Scu
  rmu     : Rmu
  imu     : Imu
  suc     : Suc
  sram    : Memory
  flash   : Memory
  freeIdx : Nat
deriving DecidableEq, Repr

/-! ## Power-on values -/

/-- The power-on node policy values of R24. -/
def Policy.powerOn : Policy :=
  { refRate := 65535, factor := 1024, threshold := 20, sustain := 3, linger := 30, deferLimit := 16,
    trigger := -70, margin := 6, gameMargin := 10, floor := -80, dwell := 4, gameDwell := 8,
    steerTimeout := 10, drainDeadline := 60, maintCount := 0, maintWindows := List.replicate 4 (0, 0) }

/-- The power-on profile of R118. The fields of the eight windows, which no decision uses at window count 0, are 0: neither R118
nor R133 gives them (DESIGN CHOICE, log 39). -/
def Profile.powerOn : Profile :=
  { ceiling := 0, defaultLevel := 4096, slope := 0, count := 0,
    windows := List.replicate 8 { start := 0, stop := 0, level := 0 }, target := 4096 }

/-- A capture record that holds no address (R61). -/
def Capture.empty : Capture := { addr := none, words := List.replicate 7 none }

/-- No fetch under way. -/
def Fetch.none : Fetch := { bytes := [], taken := .none, handed := 0 }

/-- The IDLE session of R176. Where R176 gives no length, expected CRC or version, and says nothing of the sectors needed, the running
CRC, the readback CRC and its position, the flags of an activation and the drain countdown, 0 stands for them, false, or for the CRCs the
all ones at which R168 starts them (DESIGN CHOICE, log 45). -/
def Session.idle : Session :=
  { state := .idle, target := none, length := 0, expCrc := 0, version := 0, needed := 0,
    crc := 0xFFFFFFFF, nextWord := 0, current := [], queue := [], refused := false, pages := 0,
    sectors := 0, rbPos := 0, rbCrc := 0xFFFFFFFF, now := false, force := false, drainLeft := 0 }

/-- A session that has entered IDLE, from an abort, a node restart or COMMITTED (R173, R177, R183): its refused flag stays as it was, until
a write is accepted or IMAGE_OPEN clears it (R165); everything else is as R176 has it at power-on (DESIGN CHOICE, log 45). -/
def Session.ended (n : Session) : Session := { Session.idle with refused := n.refused }

/-- R19. -/
def Ptu.powerOn : Ptu :=
  { windows := [], inspectLimit := 8, flashLimit := 100, mapping := .a, quiet := false, further := 0,
    queue := [], behind := none, port := .free, inHand := none, reply := none }

/-- R37. -/
def Cau.powerOn : Cau :=
  { shadow := [], slot := .free, request := none, writeIdx := 0, published := 0, consumer := 0,
    pending := [], gap := false, path := .notBegun, refreshCount := 0, statusLeft := [],
    statusOut := false }

/-- R61. -/
def Diu.powerOn : Diu :=
  { defers := List.replicate 8 none, captures := List.replicate 4 Capture.empty, peerQueue := [],
    fetch := Fetch.none, txLate := 0, rxLate := 0 }

/-- R176. -/
def Imu.powerOn : Imu :=
  { session := Session.idle, lastFail := .none, toggle := false, port := .free }

/-- R192, with the built-in configuration's node id, backhaul port, trial window and attempts standing until LOADING
installs one (log 9). -/
def Suc.powerOn : Suc :=
  { startUp := .loading, load := .status, loadUs := 0, cfgBytes := [], cfgPos := 0,
    cfgCrc := 0xFFFFFFFF, node := 0, backhaul := 15, trialWindow := 300, maxAttempts := 3,
    defaulted := false, flashFault := false, newest := none, appendPos := none, stale := true,
    scan := none, decided := false, noFlash := false, boot := .confirmed, trialLeft := 0,
    trialRunning := false, jobs := [], append := none }

/-- The block right after power-on (R19, R37, R61, R83, R97, R114, R133, R155, R176, R192). -/
def State.reset : State :=
  { pending := []
    time := { ms := 0, sub := 0, second := 0, minute := 0, valid := false }
    lines := { attn := false, restartReq := false, ready := false }
    ptu := Ptu.powerOn
    cau := Cau.powerOn
    policy := Policy.powerOn
    diu := Diu.powerOn
    stu := { stations := [], pins := List.replicate 64 none }
    cgu := { classMap := List.replicate 256 .bulk, count := 0, contention := false }
    scu := { profiles := List.replicate 16 Profile.powerOn, maintOpen := false }
    rmu := { drain := false, toggle := false, summaries := [] }
    imu := Imu.powerOn
    suc := Suc.powerOn
    sram := []
    flash := []
    freeIdx := 0 }

end Sys2Proof.Machine
end

