-- ==== Sys2Proof/Machine/Ops.lean ====
section
/-! DEFINITION. The named operations the meanings are built from: byte memories, byte order, bit fields, the CRC, elapsed
time, the SRAM-port queue, window look-up, and how a transaction ends. -/
namespace Sys2Proof.Machine

/-! ## Byte memories (SRAM, flash, control-area shadow) -/

/-- The byte at an address; `d` is what an unlisted address reads as. -/
def Memory.read (d : Byte) : Memory → Nat → Byte
  | [], _ => d
  | (k, c) :: m, a => if k = a then c else Memory.read d m a

/-- Write one byte, keeping the canonical form. -/
def Memory.write (d : Byte) : Memory → Nat → Byte → Memory
  | [], a, b => if b = d then [] else [(a, b)]
  | (k, c) :: m, a, b =>
    if a < k then (if b = d then (k, c) :: m else (a, b) :: (k, c) :: m)
    else if a = k then (if b = d then m else (a, b) :: m)
    else (k, c) :: Memory.write d m a b

/-- Every entry's address is above `lo` and rising, and no entry equals `d`. -/
def Memory.wfAbove (d : Byte) : Option Nat → Memory → Bool
  | _, [] => true
  | lo, (k, c) :: m =>
    (match lo with
      | none => true
      | some l => decide (l < k)) && decide (c ≠ d) && Memory.wfAbove d (some k) m

/-- The canonical form. -/
def Memory.wf (d : Byte) (m : Memory) : Bool := Memory.wfAbove d none m

/-- The `n` bytes from address `a` on. -/
def Memory.readBytes (d : Byte) (m : Memory) (a n : Nat) : List Byte :=
  (List.range n).map (fun i => Memory.read d m (a + i))

/-- Write (address, byte) pairs one after another. -/
def Memory.writeCells (d : Byte) (m : Memory) (cells : List Host.Cell) : Memory :=
  cells.foldl (fun m c => Memory.write d m c.1 c.2) m

/-- Bytes laid out from address `a` on. -/
def cellsAt (a : Nat) (bytes : List Byte) : List Host.Cell :=
  (List.range bytes.length).zipWith (fun i b => (a + i, b)) bytes

/-- Write bytes from address `a` on. -/
def Memory.writeBytes (d : Byte) (m : Memory) (a : Nat) (bytes : List Byte) : Memory :=
  Memory.writeCells d m (cellsAt a bytes)

/-- Replace the `n` bytes from address `a` on by `f a`, `f (a + 1)`, …, keeping the canonical form. -/
def Memory.overlay (d : Byte) (m : Memory) (a n : Nat) (f : Nat → Byte) : Memory :=
  m.filter (fun c => decide (c.1 < a))
    ++ ((List.range n).map (fun i => (a + i, f (a + i)))).filter (fun c => decide (c.2 ≠ d))
    ++ m.filter (fun c => decide (a + n ≤ c.1))

/-- One byte of the SRAM behind the SRAM port. -/
def State.sramByte (s : State) (a : Nat) : Byte := Memory.read Config.sramUnwritten s.sram a

/-- One byte of the flash behind the flash port. -/
def State.flashByte (s : State) (a : Nat) : Byte := Memory.read Config.flashErased s.flash a

/-- One byte of the control-area shadow, by its offset in the area (R21). -/
def State.shadowByte (s : State) (o : Nat) : Byte := Memory.read Config.shadowZero s.cau.shadow o

/-- Bytes of SRAM. -/
def State.sramBytes (s : State) (a n : Nat) : List Byte := Memory.readBytes Config.sramUnwritten s.sram a n

/-- Store cells in SRAM. -/
def State.storeSram (s : State) (cells : List Host.Cell) : State :=
  { s with sram := Memory.writeCells Config.sramUnwritten s.sram cells }

/-- The flash array after an operation on the `n` bytes from `a` on has left `f` there (R157). -/
def State.overlayFlash (s : State) (a n : Nat) (f : Nat → Byte) : State :=
  { s with flash := Memory.overlay Config.flashErased s.flash a n f }

/-- Store cells, by offset, in the control-area shadow. -/
def State.storeShadow (s : State) (cells : List Host.Cell) : State :=
  { s with cau.shadow := Memory.writeCells Config.shadowZero s.cau.shadow cells }

/-! ## Byte order and bit fields -/

/-- Byte `k` of a word, 0 the least significant (words are little-endian). -/
def wordByte (w : Word) (k : Nat) : Byte := BitVec.ofNat 8 (w.toNat / 2 ^ (8 * k))

/-- The four bytes of a word from its lowest address. -/
def bytesOfWord (w : Word) : List Byte := [wordByte w 0, wordByte w 1, wordByte w 2, wordByte w 3]

/-- The bytes of words in ascending address order. -/
def bytesOfWords (ws : List Word) : List Byte := ws.flatMap bytesOfWord

/-- A word from its bytes, lowest address first (missing bytes count as 0). -/
def wordOfBytes (bs : List Byte) : Word :=
  BitVec.ofNat 32 ((bs.getD 0 0).toNat + (bs.getD 1 0).toNat * 2 ^ 8 + (bs.getD 2 0).toNat * 2 ^ 16
    + (bs.getD 3 0).toNat * 2 ^ 24)

/-- `n` words from their bytes. -/
def wordsOfBytes : Nat → List Byte → List Word
  | 0, _ => []
  | n + 1, bs => wordOfBytes (bs.take 4) :: wordsOfBytes n (bs.drop 4)

/-- Bits lo + width − 1 .. lo of a word, as a number. -/
def field (w : Word) (lo width : Nat) : Nat := w.toNat / 2 ^ lo % 2 ^ width

/-- One bit of a word. -/
def bit (w : Word) (i : Nat) : Bool := w.toNat.testBit i

/-- A number of `width` bits read in two's complement. -/
def signed (width n : Nat) : Int := if n < 2 ^ (width - 1) then (n : Int) else (n : Int) - 2 ^ width

/-- Replace bits lo + width − 1 .. lo of a word by a number. -/
def setField (w : Word) (lo width v : Nat) : Word :=
  (w &&& ~~~(BitVec.ofNat 32 ((2 ^ width - 1) * 2 ^ lo))) ||| BitVec.ofNat 32 (v % 2 ^ width * 2 ^ lo)

/-- A word from (value, lowest bit, width) fields; every other bit is 0 (R194). -/
def packWord (fields : List (Nat × Nat × Nat)) : Word :=
  BitVec.ofNat 32 ((fields.map (fun f => f.1 % 2 ^ f.2.2 * 2 ^ f.2.1)).sum)

/-- A flag as a bit. -/
def bitOf (b : Bool) : Nat := if b then 1 else 0

/-- A signed 16-bit field (estimates in reports, section 11.3). -/
def signed16 (v : Int) : Nat := (v % 2 ^ 16).toNat

/-- A station address from its two words (formats chapter, opening paragraph); bits 31:16 of the second are ignored
(R195). -/
def macOfWords (lo hi : Word) : Mac := BitVec.ofNat 48 (lo.toNat + field hi 0 16 * 2 ^ 32)

/-- The first word of a station address: octets 1 to 4. -/
def macLow (m : Mac) : Word := BitVec.ofNat 32 m.toNat

/-- The second word of a station address: octets 5 and 6. -/
def macHigh (m : Mac) : Word := BitVec.ofNat 32 (m.toNat / 2 ^ 32)

/-- Rounded-up division. -/
def ceilDiv (a b : Nat) : Nat := (a + b - 1) / b

/-- Take a value into a range, the nearer end where it lies outside (R24, R186). -/
def clamp (lo hi v : Nat) : Nat := if v < lo then lo else if hi < v then hi else v

/-- The same for signed values. -/
def clampInt (lo hi v : Int) : Int := if v < lo then lo else if hi < v then hi else v

/-! ## CRC (R168) -/

/-- One of the eight steps of a byte: shift right, and combine with 0xEDB88320 when the bit shifted out was 1. -/
def crcStep (v : Word) : Word := if v.getLsbD 0 then (v >>> 1) ^^^ 0xEDB88320#32 else v >>> 1

/-- Take one byte into the value. -/
def crcByte (v : Word) (b : Byte) : Word :=
  crcStep (crcStep (crcStep (crcStep (crcStep (crcStep (crcStep (crcStep (v ^^^ b.setWidth 32))))))))

/-- Take bytes into the value in order. -/
def crcBytes (v : Word) (bs : List Byte) : Word := bs.foldl crcByte v

/-- The value at the start: all ones. -/
def crcInit : Word := 0xFFFFFFFF#32

/-- The CRC of the bytes so far: the complement of the value. -/
def crcOf (v : Word) : Word := ~~~v

/-! ## Elapsed time -/

/-- A program or erase in progress after `us` more microseconds (R159, R161): busy time stops from SUSPEND to RESUME. -/
def FlashOp.elapse (us : Nat) (o : FlashOp) : FlashOp :=
  let late := if o.timedOut then o.lateUs + us else o.lateUs
  match o.suspension with
  | .running => { o with busyUs := o.busyUs + us, runUs := o.runUs + us, lateUs := late }
  | .suspending _ => { o with suspendUs := o.suspendUs + us, lateUs := late }
  | .suspended => { o with lateUs := late }

/-- The flash port after `us` more microseconds. -/
def FlashPort.elapse (us : Nat) : FlashPort → FlashPort
  | .free => .free
  | .reading p l a n => .reading p l a n
  | .busy o => .busy (o.elapse us)

/-- `us` microseconds pass for every count that runs on REFCLK besides the ms counter: the hold of the transaction in hand
(R3), the counts of R159 and R161, and LOADING's wait for the flash (R186). -/
def State.elapse (us : Nat) (s : State) : State :=
  { s with
    ptu.inHand := s.ptu.inHand.map (fun h => { h with heldUs := h.heldUs + us })
    imu.port := s.imu.port.elapse us
    suc.loadUs := if s.suc.startUp = .loading ∧ s.suc.load = .status then s.suc.loadUs + us else s.suc.loadUs }

/-- One millisecond of the time base that is not a second boundary (R116); at sub-second count 999 the next millisecond is
the second boundary, which comes as the command SECOND_BOUNDARY (log 1). -/
def State.tick (s : State) : State :=
  if s.time.sub < 999 then
    { s.elapse 1000 with time := { s.time with ms := s.time.ms + 1, sub := s.time.sub + 1 } }
  else s

/-! ## The SRAM port's queue (R16) -/

/-- The requester path of an internal access (table of section 1.5): 0 report, 1 result, 2 status, 3 peer fetch. -/
def InternalKind.path : InternalKind → Nat
  | .reportBody => 0
  | .producerIndex => 0
  | .result => 1
  | .status => 2
  | .peerFetch => 3

/-- An access of this path that a node restart has overtaken still holds the port. -/
def State.pathBlocked (path : Nat) (s : State) : Bool :=
  match s.ptu.port with
  | .internal a abandoned => abandoned && a.kind.path == path
  | .free => false
  | .passThrough => false

/-- An internal access joins the arbiter's queue with wait count 0 (R16); while its path's previous access still holds the port
it waits behind that one, since a path issues its next access only when the previous one has completed (section 1.5). -/
def State.issue (a : InternalAccess) (s : State) : State :=
  { s with
    ptu.queue := if s.pathBlocked a.kind.path then s.ptu.queue else s.ptu.queue ++ [{ access := a, wait := 0 }]
    ptu.behind := if s.pathBlocked a.kind.path then some a else s.ptu.behind }

/-- The overtaken access is over: the access that waited behind it joins the queue (section 1.5, R16). -/
def State.joinBehind (s : State) : State :=
  { s with
    ptu.queue := s.ptu.queue ++ (s.ptu.behind.map (fun a => ({ access := a, wait := 0 } : Queued))).toList
    ptu.behind := none }

/-! ## Windows -/

/-- An address lies in a window: base to base + size − 1 (R6). -/
def Window.contains (w : Window) (a : Nat) : Bool := decide (w.base ≤ a) && decide (a < w.base + w.size)

/-- The window an address lies in; by R7 there is at most one (R8). -/
def State.windowAt (s : State) (a : Nat) : Option Window := s.ptu.windows.find? (fun w => w.contains a)

/-- The window of a kind that R7 allows exactly once. -/
def State.windowOf (s : State) (k : WindowKind) : Option Window := s.ptu.windows.find? (fun w => w.kind == k)

/-- Base of the CONTROL window. -/
def State.controlBase (s : State) : Nat :=
  match s.windowOf .control with
  | some w => w.base
  | none => 0

/-- Base of the REPORT window. -/
def State.reportBase (s : State) : Nat :=
  match s.windowOf .report with
  | some w => w.base
  | none => 0

/-- N, the number of slots of the report ring: the REPORT window's size divided by 32 (section 2.5). -/
def State.ringSize (s : State) : Nat :=
  match s.windowOf .report with
  | some w => w.size / 32
  | none => 0

/-- The ring proper of a ring window: its first descriptor count × 32 bytes (R6). -/
def Window.inRing (w : Window) (a : Nat) : Bool := w.contains a && decide (a < w.base + 32 * w.descCount)

/-! ## How a transaction ends, and moves on -/

/-- The transaction in hand ends: the master sees the reply, and the bus is free for the next (R2). -/
def State.endTxn (h : InHand) (e : Ending) (s : State) : State :=
  { s with ptu.inHand := none, ptu.reply := some { txn := h.txn, ending := e } }

/-- The transaction in hand moves to a phase. -/
def State.toPhase (h : InHand) (p : Phase) (s : State) : State :=
  { s with ptu.inHand := some { h with phase := p } }

end Sys2Proof.Machine
end

