-- ==== Sys2Proof/Machine/Operands.lean ====
section
/-! DEFINITION. How the operands of the commands are read: the bytes and words of a bus transaction, descriptors, peer
report buffers, the records of the control area, request arguments, the configuration block and selector entries
(sections 11.1, 11.2, 11.5). -/
namespace Sys2Proof.Machine

/-! ## Bus transactions (R1, section 1.1) -/

/-- The word a single access lies in. -/
def wordBase (a : Nat) : Nat := a / 4 * 4

/-- Keep the enabled bytes of a word; the others are 0. -/
def maskWord (w : Word) (en : BitVec 4) : Word :=
  wordOfBytes ((List.range 4).map (fun k => if en.getLsbD k then wordByte w k else 0))

end Sys2Proof.Machine

namespace Sys2Proof
open Machine

/-- The bytes a write stores, in ascending address order: the enabled bytes of a single access, or all bytes of a burst. -/
def Transaction.cells (t : Transaction) : List Host.Cell :=
  match t.dir with
  | .read => []
  | .write =>
    match t.form with
    | .single en =>
      let w := t.data.getD 0 0
      (List.range 4).filterMap (fun k =>
        if en.getLsbD k then some (wordBase t.addr + k, wordByte w k) else none)
    | .burst _ => cellsAt t.addr (bytesOfWords t.data)

/-- The words a write writes as full words, each with its address: a single access with all four byte enables, or each
word of a burst (R22). -/
def Transaction.fullWords (t : Transaction) : List (Nat × Word) :=
  match t.dir with
  | .read => []
  | .write =>
    match t.form with
    | .single en => if en = 0b1111#4 then [(wordBase t.addr, t.data.getD 0 0)] else []
    | .burst _ => (List.range t.data.length).zipWith (fun i w => (t.addr + 4 * i, w)) t.data

/-- The word a sub-word write touches, or none for a full-word write or a burst. -/
def Transaction.partWord (t : Transaction) : Option Nat :=
  match t.dir, t.form with
  | .write, .single en => if en = 0b1111#4 then none else some (wordBase t.addr)
  | _, _ => none

/-- The data of a read whose words are `word 0`, `word 1`, … from its word address on: a single access returns the
addressed bytes in their lanes, a burst all its words in ascending order (R1). -/
def Transaction.readData (t : Transaction) (word : Nat → Word) : List Word :=
  match t.form with
  | .single en => [maskWord (word 0) en]
  | .burst n => (List.range n).map word

/-- The bytes of a flash READ for a transaction: start offset within its window and length (R158: 1 to 32 bytes). -/
def Transaction.byteCount (t : Transaction) : Nat :=
  match t.form with
  | .single en => ((List.range 4).filter (fun k => en.getLsbD k)).length
  | .burst n => 4 * n

/-- The words returned for a read from the bytes of a flash READ that began at the transaction's own address. -/
def Transaction.dataOfBytes (t : Transaction) (bs : List Byte) : List Word :=
  match t.form with
  | .single _ => [wordOfBytes (List.replicate (t.addr % 4) 0 ++ bs)]
  | .burst n => wordsOfBytes n bs

end Sys2Proof

namespace Sys2Proof.Machine

/-- A word of SRAM. -/
def State.sramWord (s : State) (a : Nat) : Word := wordOfBytes (s.sramBytes a 4)

/-- The words of SRAM a read returns. -/
def State.sramRead (s : State) (t : Transaction) : List Word :=
  t.readData (fun i => s.sramWord (wordBase t.addr + 4 * i))

/-! ## TX descriptors (section 11.1) -/

/-- Application tag, w0 7:0. -/
def txTag (d : List Word) : Nat := field (d.getD 0 0) 0 8
/-- Class field, w0 10:8. -/
def txClass (d : List Word) : Nat := field (d.getD 0 0) 8 3
/-- Ready flag, w0 31. -/
def txReady (d : List Word) : Bool := bit (d.getD 0 0) 31
/-- Length, w1 13:0. -/
def txLength (d : List Word) : Nat := field (d.getD 1 0) 0 14
/-- Destination station address, w3 and w4 15:0. -/
def txDest (d : List Word) : Mac := macOfWords (d.getD 3 0) (d.getD 4 0)

/-- Class codes (section 5.1). -/
def Class.code : Class → Nat
  | .game => 1 | .voice => 2 | .stream => 3 | .bulk => 4 | .background => 5

/-- The valid class a code names, if any: 1..5. -/
def classOfCode : Nat → Option Class
  | 1 => some .game
  | 2 => some .voice
  | 3 => some .stream
  | 4 => some .bulk
  | 5 => some .background
  | _ => none

/-! ## RX descriptors (section 11.1) -/

/-- What a receive descriptor's kind code is handed on as (R54, R55): codes 0 and 7..15 as OTHER. -/
inductive RxKind where
  | data | probe | assoc | disassoc | peerReport | other
deriving DecidableEq, Repr

/-- The kind of word 0, bits 3:0. -/
def rxKind (w0 : Word) : RxKind :=
  match field w0 0 4 with
  | 1 => .data
  | 2 => .probe
  | 3 => .assoc
  | 4 => .disassoc
  | 5 => .peerReport
  | _ => .other

/-- Done flag, w0 31. -/
def rxDone (w0 : Word) : Bool := bit w0 31

/-- The signal of word 5 as it is handed on (R55): −128 is no measurement, 1..127 are handed as 0. -/
def rxSignal (w5 : Word) : Option Int :=
  let v := signed 8 (field w5 0 8)
  if v = -128 then none else if 0 < v then some 0 else some v

/-- Word 0 with DISCARD (code 7) in its kind field (R54). -/
def discardWord (w0 : Word) : Word := setField w0 0 4 7

/-! ## Peer report buffers (section 11.1) -/

/-- One entry of a peer report: station, estimate, association flag. -/
structure PeerEntry where
  addr  : Mac
  value : Int
  claim : Bool
deriving DecidableEq, Repr

/-- An entry from its 12 bytes. -/
def peerEntry (bs : List Byte) : PeerEntry :=
  let lo := wordOfBytes (bs.take 4)
  let mid := wordOfBytes ((bs.drop 4).take 4)
  { addr := macOfWords lo mid
    value := signed 16 (field mid 16 16)
    claim := bit (wordOfBytes (bs.drop 8)) 0 }

/-! ## Records of the control area (section 11.2) -/

/-- A word of the shadow at an offset of the control area. -/
def State.shadowWord (s : State) (o : Nat) : Word :=
  wordOfBytes [s.shadowByte o, s.shadowByte (o + 1), s.shadowByte (o + 2), s.shadowByte (o + 3)]

/-- `n` words of the shadow. -/
def State.shadowWords (s : State) (o n : Nat) : List Word :=
  (List.range n).map (fun i => s.shadowWord (o + 4 * i))

/-- The absorbed regions (section 2.1): offset and size. -/
def absorbedRegions : List (Nat × Nat) :=
  [(0x0000, 64), (0x0040, 4), (0x0080, 64), (0x0400, 256), (0x0800, 2048), (0x1000, 1024)]

/-- An offset lies in an absorbed region. -/
def absorbed (o : Nat) : Bool :=
  absorbedRegions.any (fun r => decide (r.1 ≤ o) && decide (o < r.1 + r.2))

/-- The bytes of a CONTROL write that the shadow copies, by offset (R21). -/
def shadowCells (base : Nat) (t : Transaction) : List Host.Cell :=
  (t.cells.map (fun c => (c.1 - base, c.2))).filter (fun c => absorbed c.1)

/-- The offsets of the words a CONTROL write writes as full words. -/
def fullWordOffsets (base : Nat) (t : Transaction) : List Nat :=
  t.fullWords.map (fun p => p.1 - base)

/-- The node policy record read and clamped field by field (R24; layout of section 11.2). -/
def policyOfWords (w : List Word) : Policy :=
  let g := fun i lo n => field (w.getD i 0) lo n
  let maintWindow := fun i => (clamp 0 10079 (g i 0 16), clamp 0 10079 (g i 16 16))
  { refRate := clamp 1 65535 (g 0 0 16)
    factor := clamp 0 4096 (g 0 16 16)
    threshold := clamp 1 255 (g 1 0 8)
    sustain := clamp 1 10 (g 1 8 8)
    linger := clamp 5 300 (g 1 16 16)
    deferLimit := clamp 1 64 (g 2 0 8)
    trigger := clampInt (-90) (-40) (signed 8 (g 2 8 8))
    margin := clamp 2 20 (g 2 16 8)
    gameMargin := clamp 2 30 (g 2 24 8)
    floor := clampInt (-95) (-50) (signed 8 (g 3 0 8))
    dwell := clamp 1 30 (g 3 8 8)
    gameDwell := clamp 1 60 (g 3 16 8)
    steerTimeout := clamp 2 60 (g 3 24 8)
    drainDeadline := clamp 10 600 (g 15 0 16)
    maintCount := clamp 0 4 (g 15 16 8)
    maintWindows := [maintWindow 4, maintWindow 5, maintWindow 6, maintWindow 7] }

/-- A profile record as written (layout of section 11.2); the target is the SCU's and is kept from `old`. -/
def profileOfWords (w : List Word) (old : Nat) : Profile :=
  let g := fun i lo n => field (w.getD i 0) lo n
  { ceiling := g 0 0 16
    defaultLevel := g 0 16 16
    slope := g 31 0 8
    count := g 31 8 8
    windows := (List.range 8).map (fun k =>
      { start := g (1 + 2 * k) 0 16, stop := g (1 + 2 * k) 16 16, level := g (2 + 2 * k) 0 16 })
    target := old }

/-- The check of R119: default level, slope code, window count, and the windows in use. -/
def profileInRange (p : Profile) : Bool :=
  decide (p.defaultLevel ≤ 4096) && decide (p.slope ≤ 7) && decide (p.count ≤ 8)
    && (p.windows.take p.count).all (fun w =>
      decide (w.start ≤ 10079) && decide (w.stop ≤ 10079) && decide (w.level ≤ 4096))

/-- A pin record as written (R77; layout of section 11.2); an invalid one is an empty entry. -/
def pinOfWords (w : List Word) : Option Pin :=
  if bit (w.getD 3 0) 0 then
    some { addr := macOfWords (w.getD 0 0) (w.getD 1 0)
           profile := field (w.getD 2 0) 0 4
           cls := classOfCode (field (w.getD 2 0) 8 3) }
  else none

/-- Argument word `i` of a request, read as an unsigned number. -/
def Request.arg (r : Request) (i : Nat) : Nat := (r.args.getD i 0).toNat

/-- The station address in w0 and w1 of a request. -/
def Request.station (r : Request) : Mac := macOfWords (r.args.getD 0 0) (r.args.getD 1 0)

/-! ## Flash records (section 11.5) -/

/-- Word `i` of bytes read from the flash. -/
def byteWord (bs : List Byte) (i : Nat) : Word := wordOfBytes ((bs.drop (4 * i)).take 4)

/-- Window kinds by code. -/
def windowKindOfCode : Nat → Option WindowKind
  | 1 => some .txRing
  | 2 => some .rxRing
  | 3 => some .control
  | 4 => some .report
  | 5 => some .boot
  | 6 => some .config
  | 7 => some .image
  | 8 => some .staging
  | _ => none

/-- Window map entry `e` of the configuration block: unused (`some none`), used, or with a kind code 9..15 that fails the
window rules (`none`). -/
def windowOfBlock (bs : List Byte) (e : Nat) : Option (Option Window) :=
  let w := fun i => byteWord bs (8 + 4 * e + i)
  let code := field (w 2) 0 4
  if code = 0 then some none
  else
    match windowKindOfCode code with
    | none => none
    | some k =>
      some (some
        { entry := e, base := (w 0).toNat, size := (w 1).toNat, kind := k
          readMask := BitVec.ofNat 16 (field (w 3) 0 16), writeMask := BitVec.ofNat 16 (field (w 3) 16 16)
          ringId := field (w 2) 8 3, ringMaster := field (w 2) 12 4, descCount := field (w 2) 16 16 })

/-- All 24 entries, or none when an entry's kind fails the window rules. -/
def windowsOfBlock (bs : List Byte) : Option (List Window) :=
  ((List.range 24).mapM (windowOfBlock bs)).map (fun l => l.filterMap id)

/-- A window of a lower-half kind (R7, Halves). -/
def WindowKind.lower : WindowKind → Bool
  | .txRing | .rxRing | .control | .report => true
  | .boot | .config | .image | .staging => false

/-- A ring window kind. -/
def WindowKind.ring : WindowKind → Bool
  | .txRing | .rxRing => true
  | .control | .report | .boot | .config | .image | .staging => false

/-- The halves, alignment, fixed sizes and ring rules of R7 for one window. -/
def windowValid (w : Window) : Bool :=
  decide (w.base % 4096 = 0) && decide (w.size % 4096 = 0) && decide (0 < w.size)
    && (if w.kind.lower then decide (w.base + w.size ≤ 0x8000000)
        else decide (0x8000000 ≤ w.base) && decide (w.base + w.size ≤ 0x10000000))
    && (match w.kind with
        | .control => decide (w.size = 16 * 1024)
        | .report => decide (4 * 1024 ≤ w.size) && decide (w.size ≤ 32 * 1024)
        | .boot => decide (w.size = 256 * 1024)
        | .config => decide (w.size = 64 * 1024)
        | .image => decide (w.size = 8192000)
        | .staging => decide (w.size = 8192000)
        | .txRing | .rxRing =>
          decide (16 ≤ w.descCount) && decide (w.descCount ≤ 4096) && decide (w.descCount * 32 ≤ w.size))
    && (if w.kind == .rxRing then decide (w.ringId ≤ 3) else true)

/-- Two windows share no address, and two rings of one kind share no id (R7, Overlap and Rings). -/
def windowsApart (v w : Window) : Bool :=
  (decide (v.base + v.size ≤ w.base) || decide (w.base + w.size ≤ v.base))
    && !(v.kind.ring && v.kind == w.kind && v.ringId == w.ringId)

/-- Every two windows of a map are apart. -/
def pairwiseApart : List Window → Bool
  | [] => true
  | w :: ws => ws.all (windowsApart w) && pairwiseApart ws

/-- How many windows of a kind a map has. -/
def countKind (ws : List Window) (k : WindowKind) : Nat := (ws.filter (fun w => w.kind == k)).length

/-- The window map is valid (R7). -/
def mapValid (ws : List Window) : Bool :=
  ([.control, .report, .boot, .config, .image, .staging] : List WindowKind).all (fun k => countKind ws k == 1)
    && decide (countKind ws .txRing ≤ 8) && decide (countKind ws .rxRing ≤ 4)
    && ws.all windowValid && pairwiseApart ws

/-- The built-in map (section 1.2): all masters, both directions, no ring windows. -/
def builtInMap : List Window :=
  let w := fun e k b n =>
    ({ entry := e, base := b, size := n, kind := k, readMask := 0xFFFF, writeMask := 0xFFFF, ringId := 0,
       ringMaster := 0, descCount := 0 } : Window)
  [w 0 .boot 0x8000000 (256 * 1024), w 1 .config 0x8040000 (64 * 1024), w 2 .image 0x8800000 8192000,
   w 3 .staging 0x9000000 8192000, w 4 .control 0x7FF0000 (16 * 1024), w 5 .report 0x7FF8000 (32 * 1024)]

/-- The bytes of a selector entry (section 11.5); w2 and reserved bits are 0 (R194). -/
def Entry.words (e : Entry) : List Word :=
  let w1 := packWord
    [((match e.slot with | .a => 1 | .b => 2), 0, 8),
     ((match e.boot with | .confirmed => 1 | .trial => 2), 8, 8),
     (e.attempts, 16, 3), (bitOf e.fallback, 24, 1)]
  [e.seq, w1, 0, ~~~(e.seq ^^^ w1 ^^^ 0)]

/-- The 16 bytes of a selector entry. -/
def Entry.bytes (e : Entry) : List Byte := bytesOfWords e.words

/-- An entry is erased when all its 16 bytes are 0xFF (R184). -/
def entryErased (bs : List Byte) : Bool := (bs.take 16).all (fun b => b == 0xFF#8)

/-- A valid entry read from its 16 bytes, or none (R184): check word right, slot and boot state named. -/
def entryOfBytes (bs : List Byte) : Option Entry :=
  let w := byteWord bs
  if w 3 = ~~~(w 0 ^^^ w 1 ^^^ w 2) then
    match field (w 1) 0 8, field (w 1) 8 8 with
    | 1, 1 => some { seq := w 0, slot := .a, boot := .confirmed, attempts := field (w 1) 16 3, fallback := bit (w 1) 24 }
    | 1, 2 => some { seq := w 0, slot := .a, boot := .trial, attempts := field (w 1) 16 3, fallback := bit (w 1) 24 }
    | 2, 1 => some { seq := w 0, slot := .b, boot := .confirmed, attempts := field (w 1) 16 3, fallback := bit (w 1) 24 }
    | 2, 2 => some { seq := w 0, slot := .b, boot := .trial, attempts := field (w 1) 16 3, fallback := bit (w 1) 24 }
    | _, _ => none
  else none

/-- A flash READ's bytes: what the array holds, with the device's own deviations (log 7). -/
def State.flashRead (s : State) (a n : Nat) (flips : List Byte) : List Byte :=
  (List.range n).map (fun i => s.flashByte (a + i) ^^^ flips.getD i 0)

/-- The length of the READ at flash address `a` when `left` bytes are still wanted: at most 32, within one aligned 32-byte
block (R158, R171). -/
def readLength (a left : Nat) : Nat := min (32 - a % 32) left

end Sys2Proof.Machine
end

