-- ==== Sys2Proof/Machine/Flags.lean ====
section
/-! DEFINITION. Every word the SL7 composes for software: the codes of its fields, report records (section 11.3), the result
word, the status block (section 11.2) and the staging words (section 11.4). Reserved bits are 0 (R194). -/
namespace Sys2Proof.Machine

/-! ## Codes -/

/-- Station states in reports (section 11.3). -/
def StationState.code : StationState → Nat
  | .idle => 1 | .expected => 2 | .associated => 3 | .steering => 4 | .away => 5

/-- Session states (section 11.2). -/
def SessionState.code : SessionState → Nat
  | .idle => 0 | .receiving => 1 | .closing => 2 | .verified => 3 | .failed => 4 | .armed => 5
  | .draining => 6 | .committing => 7 | .committed => 8

/-- IMAGE_STATE reasons (section 11.2). -/
def Reason.code : Reason → Nat
  | .none => 0 | .flashFault => 1 | .flashTimeout => 2 | .crcMismatch => 3 | .readbackMismatch => 4
  | .aborted => 5 | .cancelled => 6 | .drainComplete => 7 | .drainDeadline => 8

/-- Result codes (R28). -/
def ResultCode.code : ResultCode → Nat
  | .done => 1 | .badKind => 2 | .range => 3 | .state => 4 | .unknownStation => 5 | .tableFull => 6
  | .paused => 7

/-- STATION_FREED reasons. -/
def FreeReason.code : FreeReason → Nat
  | .idleTimeout => 1 | .expectedTimeout => 2 | .awayRelease => 3 | .evicted => 4 | .forgotten => 5

/-- LEVEL_EDGE edges. -/
def LevelEdge.code : LevelEdge → Nat
  | .windDown => 1 | .gated => 2 | .opened => 3

/-- GAME_EDGE causes. -/
def GameCause.code : GameCause → Nat
  | .detected => 1 | .imported => 2 | .lingerEnd => 3 | .freed => 4

/-- STEER causes. -/
def SteerCause.code : SteerCause → Nat
  | .evaluation => 1 | .drain => 2

/-- Window kinds. -/
def WindowKind.code : WindowKind → Nat
  | .txRing => 1 | .rxRing => 2 | .control => 3 | .report => 4 | .boot => 5 | .config => 6 | .image => 7
  | .staging => 8

/-- RECORD_REFUSED areas. -/
def RefusedArea.code : RefusedArea → Nat
  | .profile => 1 | .pin => 2

/-- RECORD_REFUSED reasons. -/
def RefusedReason.code : RefusedReason → Nat
  | .range => 1 | .duplicate => 2

/-- PEER_REPORT_IGNORED reasons. -/
def IgnoredReason.code : IgnoredReason → Nat
  | .address => 1 | .short => 2 | .queueFull => 3 | .format => 4 | .ownNode => 5 | .badNode => 6

/-- CONFIG_DEFAULTED reasons. -/
def DefaultedReason.code : DefaultedReason → Nat
  | .noFlash => 1 | .magic => 2 | .format => 3 | .length => 4 | .crc => 5 | .node => 6 | .port => 7
  | .windows => 8

/-- Slots in reports and the status block: 0 A, 1 B. -/
def Slot.code : Slot → Nat
  | .a => 0 | .b => 1

/-- Directions in PROTECT: 0 read, 1 write. -/
def dirCode : Dir → Nat
  | .read => 0 | .write => 1

/-- Pause forms of CONTEXT_EXPORT: 0 none, 1 indefinite, 2 timed. -/
def Pause.form : Pause → Nat
  | .none => 0 | .indefinite => 1 | .timed _ => 2

/-- Pause seconds of CONTEXT_EXPORT; 0 unless timed (R194). -/
def Pause.seconds : Pause → Nat
  | .timed n => n | .none => 0 | .indefinite => 0

/-! ## Report records (section 11.3) -/

/-- Kind code of a report, 1..16. -/
def ReportBody.kindCode : ReportBody → Nat
  | .stationLearned .. => 1 | .stationFreed .. => 2 | .levelEdge .. => 3 | .gameEdge .. => 4 | .steer .. => 5
  | .steerFailed .. => 6 | .stationAway .. => 7 | .stationBack .. => 8 | .contextExport .. => 9
  | .signalSummary .. => 10 | .imageState .. => 11 | .protect .. => 12 | .fallback .. => 13
  | .recordRefused .. => 14 | .peerReportIgnored .. => 15 | .configDefaulted .. => 16

/-- The station a report names, or address 0 for kinds naming none (R30). -/
def ReportBody.station : ReportBody → Mac
  | .stationLearned m .. | .stationFreed m .. | .levelEdge m .. | .gameEdge m .. | .steer m ..
  | .steerFailed m .. | .stationAway m .. | .stationBack m .. | .contextExport m ..
  | .signalSummary m .. => m
  | .imageState .. | .protect .. | .fallback .. | .recordRefused .. | .peerReportIgnored ..
  | .configDefaulted .. => 0

/-- Words w4 to w7 of a report. -/
def ReportBody.fields : ReportBody → List Word
  | .stationLearned _ st => [packWord [(st.code, 0, 8)], 0, 0, 0]
  | .stationFreed _ st r => [packWord [(st.code, 0, 8), (r.code, 8, 8)], 0, 0, 0]
  | .levelEdge _ e l t => [packWord [(e.code, 0, 8)], packWord [(l, 0, 16), (t, 16, 16)], 0, 0]
  | .gameEdge _ on c n => [packWord [(bitOf on, 0, 1), (c.code, 8, 8), (n, 16, 8)], 0, 0, 0]
  | .steer _ t c l e =>
    [packWord [(t, 0, 8), (c.code, 8, 8)], packWord [(signed16 l, 0, 16), (signed16 e, 16, 16)], 0, 0]
  | .steerFailed _ t f u b =>
    [packWord [(t, 0, 8), (f, 8, 8), (bitOf u, 16, 1)], packWord [(b, 0, 16)], 0, 0]
  | .stationAway _ n st => [packWord [(n, 0, 8), (st.code, 8, 8)], 0, 0, 0]
  | .stationBack _ n => [packWord [(n, 0, 8)], 0, 0, 0]
  | .contextExport _ p x l g li f =>
    [packWord [(p.form, 0, 2), (bitOf g, 4, 1), (f, 8, 3), (if g then li else 0, 16, 9)],
     packWord [(p.seconds, 0, 32)], packWord [(x, 0, 16), (l, 16, 16)], 0]
  | .signalSummary _ e h => [packWord [(signed16 e, 0, 16), (bitOf h, 16, 1)], 0, 0, 0]
  | .imageState st r p v => [packWord [(st.code, 0, 8), (r.code, 8, 8)], packWord [(p, 0, 32)], v, 0]
  | .protect e k m d a f =>
    [packWord [(e, 0, 5), (k.code, 8, 4), (m, 16, 4), (dirCode d, 24, 1)], packWord [(a, 0, 32)],
     packWord [(f, 0, 16)], 0]
  | .fallback s a f => [packWord [(s.code, 0, 1), (a, 8, 8), (bitOf f, 16, 1)], 0, 0, 0]
  | .recordRefused a i r => [packWord [(a.code, 0, 8), (i, 8, 8), (r.code, 16, 8)], 0, 0, 0]
  | .peerReportIgnored r => [packWord [(r.code, 0, 8)], 0, 0, 0]
  | .configDefaulted r => [packWord [(r.code, 0, 8)], 0, 0, 0]

/-- The eight words of a report record: header w0 to w3, then the kind's fields. -/
def Report.words (r : Report) : List Word :=
  let form := match r.stamp with | .wall _ _ => 0 | .counter _ => 1
  let time := match r.stamp with
    | .wall m sec => packWord [(sec, 0, 8), (m, 16, 16)]
    | .counter ms => ms
  [packWord [(r.body.kindCode, 0, 8), (form, 8, 1), (bitOf r.gap, 9, 1)], time,
   macLow r.body.station, macHigh r.body.station] ++ r.body.fields

/-! ## Result word (R28) -/

/-- The result word: kind echo (the low eight bits of w15), result code, detail. -/
def resultWord (kind : Word) (c : ResultCode) (detail : Nat) : Word :=
  packWord [(kind.toNat, 0, 8), (c.code, 8, 8), (detail, 16, 16)]

/-! ## Status block (R35; layout of section 11.2) -/

/-- How many records are in a state. -/
def State.countState (s : State) (st : StationState) : Nat :=
  (s.stu.stations.filter (fun r => r.state == st)).length

/-- The 32 words of the status block as the units hold their values now; the refresh count stands in w0 and w31. -/
def State.statusWords (s : State) : List Word :=
  [s.cau.refreshCount,
   s.time.ms,
   packWord [(s.time.minute, 0, 16), (s.time.second, 16, 8), (bitOf s.time.valid, 24, 1)],
   packWord [(128 - s.stu.stations.length, 0, 8), (s.countState .idle, 8, 8), (s.countState .expected, 16, 8),
     (s.countState .associated, 24, 8)],
   packWord [(s.countState .steering, 0, 8), (s.countState .away, 8, 8), (s.cgu.count, 16, 8),
     (bitOf s.cgu.contention, 24, 1), (bitOf s.scu.maintOpen, 25, 1)],
   s.diu.txLate,
   s.diu.rxLate,
   packWord [(s.cau.consumer, 0, 10), (s.cau.pending.length, 16, 5)],
   packWord [(s.imu.session.state.code, 0, 8), (s.imu.lastFail.code, 8, 8)],
   packWord [(s.ptu.mapping.code, 0, 1), ((match s.suc.boot with | .confirmed => 0 | .trial => 1), 1, 1),
     (bitOf s.suc.defaulted, 2, 1), (bitOf s.suc.flashFault, 3, 1),
     ((match s.suc.boot with | .confirmed => 0 | .trial => s.suc.trialLeft), 16, 16)]]
  ++ List.replicate 21 0 ++ [s.cau.refreshCount]

/-- The block's four writes of 32 bytes, in ascending address order, each with its offset in the block. -/
def State.statusWrites (s : State) : List (Nat × List Byte) :=
  let w := s.statusWords
  [(0, bytesOfWords (w.take 8)), (32, bytesOfWords ((w.drop 8).take 8)),
   (64, bytesOfWords ((w.drop 16).take 8)), (96, bytesOfWords (w.drop 24))]

/-! ## Staging words (R169, section 11.4) -/

/-- Page buffers held: the one being filled and those in the program queue (R167). -/
def Session.held (n : Session) : Nat := n.queue.length + (if n.current.isEmpty then 0 else 1)

/-- Free page buffers: 8 less those held. -/
def Session.freeBuffers (n : Session) : Nat := 8 - n.held

/-- The progress word; bit 10 is reserved. -/
def State.progressWord (s : State) : Word :=
  let n := s.imu.session
  packWord [(n.state.code, 0, 4), (bitOf s.imu.toggle, 4, 1), (bitOf n.refused, 5, 1),
    (n.freeBuffers, 6, 4), (n.nextWord, 11, 21)]

/-- The detail word. -/
def State.detailWord (s : State) : Word :=
  let n := s.imu.session
  packWord [(n.pages, 0, 16), (n.sectors, 16, 8), (s.imu.lastFail.code, 24, 8)]

end Sys2Proof.Machine
end

