-- ==== Sys2Proof/Machine/Reports.lean ====
section
/-! DEFINITION. Raising reports and driving the report ring, the status refresh and PROTECT events (R10, R11, R30, R31,
R33, R34, R35, R36): the CAU's side that every other unit uses. -/
namespace Sys2Proof.Machine

/-- The stamp of a report raised now (R30). -/
def State.stamp (s : State) : Stamp :=
  if s.time.valid then .wall s.time.minute s.time.second else .counter s.time.ms

/-- ATTN is asserted while the published producer index differs from the consumer index (R33). -/
def State.driveAttn (s : State) : State :=
  { s with lines.attn := s.cau.published != s.cau.consumer }

/-- The ring has room (R31). -/
def State.ringRoom (s : State) : Bool := (s.cau.writeIdx + 1) % s.ringSize != s.cau.consumer

/-- Start the body write of the record at the head of the queue, where the report path is idle and the ring has room
(R31). -/
def State.pumpReports (s : State) : State :=
  match s.cau.path, s.cau.pending with
  | .idle, r :: _ =>
    if s.ringRoom then
      { s with cau.path := .body }.issue
        { kind := .reportBody, addr := s.reportBase + 32 * s.cau.writeIdx, data := bytesOfWords r.words, len := 0 }
    else s
  | _, _ => s

/-- A raised record joins the pending queue, or is lost with the gap flag set (R30). -/
def State.joinQueue (b : ReportBody) (s : State) : State :=
  if s.cau.pending.length < 16 then
    { s with
      cau.pending := s.cau.pending ++ [{ stamp := s.stamp, gap := s.cau.gap, body := b }]
      cau.gap := false }
  else { s with cau.gap := true }

/-- Raise a report (R30), and let the report path take it up (R31). -/
def State.raise (b : ReportBody) (s : State) : State := (s.joinQueue b).pumpReports

/-- Raise the reports of one unit in their order (R30). -/
def State.raiseAll (bs : List ReportBody) (s : State) : State := bs.foldl (fun s b => s.raise b) s

/-- Some interleaving of two lists that keeps each list's order; each choice is a free value (R30; log 4). -/
def mergeFree : Nat → Nat → List ReportBody → List ReportBody → List ReportBody × Nat
  | 0, i, xs, ys => (xs ++ ys, i)
  | _ + 1, i, [], ys => (ys, i)
  | _ + 1, i, x :: xs, [] => (x :: xs, i)
  | n + 1, i, x :: xs, y :: ys =>
    if Config.freeOrder i then
      let r := mergeFree n (i + 1) xs (y :: ys)
      (x :: r.1, r.2)
    else
      let r := mergeFree n (i + 1) (x :: xs) ys
      (y :: r.1, r.2)

/-- Merge the lists of several units. -/
def mergeUnits (i : Nat) : List (List ReportBody) → List ReportBody × Nat
  | [] => ([], i)
  | g :: gs =>
    let r := mergeUnits i gs
    mergeFree (g.length + r.1.length) r.2 g r.1

/-- Raise the reports that several units raise at the same moment: each unit's in its own order, different units' in
either order (R30). One list for each unit. -/
def State.raiseTogether (groups : List (List ReportBody)) (s : State) : State :=
  let r := mergeUnits s.freeIdx groups
  { s with freeIdx := r.2 }.raiseAll r.1

/-- The report ring begins: all three indices 0, gap clear, and first the value 0 written into the producer index word
(R34). -/
def State.beginRing (s : State) : State :=
  { s with
    cau.writeIdx := 0, cau.published := 0, cau.consumer := 0, cau.gap := false, cau.path := .zeroing
    lines.attn := false }.issue
      { kind := .producerIndex, addr := s.controlBase + 0x2080, data := bytesOfWord 0, len := 0 }

/-- Issue the next status write when none of them is out (section 1.5: one access of a path at a time). -/
def State.pumpStatus (s : State) : State :=
  if s.cau.statusOut then s
  else
    match s.cau.statusLeft with
    | [] => s
    | (o, bs) :: rest =>
      { s with cau.statusLeft := rest, cau.statusOut := true }.issue
        { kind := .status, addr := s.controlBase + 0x2000 + o, data := bs, len := 0 }

/-- A status write waits behind an access of its path that a restart has overtaken: it has not joined the arbiter's queue, so it
is not issued yet (section 1.5). -/
def State.statusParked (s : State) : Bool :=
  match s.ptu.behind with
  | some a => a.kind.path == InternalKind.status.path
  | none => false

/-- A status write that is not issued yet is given up, for the writes of the refresh that replaces it (R36). -/
def State.dropParked (s : State) : State :=
  if s.statusParked then { s with ptu.behind := none, cau.statusOut := false } else s

/-- A refresh of the status block (R35): count one up, values gathered now; a refresh with writes not yet issued is replaced, but
for the one that has joined the arbiter's queue (R36). -/
def State.refreshStatus (s : State) : State :=
  let s1 := State.dropParked { s with cau.refreshCount := s.cau.refreshCount + 1 }
  { s1 with cau.statusLeft := s1.statusWrites }.pumpStatus

/-- A PROTECT event (R10) under the rate limit of R11. -/
def State.protectEvent (w : Window) (t : Transaction) (s : State) : State :=
  if s.ptu.quiet then
    { s with ptu.further := if s.ptu.further < 65535 then s.ptu.further + 1 else 65535 }
  else
    { s with ptu.further := 0, ptu.quiet := true }.raise
      (.protect w.entry w.kind t.master.val t.dir t.addr s.ptu.further)

end Sys2Proof.Machine
end

