-- ==== Sys2Proof/Machine/Allowance.lean ====
section
/-! DEFINITION. The Allowance Unit (chapter 6): admitted rate, capacity, settlement, reserves, the test and charge, and
contention sweeps; and the meaning of SWEEP_VISIT. -/
namespace Sys2Proof.Machine

/-- A profile of the SCU by its index. -/
def State.profileOf (s : State) (i : Nat) : Profile := s.scu.profiles.getD i Profile.powerOn

/-- Working ceiling in KiB/s: the profile's, or the reference rate where that is 0 (R100). -/
def State.workingCeiling (s : State) (profile : Nat) : Nat :=
  let c := (s.profileOf profile).ceiling
  if c = 0 then s.policy.refRate else c

/-- Base in sixteenths (R100): ceiling × 16,384 ÷ 1,000, rounded down. -/
def baseOf (ceiling : Nat) : Nat := ceiling * 16384 / 1000

/-- The contention multiplier K of a record (R101). -/
def State.multiplier (s : State) (gameActive : Bool) : Nat :=
  if s.cgu.contention ∧ gameActive = false then s.policy.factor else 4096

/-- The admitted rate in sixteenths (R102). -/
def rateOf (level base k : Nat) : Nat :=
  if level = 0 then 0
  else
    let second := base * level / 4096 * k / 4096
    if second = 0 then 1 else second

/-- The capacity in bytes (R103). -/
def capacityOf (rate : Nat) : Nat := clamp 3072 1048576 (4 * rate)

/-- The upper token bound in sixteenths; the lower is its negative (R103). -/
def tokenBound (cap : Nat) : Int := 16 * cap

/-- The admitted rate a record's inputs give now (R102). -/
def State.rateFor (s : State) (r : Station) : Nat :=
  rateOf r.level (baseOf (s.workingCeiling r.profile)) (s.multiplier r.gameActive)

/-- Settle a record at a value of the ms counter (R104). -/
def settle (now : BitVec 32) (r : Station) : Station :=
  let elapsed := min 1024 (now - r.settled).toNat
  let t := r.tokens + (elapsed * r.rate : Nat)
  { r with tokens := if tokenBound r.cap < t then tokenBound r.cap else t, settled := now }

/-- Recompute rate and capacity from the inputs as they stand, cut the tokens into the new bounds and clear the sweep mark
(R108). -/
def State.recompute (s : State) (r : Station) : Station :=
  let rate := s.rateFor r
  let cap := capacityOf rate
  { r with rate := rate, cap := cap, mark := false
           tokens := clampInt (-(tokenBound cap)) (tokenBound cap) r.tokens }

/-- A change of a rate input handed to the AU: settle at the old rate, recompute, cut (R108). -/
def State.rateChange (s : State) (r : Station) : Station := s.recompute (settle s.time.ms r)

/-- The AU fields of a new record (R112): rate of its inputs, full tokens, settled now, mark clear. -/
def State.startAllowance (s : State) (r : Station) : Station :=
  let rate := s.rateFor r
  let cap := capacityOf rate
  { r with rate := rate, cap := cap, mark := false, tokens := tokenBound cap, settled := s.time.ms }

/-- The reserve of a class in sixteenths (R105). -/
def reserveOf (c : Class) (cap : Nat) : Int :=
  match c with
  | .game | .voice => -(8 * cap)
  | .stream => 0
  | .bulk => 4 * cap
  | .background => 8 * cap

/-- The charge for a frame of a length in bytes (R106). -/
def chargeOf (length : Nat) : Int := 16 * (min length 9216 : Nat)

/-- Make a charge, down to the lower bound (R106). -/
def charge (length : Nat) (r : Station) : Station :=
  let t := r.tokens - chargeOf length
  { r with tokens := if t < -(tokenBound r.cap) then -(tokenBound r.cap) else t }

/-- The token test of R107 on a record: settle, compare with the class reserve, charge on a pass. The answer and the
record after. -/
def tokenTest (now : BitVec 32) (c : Class) (length : Nat) (r : Station) : Bool × Station :=
  let r1 := settle now r
  if reserveOf c r1.cap ≤ r1.tokens then (true, charge length r1) else (false, r1)

/-- Every record's sweep mark is set (R110). -/
def State.markAll (s : State) : State :=
  { s with stu.stations := s.stu.stations.map (fun r => { r with mark := true }) }

/-- The record in a slot (records are kept in ascending slot order). -/
def State.recordAt (s : State) (slot : Nat) : Option Station := s.stu.stations.find? (fun r => r.slot == slot)

/-- The record of an address, or none (R64). -/
def State.recordOf (s : State) (m : Mac) : Option Station := s.stu.stations.find? (fun r => r.addr == m)

/-- Put a record back into its slot. -/
def State.putRecord (r : Station) (s : State) : State :=
  { s with stu.stations := s.stu.stations.map (fun q => if q.slot = r.slot then r else q) }

/-- SWEEP_VISIT (R110): the marked record in the lowest-numbered slot is settled, recomputed, cut and unmarked; with no
record marked there is no visit. -/
def execSweepVisit (s : State) : Host.Outcome State Fault Refusal :=
  match s.stu.stations.find? (fun r => r.mark) with
  | some r => .next (s.putRecord (s.rateChange r))
  | none => .next s

end Sys2Proof.Machine
end

