-- ==== Sys2Proof/Machine/Games.lean ====
section
/-! DEFINITION. The Class and Game Unit (chapter 5): class resolution, game detection at a second boundary, the node
game-active count and contention; and the meaning of GAME_LINGER_END. -/
namespace Sys2Proof.Machine

/-- The class map's entry for an application tag (R86). -/
def State.mapClass (s : State) (tag : Nat) : Class := s.cgu.classMap.getD tag .bulk

/-- Class resolution (R85): pinned class, else the descriptor's valid class, else the class map. -/
def State.resolveClass (s : State) (pinned : Option Class) (code tag : Nat) : Class :=
  match pinned with
  | some c => c
  | none =>
    match classOfCode code with
    | some c => c
    | none => s.mapClass tag

/-- What the CGU stores for a byte handed for a class map entry (R86). -/
def classOfByte (b : Byte) : Class := (classOfCode b.toNat).getD .bulk

/-- Take class map entries, (entry number, byte), all at one event (R87). -/
def State.storeClasses (entries : List Host.Cell) (s : State) : State :=
  { s with cgu.classMap := entries.foldl (fun m e => m.set e.1 (classOfByte e.2)) s.cgu.classMap }

/-- A GAME PASS of a recorded station (R88). -/
def countGame (r : Station) : Station :=
  { r with gameCount := if r.gameCount < 255 then r.gameCount + 1 else 255 }

/-- The number of records whose game-active flag is set. -/
def flagged (rs : List Station) : Nat := (rs.filter (fun r => r.gameActive)).length

/-- The node game-active count moves; where it crosses 0 contention changes, and the AU marks every record (R93, R94,
R110). -/
def State.setGameCount (n : Nat) (s : State) : State :=
  let s1 := { s with cgu.count := n }
  if s.cgu.contention = decide (0 < n) then s1
  else { s1 with cgu.contention := decide (0 < n) }.markAll

/-- One record's evaluation at a second boundary (R89, R90), before the AU is told: the record after, and its edge. -/
def gameEvaluate (p : Policy) (r : Station) : Station × Option (Bool × GameCause) :=
  if p.threshold ≤ r.gameCount then
    let sus := min p.sustain (r.sustain + 1)
    if r.gameActive then ({ r with sustain := sus, gameCount := 0, linger := p.linger }, none)
    else if sus = p.sustain then
      ({ r with sustain := sus, gameCount := 0, gameActive := true, linger := p.linger }, some (true, .detected))
    else ({ r with sustain := sus, gameCount := 0 }, none)
  else
    if r.gameActive then
      if r.linger ≤ 1 then
        ({ r with sustain := 0, gameCount := 0, linger := 0, gameActive := false }, some (false, .lingerEnd))
      else ({ r with sustain := 0, gameCount := 0, linger := r.linger - 1 }, none)
    else ({ r with sustain := 0, gameCount := 0 }, none)

/-- The same with the record's flag change handed to the AU at the event (R94). -/
def State.gameStep (s : State) (r : Station) : Station :=
  let e := gameEvaluate s.policy r
  match e.2 with
  | some _ => s.rateChange e.1
  | none => e.1

/-- The GAME_EDGE of a record's evaluation, carrying the count after the whole event (R91, R92). -/
def gameEdge (p : Policy) (count : Nat) (r : Station) : List ReportBody :=
  match (gameEvaluate p r).2 with
  | some (on, cause) => [.gameEdge r.addr on cause count]
  | none => []

/-- The CGU's event at a second boundary (R91): every record evaluated, the count moved once, contention judged once, the
edges raised in ascending slot order. -/
def State.gameBoundary (s : State) : State :=
  let after := s.stu.stations.map s.gameStep
  let n := flagged after
  let edges := s.stu.stations.flatMap (gameEdge s.policy n)
  ({ s with stu.stations := after }.setGameCount n).raiseAll edges

/-- GAME_LINGER_END (R90): the last second of a game-active record's linger runs out in a second that did not qualify; its
flag is cleared, the count moves, and GAME_EDGE OFF LINGER_END is raised. Due only for such a record (log 10). -/
def execGameLingerEnd (slot : Nat) (s : State) : Host.Outcome State Fault Refusal :=
  match s.recordAt slot with
  | some r =>
    if r.gameActive ∧ r.linger ≤ 1 ∧ r.gameCount < s.policy.threshold then
      let s1 := s.putRecord (s.gameStep r)
      let n := flagged s1.stu.stations
      .next ((s1.setGameCount n).raiseAll (gameEdge s.policy n r))
    else .next s
  | none => .next s

end Sys2Proof.Machine
end

