-- ==== Sys2Proof/Machine/Requests.lean ====
section
/-! DEFINITION. The request slot and the absorption of control-area writes (sections 2.1 and 2.4): what a CONTROL write in
hand is for, the copy into the shadow, the taking of a request and its answer. -/
namespace Sys2Proof.Machine

/-- What a permitted CONTROL write brings about (table of section 2.1, R22, R23). -/
inductive ControlUse where
  | plain | consumerIndex | classMap | policy | profile | pin | request
deriving DecidableEq, Repr

/-- Offset of the closing word of a profile: w31 of one of the sixteen. -/
def isProfileClosing (o : Nat) : Bool :=
  decide (0x0800 ≤ o) && decide (o < 0x1000) && decide ((o - 0x0800) % 128 = 124)

/-- Offset of the closing word of a pin: w3 of one of the sixty-four. -/
def isPinClosing (o : Nat) : Bool :=
  decide (0x1000 ≤ o) && decide (o < 0x1400) && decide ((o - 0x1000) % 16 = 12)

/-- Offset inside the consumer index word. -/
def isConsumerByte (o : Nat) : Bool := decide (0x0040 ≤ o) && decide (o < 0x0044)

/-- Offset inside the class map. -/
def isClassByte (o : Nat) : Bool := decide (0x0400 ≤ o) && decide (o < 0x0500)

/-- What a write is for. A write lies in one aligned 32-byte block, which holds words of one region only. -/
def controlUse (base : Nat) (t : Transaction) : ControlUse :=
  let full := fullWordOffsets base t
  let bytes := shadowCells base t
  if full.contains 0x003C then .request
  else if full.contains 0x00BC then .policy
  else if full.any isProfileClosing then .profile
  else if full.any isPinClosing then .pin
  else if bytes.any (fun c => isConsumerByte c.1) then .consumerIndex
  else if bytes.any (fun c => isClassByte c.1) then .classMap
  else .plain

/-- The transaction in hand, when it has been handed to the owner of a window of this kind in this direction. -/
def State.routedTo (s : State) (k : WindowKind) (d : Dir) : Option (InHand × Window) :=
  match s.ptu.inHand with
  | some h =>
    match h.window with
    | some w => if h.phase = .routed ∧ w.kind = k ∧ h.txn.dir = d then some (h, w) else none
    | none => none
  | none => none

/-- The CONTROL write in hand, when it is for this use. -/
def State.controlFor (s : State) (u : ControlUse) : Option (InHand × Window) :=
  match s.routedTo .control .write with
  | some (h, w) => if controlUse w.base h.txn = u then some (h, w) else none
  | none => none

/-- A CONTROL write's bytes are copied into the shadow, and the write waits for the SRAM port (R21, R17). -/
def State.absorb (h : InHand) (w : Window) (s : State) : State :=
  (s.storeShadow (shadowCells w.base h.txn)).toPhase h (.sramWait .plain)

/-- The request is taken from the shadow: w0 to w13 its arguments, w15 its kind, the slot PENDING (R27). -/
def State.takeRequest (s : State) : State :=
  { s with cau.slot := .pending, cau.request := some { kind := s.shadowWord 0x3C, args := s.shadowWords 0 14 } }

/-- Take up a closing write of the request slot in hand while the slot is FREE (R27). -/
def State.takeClosing (s : State) : State :=
  match s.controlFor .request with
  | some (h, w) => if s.cau.slot = .free then (s.absorb h w).takeRequest else s
  | none => s

/-- The answer to the request in hand: the CAU issues the result write to w14 (R28). The slot stays PENDING until that
write completes. Every owner raises its reports before it answers, so with both paths idle a report's body joins the arbiter's
queue before the result word; R16 and R28 leave open which does (DESIGN CHOICE, log 37). -/
def State.answer (r : Request) (c : ResultCode) (detail : Nat) (s : State) : State :=
  { s with cau.request := none }.issue
    { kind := .result, addr := s.controlBase + 0x38, data := bytesOfWord (resultWord r.kind c detail), len := 0 }

/-- A request row: the closing write in hand is taken where it still must be, and the request is handed to its owner when
its kind is the row's; otherwise there is nothing to do (log 10). -/
def State.onRequest (accepts : Word → Bool) (owner : Request → State → State) (s : State) : State :=
  let s1 := s.takeClosing
  match s1.cau.request with
  | some r => if accepts r.kind then owner r s1 else s
  | none => s

/-- BAD_KIND_REQUEST (R27): any w15 value that names no request kind is answered by the CAU with BAD_KIND, detail 0. -/
def execBadKindRequest (s : State) : Host.Outcome State Fault Refusal :=
  .next (s.onRequest (fun k => decide (k.toNat < 1) || decide (12 < k.toNat)) (fun r s => s.answer r .badKind 0))

/-- REQUEST_CLOSING_HELD (R29): a full-word write to w15, alone or in a burst, is held while the slot is PENDING. -/
def execRequestClosingHeld (s : State) : Host.Outcome State Fault Refusal :=
  match s.controlFor .request with
  | some (h, _) => if s.cau.slot = .pending then .next (s.toPhase h .requestHeld) else .next s
  | none => .next s

/-- REQUEST_HOLD_EXPIRY (R29): the held write ends with ERR; nothing of it is taken and the slot stays as it is. -/
def execRequestHoldExpiry (s : State) : Host.Outcome State Fault Refusal :=
  match s.ptu.inHand with
  | some h => if h.phase = .requestHeld then .next (s.endTxn h .err) else .next s
  | none => .next s

end Sys2Proof.Machine
end

