-- ==== Sys2Proof/Machine/Schedule.lean ====
section
/-! DEFINITION. The Schedule Unit (chapter 7): windows, profile and station targets, the level ramp, overrides, level edges,
maintenance windows, its event at a second boundary; and the meanings of SET_TIME, PAUSE_STATION, RESUME_STATION,
EXTEND_STATION, PROFILE_RECORD, PAUSE_EXPIRY and EXTENSION_EXPIRY. -/
namespace Sys2Proof.Machine

/-! ## Targets -/

/-- A window contains a minute (R120). -/
def minuteIn (start stop m : Nat) : Bool :=
  if start < stop then decide (start ≤ m) && decide (m < stop)
  else if stop < start then decide (start ≤ m) || decide (m < stop)
  else false

/-- The lowest of some levels, or the default when there are none. -/
def lowestOr (default : Nat) : List Nat → Nat
  | [] => default
  | l :: ls => ls.foldl min l

/-- A profile's target at a time (R121). -/
def targetAt (t : TimeBase) (p : Profile) : Nat :=
  if t.valid then
    lowestOr p.defaultLevel
      (((p.windows.take p.count).filter (fun w => minuteIn w.start w.stop t.minute)).map (fun w => w.level))
  else p.defaultLevel

/-- Every profile's target is re-evaluated (R121). -/
def State.retargetProfiles (s : State) : State :=
  { s with scu.profiles := s.scu.profiles.map (fun p => { p with target := targetAt s.time p }) }

/-- The maintenance-open flag is evaluated (R132). -/
def State.evaluateMaintenance (s : State) : State :=
  { s with
    scu.maintOpen := s.time.valid
      && (s.policy.maintWindows.take s.policy.maintCount).any (fun w => minuteIn w.1 w.2 s.time.minute) }

/-- A pause is in force: indefinite, or 1 or more seconds (R122). -/
def Pause.inForce : Pause → Bool
  | .none => false
  | .indefinite => true
  | .timed n => decide (0 < n)

/-- A record's station target (R122). -/
def State.stationTarget (s : State) (r : Station) : Nat :=
  if r.pause.inForce then 0
  else if 0 < r.ext then 4096
  else (s.profileOf r.profile).target

/-- The slope code of a record's profile. -/
def State.slopeOf (s : State) (r : Station) : Nat := (s.profileOf r.profile).slope

/-! ## Levels -/

/-- Where a level moves at the event at which its target is recomputed (R123). -/
def moveLevel (slope : Nat) (paused : Bool) (target level : Nat) : Nat :=
  if level ≤ target then target
  else if paused ∨ slope = 0 then target
  else level

/-- The step of a slope code (table of R124); code 0 has none, its falls being immediate. -/
def slopeStep : Nat → Nat
  | 1 => 69
  | 2 => 35
  | 3 => 14
  | 4 => 7
  | 5 => 5
  | 6 => 3
  | 7 => 2
  | _ => 4096

/-- One ramp step (R124): a level above its target falls by the slope's step, not below the target. -/
def rampLevel (slope target level : Nat) : Nat :=
  if target < level then max target (level - slopeStep slope) else level

/-- The edge of an event that takes a level from `l0` under target `t0` to `l1` under target `t1` (R125). -/
def levelEdges (m : Mac) (t0 l0 t1 l1 : Nat) : List ReportBody :=
  if 0 < l0 ∧ l1 = 0 then [.levelEdge m .gated l1 t1]
  else if l0 = 0 ∧ 0 < l1 then [.levelEdge m .opened l1 t1]
  else if t1 < l1 ∧ l0 = t0 then [.levelEdge m .windDown l1 t1]
  else []

/-- A record `r`, with its new overrides and profile, meets its new station target in `s`; `t0` is the target before the
event. The AU is handed a change of the level, and where `handed` says so a change of another rate input (R108, R123). -/
def State.moveRecord (s : State) (t0 : Nat) (handed : Bool) (r : Station) : Station × List ReportBody :=
  let t := s.stationTarget r
  let l := moveLevel (s.slopeOf r) r.pause.inForce t r.level
  let r1 := { r with level := l }
  (if handed ∨ l ≠ r.level then s.rateChange r1 else r1, levelEdges r.addr t0 r.level t l)

/-- A record's overrides change from `r` to `r1` at one event (R127 to R130). -/
def State.override (r r1 : Station) (s : State) : State :=
  let m := s.moveRecord (s.stationTarget r) false r1
  (s.putRecord m.1).raiseAll m.2

/-- Every record for which `concerned` holds meets its target in `s1`, where `s` is the state before the event; the edges
are raised in ascending slot order (R125). -/
def State.moveRecords (s s1 : State) (concerned handed : Station → Bool) : State :=
  let moved := s.stu.stations.map (fun r =>
    if concerned r then s1.moveRecord (s.stationTarget r) (handed r) r else (r, []))
  State.raiseAll (moved.flatMap Prod.snd) { s1 with stu.stations := moved.map Prod.fst }

/-! ## The second boundary (R126) -/

/-- The wall clock one second on, and whether the boundary is a minute boundary (R116). -/
def advanceClock (t : TimeBase) : TimeBase × Bool :=
  if t.valid then
    if 59 ≤ t.second then
      ({ t with second := 0, minute := if 10079 ≤ t.minute then 0 else t.minute + 1 }, true)
    else ({ t with second := t.second + 1 }, false)
  else (t, false)

/-- A pause one second on (R127). -/
def Pause.count : Pause → Pause
  | .none => .none
  | .indefinite => .indefinite
  | .timed n => if n ≤ 1 then .none else .timed (n - 1)

/-- A timed pause or an extension ends at this boundary (R127). -/
def overrideEnds (r : Station) : Bool :=
  (match r.pause with
   | .timed n => decide (n ≤ 1)
   | .none => false
   | .indefinite => false) || decide (r.ext = 1)

/-- One record's part of the SCU's event (R126): the ramp step, the countdowns, and the new target where an override ended
or the profile's target changed (`s` before the event, `s1` with the new clock and targets). The record after, the GATED
of the ramp step, the edges of step 5. Left open and settled here: a level that step 5 raises back to exactly what it was
before the ramp step has not changed in the one event, and the AU is handed nothing (DEDUCED, log 38); the GATED of step 1
carries the level 0 and the target of that step, the one before the boundary (DEDUCED, log 41). -/
def State.scuRecord (s s1 : State) (r : Station) : Station × List ReportBody × List ReportBody :=
  let t0 := s.stationTarget r
  let l := rampLevel (s.slopeOf r) t0 r.level
  let gated := if 0 < r.level ∧ l = 0 then [ReportBody.levelEdge r.addr .gated 0 t0] else []
  let r1 := { r with level := l, pause := r.pause.count, ext := r.ext - 1 }
  let t1 := s1.stationTarget r1
  let meets := overrideEnds r || (s.profileOf r.profile).target != (s1.profileOf r.profile).target
  let l1 := if meets then moveLevel (s1.slopeOf r1) r1.pause.inForce t1 l else l
  let r2 := { r1 with level := l1 }
  (if l1 ≠ r.level then s1.rateChange r2 else r2, gated, if meets then levelEdges r.addr t0 l t1 l1 else [])

/-- The SCU's event at a second boundary, in the five steps of R126. Left open and settled here: every report of the event is
stamped with the clock as step 3 leaves it, the GATED of step 1 too (R116; DESIGN CHOICE, log 40); and the GATED reports of
step 1 come before the edges of step 5, each step's in ascending slot order (R125; DEDUCED, log 42). -/
def State.scheduleBoundary (s : State) : State :=
  let c := advanceClock s.time
  let s0 := { s with time := c.1 }
  let s1 := if c.2 then s0.retargetProfiles.evaluateMaintenance else s0
  let done := s.stu.stations.map (s.scuRecord s1)
  let s2 : State := { s1 with stu.stations := done.map Prod.fst }
  (s2.raiseAll (done.flatMap (fun d => d.2.1))).raiseAll (done.flatMap (fun d => d.2.2))

/-! ## Meanings -/

/-- SET_TIME (R117): minute 0..10079 and second 0..59, else RANGE; the clock set and valid, targets, levels and the
maintenance flag re-evaluated, DONE. The ms counter and the sub-second count are not changed. The LEVEL_EDGE reports are raised
before the answer (DESIGN CHOICE, log 37). -/
def execSetTime (s : State) : Host.Outcome State Fault Refusal :=
  .next (s.onRequest (fun k => k == 1#32) (fun r s =>
    if 10079 < r.arg 0 ∨ 59 < r.arg 1 then s.answer r .range 0
    else
      let s1 := ({ s with time := { s.time with minute := r.arg 0, second := r.arg 1, valid := true } }
        |>.retargetProfiles).evaluateMaintenance
      (s.moveRecords s1 (fun _ => true) (fun _ => false)).answer r .done 0))

/-- PAUSE_STATION (R128). Its LEVEL_EDGE is raised before the answer, so with both paths idle the report's body joins the
arbiter's queue before the result word (DESIGN CHOICE, log 37). -/
def execPauseStation (s : State) : Host.Outcome State Fault Refusal :=
  .next (s.onRequest (fun k => k == 2#32) (fun q s =>
    if 1440 < q.arg 2 then s.answer q .range 0
    else
      match s.recordOf q.station with
      | none => s.answer q .unknownStation 0
      | some r =>
        let p := if q.arg 2 = 0 then Pause.indefinite else Pause.timed (60 * q.arg 2)
        (s.override r { r with pause := p, ext := 0 }).answer q .done 0))

/-- RESUME_STATION (R129): detail 1 when a pause was in force, 0 when none was; its LEVEL_EDGE is raised before the answer (DESIGN
CHOICE, log 37). -/
def execResumeStation (s : State) : Host.Outcome State Fault Refusal :=
  .next (s.onRequest (fun k => k == 3#32) (fun q s =>
    match s.recordOf q.station with
    | none => s.answer q .unknownStation 0
    | some r =>
      if r.pause.inForce then (s.override r { r with pause := .none }).answer q .done 1
      else s.answer q .done 0))

/-- EXTEND_STATION (R130): RANGE, then UNKNOWN_STATION, then PAUSED, in that order; its LEVEL_EDGE is raised before the answer
(DESIGN CHOICE, log 37). -/
def execExtendStation (s : State) : Host.Outcome State Fault Refusal :=
  .next (s.onRequest (fun k => k == 4#32) (fun q s =>
    if q.arg 2 = 0 ∨ 240 < q.arg 2 then s.answer q .range 0
    else
      match s.recordOf q.station with
      | none => s.answer q .unknownStation 0
      | some r =>
        if r.pause.inForce then s.answer q .paused 0
        else (s.override r { r with ext := 60 * q.arg 2 }).answer q .done 0))

/-- Absorb profile `i` (R119): refuse it whole with RECORD_REFUSED, or replace it, re-evaluate its target, move the levels
of its records and hand the AU a changed working ceiling (R109). -/
def State.takeProfile (i : Nat) (words : List Word) (s : State) : State :=
  let p := profileOfWords words 0
  if profileInRange p then
    let p1 := { p with target := targetAt s.time p }
    let s1 := { s with scu.profiles := s.scu.profiles.set i p1 }
    let ceilingChanged := s.workingCeiling i != s1.workingCeiling i
    s.moveRecords s1 (fun r => r.profile == i) (fun _ => ceilingChanged)
  else s.raise (.recordRefused .profile i .range)

/-- PROFILE_RECORD (R22, R26, R119): the closing word of a profile is in hand; its words are taken from the shadow. -/
def execProfileRecord (s : State) : Host.Outcome State Fault Refusal :=
  match s.controlFor .profile with
  | some (h, w) =>
    let s1 := s.absorb h w
    .next (((fullWordOffsets w.base h.txn).filter isProfileClosing).foldl
      (fun s o =>
        let i := (o - 0x0800) / 128
        s.takeProfile i (s.shadowWords (0x0800 + 128 * i) 32)) s1)
  | none => .next s

/-- PAUSE_EXPIRY (R127): the last second of a timed pause runs out; the level rises to the profile's target at once. -/
def execPauseExpiry (slot : Nat) (s : State) : Host.Outcome State Fault Refusal :=
  match s.recordAt slot with
  | some r =>
    match r.pause with
    | .timed n => if n ≤ 1 then .next (s.override r { r with pause := .none }) else .next s
    | .none => .next s
    | .indefinite => .next s
  | none => .next s

/-- EXTENSION_EXPIRY (R127): the last second of an extension runs out; the level winds down to the profile's target. -/
def execExtensionExpiry (slot : Nat) (s : State) : Host.Outcome State Fault Refusal :=
  match s.recordAt slot with
  | some r => if r.ext = 1 then .next (s.override r { r with ext := 0 }) else .next s
  | none => .next s

end Sys2Proof.Machine
end

