-- ==== Sys2Proof/Machine/Stations.lean ====
section
/-! DEFINITION. The Station Table Unit (chapter 4): creation, learning, holds, eviction, frees, pins and imports; and the
meanings of FORGET_STATION, IMPORT_CONTEXT, PIN_RECORD and HOLD_COUNTDOWN_EXPIRY. -/
namespace Sys2Proof.Machine

/-! ## Frees (R74) -/

/-- The hold countdown loaded on entry to a state (R70). -/
def holdFor : StationState → Option Nat
  | .idle => some 60
  | .expected => some 30
  | .away => some 120
  | .associated => none
  | .steering => none

/-- The reason of a free by hold, in the states that have one (R71). -/
def holdReason : StationState → Option FreeReason
  | .idle => some .idleTimeout
  | .expected => some .expectedTimeout
  | .away => some .awayRelease
  | .associated => none
  | .steering => none

/-- The record leaves the table and every unit's fields end with it; the CGU counts the flags that are left, and a summary
not yet raised for it is passed over (R74, R93, R150). -/
def State.removeRecord (r : Station) (s : State) : State :=
  let left := s.stu.stations.filter (fun q => q.slot != r.slot)
  let s1 : State := { s with
    stu.stations := left
    rmu.summaries := s.rmu.summaries.filter (fun k => k != r.slot) }
  s1.setGameCount (flagged left)

/-- GAME_EDGE OFF FREED of a freed game-active record, with the count after it (R93). -/
def freedEdge (r : Station) (count : Nat) : List ReportBody :=
  if r.gameActive then [.gameEdge r.addr false .freed count] else []

/-- A free with its reports (R74). -/
def State.freeRecord (r : Station) (reason : FreeReason) (s : State) : State :=
  let s1 := s.removeRecord r
  s1.raiseTogether [[.stationFreed r.addr r.state reason], freedEdge r s1.cgu.count]

/-! ## Creation and eviction (R65, R72, R73) -/

/-- The valid pin carrying an address. -/
def State.pinFor (s : State) (m : Mac) : Option Pin :=
  s.stu.pins.findSome? (fun p =>
    match p with
    | some q => if q.addr = m then some q else none
    | none => none)

/-- The record of a state with the greatest local activity age; of equal ages the lowest-numbered slot (R72). -/
def State.oldest (s : State) (st : StationState) : Option Station :=
  (s.stu.stations.filter (fun r => r.state == st)).foldl
    (fun best r =>
      match best with
      | none => some r
      | some b => if b.age < r.age then some r else some b) none

/-- The victim of a creation in a full table: IDLE, else AWAY, else EXPECTED (R72). -/
def State.victim (s : State) : Option Station :=
  match s.oldest .idle with
  | some r => some r
  | none =>
    match s.oldest .away with
    | some r => some r
    | none => s.oldest .expected

/-- The lowest-numbered FREE slot. -/
def State.freeSlot (s : State) : Option Nat :=
  (List.range 128).find? (fun k => s.stu.stations.all (fun r => r.slot != k))

/-- A slot for a new record: a FREE one, or a victim's, with the table after the victim's removal and the reports of that
free, STU's and CGU's. None when no record can be had (R73). -/
def State.makeRoom (s : State) : Option (Nat × State × List ReportBody × List ReportBody) :=
  match s.freeSlot with
  | some k => some (k, s, [], [])
  | none =>
    match s.victim with
    | some v =>
      let s1 := s.removeRecord v
      some (v.slot, s1, [.stationFreed v.addr v.state .evicted], freedEdge v s1.cgu.count)
    | none => none

/-- A new record before the AU has started it: pin, hold, level and the units' starting fields (R65, R135). -/
def State.blankRecord (s : State) (m : Mac) (st : StationState) (slot : Nat) : Station :=
  let pin := s.pinFor m
  let profile := match pin with
    | some p => p.profile
    | none => 0
  { slot := slot, addr := m, state := st, profile := profile
    pinned := match pin with
      | some p => p.cls
      | none => none
    hold := holdFor st, age := 0, level := (s.profileOf profile).target, pause := .none, ext := 0
    gameCount := 0, sustain := 0, gameActive := false, linger := 0
    tokens := 0, rate := 0, cap := 3072, settled := s.time.ms, mark := false
    estimates := [], dwell := 0, candidate := none, steerTo := none, steerTimer := 0, failures := 0
    backoff := 0, current := none, unmovable := false }

/-- Put a record into the table in its slot's place. -/
def insertRecord (r : Station) : List Station → List Station
  | [] => [r]
  | q :: qs => if r.slot < q.slot then r :: q :: qs else q :: insertRecord r qs

/-- A new record joins the table. -/
def State.addRecord (r : Station) (s : State) : State :=
  { s with stu.stations := insertRecord r s.stu.stations }

/-- A record is created for an address that has none (R65, R66), or none can be had and nothing happens (R73). -/
def State.learn (m : Mac) (st : StationState) (s : State) : State :=
  match s.makeRoom with
  | some (k, s1, freed, edges) =>
    let r := s1.startAllowance (s1.blankRecord m st k)
    (s1.addRecord r).raiseTogether [freed ++ [.stationLearned m st], edges]
  | none => s

/-! ## Observations (R66 to R69) -/

/-- An ASSOC or DATA observation. -/
def RxKind.associates : RxKind → Bool
  | .assoc | .data => true
  | .probe | .disassoc | .peerReport | .other => false

/-- The record after an observation (table of R67); the age is reset whatever the kind (R69). -/
def observeRecord (k : RxKind) (r : Station) : Station :=
  let r := { r with age := 0 }
  match r.state with
  | .idle =>
    if k.associates then { r with state := .associated, hold := none } else { r with hold := some 60 }
  | .expected => if k.associates then { r with state := .associated, hold := none } else r
  | .associated =>
    if k = .disassoc then { r with state := .idle, hold := some 60, unmovable := false } else r
  | .steering =>
    if k = .disassoc then
      { r with state := .idle, hold := some 60, steerTo := none, steerTimer := 0, unmovable := false }
    else r
  | .away =>
    if k.associates then { r with state := .associated, hold := none, current := none } else r

/-- STATION_BACK of a record that an observation returns from AWAY (R68). -/
def backReport (k : RxKind) (r : Station) : List ReportBody :=
  if r.state = .away ∧ k.associates = true then
    match r.current with
    | some n => [.stationBack r.addr n]
    | none => []
  else []

/-- The STU takes an observation (R66, R67). -/
def State.observe (m : Mac) (k : RxKind) (s : State) : State :=
  match s.recordOf m with
  | some r => (s.putRecord (observeRecord k r)).raiseAll (backReport k r)
  | none =>
    match k with
    | .assoc => s.learn m .associated
    | .data => s.learn m .associated
    | .probe => s.learn m .idle
    | .disassoc => s
    | .other => s
    | .peerReport => s

/-! ## Pins (R77 to R79) -/

/-- The other valid pin that holds the same address, if any (R78). -/
def duplicatePin (pins : List (Option Pin)) (j : Nat) (m : Mac) : Option Nat :=
  (List.range pins.length).find? (fun k =>
    k != j &&
      (match pins.getD k none with
       | some q => q.addr == m
       | none => false))

/-- What an absorption of pin `j` (before `old`, after `new`) does to one record (R79): fall back, take the pin's values,
or nothing. -/
def pinRecordTo (old new : Option Pin) (r : Station) : Station :=
  match new with
  | some p =>
    if r.addr = p.addr then { r with profile := p.profile, pinned := p.cls }
    else
      match old with
      | some q => if r.addr = q.addr then { r with profile := 0, pinned := none } else r
      | none => r
  | none =>
    match old with
    | some q => if r.addr = q.addr then { r with profile := 0, pinned := none } else r
    | none => r

/-- Absorb pin `j` (R77 to R79): store it, invalidate a duplicate with RECORD_REFUSED, apply it to records; a change of
profile index is handed to the SCU and the AU. -/
def State.takePin (j : Nat) (words : List Word) (s : State) : State :=
  let old := s.stu.pins.getD j none
  let new := pinOfWords words
  let dup := match new with
    | some p => duplicatePin s.stu.pins j p.addr
    | none => none
  let pins := (match dup with
    | some k => s.stu.pins.set k none
    | none => s.stu.pins).set j new
  let moved := s.stu.stations.map (fun r =>
    let r1 := pinRecordTo old new r
    if r1.profile = r.profile then (r1, []) else s.moveRecord (s.stationTarget r) true r1)
  let s1 : State := { s with stu := { stations := moved.map Prod.fst, pins := pins } }
  s1.raiseTogether
    [match dup with
     | some k => [.recordRefused .pin k .duplicate]
     | none => [],
     moved.flatMap Prod.snd]

/-- PIN_RECORD (R22, R26, R77): the closing words of one or two pins are in hand, taken in ascending address order. -/
def execPinRecord (s : State) : Host.Outcome State Fault Refusal :=
  match s.controlFor .pin with
  | some (h, w) =>
    let s1 := s.absorb h w
    .next (((fullWordOffsets w.base h.txn).filter isPinClosing).foldl
      (fun s o =>
        let j := (o - 0x1000) / 16
        s.takePin j (s.shadowWords (0x1000 + 16 * j) 4)) s1)
  | none => .next s

/-! ## Requests of the STU -/

/-- FORGET_STATION (R75): the record is freed at once, in whatever state it is, with reason FORGOTTEN. Its report is raised before
the answer is given, so with both paths idle the report's write joins the arbiter's queue first; R75 leaves open which does
(DESIGN CHOICE, log 37). -/
def execForgetStation (s : State) : Host.Outcome State Fault Refusal :=
  .next (s.onRequest (fun k => k == 5#32) (fun q s =>
    match s.recordOf q.station with
    | none => s.answer q .unknownStation 0
    | some r => (s.freeRecord r .forgotten).answer q .done 0))

/-- The imported context (R80, R81): the arguments of IMPORT_CONTEXT. -/
structure Context where
  pause    : Pause
  ext      : Nat
  level    : Nat
  active   : Bool
  linger   : Nat
  failures : Nat
deriving DecidableEq, Repr

/-- The context fields of a request, or none when a field is out of range (R81, step 1). -/
def contextOf (q : Request) : Option Context :=
  let form := q.arg 2
  let secs := q.arg 3
  let active := bit (q.args.getD 6 0) 0
  if 2 < form ∨ (form = 2 ∧ (secs < 1 ∨ 86400 < secs)) ∨ 14400 < q.arg 4 ∨ 4096 < q.arg 5 ∨ 4 < q.arg 8
      ∨ (active = true ∧ (q.arg 7 < 1 ∨ 300 < q.arg 7)) ∨ (form ≠ 0 ∧ q.arg 4 ≠ 0) then none
  else
    some { pause := if form = 0 then .none else if form = 1 then .indefinite else .timed secs
           ext := q.arg 4, level := q.arg 5, active := active, linger := q.arg 7, failures := q.arg 8 }

/-- The state an import leaves a record in (table of R81). -/
def importState (r : Station) : Station :=
  match r.state with
  | .idle => { r with state := .expected, hold := some 30 }
  | .expected => { r with hold := some 30 }
  | .away => { r with state := .expected, hold := some 30, current := none }
  | .associated => r
  | .steering => r

/-- The fields the SCU, CGU and RMU take from an imported context (R82), before the AU. -/
def State.importFields (s : State) (c : Context) (r : Station) : Station :=
  let r1 := { r with
    pause := c.pause, ext := c.ext, failures := c.failures
    gameActive := r.gameActive || c.active
    linger := if c.active then c.linger else r.linger }
  let t := s.stationTarget r1
  { r1 with level := moveLevel (s.slopeOf r1) r1.pause.inForce t (max c.level t) }

/-- The edges of an import: GATED or OPENED where it moves the level across 0; no WIND_DOWN (R125). -/
def importEdges (m : Mac) (l0 l1 t1 : Nat) : List ReportBody :=
  if 0 < l0 ∧ l1 = 0 then [.levelEdge m .gated l1 t1]
  else if l0 = 0 ∧ 0 < l1 then [.levelEdge m .opened l1 t1]
  else []

/-- GAME_EDGE ON IMPORTED where an import sets a clear flag, with the count after it (R93). -/
def importedEdge (r r1 : Station) (count : Nat) : List ReportBody :=
  if r.gameActive = false ∧ r1.gameActive = true then [.gameEdge r.addr true .imported count] else []

/-- IMPORT_CONTEXT (R81, R82): RANGE, then a record is found or created in EXPECTED, or TABLE_FULL; then the context. Its reports
are raised before the answer, so with both paths idle a report's body joins the arbiter's queue before the result word; R28 only
lets a report be seen before the result (DESIGN CHOICE, log 37). A record created by an import that itself turns contention on is
in use when that change is handed over and is marked by it (R110), though R112 gives a created record a clear mark (DESIGN CHOICE,
log 52). -/
def execImportContext (s : State) : Host.Outcome State Fault Refusal :=
  .next (s.onRequest (fun k => k == 6#32) (fun q s =>
    match contextOf q with
    | none => s.answer q .range 0
    | some c =>
      match s.recordOf q.station with
      | some r =>
        let r1 := s.importFields c (importState r)
        let s1 := s.putRecord (s.rateChange r1)
        let s2 := s1.setGameCount (flagged s1.stu.stations)
        (s2.raiseTogether
          [importEdges r.addr r.level r1.level (s.stationTarget r1), importedEdge r r1 s2.cgu.count]).answer q .done 0
      | none =>
        match s.makeRoom with
        | none => s.answer q .tableFull 0
        | some (k, s1, freed, edges) =>
          let r := s1.blankRecord q.station .expected k
          let r1 := s1.importFields c r
          let s2 := s1.addRecord (s1.startAllowance r1)
          let s3 := s2.setGameCount (flagged s2.stu.stations)
          (s3.raiseTogether
            [freed ++ [.stationLearned q.station .expected],
             edges ++ importedEdge r r1 s3.cgu.count,
             importEdges r.addr r.level r1.level (s1.stationTarget r1)]).answer q .done 0))

/-! ## The second boundary (R69, R71) -/

/-- One record's ages and hold one second on. -/
def stuCount (r : Station) : Station :=
  { r with
    age := if r.age < 65535 then r.age + 1 else 65535
    hold := match r.hold with
      | some n => some (n - 1)
      | none => none }

/-- Free the record in a slot whose countdown has reached 0, with the reason of its state. -/
def State.freeExpired (slot : Nat) (s : State) : State :=
  match s.recordAt slot with
  | some r =>
    match r.hold, holdReason r.state with
    | some 0, some reason => s.freeRecord r reason
    | _, _ => s
  | none => s

/-- The STU's event at a second boundary (R69, R71): ages and holds move, and every record whose countdown reaches 0 is freed; of
several, in ascending slot order, which R71 leaves open (DESIGN CHOICE, log 36). -/
def State.stationBoundary (s : State) : State :=
  let counted := s.stu.stations.map stuCount
  (counted.map (fun r => r.slot)).foldl (fun s k => s.freeExpired k) { s with stu.stations := counted }

/-- HOLD_COUNTDOWN_EXPIRY (R71): the last second of a record's IDLE, EXPECTED or AWAY hold runs out and it is freed. -/
def execHoldCountdownExpiry (slot : Nat) (s : State) : Host.Outcome State Fault Refusal :=
  match s.recordAt slot with
  | some r =>
    match r.hold, holdReason r.state with
    | some n, some reason => if n ≤ 1 then .next (s.freeRecord r reason) else .next s
    | _, _ => .next s
  | none => .next s

end Sys2Proof.Machine
end

