-- ==== Sys2Proof/Machine/Sessions.lean ====
section
/-! DEFINITION. What several units do to the staging session and to drain mode: entering a session state with IMAGE_STATE
(R162), failing (R172), setting and clearing drain mode (R151), entering DRAINING and COMMITTING (R179, R180, R182). -/
namespace Sys2Proof.Machine

/-- IMAGE_STATE of a session (R162). -/
def imageReport (n : Session) (r : Reason) : ReportBody := .imageState n.state r n.pages n.version

/-- The session enters a state, and IMAGE_STATE is raised with a reason (R162). -/
def State.enterSession (st : SessionState) (reason : Reason) (s : State) : State :=
  let n := { s.imu.session with state := st }
  { s with imu.session := n }.raise (imageReport n reason)

/-- A record when drain mode is set or cleared: either clears its unmovable mark, and after the clearing its dwell count starts
from 0 with no candidate (R151). -/
def drainSwitched (on : Bool) (r : Station) : Station :=
  { r with
    unmovable := false
    dwell := if on then r.dwell else 0
    candidate := if on then r.candidate else none }

/-- Drain mode is set or cleared (R151). -/
def State.setDrain (on : Bool) (s : State) : State :=
  { s with rmu.drain := on, stu.stations := s.stu.stations.map (drainSwitched on) }

/-- The session fails (R172, R171, R182): FAILED, last failure reason, program queue emptied and every buffer freed. Pages
and sectors keep their values. -/
def State.failSession (reason : Reason) (s : State) : State :=
  { s with
    imu.lastFail := reason
    imu.session := { s.imu.session with current := [], queue := [] } }.enterSession .failed reason

/-- The slot a target's activation boots: the staging target's slot (R182). -/
def Session.slot (n : Session) : Slot :=
  match n.target with
  | some (.image sl) => sl
  | some .config => .a
  | none => .a

/-- Entry to DRAINING (R179, R180). -/
def State.enterDraining (s : State) : State :=
  ({ s with imu.session := { s.imu.session with drainLeft := s.policy.drainDeadline } }.setDrain true).enterSession
    .draining .none

/-- Entry to COMMITTING from DRAINING (R178, R180, R182): the flags NOW and FORCE gone, drain mode cleared, IMAGE_STATE with the
reason, and the commit append handed to the SUC: the target's slot, TRIAL, attempts 0. -/
def State.enterCommitting (reason : Reason) (s : State) : State :=
  let n := { s.imu.session with now := false, force := false }
  let s1 := (({ s with imu.session := n } : State).setDrain false).enterSession .committing reason
  { s1 with
    suc.jobs := s1.suc.jobs ++
      [{ owner := .commit, slot := s1.imu.session.slot, boot := .trial, attempts := 0, fallback := false }] }

/-- The IMU's event at a second boundary (R179, R180): the gates of an ARMED session, or the drain countdown. -/
def State.imageBoundary (s : State) : State :=
  match s.imu.session.state with
  | .armed =>
    if (s.scu.maintOpen ∨ s.imu.session.now) ∧ (s.cgu.count = 0 ∨ s.imu.session.force) then s.enterDraining else s
  | .draining =>
    if s.imu.session.drainLeft ≤ 1 then
      { s with imu.session := { s.imu.session with drainLeft := 0 } }.enterCommitting .drainDeadline
    else { s with imu.session := { s.imu.session with drainLeft := s.imu.session.drainLeft - 1 } }
  | .idle | .receiving | .closing | .verified | .failed | .committing | .committed => s

/-- DRAIN_DEADLINE (R180): the last second of the drain countdown runs out; COMMITTING with reason DRAIN_DEADLINE. -/
def execDrainDeadline (s : State) : Host.Outcome State Fault Refusal :=
  if s.imu.session.state = .draining ∧ s.imu.session.drainLeft ≤ 1 then
    .next ({ s with imu.session := { s.imu.session with drainLeft := 0 } }.enterCommitting .drainDeadline)
  else .next s

end Sys2Proof.Machine
end

