-- ==== Sys2Proof/Machine/Roaming.lean ====
section
/-! DEFINITION. The Roaming Unit (chapter 8): estimates, samples, claims, evaluation, steering, drain mode, summaries, its
event at a second boundary; and the meanings of ESTIMATE_ENTRY_EXPIRY, BACKOFF_EXPIRY, STEER_TIMEOUT and
SIGNAL_SUMMARY. -/
namespace Sys2Proof.Machine

/-! ## Estimate maps (R135, R136, R138, R141) -/

/-- An entry is fresh while its age is 10 or less (R141). -/
def Estimate.fresh (e : Estimate) : Bool := decide (e.age ≤ 10)

/-- Set a node's entry to a value with age 0, adding it where there is none; entries stay in node order. -/
def putEstimate (node : Nat) (v : Int) : List Estimate → List Estimate
  | [] => [{ node := node, value := v, age := 0 }]
  | e :: es =>
    if node < e.node then { node := node, value := v, age := 0 } :: e :: es
    else if node = e.node then { node := node, value := v, age := 0 } :: es
    else e :: putEstimate node v es

/-- The entry of a node. -/
def Station.entryOf (r : Station) (node : Nat) : Option Estimate := r.estimates.find? (fun e => e.node == node)

/-- The local estimate after a sample of signal `sig` (R136): one eighth of the way, at least one step. -/
def smooth (est sig : Int) : Int :=
  let d := 16 * sig - est
  let step := Int.tdiv d 8
  if step = 0 ∧ d ≠ 0 then (if 0 < d then est + 1 else est - 1) else est + step

/-- A record after a local sample (R136); no measurement leaves it as it stands. -/
def sampleRecord (own : Nat) (sig : Option Int) (r : Station) : Station :=
  match sig with
  | none => r
  | some v =>
    { r with estimates :=
        putEstimate own (match r.entryOf own with
          | none => 16 * v
          | some e => smooth e.value v) r.estimates }

/-- The RMU takes a receive observation (R136). -/
def State.sample (m : Mac) (sig : Option Int) (s : State) : State :=
  match s.recordOf m with
  | some r => s.putRecord (sampleRecord s.suc.node sig r)
  | none => s

/-! ## Peer entries and claims (R138, R139) -/

/-- CONTEXT_EXPORT of the values a record holds (R80). -/
def exportReport (r : Station) : ReportBody :=
  .contextExport r.addr r.pause r.ext r.level r.gameActive (if r.gameActive then r.linger else 0) r.failures

/-- Entry to AWAY at node `n` from another state (R139, R70). -/
def enterAway (n : Nat) (r : Station) : Station :=
  { r with
    state := .away, hold := some 120, current := some n, dwell := 0, candidate := none, steerTo := none
    steerTimer := 0, backoff := 0, failures := 0, unmovable := false }

/-- What a claim at node `n` makes of a record (table of R139): the record after, the STU's reports and the RMU's. -/
def claimRecord (n : Nat) (r : Station) : Station × List ReportBody × List ReportBody :=
  match r.state with
  | .idle => (enterAway n r, [exportReport r], [.stationAway r.addr n .idle])
  | .associated => (enterAway n r, [exportReport r], [.stationAway r.addr n .associated])
  | .steering => (enterAway n r, [exportReport r], [.stationAway r.addr n .steering])
  | .expected => (r, [], [])
  | .away =>
    if r.current = some n then (r, [], [])
    else ({ r with current := some n }, [], [.stationAway r.addr n .away])

/-- The RMU takes an entry of a report from node `n` (R138, R139). -/
def State.peerEstimate (n : Nat) (e : PeerEntry) (s : State) : State :=
  match s.recordOf e.addr with
  | none => s
  | some r =>
    let r1 := { r with estimates := putEstimate n (clampInt (-2048) 0 e.value) r.estimates }
    if e.claim then
      let c := claimRecord n r1
      (s.putRecord c.1).raiseTogether [c.2.1, c.2.2]
    else s.putRecord r1

/-! ## Evaluation and steering (R143 to R146, R152, R153) -/

/-- The best candidate (R143): the fresh peer entry with the highest estimate, a tie going to the lower node id. -/
def bestCandidate (own : Nat) (r : Station) : Option Estimate :=
  (r.estimates.filter (fun e => e.fresh && e.node != own)).foldl
    (fun best e =>
      match best with
      | none => some e
      | some b => if b.value < e.value ∨ (b.value = e.value ∧ e.node < b.node) then some e else some b) none

/-- The record's fresh local entry, if it has one. -/
def freshLocal (own : Nat) (r : Station) : Option Estimate :=
  match r.entryOf own with
  | some e => if e.fresh then some e else none
  | none => none

/-- The steering condition of R143 between a local estimate and the best candidate's. -/
def steerCondition (p : Policy) (game : Bool) (here there : Int) : Bool :=
  decide (here < 16 * p.trigger) && decide (16 * p.floor ≤ there)
    && decide (16 * ((if game then p.gameMargin else p.margin : Nat) : Int) ≤ there - here)

/-- A record begins steering toward a target (R145), with its STEER. A drain step steers records without a fresh local entry too:
a stale entry's estimate is the local estimate reported, and 0 where there is no entry (R194; both DEDUCED, log 14). -/
def beginSteering (p : Policy) (own : Nat) (cause : SteerCause) (e : Estimate) (r : Station) : Station × List ReportBody :=
  ({ r with
      state := .steering, hold := none, steerTo := some e.node, steerTimer := p.steerTimeout
      dwell := 0, candidate := none, unmovable := false },
   [.steer r.addr e.node cause
      (match r.entryOf own with
       | some l => l.value
       | none => 0) e.value])

/-- Step 4 of the RMU's boundary event for one record while drain mode is clear (R143, R144). -/
def evaluateRecord (p : Policy) (own : Nat) (r : Station) : Station × List ReportBody :=
  let reset := { r with dwell := 0, candidate := none }
  if r.state = .associated ∧ r.backoff = 0 then
    match freshLocal own r, bestCandidate own r with
    | some l, some b =>
      if steerCondition p r.gameActive l.value b.value then
        let n := if r.candidate = some b.node then r.dwell + 1 else 1
        if (if r.gameActive then p.gameDwell else p.dwell) ≤ n then beginSteering p own .evaluation b r
        else ({ r with dwell := n, candidate := some b.node }, [])
      else (reset, [])
    | _, _ => (reset, [])
  else (reset, [])

/-- A record is movable at a drain step (R152). -/
def movable (p : Policy) (own : Nat) (r : Station) : Bool :=
  r.state == .associated && !r.unmovable &&
    (match bestCandidate own r with
     | some b => decide (16 * p.floor ≤ b.value)
     | none => false)

/-- Step 4 for one record while drain mode is set: the drain step (R151, R153). -/
def drainRecord (p : Policy) (own : Nat) (r : Station) : Station × List ReportBody :=
  let reset := { r with dwell := 0, candidate := none }
  if movable p own r then
    match bestCandidate own r with
    | some b => beginSteering p own .drain b reset
    | none => (reset, [])
  else (reset, [])

/-- The backoff after a timeout that leaves a failure count (table of R146). -/
def backoffFor (failures : Nat) : Nat := min 240 (30 * 2 ^ (failures - 1))

/-- A steering times out (R146), with its STEER_FAILED; drain mode sets the unmovable mark. -/
def timeOutRecord (drain : Bool) (r : Station) : Station × List ReportBody :=
  let f := min 4 (r.failures + 1)
  ({ r with
      state := .associated, hold := none, steerTo := none, steerTimer := 0, failures := f
      backoff := backoffFor f, unmovable := drain },
   [.steerFailed r.addr (r.steerTo.getD 0) f drain (backoffFor f)])

/-! ## The second boundary (R141, R142, R150, R154) -/

/-- Step 1 for one record: every age up by one, entries over 60 removed. -/
def ageEstimates (r : Station) : Station :=
  { r with estimates :=
      (r.estimates.map (fun e => { e with age := e.age + 1 })).filter (fun e => decide (e.age ≤ 60)) }

/-- Steps 1 to 3 for one record. -/
def roamCount (drain : Bool) (r : Station) : Station × List ReportBody :=
  let r1 := ageEstimates { r with backoff := r.backoff - 1 }
  if r1.state = .steering then
    if r1.steerTimer ≤ 1 then timeOutRecord drain r1 else ({ r1 with steerTimer := r1.steerTimer - 1 }, [])
  else (r1, [])

/-- The drain is complete (R154): no record STEERING, every ASSOCIATED record unmovable. -/
def State.drainComplete (s : State) : Bool :=
  s.stu.stations.all (fun r => r.state != .steering && !(movable s.policy s.suc.node r))

/-- The SIGNAL_SUMMARY of the record in a slot, when it has a fresh local entry (R150). -/
def State.summaryOf (s : State) (slot : Nat) : Option ReportBody :=
  match s.recordAt slot with
  | some r =>
    match freshLocal s.suc.node r with
    | some e => some (.signalSummary r.addr e.value (r.state == .associated || r.state == .steering))
    | none => none
  | none => none

/-- Raise summaries in slot order while the pending queue holds fewer than 16 records; the rest wait (R150). -/
def raiseSummaries : List Nat → State → State
  | [], s => { s with rmu.summaries := [] }
  | k :: ks, s =>
    match s.summaryOf k with
    | none => raiseSummaries ks s
    | some b =>
      if s.cau.pending.length < 16 then raiseSummaries ks (s.raise b)
      else { s with rmu.summaries := k :: ks }

/-- Raise the summaries a boundary left over, whatever the queue can take (R150). -/
def State.flushSummaries (s : State) : State :=
  let s1 := s.raiseAll (s.rmu.summaries.filterMap s.summaryOf)
  { s1 with rmu.summaries := [] }

/-- The slots whose records have a fresh local entry, in ascending order: those whose summaries a boundary makes due (R150). -/
def State.summariesDue (s : State) : List Nat :=
  (s.stu.stations.map (fun r => r.slot)).filter (fun k => (s.summaryOf k).isSome)

/-- Step 6: the toggle flips, and when that leaves it set a summary is due for every record with a fresh local entry now, and for
no other (R150). -/
def State.summaryStep (s : State) : State :=
  let s1 := s.flushSummaries
  let s2 := { s1 with rmu.toggle := !s1.rmu.toggle }
  if s2.rmu.toggle then raiseSummaries s2.summariesDue s2 else s2

/-- The RMU's event at a second boundary, in the six steps of R142. Drain-complete is handed within step 5, so the IMU's
IMAGE_STATE joins after the reports of steps 3 and 4 and before the summaries of step 6; R30 leaves the order of the two units
open (DESIGN CHOICE, log 35). -/
def State.roamBoundary (s : State) : State :=
  let counted := s.stu.stations.map (roamCount s.rmu.drain)
  let s1 := State.raiseAll (counted.flatMap Prod.snd) { s with stu.stations := counted.map Prod.fst }
  let step := if s.rmu.drain then drainRecord s.policy s.suc.node else evaluateRecord s.policy s.suc.node
  let moved := s1.stu.stations.map step
  let s2 := State.raiseAll (moved.flatMap Prod.snd) { s1 with stu.stations := moved.map Prod.fst }
  let s3 := if s2.rmu.drain ∧ s2.drainComplete = true ∧ s2.imu.session.state = .draining
    then s2.enterCommitting .drainComplete else s2
  s3.summaryStep

/-! ## Meanings -/

/-- ESTIMATE_ENTRY_EXPIRY (R141): an entry whose age passes 60 is removed from its map. -/
def execEstimateEntryExpiry (slot node : Nat) (s : State) : Host.Outcome State Fault Refusal :=
  match s.recordAt slot with
  | some r =>
    .next (s.putRecord { r with estimates := r.estimates.filter (fun e => !(e.node == node && decide (60 ≤ e.age))) })
  | none => .next s

/-- BACKOFF_EXPIRY (R148): the last second of a backoff runs out, and the record is eligible again as R143 gives. -/
def execBackoffExpiry (slot : Nat) (s : State) : Host.Outcome State Fault Refusal :=
  match s.recordAt slot with
  | some r => if r.backoff = 1 then .next (s.putRecord { r with backoff := 0 }) else .next s
  | none => .next s

/-- STEER_TIMEOUT (R146): the last second of a steer timer runs out. -/
def execSteerTimeout (slot : Nat) (s : State) : Host.Outcome State Fault Refusal :=
  match s.recordAt slot with
  | some r =>
    if r.state = .steering ∧ r.steerTimer ≤ 1 then
      let t := timeOutRecord s.rmu.drain r
      .next ((s.putRecord t.1).raiseAll t.2)
    else .next s
  | none => .next s

/-- SIGNAL_SUMMARY (R150): of the summaries still to be raised, those whose record has gone or is no longer fresh are
passed over, and the next is raised when the pending queue has room. -/
def execSignalSummary (s : State) : Host.Outcome State Fault Refusal :=
  match s.rmu.summaries.dropWhile (fun k => (s.summaryOf k).isNone) with
  | [] => .next { s with rmu.summaries := [] }
  | k :: ks =>
    match s.summaryOf k with
    | none => .next s
    | some b =>
      if s.cau.pending.length < 16 then .next ({ s with rmu.summaries := ks }.raise b)
      else .next { s with rmu.summaries := k :: ks }

end Sys2Proof.Machine
end

