-- ==== Sys2Proof/WellFormed.lean ====
section
/-! DEFINITION. Which commands can come at all: the bus's own rules for a transaction (section 1.1), the station table's
slots, the node ids, the size of a flash READ, and that a boundary's order names every unit once. -/
namespace Sys2Proof

/-- The byte enables a single access of 1, 2 or 4 naturally aligned bytes may have at an address (section 1.1). -/
def singleFormWf (addr : Nat) (enables : BitVec 4) : Bool :=
  match addr % 4 with
  | 0 => enables == 0b0001#4 || enables == 0b0011#4 || enables == 0b1111#4
  | 1 => enables == 0b0010#4
  | 2 => enables == 0b0100#4 || enables == 0b1100#4
  | _ => enables == 0b1000#4

/-- A burst moves 2 to 8 words, starts on a word boundary and does not cross a 32-byte boundary (section 1.1). -/
def burstFormWf (addr count : Nat) : Bool :=
  decide (2 ≤ count) && decide (count ≤ 8) && decide (addr % 4 = 0) && decide (addr % 32 + 4 * count ≤ 32)

/-- The number of words a form moves. -/
def Form.words : Form → Nat
  | .single _ => 1
  | .burst n => n

/-- A transaction the node memory bus can carry (section 1.1, R1). -/
def Transaction.wf (t : Transaction) : Bool :=
  decide (t.addr < 2 ^ 28)
    && (match t.form with
        | .single en => singleFormWf t.addr en
        | .burst n => burstFormWf t.addr n)
    && (match t.dir with
        | .read => t.data == []
        | .write => t.data.length == t.form.words)

/-- The units in the order the block table of the scope chapter names them. -/
def allBoundaryUnits : List BoundaryUnit := [.ptu, .cau, .stu, .cgu, .scu, .rmu, .imu, .suc]

/-- An order of one second boundary names every unit exactly once. -/
def orderWf (order : List BoundaryUnit) : Bool :=
  order.length == 8 && allBoundaryUnits.all (fun u => order.contains u)

/-- R158: a flash READ returns 1 to 32 bytes, so at most 32 can differ. -/
def flipsWf (flips : List Byte) : Bool := decide (flips.length ≤ 32)

/-- Well-formed commands. -/
def Instr.wf : Instr → Bool
  | .busTransaction t => t.wf
  | .configBlockReadEnd f | .selectorScanReadEnd f | .flashPassThroughReadEnd f
  | .verifyReadEnd f | .selectorReadbackEnd f => flipsWf f
  | .secondBoundary o | .minuteBoundary o => orderWf o
  | .holdCountdownExpiry k | .gameLingerEnd k | .pauseExpiry k | .extensionExpiry k
  | .backoffExpiry k | .steerTimeout k => decide (k < 128)
  | .estimateEntryExpiry k n => decide (k < 128) && decide (n < 8)
  | .powerOn | .nodeRestart | .flashNoResponse | .selectingDecision | .readyLowHoldExpiry
  | .sramPortGrant | .passThroughSramDone | .txDescriptorFetch | .transmitDecision | .txHoldExpiry
  | .rxRingWrite | .rxClosingWrite | .rxHoldExpiry | .peerFetchReadDone | .controlWrite
  | .consumerIndexWrite | .classMapWrite | .nodePolicyRecord | .profileRecord | .pinRecord
  | .badKindRequest | .requestClosingHeld | .requestHoldExpiry | .setTime | .pauseStation
  | .resumeStation | .extendStation | .forgetStation | .importContext | .imageOpen | .imageClose
  | .imageAbort | .activate | .activateCancel | .bootConfirm | .resultWriteDone
  | .reportBodyWriteDone | .producerIndexWriteDone | .statusWriteDone | .flashWindowRead
  | .flashHoldExpiry | .flashWindowWrite | .stagingRead | .stagingWrite | .stagingWriteHoldExpiry
  | .flashPortGrant | .flashStatusPoll _ _ _ | .flashSuspended | .suspendTimeout | .minimumRunEnd
  | .flashOperationTimeout | .flashOperationGiveUp | .sweepVisit | .signalSummary | .drainDeadline
  | .trialExpiry | .loadingReadStatus _ => true

end Sys2Proof
end

