-- ==== Sys2Proof/Machine/PassThrough.lean ====
section
/-! DEFINITION. The Pass-Through Unit's taking of transactions (sections 1.1 to 1.4): permission, routing by window kind, the
holds while READY is low; and the meanings of BUS_TRANSACTION and READY_LOW_HOLD_EXPIRY. -/
namespace Sys2Proof.Machine

/-- A window permits a master in a direction (R9). -/
def permitted (w : Window) (t : Transaction) : Bool :=
  match t.dir with
  | .read => w.readMask.getLsbD t.master.val
  | .write => w.writeMask.getLsbD t.master.val

/-- A read of a TX ring that is inspected (R39, R12): a burst of 8 words from the inspect master that starts on a descriptor
boundary inside the ring proper. -/
def inspectedRead (w : Window) (t : Transaction) : Bool :=
  t.dir == .read && t.form == .burst 8 && t.master.val == w.ringMaster && w.inRing t.addr
    && decide ((t.addr - w.base) % 32 = 0)

/-- A write of an RX ring that the DIU observes (R51, R12): from the producer master, inside the ring proper. -/
def observedWrite (w : Window) (t : Transaction) : Bool :=
  t.dir == .write && t.master.val == w.ringMaster && w.inRing t.addr

/-- Where a permitted transaction goes by its window's kind (R12 to R15): to the SRAM port, or to the unit that owns it. -/
def routeOf (w : Window) (t : Transaction) : Phase :=
  match w.kind with
  | .txRing => if inspectedRead w t then .sramWait .inspected else .sramWait .plain
  | .rxRing => if observedWrite w t then .routed else .sramWait .plain
  | .control =>
    match t.dir with
    | .read => .sramWait .plain
    | .write => .routed
  | .report => .sramWait .plain
  | .boot | .config | .image | .staging => .routed

/-- The reply of a denied access (R9): ERR to a read, an acknowledgement to a write. -/
def deniedReply : Dir → Ending
  | .read => .err
  | .write => .ack

/-- A transaction is classified, its permission checked, and it is routed (R8, R9). -/
def State.takeUp (h : InHand) (s : State) : State :=
  match s.windowAt h.txn.addr with
  | none =>
    if h.txn.addr < 0x8000000 then s.toPhase { h with window := none } (.sramWait .plain)
    else s.endTxn h .err
  | some w =>
    if permitted w h.txn then s.toPhase { h with window := some w } (routeOf w h.txn)
    else (s.endTxn h (deniedReply h.txn.dir)).protectEvent w h.txn

/-- The hold limit of a window kind in µs; REPORT and addresses outside every window have none (R3). -/
def State.holdLimit (s : State) : Option Window → Option Nat
  | none => none
  | some w =>
    match w.kind with
    | .txRing | .rxRing | .control => some s.ptu.inspectLimit
    | .boot | .config | .image | .staging => some s.ptu.flashLimit
    | .report => none

/-- READY has risen: a transaction held for it is taken up as if it had just arrived, or ended with ERR where its hold
already exceeds the limit of its window kind (R4; log 19). A CONTROL write among them goes to SRAM and shadow like any other from
then on, where R21 keeps a write taken while READY is low from both: R4 is followed (DEDUCED, log 34). -/
def State.takeUpHeld (s : State) : State :=
  match s.ptu.inHand with
  | some h =>
    if h.phase = .readyLow then
      match s.holdLimit (s.windowAt h.txn.addr) with
      | some limit => if limit < h.heldUs then s.endTxn h .err else s.takeUp h
      | none => s.takeUp h
    else s
  | none => s

/-- BUS_TRANSACTION (R1, R4, R8, R9): a master's transaction is taken. While READY is low it is held whatever its address.
The bus carries one transaction at a time: with one in hand none is taken (log 10). -/
def execBusTransaction (t : Transaction) (s : State) : Host.Outcome State Fault Refusal :=
  if 2 ^ 28 ≤ t.addr then .fault .addressBeyondBus
  else if t.wf then
    match s.ptu.inHand with
    | some _ => .next s
    | none =>
      let h : InHand := { txn := t, window := none, phase := .readyLow, heldUs := 0 }
      if s.lines.ready then .next (s.takeUp h) else .next (s.toPhase h .readyLow)
  else .refused .notABusTransaction

/-- READY_LOW_HOLD_EXPIRY (R4): a transaction held because READY is low is ended with ERR; no PROTECT is raised. -/
def execReadyLowHoldExpiry (s : State) : Host.Outcome State Fault Refusal :=
  match s.ptu.inHand with
  | some h => if h.phase = .readyLow then .next (s.endTxn h .err) else .next s
  | none => .next s

end Sys2Proof.Machine
end

