-- ==== Sys2Proof/Machine/Inspection.lean ====
section
/-! DEFINITION. The Descriptor Inspection Unit (chapter 3): the transmit decision and the defer records, the capture of
receive write-backs and the receive decision, peer report buffers; and the meanings of its rows. -/
namespace Sys2Proof.Machine

/-! ## The transmit decision (R40 to R48) -/

/-- Actions of a returned TX descriptor (table of section 3.1). -/
inductive TxAction where
  | pass | drop | redirect | defer
deriving DecidableEq, Repr

/-- Reasons of a returned TX descriptor (table of section 3.1). -/
inductive TxReason where
  | none | schedule | paused | shaped | unrecordedBlock | late
deriving DecidableEq, Repr

/-- Action codes 0..3. -/
def TxAction.code : TxAction → Nat
  | .pass => 0 | .drop => 1 | .redirect => 2 | .defer => 3

/-- Reason codes 0..5. -/
def TxReason.code : TxReason → Nat
  | .none => 0 | .schedule => 1 | .paused => 2 | .shaped => 3 | .unrecordedBlock => 4 | .late => 5

/-- An outcome with the fields it writes besides action and reason; `none` leaves the field as read (R45). -/
structure TxOutcome where
  action : TxAction
  reason : TxReason
  cls    : Option Class
  egress : Option Nat
  node   : Option Nat
deriving DecidableEq, Repr

/-- An outcome that writes action and reason only. -/
def TxOutcome.plain (a : TxAction) (r : TxReason) : TxOutcome :=
  { action := a, reason := r, cls := none, egress := none, node := none }

/-- Write a field of a word when there is a value for it. -/
def setField? (w : Word) (lo width : Nat) : Option Nat → Word
  | none => w
  | some v => setField w lo width v

/-- The eight words returned for an outcome (table of R45). -/
def judgedWords (d : List Word) (o : TxOutcome) : List Word :=
  let w0 := setField? (setField? (setField (d.getD 0 0) 16 2 o.action.code) 8 3 (o.cls.map Class.code)) 12 4 o.egress
  let w1 := setField (d.getD 1 0) 16 4 o.reason.code
  let w4 := setField? (d.getD 4 0) 16 3 o.node
  ((d.set 0 w0).set 1 w1).set 4 w4

/-- Tests of R41 to R44 with their effects on the station record (R46): the outcome before the defer record, and the state
after. -/
def State.judge (d : List Word) (s : State) : TxOutcome × State :=
  match s.recordOf (txDest d) with
  | none =>
    if (s.profileOf 0).target = 0 then (.plain .drop .unrecordedBlock, s)
    else ({ TxOutcome.plain .pass .none with cls := some (s.resolveClass none (txClass d) (txTag d)) }, s)
  | some r =>
    if r.state = .away then
      ({ TxOutcome.plain .redirect .none with egress := some s.suc.backhaul, node := some (r.current.getD 0) },
       s.putRecord { r with hold := some 120 })
    else if r.level = 0 then (.plain .drop (if r.pause.inForce then .paused else .schedule), s)
    else
      let c := s.resolveClass r.pinned (txClass d) (txTag d)
      let t := tokenTest s.time.ms c (txLength d) r
      if t.1 then
        ({ TxOutcome.plain .pass .none with cls := some c },
         s.putRecord (if c = .game then countGame t.2 else t.2))
      else ({ TxOutcome.plain .defer .shaped with cls := some c }, s.putRecord t.2)

/-- A defer record after an outcome for the descriptor at `addr`, and the outcome with a DEFER SHAPED that reaches the limit
turned into DROP SHAPED (R47, R48). -/
def deferStep (limit addr : Nat) (rec : Option Defer) (o : TxOutcome) : Option Defer × TxOutcome :=
  let held := match rec with
    | some q => decide (q.addr = addr)
    | none => false
  if o.action = .defer then
    let n := match rec with
      | some q => if q.addr = addr then q.count + 1 else 1
      | none => 1
    if limit ≤ n then (none, { o with action := .drop }) else (some { addr := addr, count := n }, o)
  else (if held then none else rec, o)

/-- The whole decision event of a held read in ring `t` at `addr`: the words returned and the state after (R40). -/
def State.transmit (ring addr : Nat) (d : List Word) (s : State) : List Word × State :=
  let j := s.judge d
  let q := deferStep s.policy.deferLimit addr (s.diu.defers.getD ring none) j.1
  (judgedWords d q.2, { j.2 with diu.defers := j.2.diu.defers.set ring q.1 })

/-- A held transmit read ends as DEFER LATE with the words of R45, and the TX late count rises (R49). -/
def State.endLate (h : InHand) (d : List Word) (s : State) : State :=
  ({ s with diu.txLate := s.diu.txLate + 1 } : State).endTxn h (.data (judgedWords d (.plain .defer .late)))

/-- TX_DESCRIPTOR_FETCH (R39): the eight words of an inspected read are there; with the ready flag clear they complete the
read as they are, with it set the read is held for a decision, or is late where its hold has expired meanwhile (R3, R49). -/
def execTxDescriptorFetch (s : State) : Host.Outcome State Fault Refusal :=
  match s.ptu.inHand with
  | some h =>
    match h.phase with
    | .fetched d =>
      if txReady d then (if h.late then .next (s.endLate h d) else .next (s.toPhase h (.txHeld d)))
      else .next (s.endTxn h (.data d))
    | .readyLow | .routed | .sramWait _ | .sramBusy _ | .txHeld _ | .requestHeld | .flashHeld _ _
    | .stagingHeld => .next s
  | none => .next s

/-- TRANSMIT_DECISION (R40 to R48): the decision of the held transmit read, and its completion. The read completes with the decision
(R40), and the table has one row for both; R50 speaks of a moment when the decision has occurred and only the return of the words
remains, at which RESTART_IN ends the read with ERR and the effects stand. Left open and settled here: that moment has no length, and
no command falls into it (DESIGN CHOICE, log 48). -/
def execTransmitDecision (s : State) : Host.Outcome State Fault Refusal :=
  match s.ptu.inHand with
  | some h =>
    match h.phase, h.window with
    | .txHeld d, some w =>
      let r := s.transmit w.ringId h.txn.addr d
      .next (r.2.endTxn h (.data r.1))
    | _, _ => .next s
  | none => .next s

/-- TX_HOLD_EXPIRY (R3, R49): the inspection hold limit expires before the decision; DEFER LATE, and the TX late count. Where
the words are still to come from SRAM the expiry is kept with the read, and decides once they are there (log 21). -/
def execTxHoldExpiry (s : State) : Host.Outcome State Fault Refusal :=
  match s.ptu.inHand with
  | some h =>
    match h.phase with
    | .txHeld d => .next (s.endLate h d)
    | .fetched d => if txReady d then .next (s.endLate h d) else .next s
    | .sramWait .inspected | .sramBusy .inspected =>
      .next { s with ptu.inHand := some { h with heldUs := max h.heldUs s.ptu.inspectLimit, late := true } }
    | .readyLow | .routed | .sramWait _ | .sramBusy _ | .requestHeld | .flashHeld _ _
    | .stagingHeld => .next s
  | none => .next s

/-! ## Capture (R51, R52) -/

/-- The descriptor address a write falls in: its start address rounded down to a multiple of 32. -/
def descriptorOf (t : Transaction) : Nat := t.addr / 32 * 32

/-- Word `i` of a capture record becomes seen with a value, or not seen; word 0 is not kept. -/
def setSeen (i : Nat) (v : Option Word) (ws : List (Option Word)) : List (Option Word) :=
  if i = 0 then ws else ws.set (i - 1) v

/-- A write writes nothing but word 0 of its descriptor. -/
def onlyWordZero (t : Transaction) : Bool :=
  match t.form with
  | .single _ => decide (wordBase t.addr = descriptorOf t)
  | .burst _ => false

/-- A closing write (R52): word 0 of a descriptor as a full word with the done flag set, alone or first in a burst. -/
def closingWrite (t : Transaction) : Bool :=
  match t.fullWords with
  | (a, w) :: _ => decide (a % 32 = 0) && rxDone w
  | [] => false

/-- A capture record after an observed write: it belongs to the write's descriptor, and takes words 1 to 7 (R51). A write of word 0
alone that closes nothing leaves it as it was (R52; log 22). -/
def captureWrite (c : Capture) (t : Transaction) : Capture :=
  if onlyWordZero t = true ∧ closingWrite t = false then c
  else
    let base := descriptorOf t
    let c0 : Capture := if c.addr = some base then c else { Capture.empty with addr := some base }
    let ws := t.fullWords.foldl (fun ws p => setSeen ((p.1 - base) / 4) (some p.2) ws) c0.words
    { c0 with
      words := match t.partWord with
        | some a => setSeen ((a - base) / 4) none ws
        | none => ws }

/-- The capture record of an RX ring. -/
def State.captureOf (s : State) (ring : Nat) : Capture := s.diu.captures.getD ring Capture.empty

/-- Put a capture record. -/
def State.putCapture (ring : Nat) (c : Capture) (s : State) : State :=
  { s with diu.captures := s.diu.captures.set ring c }

/-! ## Peer report queue (R57, R58) -/

/-- Bytes of the buffer at the head that its fetch reads: the header, then the entries used. -/
def Fetch.span (f : Fetch) : Nat :=
  match f.taken with
  | .none => 16
  | some (_, used) => 16 + 12 * used

/-- Issue the next read of the buffer at the queue's head (R58). -/
def State.issueFetch (s : State) : State :=
  match s.diu.peerQueue with
  | [] => s
  | b :: _ =>
    let n := s.diu.fetch.bytes.length
    s.issue { kind := .peerFetch, addr := b.addr + n, data := []
              len := readLength (b.addr + n) (s.diu.fetch.span - n) }

/-- The buffer at the head is done or ignored: it leaves the queue and the next fetch begins (R58). -/
def State.endFetch (s : State) : State :=
  { s with diu.peerQueue := s.diu.peerQueue.tail, diu.fetch := Fetch.none }.issueFetch

/-- A PEER_REPORT buffer is put to the queue (R57). -/
def State.queuePeer (b : PeerBuffer) (s : State) : State :=
  if b.addr % 4 ≠ 0 ∨ (0 < b.len ∧ 0x8000000 < b.addr + b.len) then s.raise (.peerReportIgnored .address)
  else if b.len < 16 then s.raise (.peerReportIgnored .short)
  else if 4 ≤ s.diu.peerQueue.length then s.raise (.peerReportIgnored .queueFull)
  else
    let s1 : State := { s with diu.peerQueue := s.diu.peerQueue ++ [b] }
    if s.diu.peerQueue.isEmpty then s1.issueFetch else s1

/-! ## The receive decision (R53 to R56) -/

/-- The words the decision needs (R53). -/
def neededWords (k : RxKind) : List Nat :=
  if k = .peerReport then [1, 2, 3, 4, 5] else [3, 4, 5]

/-- Word `i` (1 to 7) as the capture record has it. -/
def Capture.word (c : Capture) (i : Nat) : Option Word := c.words.getD (i - 1) none

/-- Every word the decision needs is seen. -/
def Capture.complete (c : Capture) (k : RxKind) : Bool := (neededWords k).all (fun i => (c.word i).isSome)

/-- The gate check (R54). -/
def State.gated (s : State) (k : RxKind) (m : Mac) : Bool :=
  k == .data &&
    (match s.recordOf m with
     | some r => decide (r.level = 0)
     | none => false)

/-- The decision event of a closing write in ring `ring` whose word 0 is `w0` and whose words 1 to 7 are `word`: the gate
check's answer, and the state after the capture record is cleared and the observation or the buffer handed on (R54, R55). -/
def State.receive (ring : Nat) (w0 : Word) (word : Nat → Word) (s : State) : Bool × State :=
  let k := rxKind w0
  let m := macOfWords (word 3) (word 4)
  let s1 := s.putCapture ring Capture.empty
  (s.gated k m,
   if k = .peerReport then s1.queuePeer { addr := field (word 2) 0 28, len := field (word 1) 0 14 }
   else (s1.observe m k).sample m (rxSignal (word 5)))

/-- The closing write in hand with its ring window, when it has been handed to the DIU. -/
def State.rxInHand (s : State) (closing : Bool) : Option (InHand × Window) :=
  match s.routedTo .rxRing .write with
  | some (h, w) => if closingWrite h.txn = closing then some (h, w) else none
  | none => none

/-- RX_RING_WRITE (R51, R52): an observed write that is no closing write is taken into the capture record and goes to
SRAM. -/
def execRxRingWrite (s : State) : Host.Outcome State Fault Refusal :=
  match s.rxInHand false with
  | some (h, w) =>
    .next ((s.putCapture w.ringId (captureWrite (s.captureOf w.ringId) h.txn)).toPhase h (.sramWait .plain))
  | none => .next s

/-- The words of the decision under the grant (R53): those the capture record holds for this descriptor, the missing ones
from the fill read. -/
def State.filledWord (s : State) (ring : Nat) (t : Transaction) (i : Nat) : Word :=
  let c := s.captureOf ring
  let fill := s.sramWord (descriptorOf t + 4 * i)
  if c.addr = some (descriptorOf t) then (c.word i).getD fill else fill

/-- The fill read of the closing write that holds the port returns, and its decision is taken under the write's one grant (R17,
R53); nothing happens where none is under way. -/
def State.endFill (s : State) : State :=
  match s.ptu.inHand with
  | some h =>
    match h.phase, h.window with
    | .sramBusy .closingFill, some w =>
      let r := s.receive w.ringId (h.txn.data.getD 0 0) (s.filledWord w.ringId h.txn)
      r.2.toPhase h (.sramBusy (.closingWrite r.1))
    | _, _ => s
  | none => s

/-- RX_CLOSING_WRITE (R52, R53): the closing write's other words are captured; with every needed word seen for its
descriptor the decision event is taken at once and the write requests the port, else it requests the port for its fill
read. Under that grant it is the fill read's return, with the decision (log 32). -/
def execRxClosingWrite (s : State) : Host.Outcome State Fault Refusal :=
  match s.rxInHand true with
  | some (h, w) =>
    let c := captureWrite (s.captureOf w.ringId) h.txn
    let s1 := s.putCapture w.ringId c
    let w0 := h.txn.data.getD 0 0
    if c.complete (rxKind w0) = true then
      let r := s1.receive w.ringId w0 (fun i => (c.word i).getD 0)
      .next (r.2.toPhase h (.sramWait (.closingWrite r.1)))
    else .next (s1.toPhase h (.sramWait .closingFill))
  | none => .next s.endFill

/-- Where a held closing write goes when its hold expires before its decision (R56): to the port to be written as it is, or, with
the port held for its fill read, to that write within the grant. -/
def Phase.unmodified : Phase → Option Phase
  | .routed | .sramWait .closingFill => some (.sramWait (.closingWrite false))
  | .sramBusy .closingFill => some (.sramBusy (.closingWrite false))
  | .readyLow | .sramWait _ | .sramBusy _ | .fetched _ | .txHeld _ | .requestHeld | .flashHeld _ _ | .stagingHeld => none

/-- RX_HOLD_EXPIRY (R56): the inspection hold limit expires before the decision; the write goes to SRAM unmodified, the RX
late count increases, the capture record is cleared and nothing is handed on. -/
def execRxHoldExpiry (s : State) : Host.Outcome State Fault Refusal :=
  match s.ptu.inHand with
  | some h =>
    match h.window, h.phase.unmodified with
    | some w, some p =>
      if w.kind = .rxRing ∧ closingWrite h.txn = true then
        .next (({ s with diu.rxLate := s.diu.rxLate + 1 }.putCapture w.ringId Capture.empty).toPhase
          { h with heldUs := max h.heldUs s.ptu.inspectLimit } p)
      else .next s
    | _, _ => .next s
  | none => .next s

/-! ## Peer fetches (R58, R59) -/

/-- The internal access of a kind on the port, and whether a node restart has overtaken it. -/
def State.portAccess (s : State) (k : InternalKind) : Option (InternalAccess × Bool) :=
  match s.ptu.port with
  | .internal a abandoned => if a.kind = k then some (a, abandoned) else none
  | .free => none
  | .passThrough => none

/-- An internal access completes: a write reaches SRAM, and the port is free. -/
def State.finishAccess (a : InternalAccess) (s : State) : State :=
  { s.storeSram (cellsAt a.addr a.data) with ptu.port := .free }

/-- Entry `i` (from 0) of the bytes read of a buffer. -/
def entryAt (bytes : List Byte) (i : Nat) : PeerEntry := peerEntry ((bytes.drop (16 + 12 * i)).take 12)

/-- The header is complete: format and node id are judged, and the number of entries used is fixed (R58, R137). A report is raised
before the next read is issued (DESIGN CHOICE, log 37). -/
def State.takeHeader (b : PeerBuffer) (s : State) : State :=
  let bytes := s.diu.fetch.bytes
  let node := (bytes.getD 1 0).toNat
  if bytes.getD 0 0 ≠ 1#8 then (s.raise (.peerReportIgnored .format)).endFetch
  else if node = s.suc.node then (s.raise (.peerReportIgnored .ownNode)).endFetch
  else if 7 < node then (s.raise (.peerReportIgnored .badNode)).endFetch
  else
    let used := min (bytes.getD 2 0).toNat (min 32 ((b.len - 16) / 12))
    if used = 0 then s.endFetch else { s with diu.fetch.taken := some (node, used) }.issueFetch

/-- Entries whose 12 bytes are there are handed to the RMU in buffer order, up to the number used (R58); their reports are raised
before the next read is issued (DESIGN CHOICE, log 37). -/
def State.handEntries (node used : Nat) (s : State) : State :=
  let f := s.diu.fetch
  let ready := min used ((f.bytes.length - 16) / 12)
  let s1 := (List.range (ready - f.handed)).foldl
    (fun s i => s.peerEstimate node (entryAt f.bytes (f.handed + i))) s
  if used ≤ ready then s1.endFetch else { s1 with diu.fetch.handed := ready }.issueFetch

/-- PEER_FETCH_READ_DONE (R58, R59): a read of the buffer at the head completes with the bytes SRAM holds now; a read that a
restart has overtaken is discarded. -/
def execPeerFetchReadDone (s : State) : Host.Outcome State Fault Refusal :=
  match s.portAccess .peerFetch with
  | some (a, abandoned) =>
    let s1 := s.finishAccess a
    match abandoned, s.diu.peerQueue with
    | true, _ => .next s1.joinBehind
    | false, [] => .next s1
    | false, b :: _ =>
      let s2 : State := { s1 with diu.fetch.bytes := s1.diu.fetch.bytes ++ s.sramBytes a.addr a.len }
      match s2.diu.fetch.taken with
      | some (node, used) => .next (s2.handEntries node used)
      | none => if s2.diu.fetch.bytes.length < 16 then .next s2.issueFetch else .next (s2.takeHeader b)
  | none => .next s

end Sys2Proof.Machine
end

