-- ==== Sys2Proof/Machine/SramPort.lean ====
section
/-! DEFINITION. The SRAM-port arbiter (section 1.5): the meanings of SRAM_PORT_GRANT and PASS_THROUGH_SRAM_DONE. -/
namespace Sys2Proof.Machine

/-- The pass-through transaction that waits for the SRAM port, with its work there. -/
def State.waitingPass (s : State) : Option (InHand × SramWork) :=
  match s.ptu.inHand with
  | some h =>
    match h.phase with
    | .sramWait w => some (h, w)
    | .readyLow | .routed | .sramBusy _ | .fetched _ | .txHeld _ | .requestHeld | .flashHeld _ _
    | .stagingHeld => none
  | none => none

/-- The port is granted to the queue's oldest entry (R16). -/
def State.grantInternal (q : Queued) (rest : List Queued) (s : State) : State :=
  { s with ptu.queue := rest, ptu.port := .internal q.access false }

/-- The port is granted to the pass-through transaction, and every queued entry's wait count increases by one (R16). -/
def State.grantPass (h : InHand) (work : SramWork) (s : State) : State :=
  { s with
    ptu.port := .passThrough
    ptu.queue := s.ptu.queue.map (fun q => { q with wait := q.wait + 1 })
    ptu.inHand := some { h with phase := .sramBusy work } }

/-- SRAM_PORT_GRANT (R18): the free port goes to the oldest internal access when no pass-through transaction waits or its
wait count is 8, else to the pass-through transaction. A closing write that needs a fill read then has it under way; it ends
by RX_CLOSING_WRITE with the decision, or by RX_HOLD_EXPIRY (R53, R56; log 32). -/
def execSramPortGrant (s : State) : Host.Outcome State Fault Refusal :=
  match s.ptu.port with
  | .free =>
    match s.waitingPass, s.ptu.queue with
    | some (h, work), [] => .next (s.grantPass h work)
    | none, q :: rest => .next (s.grantInternal q rest)
    | some (h, work), q :: rest =>
      if 8 ≤ q.wait then .next (s.grantInternal q rest) else .next (s.grantPass h work)
    | none, [] => .next s
  | .passThrough => .next s
  | .internal _ _ => .next s

/-- A closing write with DISCARD in place of DATA in the kind field of word 0 (R54). -/
def discardWrite (t : Transaction) : Transaction := { t with data := t.data.set 0 (discardWord (t.data.getD 0 0)) }

/-- A plain access completes at the SRAM: a read with its data, a write stored and acknowledged (R2, R17). -/
def State.completePlain (h : InHand) (s : State) : State :=
  match h.txn.dir with
  | .read => s.endTxn h (.data (s.sramRead h.txn))
  | .write => (s.storeSram h.txn.cells).endTxn h .ack

/-- PASS_THROUGH_SRAM_DONE (R17): the SRAM work of the granted transaction completes and the port is released; an inspected
read goes on to the DIU with its eight words. While a fill read is under way the work is not complete. -/
def execPassThroughSramDone (s : State) : Host.Outcome State Fault Refusal :=
  match s.ptu.port, s.ptu.inHand with
  | .passThrough, some h =>
    let s1 : State := { s with ptu.port := .free }
    match h.phase with
    | .sramBusy .plain | .sramBusy .requestWrite => .next (s1.completePlain h)
    | .sramBusy .inspected => .next (s1.toPhase h (.fetched (s.sramRead h.txn)))
    | .sramBusy (.closingWrite true) => .next ((s1.storeSram (discardWrite h.txn).cells).endTxn h .ack)
    | .sramBusy (.closingWrite false) => .next ((s1.storeSram h.txn.cells).endTxn h .ack)
    | .sramBusy .closingFill | .readyLow | .routed | .sramWait _ | .fetched _ | .txHeld _ | .requestHeld | .flashHeld _ _
    | .stagingHeld => .next s
  | _, _ => .next s

end Sys2Proof.Machine
end

