-- ==== Sys2Proof/Machine/ControlArea.lean ====
section
/-! DEFINITION. The Control Area Unit's own rows (chapter 2): control-area writes, the consumer index, the class map, the node
policy record, and the completions of result, report, producer index and status writes. -/
namespace Sys2Proof.Machine

/-- CONTROL_WRITE (R21, R22): a permitted write with no behaviour of its own goes to SRAM and updates the shadow. -/
def execControlWrite (s : State) : Host.Outcome State Fault Refusal :=
  match s.controlFor .plain with
  | some (h, w) => .next (s.absorb h w)
  | none => .next s

/-- The distance from one index forward to another, modulo N (R32). -/
def distance (n a b : Nat) : Nat := (b + n - a) % n

/-- A proposed consumer index is accepted (R32). -/
def State.accepts (s : State) (c : Nat) : Bool :=
  decide (c < s.ringSize)
    && decide (distance s.ringSize s.cau.consumer c ≤ distance s.ringSize s.cau.consumer s.cau.published)

/-- The shadow's consumer index word is taken as a proposal (R32, R33). -/
def State.takeConsumer (s : State) : State :=
  let c := (s.shadowWord 0x40).toNat
  if s.accepts c then (({ s with cau.consumer := c } : State).driveAttn).pumpReports else s

/-- CONSUMER_INDEX_WRITE (R23, R32, R33). -/
def execConsumerIndexWrite (s : State) : Host.Outcome State Fault Refusal :=
  match s.controlFor .consumerIndex with
  | some (h, w) => .next (s.absorb h w).takeConsumer
  | none => .next s

/-- CLASS_MAP_WRITE (R23, R86, R87): each entry byte the write copied is handed to the CGU with its entry number. -/
def execClassMapWrite (s : State) : Host.Outcome State Fault Refusal :=
  match s.controlFor .classMap with
  | some (h, w) =>
    .next ((s.absorb h w).storeClasses
      (((shadowCells w.base h.txn).filter (fun c => isClassByte c.1)).map (fun c => (c.1 - 0x0400, c.2))))
  | none => .next s

/-- What a new policy does to one record (R96, R109): a changed reference rate recomputes the records of profiles with
ceiling 0; a lowered sustain or linger setting cuts what stands above it. `s1` holds the new values. -/
def State.policyRecord (s s1 : State) (r : Station) : Station :=
  let p := s1.policy
  let r1 :=
    if p.refRate ≠ s.policy.refRate ∧ (s.profileOf r.profile).ceiling = 0 then s1.rateChange r else r
  { r1 with
    sustain := if p.sustain < s.policy.sustain then min p.sustain r1.sustain else r1.sustain
    linger := if p.linger < s.policy.linger ∧ r1.gameActive = true then min p.linger r1.linger else r1.linger }

/-- The node policy values are handed to their units at once (R25). -/
def State.takePolicy (p : Policy) (s : State) : State :=
  let s1 : State := { s with policy := p }
  let s2 : State := { s1 with stu.stations := s.stu.stations.map (s.policyRecord s1) }
  if p.factor = s.policy.factor then s2 else s2.markAll

/-- NODE_POLICY_RECORD (R24, R25): the sixteen words are taken from the shadow and clamped field by field. -/
def execNodePolicyRecord (s : State) : Host.Outcome State Fault Refusal :=
  match s.controlFor .policy with
  | some (h, w) =>
    let s1 := s.absorb h w
    .next (s1.takePolicy (policyOfWords (s1.shadowWords 0x80 16)))
  | none => .next s

/-- The closing write of the request slot that has come while a result was pending: held, or with its row still to come (R29). -/
def State.heldRequest (s : State) : Option (InHand × Window) :=
  match s.controlFor .request, s.ptu.inHand with
  | some x, _ => some x
  | none, some h => if h.phase = .requestHeld then h.window.map (fun w => (h, w)) else none
  | none, none => none

/-- A closing write held while a result was pending is taken up: shadow, SRAM and request (R29). It is held until it completes (R5). -/
def State.takeUpRequest (s : State) : State :=
  match s.heldRequest with
  | some (h, w) => (s.absorb h w).takeRequest.toPhase h (.sramWait .requestWrite)
  | none => s

/-- RESULT_WRITE_DONE (R28, R29): the result word reaches SRAM, the slot becomes FREE, and a held closing write is taken
up. -/
def execResultWriteDone (s : State) : Host.Outcome State Fault Refusal :=
  match s.portAccess .result with
  | some (a, abandoned) =>
    let s1 := s.finishAccess a
    if abandoned then .next s1.joinBehind else .next ({ s1 with cau.slot := .free }.takeUpRequest)
  | none => .next s

/-- REPORT_BODY_WRITE_DONE (R31): the record reaches its ring slot and leaves the queue, the write index advances, and the
producer index write is issued. -/
def execReportBodyWriteDone (s : State) : Host.Outcome State Fault Refusal :=
  match s.portAccess .reportBody with
  | some (a, abandoned) =>
    let s1 := s.finishAccess a
    if abandoned then .next s1.joinBehind
    else
      let n := (s1.cau.writeIdx + 1) % s1.ringSize
      .next ({ s1 with cau.pending := s1.cau.pending.tail, cau.writeIdx := n, cau.path := .index }.issue
        { kind := .producerIndex, addr := s1.controlBase + 0x2080, data := bytesOfWord (BitVec.ofNat 32 n), len := 0 })
  | none => .next s

/-- PRODUCER_INDEX_WRITE_DONE (R31, R33, R34): the published index takes the value written, ATTN follows, and the next record
is written where there is room. -/
def execProducerIndexWriteDone (s : State) : Host.Outcome State Fault Refusal :=
  match s.portAccess .producerIndex with
  | some (a, abandoned) =>
    let s1 := s.finishAccess a
    if abandoned then .next s1.joinBehind
    else .next (({ s1 with cau.published := s1.cau.writeIdx, cau.path := .idle } : State).driveAttn).pumpReports
  | none => .next s

/-- STATUS_WRITE_DONE (R35, R36): one write of the status block reaches SRAM, and the next of the refresh is issued. -/
def execStatusWriteDone (s : State) : Host.Outcome State Fault Refusal :=
  match s.portAccess .status with
  | some (a, abandoned) =>
    let s1 := s.finishAccess a
    if abandoned then .next s1.joinBehind else .next ({ s1 with cau.statusOut := false }.pumpStatus)
  | none => .next s

end Sys2Proof.Machine
end

