-- ==== Sys2Proof/Machine/Staging.lean ====
section
/-! DEFINITION. The Image Unit's session (chapter 9, sections 9.3 to 9.7, and section 10.1): its requests, the STAGING window,
page buffers, the ends of the session's programs and erases, and writes into the flash windows. -/
namespace Sys2Proof.Machine

/-! ## Layout of the flash (R157) -/

/-- Bytes of a slot: 125 sectors. -/
def slotBytes : Nat := 8192000

/-- Base of a slot. -/
def slotBase : Slot → Nat
  | .a => 0x060000
  | .b => 0x830000

/-- The other slot. -/
def Slot.other : Slot → Slot
  | .a => .b
  | .b => .a

/-- Target base (R157). -/
def targetBase : Target → Nat
  | .image sl => slotBase sl
  | .config => 0x040000

/-- The session's target base; 0 while it has no target. -/
def Session.base (n : Session) : Nat :=
  match n.target with
  | some t => targetBase t
  | none => 0

/-- The length rounded up to a word, in words (R164, R170). -/
def Session.wordsNeeded (n : Session) : Nat := ceilDiv n.length 4

/-! ## Requests (R163, R170, R173, R178, R181) -/

/-- The session begun by an accepted IMAGE_OPEN, before it enters RECEIVING (R163). -/
def openSession (mapping : Slot) (q : Request) : Session :=
  { Session.idle with
    target := some (if q.arg 0 = 1 then .image mapping.other else .config)
    length := q.arg 1
    expCrc := q.args.getD 2 0
    version := q.args.getD 3 0
    needed := ceilDiv (q.arg 1) 65536 }

/-- The arguments of an IMAGE_OPEN are in range (R163, step 2). -/
def openInRange (q : Request) : Bool :=
  if q.arg 0 = 1 then decide (1 ≤ q.arg 1) && decide (q.arg 1 ≤ slotBytes)
  else if q.arg 0 = 2 then decide (64 ≤ q.arg 1) && decide (q.arg 1 ≤ 65536)
  else false

/-- IMAGE_OPEN (R163): STATE, then RANGE, else RECEIVING with the sectors needed as detail. As with the four requests below, its
IMAGE_STATE is raised before the answer (DESIGN CHOICE, log 37). -/
def execImageOpen (s : State) : Host.Outcome State Fault Refusal :=
  .next (s.onRequest (fun k => k == 7#32) (fun q s =>
    if (s.imu.session.state ≠ .idle ∧ s.imu.session.state ≠ .failed) ∨ s.suc.boot = .trial then s.answer q .state 0
    else if openInRange q then
      let n := openSession s.ptu.mapping q
      (({ s with imu.session := n } : State).enterSession .receiving .none).answer q .done n.needed
    else s.answer q .range 0))

/-- A page buffer that is not full is filled up with 0xFF and joins the program queue (R170). -/
def Session.padPage (n : Session) : Session :=
  if n.current.isEmpty then n
  else
    { n with
      current := []
      queue := n.queue ++ [{ page := (4 * n.nextWord - n.current.length) / 256
                             bytes := n.current ++ List.replicate (256 - n.current.length) 0xFF }] }

/-- IMAGE_CLOSE (R170): in RECEIVING with every byte accepted; the last page is padded and the session enters CLOSING; its
IMAGE_STATE is raised before the answer (DESIGN CHOICE, log 37). -/
def execImageClose (s : State) : Host.Outcome State Fault Refusal :=
  .next (s.onRequest (fun k => k == 8#32) (fun q s =>
    if s.imu.session.state = .receiving ∧ s.imu.session.nextWord = s.imu.session.wordsNeeded then
      (({ s with imu.session := s.imu.session.padPage } : State).enterSession .closing .none).answer q .done 0
    else s.answer q .state 0))

/-- An operation on the port that was started for the session: it runs to its end and its outcome is ignored (R173, R177). -/
def FlashPort.disown : FlashPort → FlashPort
  | .busy o => .busy { o with owner := if o.owner = .session then .pastSession else o.owner }
  | .reading p live a n => .reading p (if p = .verify then false else live) a n
  | .free => .free

/-- The session ends in IDLE: buffers and queue emptied, its operation on the port disowned (R173). -/
def State.dropSession (s : State) : State :=
  { s with imu.session := s.imu.session.ended, imu.port := s.imu.port.disown }

/-- Drain mode is cleared by a session that leaves DRAINING (R151). -/
def State.leaveDraining (s : State) : State :=
  if s.imu.session.state = .draining then s.setDrain false else s

/-- The states in which IMAGE_ABORT is accepted (R173). -/
def SessionState.abortable : SessionState → Bool
  | .receiving | .closing | .verified | .failed | .armed | .draining => true
  | .idle | .committing | .committed => false

/-- IMAGE_ABORT (R173): to IDLE with reason ABORTED; the report carries the pages and version the session had; its
IMAGE_STATE is raised before the answer (DESIGN CHOICE, log 37). -/
def execImageAbort (s : State) : Host.Outcome State Fault Refusal :=
  .next (s.onRequest (fun k => k == 9#32) (fun q s =>
    if s.imu.session.state.abortable then
      ((s.leaveDraining.enterSession .idle .aborted).dropSession).answer q .done 0
    else s.answer q .state 0))

/-- The target is an image. -/
def Session.image (n : Session) : Bool :=
  match n.target with
  | some (.image _) => true
  | some .config => false
  | none => false

/-- ACTIVATE (R178): STATE, then RANGE, else ARMED with the flags NOW (bit 0) and FORCE (bit 1); its
IMAGE_STATE is raised before the answer (DESIGN CHOICE, log 37). -/
def execActivate (s : State) : Host.Outcome State Fault Refusal :=
  .next (s.onRequest (fun k => k == 10#32) (fun q s =>
    if s.imu.session.state ≠ .verified ∨ s.imu.session.image = false then s.answer q .state 0
    else if 3 < q.arg 0 then s.answer q .range 0
    else
      let n := { s.imu.session with now := bit (q.args.getD 0 0) 0, force := bit (q.args.getD 0 0) 1 }
      (({ s with imu.session := n } : State).enterSession .armed .none).answer q .done 0))

/-- ACTIVATE_CANCEL (R181): from ARMED or DRAINING back to VERIFIED, flags and countdown forgotten; its
IMAGE_STATE is raised before the answer (DESIGN CHOICE, log 37). -/
def execActivateCancel (s : State) : Host.Outcome State Fault Refusal :=
  .next (s.onRequest (fun k => k == 11#32) (fun q s =>
    if s.imu.session.state = .armed ∨ s.imu.session.state = .draining then
      let s1 := s.leaveDraining
      let n := { s1.imu.session with now := false, force := false, drainLeft := 0 }
      (({ s1 with imu.session := n } : State).enterSession .verified .cancelled).answer q .done 0
    else s.answer q .state 0))

/-! ## STAGING writes (R164 to R167) -/

/-- What the IMU does with a STAGING write. -/
inductive StagingAnswer where
  | protect | refuse | accept | hold
deriving DecidableEq, Repr

/-- Word offset in a window of the word at an address. -/
def wordOffset (base a : Nat) : Nat := (wordBase a - base) / 4

/-- The acceptance tests of R164 and R165 in RECEIVING, without the page buffer. -/
def Session.fits (n : Session) (base : Nat) (t : Transaction) : Bool :=
  let words := t.fullWords.length
  decide (0 < words) && decide (wordOffset base t.addr = n.nextWord)
    && decide (4 * (n.nextWord + words - 1) < n.length)

/-- The answer to a STAGING write (R15, R164 to R166). -/
def Session.judgeWrite (n : Session) (base : Nat) (t : Transaction) : StagingAnswer :=
  match n.state with
  | .idle => .protect
  | .receiving =>
    if n.fits base t then
      if 4 * n.nextWord % 256 = 0 ∧ n.freeBuffers = 0 then .hold else .accept
    else .refuse
  | .closing | .verified | .failed | .armed | .draining | .committing | .committed => .refuse

/-- The session after an accepted write of words (R164, R167, R168): bytes beyond the length are 0xFF in the buffer and not
in the CRC; a full buffer joins the program queue. -/
def Session.takeWords (n : Session) (ws : List Word) : Session :=
  let bytes := bytesOfWords ws
  let inside := bytes.take (n.length - 4 * n.nextWord)
  let current := n.current ++ inside ++ List.replicate (bytes.length - inside.length) 0xFF
  let next := n.nextWord + ws.length
  let n1 := { n with nextWord := next, crc := crcBytes n.crc inside, refused := false }
  if 256 ≤ current.length then
    { n1 with current := [], queue := n.queue ++ [{ page := (4 * next - 1) / 256, bytes := current }] }
  else { n1 with current := current }

/-- An accepted STAGING write is taken whole and acknowledged. -/
def State.acceptStaging (h : InHand) (s : State) : State :=
  ({ s with imu.session := s.imu.session.takeWords (h.txn.fullWords.map Prod.snd) } : State).endTxn h .ack

/-- A refused STAGING write is acknowledged and discarded, and the refused flag is set (R165). -/
def State.refuseStaging (h : InHand) (s : State) : State :=
  ({ s with imu.session := { s.imu.session with refused := true } } : State).endTxn h .ack

/-- STAGING_WRITE (R15, R164 to R166). -/
def execStagingWrite (s : State) : Host.Outcome State Fault Refusal :=
  match s.routedTo .staging .write with
  | some (h, w) =>
    match s.imu.session.judgeWrite w.base h.txn with
    | .protect => .next ((s.endTxn h .ack).protectEvent w h.txn)
    | .refuse => .next (s.refuseStaging h)
    | .accept => .next (s.acceptStaging h)
    | .hold => .next (s.toPhase h .stagingHeld)
  | none => .next s

/-- STAGING_WRITE_HOLD_EXPIRY (R166): the held write is acknowledged and refused. -/
def execStagingWriteHoldExpiry (s : State) : Host.Outcome State Fault Refusal :=
  match s.ptu.inHand with
  | some h => if h.phase = .stagingHeld then .next (s.refuseStaging h) else .next s
  | none => .next s

/-- A page buffer has become free: a write held for one is accepted (R166). -/
def State.releaseStaging (s : State) : State :=
  match s.ptu.inHand with
  | some h =>
    match h.phase, h.window with
    | .stagingHeld, some w =>
      if s.imu.session.judgeWrite w.base h.txn = .accept then s.acceptStaging h else s
    | _, _ => s
  | none => s

/-! ## STAGING reads (R169) -/

/-- A program, erase or verify READ started for a session is in progress or suspended (R169). -/
def FlashPort.sessionWork : FlashPort → Bool
  | .busy o => o.owner == .session || o.owner == .pastSession
  | .reading p _ _ _ => p == .verify
  | .free => false

/-- A read returns at least one progress word: every burst does, a single access at an even word offset. -/
def readsProgress (base : Nat) (t : Transaction) : Bool :=
  match t.form with
  | .single _ => decide (wordOffset base t.addr % 2 = 0)
  | .burst _ => true

/-- The words of a STAGING read: progress at even word offsets, detail at odd ones. -/
def State.stagingData (s : State) (base : Nat) (t : Transaction) : List Word :=
  t.readData (fun i => if (wordOffset base t.addr + i) % 2 = 0 then s.progressWord else s.detailWord)

/-- STAGING_READ (R15, R169): outside IDLE, progress and detail words with the busy toggle after its flip. -/
def execStagingRead (s : State) : Host.Outcome State Fault Refusal :=
  match s.routedTo .staging .read with
  | some (h, w) =>
    if s.imu.session.state = .idle then .next s
    else
      let flip := s.imu.port.sessionWork && readsProgress w.base h.txn
      let s1 : State := { s with imu.toggle := s.imu.toggle != flip }
      .next (s1.endTxn h (.data (s1.stagingData w.base h.txn)))
  | none => .next s

/-! ## Flash windows (R175) -/

/-- The BOOT, CONFIG or IMAGE transaction handed to the IMU. -/
def State.flashRouted (s : State) (d : Dir) : Option (InHand × Window) :=
  match s.routedTo .boot d with
  | some x => some x
  | none =>
    match s.routedTo .config d with
    | some x => some x
    | none => s.routedTo .image d

/-- FLASH_WINDOW_WRITE (R13, R14, R175): acknowledged and discarded, with a PROTECT event. -/
def execFlashWindowWrite (s : State) : Host.Outcome State Fault Refusal :=
  match s.flashRouted .write with
  | some (h, w) => .next ((s.endTxn h .ack).protectEvent w h.txn)
  | none => .next s

/-! ## Ends of the session's operations (R167, R171, R172) -/

/-- The session still takes the outcomes of its programs and erases (R172). -/
def Session.working (n : Session) : Bool := n.state == .receiving || n.state == .closing

/-- A session program ends with success: one page more, its buffer free, a held write accepted (R166, R167). -/
def State.pageProgrammed (s : State) : State :=
  State.releaseStaging
    { s with imu.session := { s.imu.session with pages := s.imu.session.pages + 1, queue := s.imu.session.queue.tail } }

/-- A session erase ends with success (R167). -/
def State.sectorErased (s : State) : State :=
  { s with imu.session := { s.imu.session with sectors := s.imu.session.sectors + 1 } }

/-- The outcome of a program or erase reaches the session (R167, R172). -/
def State.sessionOutcome (work : FlashWork) (fail : Bool) (s : State) : State :=
  if s.imu.session.working then
    if fail then s.failSession .flashFault
    else
      match work with
      | .program _ _ => s.pageProgrammed
      | .erase _ => s.sectorErased
  else s

/-- The readback is over: the three CRCs decide (R171). -/
def State.judgeReadback (s : State) : State :=
  let n := s.imu.session
  if n.rbCrc ≠ n.crc then s.failSession .readbackMismatch
  else if crcOf n.crc ≠ n.expCrc then s.failSession .crcMismatch
  else s.enterSession .verified .none

/-- Bytes of a verify READ are taken into the readback CRC, and the last one brings the comparison (R171). -/
def State.takeReadback (bytes : List Byte) (s : State) : State :=
  let n := s.imu.session
  let s1 : State :=
    { s with imu.session := { n with rbCrc := crcBytes n.rbCrc bytes, rbPos := n.rbPos + bytes.length } }
  if n.length ≤ n.rbPos + bytes.length then s1.judgeReadback else s1

/-- VERIFY_READ_END (R171, R173): a verify READ returns; its bytes are discarded when the session that asked has ended. -/
def execVerifyReadEnd (flips : List Byte) (s : State) : Host.Outcome State Fault Refusal :=
  match s.imu.port with
  | .reading .verify live a n =>
    let s1 : State := { s with imu.port := .free }
    if live ∧ s.imu.session.state = .closing then .next (s1.takeReadback (s.flashRead a n flips)) else .next s1
  | .reading .passThrough _ _ _ | .reading .config _ _ _ | .reading .scan _ _ _ | .reading .readback _ _ _
  | .free | .busy _ => .next s

end Sys2Proof.Machine
end

