-- ==== Sys2Proof/Machine/StartUp.lean ====
section
/-! DEFINITION. The Start-Up Controller (chapter 10): loading and installing the configuration, the selector log with its scan
and appends, the decision of SELECTING, READY, the trial timer; and the meanings of LOADING_READ_STATUS, FLASH_NO_RESPONSE,
CONFIG_BLOCK_READ_END, SELECTOR_SCAN_READ_END, SELECTOR_READBACK_END, SELECTING_DECISION, BOOT_CONFIRM and TRIAL_EXPIRY. -/
namespace Sys2Proof.Machine

/-! ## LOADING (R186, R187) -/

/-- Base of the configuration block: sector 4. -/
def configBase : Nat := 0x040000

/-- Base of the selector log: sector 5. -/
def logBase : Nat := 0x050000

/-- The block's length as its header gives it. -/
def blockLength (bs : List Byte) : Nat := (byteWord bs 2).toNat

/-- The tests that the 16-byte header alone decides, in order: magic, format, length (R186). -/
def headerFault (bs : List Byte) : Option DefaultedReason :=
  if byteWord bs 0 ≠ 0x53374C43#32 then some .magic
  else if field (byteWord bs 1) 0 8 ≠ 1 then some .format
  else if blockLength bs < 64 ∨ 65536 < blockLength bs ∨ blockLength bs < 416 then some .length
  else none

/-- What a configuration installs (R187). -/
structure Install where
  windows      : List Window
  inspectLimit : Nat
  flashLimit   : Nat
  node         : Nat
  backhaul     : Nat
  trialWindow  : Nat
  maxAttempts  : Nat
deriving DecidableEq, Repr

/-- The built-in configuration (R187). -/
def builtIn : Install :=
  { windows := builtInMap, inspectLimit := 8, flashLimit := 100, node := 0, backhaul := 15, trialWindow := 300
    maxAttempts := 3 }

/-- The remaining tests, in order, on the whole block (R186): what it installs, or the reason it fails for. -/
def judgeBlock (bs : List Byte) (crc : Word) : Except DefaultedReason Install :=
  let g := fun i lo n => field (byteWord bs i) lo n
  if crcOf crc ≠ byteWord bs 3 then .error .crc
  else if 7 < g 4 0 8 then .error .node
  else if 15 < g 4 8 8 then .error .port
  else
    match windowsOfBlock bs with
    | none => .error .windows
    | some ws =>
      if mapValid ws then
        .ok { windows := ws, inspectLimit := clamp 2 32 (g 5 0 16), flashLimit := clamp 20 500 (g 5 16 16)
              node := g 4 0 8, backhaul := g 4 8 8, trialWindow := clamp 60 1800 (g 6 0 16)
              maxAttempts := clamp 1 7 (g 6 16 8) }
      else .error .windows

/-- A configuration is installed, the report ring begins, and the SUC enters SELECTING (R187, R34, R188). -/
def State.install (c : Install) (s : State) : State :=
  State.beginRing
    { s with
      ptu.windows := c.windows, ptu.inspectLimit := c.inspectLimit, ptu.flashLimit := c.flashLimit
      suc.node := c.node, suc.backhaul := c.backhaul, suc.trialWindow := c.trialWindow
      suc.maxAttempts := c.maxAttempts, suc.startUp := .selecting }

/-- The built-in configuration is installed for a reason, with CONFIG_DEFAULTED; NO_FLASH sets the flash-fault flag too
(R187), and the flash is taken as not responding in the SELECTING that follows (R184, R186; log 16). -/
def State.installDefaults (r : DefaultedReason) (s : State) : State :=
  let s1 := s.install builtIn
  let dead := decide (r = DefaultedReason.noFlash)
  { s1 with suc.defaulted := true, suc.flashFault := s1.suc.flashFault || dead, suc.noFlash := dead }.raise
    (.configDefaulted r)

/-- How long a flash may report busy at every READ_STATUS before it is taken as not responding, in µs (R186): 4 s. -/
def noResponseUs : Nat := 4000000

/-- The flash is taken as not responding: the built-in configuration with reason NO_FLASH (R186, R187). -/
def State.noResponse (s : State) : State :=
  ({ s with suc.loadUs := max s.suc.loadUs noResponseUs } : State).installDefaults .noFlash

/-- LOADING_READ_STATUS (R186): while the flash is busy another READ_STATUS follows; not busy, the header is read, unless the
4 s have passed before. -/
def execLoadingReadStatus (busy : Bool) (s : State) : Host.Outcome State Fault Refusal :=
  if s.suc.startUp = .loading ∧ s.suc.load = .status ∧ busy = false then
    if noResponseUs < s.suc.loadUs then .next s.noResponse else .next { s with suc.load := .header }
  else .next s

/-- FLASH_NO_RESPONSE (R186, R187): busy at every READ_STATUS for 4 s; due once the time in LOADING, counted in whole ticks, has
reached them (log 12). -/
def execFlashNoResponse (s : State) : Host.Outcome State Fault Refusal :=
  if s.suc.startUp = .loading ∧ s.suc.load = .status ∧ noResponseUs ≤ s.suc.loadUs then .next s.noResponse else .next s

/-- Bytes of the configuration block are taken: kept below offset 416, and from offset 16 on taken into the CRC. -/
def State.takeConfig (bytes : List Byte) (s : State) : State :=
  { s with
    suc.cfgBytes := (s.suc.cfgBytes ++ bytes).take 416
    suc.cfgCrc := crcBytes s.suc.cfgCrc (bytes.drop (16 - s.suc.cfgPos))
    suc.cfgPos := s.suc.cfgPos + bytes.length }

/-- After the bytes of one READ: the header's tests, or at the last byte the rest (R186). -/
def State.judgeConfig (s : State) : State :=
  match s.suc.load with
  | .status => s
  | .header =>
    if s.suc.cfgPos < 16 then s
    else
      match headerFault s.suc.cfgBytes with
      | some r => s.installDefaults r
      | none => { s with suc.load := .body }
  | .body =>
    if s.suc.cfgPos < blockLength s.suc.cfgBytes then s
    else
      match judgeBlock s.suc.cfgBytes s.suc.cfgCrc with
      | .error r => s.installDefaults r
      | .ok c => s.install c

/-- CONFIG_BLOCK_READ_END (R186, R187): a READ of the block returns in LOADING. -/
def execConfigBlockReadEnd (flips : List Byte) (s : State) : Host.Outcome State Fault Refusal :=
  match s.imu.port with
  | .reading .config _ a n =>
    let s1 : State := { s with imu.port := .free }
    if s.suc.startUp = .loading then .next (s1.takeConfig (s.flashRead a n flips)).judgeConfig else .next s1
  | .reading .passThrough _ _ _ | .reading .verify _ _ _ | .reading .scan _ _ _ | .reading .readback _ _ _
  | .free | .busy _ => .next s

/-- A block, with the CRC value over its bytes from offset 16 on, passes every test of R186. -/
def blockPasses (bs : List Byte) (crc : Word) : Bool :=
  (headerFault bs).isNone
    && (match judgeBlock bs crc with
        | .ok _ => true
        | .error _ => false)

/-- Sector 4 holds a valid configuration block: the one that LOADING finds by READs that return what the array holds (R186). -/
def State.blockValid (s : State) : Bool :=
  blockPasses (s.flashRead configBase 416 [])
    (crcBytes crcInit (s.flashRead (configBase + 16) (blockLength (s.flashRead configBase 416 []) - 16) []))

/-! ## The selector log (R184, R185) -/

/-- Of the newest entry so far and another valid entry at a later position, the newer: the higher sequence number; of equal
ones the manual does not say which (log 6). -/
def newer (best : Option (Nat × Entry)) (p : Nat) (e : Entry) : Option (Nat × Entry) :=
  match best with
  | none => some (p, e)
  | some (q, f) =>
    if f.seq.toNat < e.seq.toNat then some (p, e)
    else if f.seq = e.seq ∧ Config.tieNewest q p = true then some (p, e)
    else some (q, f)

/-- A scan takes the 16 bytes of the entry at a position (R184). -/
def scanEntry (sc : Scan) (p : Nat) (bs : List Byte) : Scan :=
  if entryErased bs then
    { sc with free := match sc.free with
        | none => some p
        | some q => some q }
  else
    match entryOfBytes bs with
    | some e => { sc with newest := newer sc.newest p e }
    | none => sc

/-- A scan takes the bytes of one READ, two entries. -/
def takeScan (sc : Scan) (bs : List Byte) : Scan :=
  let p := sc.pos / 16
  { scanEntry (scanEntry sc p (bs.take 16)) (p + 1) (bs.drop 16) with pos := sc.pos + bs.length }

/-- A scan that has read nothing. -/
def Scan.start : Scan := { pos := 0, newest := none, free := none }

/-- SELECTOR_SCAN_READ_END (R184): at the end of the sector the copy holds the newest entry and the append position, and the
stale mark is cleared. -/
def execSelectorScanReadEnd (flips : List Byte) (s : State) : Host.Outcome State Fault Refusal :=
  match s.imu.port with
  | .reading .scan live a n =>
    let s1 : State := { s with imu.port := .free }
    if live then
      let sc := takeScan (s.suc.scan.getD Scan.start) (s.flashRead a n flips)
      if sc.pos < 65536 then .next { s1 with suc.scan := some sc }
      else
        .next { s1 with
          suc.scan := none, suc.newest := sc.newest.map Prod.snd, suc.appendPos := sc.free, suc.stale := false }
    else .next s1
  | .reading .passThrough _ _ _ | .reading .config _ _ _ | .reading .verify _ _ _ | .reading .readback _ _ _
  | .free | .busy _ => .next s

/-- The entry an append writes. -/
def Append.entry (a : Append) : Entry :=
  { seq := a.seq, slot := a.job.slot, boot := a.job.boot, attempts := a.job.attempts, fallback := a.job.fallback }

/-- The append position has the greatest sequence number before it (R185). -/
def State.seqSpent (s : State) : Bool :=
  match s.suc.newest with
  | some e => e.seq == 0xFFFFFFFF#32
  | none => false

/-- The sequence number of the next append (R185): one greater than the newest's, 1 without one or after the greatest. -/
def State.nextSeq (s : State) : BitVec 32 :=
  match s.suc.newest with
  | some e => if e.seq = 0xFFFFFFFF#32 then 1 else e.seq + 1
  | none => 1

/-- The append of a job begins: with an erase when the log is full or the sequence numbers are spent (R185). -/
def State.beginAppend (j : AppendJob) (s : State) : Append :=
  { job := j, seq := s.nextSeq, phase := if s.suc.appendPos.isNone || s.seqSpent then .erase else .program }

/-- The append position while an append runs. -/
def State.position (s : State) : Nat := s.suc.appendPos.getD 0

/-- The valid entry that the array holds at a position of the log (R184). -/
def State.entryAt (s : State) (k : Nat) : Option Entry := entryOfBytes (s.flashRead (logBase + 16 * k) 16 [])

/-- The place of the append position holds a valid entry in the array (R184). -/
def State.placeValid (s : State) : Bool := (s.entryAt s.position).isSome

/-- The newest entry so far and the entry at the next position, where that is valid. -/
def takeNewest (best : Option (Nat × Entry)) (p : Nat) : Option Entry → Option (Nat × Entry)
  | some e => newer best p e
  | none => best

/-- The newest of the entries at the first `n` positions, with its position (R184). -/
def newestBelow (entry : Nat → Option Entry) (n : Nat) : Option (Nat × Entry) :=
  (List.range n).foldl (fun best k => takeNewest best k (entry k)) none

/-- The newest entry that the log holds in the array (R184). -/
def State.logNewest (s : State) : Option (Nat × Entry) := newestBelow s.entryAt 4096

/-- The 256 bytes of the page program of an append: the entry at its place, 0xFF everywhere else (R185). -/
def appendPage (position : Nat) (e : Entry) : List Byte :=
  List.replicate (16 * (position % 16)) 0xFF ++ e.bytes ++ List.replicate (240 - 16 * (position % 16)) 0xFF

/-! ## SELECTING (R188, R189) and READY -/

/-- FALLBACK carries the slot now mapped, the attempts and the first-time flag (R188). -/
def fallbackReport (sl : Slot) (attempts : Nat) (first : Bool) : ReportBody := .fallback sl attempts first

/-- The session of a COMMITTED update enters IDLE at READY, with IMAGE_STATE (R183). -/
def committedReport (s : State) : List ReportBody :=
  if s.imu.session.state = .committed then [imageReport { s.imu.session with state := .idle } .none] else []

/-- SELECTING ends (R188): mapping, boot state and trial timer are set, READY rises, FALLBACK and the end of a COMMITTED
session are reported, the status block is refreshed (R35), and a held transaction is taken up (R4). R35 and R183 put the refresh
and the session's end at one event: the refresh sees the session already IDLE and these two reports in the pending queue, and the
PROTECT report of a transaction taken up then joins after them and after the refresh has gathered its values (DESIGN CHOICE, log 44). -/
def State.riseReady (sl : Slot) (boot : BootState) (fallback : List ReportBody) (s : State) : State :=
  let s1 : State := { s with
    ptu.mapping := sl
    suc.boot := boot
    suc.trialLeft := if boot = .trial then s.suc.trialWindow else 0
    suc.trialRunning := boot == .trial
    suc.startUp := .ready
    suc.decided := true
    lines.ready := true
    imu.session := if s.imu.session.state = .committed then s.imu.session.ended else s.imu.session }
  (s1.raiseTogether [fallback, committedReport s]).refreshStatus.takeUpHeld

/-- What a decision comes to (table of R188). -/
inductive Selection where
  /-- no append: slot, boot state, and FALLBACK where a fallback stands -/
  | settled (sl : Slot) (fallback : List ReportBody)
  /-- an append is asked for first -/
  | appends (job : AppendJob)
deriving DecidableEq, Repr

/-- The decision from the newest entry with the maximum attempts installed (table of R188). -/
def selection (m : Nat) : Option Entry → Selection
  | none => .settled .a []
  | some e =>
    match e.boot with
    | .confirmed => .settled e.slot (if e.fallback then [fallbackReport e.slot e.attempts false] else [])
    | .trial =>
      if e.attempts + 1 ≤ m then
        .appends { owner := .trialStart, slot := e.slot, boot := .trial, attempts := e.attempts + 1, fallback := false }
      else
        .appends { owner := .fallbackStart (e.attempts + 1), slot := e.slot.other, boot := .confirmed
                   attempts := min 7 (e.attempts + 1), fallback := true }

/-- The decision is taken (R188). -/
def State.decideStart (s : State) : State :=
  match selection s.suc.maxAttempts (if s.suc.noFlash then none else s.suc.newest) with
  | .settled sl fb => s.riseReady sl .confirmed fb
  | .appends j => { s with suc.decided := true, suc.jobs := s.suc.jobs ++ [j] }

/-- A program or erase, or a READ of the SUC, is in progress on the port. -/
def FlashPort.occupied : FlashPort → Bool
  | .busy _ => true
  | .reading p _ _ _ => p == .scan || p == .readback || p == .config
  | .free => false

/-- SELECTING can decide: nothing decided yet, no operation in progress, and the copy of the log good or given up (R188). -/
def State.canDecide (s : State) : Bool :=
  s.suc.startUp == .selecting && !s.suc.decided && s.suc.append.isNone && !s.imu.port.occupied
    && (!s.suc.stale || s.suc.noFlash)

/-- SELECTING_DECISION (R188). -/
def execSelectingDecision (s : State) : Host.Outcome State Fault Refusal :=
  if s.canDecide then .next s.decideStart else .next s

/-! ## Outcomes of appends (R182, R185, R188, R191) -/

/-- An append's owner receives its outcome; `failure` is none for success. -/
def State.toOwner (job : AppendJob) (failure : Option Reason) (s : State) : State :=
  match job.owner, failure with
  | .commit, none =>
    if s.imu.session.state = .committing then
      { s with lines.restartReq := true }.enterSession .committed .none
    else s
  | .commit, some r => if s.imu.session.state = .committing then s.failSession r else s
  | .confirm, none => { s with suc.boot := .confirmed, suc.trialLeft := 0, suc.trialRunning := false }
  | .confirm, some _ => { s with suc.trialRunning := true }
  | .trialStart, none => s.riseReady job.slot .trial []
  | .trialStart, some _ =>
    s.riseReady job.slot.other .confirmed [fallbackReport job.slot.other job.attempts true]
  | .fallbackStart a, _ => s.riseReady job.slot .confirmed [fallbackReport job.slot a true]
  | .nobody, _ => s

/-- An append fails (R185): stale mark and flash-fault flag set, and the owner told. -/
def State.failAppend (a : Append) (r : Reason) (s : State) : State :=
  { s with suc.append := none, suc.stale := true, suc.flashFault := true }.toOwner a.job (some r)

/-- An append succeeds (R185): the copy holds the new entry, the position advances or the log is full, the owner told. -/
def State.finishAppend (a : Append) (s : State) : State :=
  { s with
    suc.append := none
    suc.newest := some a.entry
    suc.appendPos := if s.position + 1 < 4096 then some (s.position + 1) else none }.toOwner a.job none

/-- The outcome of a program or erase reaches the SUC (R185). -/
def State.appendOutcome (fail : Bool) (s : State) : State :=
  match s.suc.append with
  | none => s
  | some a =>
    if fail then s.failAppend a .flashFault
    else
      match a.phase with
      | .erase =>
        { s with suc.newest := none, suc.appendPos := some 0, suc.append := some { a with phase := .program } }
      | .program => { s with suc.append := some { a with phase := .readback } }
      | .readback => s

/-- What an append leaves at its place when its read-back differs: no valid entry (R185, R188). Of a place that holds one in the array
further bits are cleared, which ones is a free value, and all of them where those would leave a valid entry (DESIGN CHOICE, log 47); no
bit turns from 0 to 1 without an erase (R157). -/
def State.voidPlace (s : State) : State :=
  if s.placeValid then
    let u : State := { s with freeIdx := s.freeIdx + 1 }
    let place := logBase + 16 * s.position
    let t := u.overlayFlash place 16 (fun x => s.flashByte x &&& Config.partwayByte s.freeIdx x)
    if t.placeValid then u.overlayFlash place 16 (fun _ => 0) else t
  else s

/-- SELECTOR_READBACK_END (R185): the append succeeds when the bytes read equal the entry. -/
def execSelectorReadbackEnd (flips : List Byte) (s : State) : Host.Outcome State Fault Refusal :=
  match s.imu.port with
  | .reading .readback _ p n =>
    let s1 : State := { s with imu.port := .free }
    match s.suc.append with
    | some a =>
      if s.flashRead p n flips = a.entry.bytes then .next (s1.finishAppend a) else .next (s1.voidPlace.failAppend a .flashFault)
    | none => .next s1
  | .reading .passThrough _ _ _ | .reading .config _ _ _ | .reading .verify _ _ _ | .reading .scan _ _ _
  | .free | .busy _ => .next s

/-! ## Trial boot (R190, R191) -/

/-- A confirm append is in progress (R191), one asked for and not yet issued counted: R191 to R193 tell the two apart elsewhere and
do not say which this means (DESIGN CHOICE, log 46). -/
def State.confirming (s : State) : Bool :=
  s.suc.jobs.any (fun j => j.owner == .confirm)
    || (match s.suc.append with
        | some a => a.job.owner == .confirm
        | none => false)

/-- BOOT_CONFIRM (R191): accepted in TRIAL with time remaining and no confirm append in progress; the timer stops and the
append of the mapped slot, CONFIRMED, attempts 0, is asked for. -/
def execBootConfirm (s : State) : Host.Outcome State Fault Refusal :=
  .next (s.onRequest (fun k => k == 12#32) (fun q s =>
    if s.suc.boot = .trial ∧ 0 < s.suc.trialLeft ∧ s.confirming = false then
      ({ s with
        suc.trialRunning := false
        suc.jobs := s.suc.jobs ++
          [{ owner := .confirm, slot := s.ptu.mapping, boot := .confirmed, attempts := 0, fallback := false }] } :
        State).answer q .done 0
    else s.answer q .state 0))

/-- The trial timer runs (R190): READY has risen, boot state TRIAL, not stopped by a confirm, and time remains. -/
def State.trialCounts (s : State) : Bool :=
  s.suc.startUp == .ready && s.suc.boot == .trial && s.suc.trialRunning && decide (0 < s.suc.trialLeft)

/-- The trial timer is decreased by one second; at 0 the trial has expired and RESTART_REQ is asserted (R190, R183). -/
def State.trialSecond (s : State) : State :=
  if s.trialCounts then
    { s with
      suc.trialLeft := s.suc.trialLeft - 1
      lines.restartReq := s.lines.restartReq || decide (s.suc.trialLeft ≤ 1) }
  else s

/-- TRIAL_EXPIRY (R190): the last second of the trial runs out. -/
def execTrialExpiry (s : State) : Host.Outcome State Fault Refusal :=
  if s.trialCounts ∧ s.suc.trialLeft ≤ 1 then .next s.trialSecond else .next s

end Sys2Proof.Machine
end

