-- ==== Sys2Proof/Machine/FlashPort.lean ====
section
/-! DEFINITION. The flash port (chapter 9, sections 9.1 and 9.2): the arbiter, suspension for pass-through reads, the ends,
timeouts and giving up of programs and erases; and the meanings of its rows. -/
namespace Sys2Proof.Machine

/-! ## What an operation leaves in the array (R157, R172) -/

/-- The array after a program (bits go from 1 to 0 only) or an erase (0xFF) that succeeded. -/
def State.workDone (s : State) : FlashWork → State
  | .program a data => s.overlayFlash a 256 (fun x => s.flashByte x &&& data.getD (x - a) 0xFF)
  | .erase a => s.overlayFlash a 65536 (fun _ => 0xFF)

/-- The array after a program or erase that failed, was given up or was cut off by power-on: left part-way (R157, R172; log 5).
Each byte of an erased sector is a free value; of a program, which bits that its data clears are cleared already is one, and
every other bit stays, so that 0xFF bytes leave the other entries of a log page as they were (R194). -/
def State.workPartway (s : State) : FlashWork → State
  | .program a data =>
    { s.overlayFlash a 256 (fun x => s.flashByte x &&& (data.getD (x - a) 0xFF ||| Config.partwayByte s.freeIdx x)) with
      freeIdx := s.freeIdx + 1 }
  | .erase a =>
    { s.overlayFlash a 65536 (fun x => Config.partwayByte s.freeIdx x) with freeIdx := s.freeIdx + 1 }

/-- Part-way bits, in `t`, that a lost operation of the start-up controller cannot have left in the log: a valid entry at the place of
its program (R185), or another newest entry than before its erase (R188). -/
def State.logBroken (s t : State) : FlashWork → Bool
  | .program _ _ => t.placeValid
  | .erase _ => t.logNewest != s.logNewest

/-- A flash address lies in the configuration block's sector. -/
def inConfigSector (a : Nat) : Bool := decide (a / 65536 = configBase / 65536)

/-- Part-way bits, in `t`, that a lost operation of a CONFIG session cannot have left in sector 4: a valid configuration block after its
erase, or one after a page program where none was before (R174). -/
def State.configBroken (s t : State) : FlashWork → Bool
  | .program a _ => inConfigSector a && (t.blockValid && !s.blockValid)
  | .erase a => inConfigSector a && t.blockValid

/-- What a lost operation of a CONFIG session leaves in place of such bits: a page of which nothing is cleared, a sector that is erased
(R174; DESIGN CHOICE, log 51). -/
def State.workVoid (w : FlashWork) (s : State) : State :=
  let u : State := { s with freeIdx := s.freeIdx + 1 }
  match w with
  | .program _ _ => u
  | .erase _ => u.workDone w

/-- The array after an operation that its owner has not seen succeed. A failed append leaves no valid entry at its place, and after a
failed erase the log still holds its old newest entry (R185, R188): part-way bits that would have it otherwise give way to a page or
sector as it was before (DESIGN CHOICE, log 47). A CONFIG session that has failed or was aborted leaves no valid block in sector 4
(R174; log 51). -/
def State.workLost (w : FlashWork) (o : OpOwner) (s : State) : State :=
  let t := s.workPartway w
  match o with
  | .startUp => if s.logBroken t w then { s with freeIdx := s.freeIdx + 1 } else t
  | .session | .pastSession => if s.configBroken t w then s.workVoid w else t

/-! ## Requesters (R160) -/

/-- What the start-up controller wants of the port (R184 to R188): a READ for LOADING, the operation its append has reached,
or a READ of a scan; `none` when it wants nothing or an append is still to begin. -/
inductive SucWant where
  | nothing
  | read (purpose : ReadFor) (addr len : Nat)
  | work (w : FlashWork)
  | begins (job : AppendJob) (rest : List AppendJob)
deriving DecidableEq, Repr

/-- The READ of the scan under way, or of one to begin. -/
def State.scanRead (s : State) : SucWant :=
  .read .scan (logBase + (s.suc.scan.getD Scan.start).pos) 32

/-- The operation an append has reached. -/
def State.appendWork (s : State) (a : Append) : SucWant :=
  match a.phase with
  | .erase => .work (.erase logBase)
  | .program => .work (.program (logBase + s.position / 16 * 256) (appendPage s.position a.entry))
  | .readback => .read .readback (logBase + 16 * s.position) 16

/-- The start-up controller's request of the port. -/
def State.sucWant (s : State) : SucWant :=
  match s.suc.startUp, s.suc.load with
  | .loading, .status => .nothing
  | .loading, .header => .read .config (configBase + s.suc.cfgPos) (16 - s.suc.cfgPos)
  | .loading, .body =>
    .read .config (configBase + s.suc.cfgPos)
      (readLength (configBase + s.suc.cfgPos) (blockLength s.suc.cfgBytes - s.suc.cfgPos))
  | .selecting, _ | .ready, _ =>
    match s.suc.append, s.suc.jobs with
    | some a, _ => s.appendWork a
    | none, j :: rest => if s.suc.stale then s.scanRead else .begins j rest
    | none, [] =>
      if s.suc.startUp = .selecting ∧ s.suc.decided = false ∧ s.suc.noFlash = false ∧ s.suc.stale = true then s.scanRead
      else .nothing

/-- A program or erase as it is issued (R158). -/
def FlashOp.issued (w : FlashWork) (o : OpOwner) : FlashOp :=
  { work := w, owner := o, busyUs := 0, suspension := .running, suspendUs := 0, inMinRun := false, runUs := 0
    answers := true, timedOut := false, lateUs := 0 }

/-- The port is granted for a program or erase. -/
def State.grantWork (w : FlashWork) (o : OpOwner) (s : State) : State :=
  { s with imu.port := .busy (FlashOp.issued w o) }

/-- The port is granted for a READ. -/
def State.grantRead (p : ReadFor) (a n : Nat) (s : State) : State :=
  { s with imu.port := .reading p true a n }

/-- The head of the program queue, when its sector has been erased (R167). -/
def Session.readyPage (n : Session) : Option PageBuffer :=
  match n.queue with
  | p :: _ => if p.page * 256 / 65536 < n.sectors then some p else none
  | [] => none

/-- The readback has work: CLOSING with the last program done (R170, R171). -/
def Session.verifying (n : Session) : Bool :=
  n.state == .closing && n.queue.isEmpty && n.current.isEmpty && decide (n.rbPos < n.length)

/-- The free port goes to the session: verify READ, page program, erase-ahead, in this order (R160, R167, R171). -/
def State.grantSession (s : State) : State :=
  let n := s.imu.session
  if n.verifying then s.grantRead .verify (n.base + n.rbPos) (readLength (n.base + n.rbPos) (n.length - n.rbPos))
  else if n.working then
    match n.readyPage with
    | some p => s.grantWork (.program (n.base + 256 * p.page) p.bytes) .session
    | none => if n.sectors < n.needed then s.grantWork (.erase (n.base + 65536 * n.sectors)) .session else s
  else s

/-- The free port goes to the start-up controller, or after it to the session (R160). -/
def State.grantSuc (s : State) : State :=
  match s.sucWant with
  | .nothing => s.grantSession
  | .read p a n => s.grantRead p a n
  | .work w => s.grantWork w .startUp
  | .begins j rest =>
    let a := s.beginAppend j
    let s1 : State := { s with suc.append := some a, suc.jobs := rest }
    match s1.appendWork a with
    | .work w => s1.grantWork w .startUp
    | .nothing | .read _ _ _ | .begins _ _ => s1

/-- The flash address and length of the pass-through read that waits for the port. -/
def State.waitingRead (s : State) : Option (InHand × Nat × Nat) :=
  match s.ptu.inHand with
  | some h =>
    match h.phase with
    | .flashHeld a n => some (h, a, n)
    | .readyLow | .routed | .sramWait _ | .sramBusy _ | .fetched _ | .txHeld _ | .requestHeld
    | .stagingHeld => none
  | none => none

/-- FLASH_PORT_GRANT (R160): the free port goes to the first waiting requester. -/
def execFlashPortGrant (s : State) : Host.Outcome State Fault Refusal :=
  match s.imu.port with
  | .free =>
    match s.waitingRead with
    | some (_, a, n) => .next (s.grantRead .passThrough a n)
    | none => .next s.grantSuc
  | .reading _ _ _ _ => .next s
  | .busy _ => .next s

/-! ## Suspension (R161) -/

/-- A flash address lies outside the sector under erase or the page under programming. -/
def FlashWork.clearOf (w : FlashWork) (a : Nat) : Bool :=
  match w with
  | .program p _ => decide (a / 256 ≠ p / 256)
  | .erase p => decide (a / 65536 ≠ p / 65536)

/-- SUSPEND is issued for the waiting pass-through read, when the three conditions of R161 hold. -/
def State.trySuspend (s : State) : State :=
  match s.imu.port, s.waitingRead with
  | .busy o, some (_, a, _) =>
    if o.suspension = .running ∧ o.inMinRun = false ∧ o.answers = true ∧ o.work.clearOf a = true then
      { s with imu.port := .busy { o with suspension := .suspending true, suspendUs := 0 } }
    else s
  | _, _ => s

/-- RESUME is issued: the minimum run begins (R161). -/
def FlashOp.resume (o : FlashOp) : FlashOp := { o with suspension := .running, inMinRun := true, runUs := 0 }

/-- The read for which the port is held or suspended has ended without being served (R161): no READ is issued for it, and RESUME
comes once the flash reports suspended, or at this moment where it has, the data of a READ in transfer then being discarded (log
30). -/
def FlashPort.dropRead : FlashPort → FlashPort
  | .free => .free
  | .reading p live a n => .reading p (if p = .passThrough then false else live) a n
  | .busy o =>
    .busy (match o.suspension with
      | .running => o
      | .suspending _ => { o with suspension := .suspending false }
      | .suspended => o.resume)

/-- The flash address of a permitted read of a flash window, by window kind and offset (R13 to R15). -/
def State.flashAddress (s : State) (w : Window) (a : Nat) : Nat :=
  match w.kind with
  | .boot => a - w.base
  | .config => configBase + (a - w.base)
  | .image => slotBase s.ptu.mapping + (a - w.base)
  | .staging => slotBase s.ptu.mapping.other + (a - w.base)
  | .txRing | .rxRing | .control | .report => a - w.base

/-- A read that goes to the flash port: BOOT, CONFIG, IMAGE, and STAGING while the session is IDLE (R15). -/
def State.flashReadInHand (s : State) : Option (InHand × Window) :=
  match s.flashRouted .read with
  | some x => some x
  | none => if s.imu.session.state = .idle then s.routedTo .staging .read else none

/-- FLASH_WINDOW_READ (R13 to R15, R161): translated to a flash address and held for the arbiter; a program or erase in
progress is suspended for it where R161 allows. -/
def execFlashWindowRead (s : State) : Host.Outcome State Fault Refusal :=
  match s.flashReadInHand with
  | some (h, w) => .next (s.toPhase h (.flashHeld (s.flashAddress w h.txn.addr) h.txn.byteCount)).trySuspend
  | none => .next s

/-- FLASH_HOLD_EXPIRY (R13, R161): the held read is ended with ERR, and a suspension for it is released. -/
def execFlashHoldExpiry (s : State) : Host.Outcome State Fault Refusal :=
  match s.waitingRead with
  | some (h, _, _) => .next (({ s with imu.port := s.imu.port.dropRead } : State).endTxn h .err)
  | none => .next s

/-- The flash reports suspended: the waiting read's READ is issued, or RESUME where it no longer waits (R161). Left open and settled
here: R161 does not say what a flash brings about that reports suspended only after the 1 ms of a SUSPEND has passed. The operation
goes on as running, its busy time counting from that millisecond's end; no RESUME is issued and no minimum run begins (DESIGN
CHOICE, log 49). -/
def FlashOp.paused (o : FlashOp) : FlashOp :=
  match o.suspension with
  | .suspending true => { o with suspension := .suspended }
  | .suspending false => o.resume
  | .running => o
  | .suspended => o

/-- FLASH_SUSPENDED (R161); after the 1 ms of a SUSPEND it changes nothing (DESIGN CHOICE, log 49). -/
def execFlashSuspended (s : State) : Host.Outcome State Fault Refusal :=
  match s.imu.port with
  | .busy o => .next { s with imu.port := .busy o.paused }
  | .free => .next s
  | .reading _ _ _ _ => .next s

/-- SUSPEND_TIMEOUT (R161): 1 ms without the flash reporting suspended; the operation no longer answers SUSPEND and its busy
time counts again. What a suspension reported after it does is log 49's. -/
def execSuspendTimeout (s : State) : Host.Outcome State Fault Refusal :=
  match s.imu.port with
  | .busy o =>
    match o.suspension with
    | .suspending _ =>
      .next { s with imu.port := .busy { o with
        suspension := .running, answers := false, suspendUs := max o.suspendUs 1000 } }
    | .running => .next s
    | .suspended => .next s
  | .free => .next s
  | .reading _ _ _ _ => .next s

/-- MINIMUM_RUN_END (R161): the minimum run is over, and a held read may be served by suspension. -/
def execMinimumRunEnd (s : State) : Host.Outcome State Fault Refusal :=
  match s.imu.port with
  | .busy o =>
    if o.inMinRun ∧ o.suspension = .running then
      .next ({ s with imu.port := .busy { o with inMinRun := false, runUs := max o.runUs 1000 } } : State).trySuspend
    else .next s
  | .free => .next s
  | .reading _ _ _ _ => .next s

/-- The read in hand completes with the bytes of its READ (R1, R161). -/
def State.answerRead (flips : List Byte) (s : State) : State :=
  match s.waitingRead with
  | some (h, a, n) => s.endTxn h (.data (h.txn.dataOfBytes (s.flashRead a n flips)))
  | none => s

/-- FLASH_PASS_THROUGH_READ_END (R161): the READ's data completes the transaction if it still waits; a suspended operation is
resumed. -/
def execFlashPassThroughReadEnd (flips : List Byte) (s : State) : Host.Outcome State Fault Refusal :=
  match s.imu.port with
  | .reading .passThrough live _ _ =>
    let s1 : State := { s with imu.port := .free }
    .next (if live then s1.answerRead flips else s1)
  | .busy o =>
    match o.suspension with
    | .suspended => .next (({ s with imu.port := .busy o.resume } : State).answerRead flips)
    | .running => .next s
    | .suspending _ => .next s
  | .reading .config _ _ _ | .reading .verify _ _ _ | .reading .scan _ _ _ | .reading .readback _ _ _
  | .free => .next s

/-! ## Ends of programs and erases (R158, R159) -/

/-- The owner of an operation receives a timeout (R159, R172, R185). -/
def State.operationTimedOut (o : FlashOp) (s : State) : State :=
  match o.owner with
  | .session => if s.imu.session.working then s.failSession .flashTimeout else s
  | .pastSession => s
  | .startUp =>
    match s.suc.append with
    | some a => s.failAppend a .flashTimeout
    | none => s

/-- The longest busy time of an operation in µs (R159): 5 ms for a program, 4 s for an erase. -/
def FlashWork.limitUs : FlashWork → Nat
  | .program _ _ => 5000
  | .erase _ => 4000000

/-- An operation's busy time has passed its limit and its owner has not had the timeout yet (R159). -/
def FlashOp.overdue (o : FlashOp) : Bool := !o.timedOut && decide (o.work.limitUs < o.busyUs)

/-- How long after its timeout an operation may still show busy or suspended, in µs (R159): 4 s. -/
def giveUpUs : Nat := 4000000

/-- A page program in the configuration block's sector. -/
def FlashWork.configPage : FlashWork → Bool
  | .program a _ => inConfigSector a
  | .erase _ => false

/-- The array at the end of an operation: one that shows the fail flag is lost, and so is one that has timed out, by the row or at this
end, of an append, which has failed (R185, R188; log 47), or of a page of sector 4, whose session has failed (R174; log 51). Any other
success stands in the array (log 5). -/
def State.workEnded (o : FlashOp) (fail : Bool) (s : State) : State :=
  let lost := fail || ((o.timedOut || o.overdue) && (o.owner == .startUp || o.work.configPage))
  if lost then s.workLost o.work o.owner else s.workDone o.work

/-- The owner of an operation receives its end (R158); one whose busy time has passed the limit receives the timeout instead,
and one that has had a timeout receives nothing more (R159). -/
def State.operationEnded (o : FlashOp) (fail : Bool) (s : State) : State :=
  if o.timedOut then s
  else if o.overdue then s.operationTimedOut o
  else
    match o.owner with
    | .session => s.sessionOutcome o.work fail
    | .pastSession => s
    | .startUp => s.appendOutcome fail

/-- SELECTING takes the flash as not responding after an operation it waited for is given up (R188). -/
def State.giveUpSelecting (s : State) : State :=
  if s.suc.startUp = .selecting ∧ s.suc.decided = false then
    State.decideStart { s with suc.stale := true, suc.noFlash := true }
  else s

/-- The port once an operation is given up (R159): free, but for the READ in transfer of one given up while it is suspended, which
holds the port until its data has been returned (R160; log 30). -/
def State.portGivenUp (o : FlashOp) (s : State) : FlashPort :=
  match o.suspension, s.waitingRead with
  | .suspended, some (_, a, n) => .reading .passThrough true a n
  | .suspended, none | .running, _ | .suspending _, _ => .free

/-- An operation is given up: it is no longer in progress, its page or sector is left part-way, and the flash-fault flag is
set (R159, R188). -/
def State.giveUp (o : FlashOp) (s : State) : State :=
  (({ s with imu.port := s.portGivenUp o, suc.flashFault := true } : State).workLost o.work o.owner).giveUpSelecting

/-- FLASH_STATUS_POLL (R158, R161): a READ_STATUS returns for the operation in progress. Busy and suspended both clear: it
has ended, with the fail flag as its outcome, unless it was to be given up before (R159). Suspended set while a SUSPEND is
pending: as FLASH_SUSPENDED; set after the 1 ms of a SUSPEND, it changes nothing (DESIGN CHOICE, log 49). While the operation is
suspended no READ_STATUS is issued, and the row is not due (log 10). -/
def execFlashStatusPoll (busy suspended fail : Bool) (s : State) : Host.Outcome State Fault Refusal :=
  match s.imu.port with
  | .busy o =>
    match o.suspension with
    | .suspended => .next s
    | .running | .suspending _ =>
      if busy = false ∧ suspended = false then
        if o.timedOut = true ∧ giveUpUs < o.lateUs then .next (s.giveUp o)
        else
          .next ((({ s with imu.port := .free } : State).workEnded o fail).operationEnded o fail)
      else if suspended then .next { s with imu.port := .busy o.paused }
      else .next s
  | .free => .next s
  | .reading _ _ _ _ => .next s

/-- FLASH_OPERATION_TIMEOUT (R159): the busy time exceeds 5 ms or 4 s; the owner receives a timeout, and the operation stays
in progress on the port. It is due once the busy time, counted in whole ticks, has reached the limit (log 12). -/
def execFlashOperationTimeout (s : State) : Host.Outcome State Fault Refusal :=
  match s.imu.port with
  | .busy o =>
    if o.timedOut = false ∧ o.work.limitUs ≤ o.busyUs then
      .next (({ s with imu.port := .busy { o with
        timedOut := true, lateUs := 0, busyUs := max o.busyUs (o.work.limitUs + 1) } } : State).operationTimedOut o)
    else .next s
  | .free => .next s
  | .reading _ _ _ _ => .next s

/-- FLASH_OPERATION_GIVE_UP (R159, R188): a timed-out operation still busy or suspended 4 s later is no longer in progress;
the flash-fault flag is set, and a SELECTING that waited for it decides as for a log with no newest entry. -/
def execFlashOperationGiveUp (s : State) : Host.Outcome State Fault Refusal :=
  match s.imu.port with
  | .busy o => if o.timedOut = true ∧ giveUpUs ≤ o.lateUs then .next (s.giveUp o) else .next s
  | .free => .next s
  | .reading _ _ _ _ => .next s

end Sys2Proof.Machine
end

