-- ==== Sys2Proof/Machine/Boundary.lean ====
section
/-! DEFINITION. The second boundary (R116): what each unit does at it, in the order the command gives; the meanings of
SECOND_BOUNDARY and MINUTE_BOUNDARY. -/
namespace Sys2Proof.Machine

/-- The CAU's part: a refresh of the status block from the installation of the window map on (R35). -/
def State.statusBoundary (s : State) : State :=
  if s.cau.path = .notBegun then s else s.refreshStatus

/-- One unit's event at a second boundary: PTU R11, CAU R35, STU R69 and R71, CGU R91, SCU R126, RMU R142, IMU R179 and R180,
SUC R190. -/
def State.unitBoundary (u : BoundaryUnit) (s : State) : State :=
  match u with
  | .ptu => { s with ptu.quiet := false }
  | .cau => s.statusBoundary
  | .stu => s.stationBoundary
  | .cgu => s.gameBoundary
  | .scu => s.scheduleBoundary
  | .rmu => s.roamBoundary
  | .imu => s.imageBoundary
  | .suc => s.trialSecond

/-- Every unit once: the order given without repeats, then the units it leaves out (log 8). -/
def wholeOrder (order : List BoundaryUnit) : List BoundaryUnit :=
  (order ++ allBoundaryUnits).foldl (fun acc u => if acc.contains u then acc else acc ++ [u]) []

/-- Time runs on to the next second boundary: the sub-second count wraps to 0 (R116). -/
def State.toBoundary (s : State) : State :=
  let left := 1000 - s.time.sub
  { s.elapse (left * 1000) with time := { s.time with ms := s.time.ms + BitVec.ofNat 32 left, sub := 0 } }

/-- A second boundary with the units in an order (R116). -/
def State.boundary (order : List BoundaryUnit) (s : State) : State :=
  (wholeOrder order).foldl (fun s u => s.unitBoundary u) s.toBoundary

/-- SECOND_BOUNDARY (R116): the sub-second count wraps, and every unit takes the boundary as an event of its own. -/
def execSecondBoundary (order : List BoundaryUnit) (s : State) : Host.Outcome State Fault Refusal :=
  .next (s.boundary order)

/-- MINUTE_BOUNDARY (R116, R126): the second boundary at which the second wraps from 59 to 0 and the minute advances; it comes
only while time is valid and the second stands at 59 (log 10). -/
def execMinuteBoundary (order : List BoundaryUnit) (s : State) : Host.Outcome State Fault Refusal :=
  if s.time.valid ∧ 59 ≤ s.time.second then .next (s.boundary order) else .next s

end Sys2Proof.Machine
end

