-- ==== Sys2Proof/Machine/Resets.lean ====
section
/-! DEFINITION. The two resets: the meanings of POWER_ON and NODE_RESTART. -/
namespace Sys2Proof.Machine

/-- A program or erase in progress is cut off by power-on and leaves its page or sector part-way (R184; log 5), the log as R185 and R188
have it where it is an append's that has failed by its timeout, and sector 4 as R174 has it where it is a CONFIG session's that has
failed by its timeout, was aborted or was abandoned (log 51). -/
def State.cutFlash (s : State) : State :=
  match s.imu.port with
  | .busy o => if o.timedOut || o.owner == .pastSession then s.workLost o.work o.owner else s.workPartway o.work
  | .free => s
  | .reading _ _ _ _ => s

/-- POWER_ON (R19, R37, R61, R83, R97, R114, R133, R155, R176, R192): every unit at its power-on state. The SRAM and the flash
are other parts and keep their contents (log 15); the queue and the free-value counter are the model's own. -/
def execPowerOn (s : State) : Host.Outcome State Fault Refusal :=
  let s1 := s.cutFlash
  .next { State.reset with pending := s.pending, sram := s.sram, flash := s1.flash, freeIdx := s1.freeIdx }

/-! ## The transaction in hand at a node restart (R5, R50, R56) -/

/-- What becomes of the transaction in hand at RESTART_IN. -/
inductive AtRestart where
  /-- held: it ends with ERR -/
  | err
  /-- not held: it goes on to the SRAM port, or on it -/
  | goesOn
  /-- not held, and handed to an owner whose row has not come yet: the row's effect comes first -/
  | taken
deriving DecidableEq, Repr

/-- An owner that has not taken up a routed transaction yet holds it from its taking (R5): a closing receive write (R52), a closing
write of the request slot while a result is pending (R29), a STAGING write that finds no free page buffer (R166), and every
read for the flash port (R13 to R15). -/
def State.mustHold (s : State) (w : Window) (t : Transaction) : Bool :=
  match w.kind, t.dir with
  | .rxRing, .write => closingWrite t
  | .control, .write => controlUse w.base t == .request && s.cau.slot == .pending
  | .staging, .write => s.imu.session.judgeWrite w.base t == .hold
  | .staging, .read => s.imu.session.state == .idle
  | .boot, .read | .config, .read | .image, .read => true
  | .boot, .write | .config, .write | .image, .write | .rxRing, .read | .control, .read | .txRing, _ | .report, _ => false

/-- What a node restart does to a transaction by how far it has come. A closing write of the request slot that was held while a result
was pending is held until it completes, its wait for the port included (R5; log 33). -/
def InHand.atRestart (h : InHand) (s : State) : AtRestart :=
  match h.phase with
  | .sramWait .plain | .sramBusy .plain => .goesOn
  | .sramWait .inspected | .sramWait .closingFill | .sramWait (.closingWrite _) | .sramWait .requestWrite
  | .sramBusy .inspected | .sramBusy .closingFill | .sramBusy (.closingWrite _) | .sramBusy .requestWrite => .err
  | .readyLow | .fetched _ | .txHeld _ | .requestHeld | .flashHeld _ _ | .stagingHeld => .err
  | .routed =>
    match h.window with
    | some w => if s.mustHold w h.txn then .err else .taken
    | none => .goesOn

/-- The state after a meaning that always answers a next state. -/
def State.afterRow (row : State → Host.Outcome State Fault Refusal) (s : State) : State :=
  match row s with
  | .next t => t
  | .fault _ => s
  | .refused _ => s

/-- A CONTROL write is taken by the rule of what it writes; a request so taken is in its slot and not carried out yet (R22, R27). -/
def State.takeControl (u : ControlUse) (s : State) : State :=
  match u with
  | .plain => s.afterRow execControlWrite
  | .consumerIndex => s.afterRow execConsumerIndexWrite
  | .classMap => s.afterRow execClassMapWrite
  | .policy => s.afterRow execNodePolicyRecord
  | .profile => s.afterRow execProfileRecord
  | .pin => s.afterRow execPinRecord
  | .request => s.takeClosing

/-- A transaction handed to an owner that does not hold it has been taken before RESTART_IN asserted and completes normally (R5): its
owner's row, which the model runs as a second command (log 11), has its effect first (DEDUCED, log 17). -/
def State.takeRouted (h : InHand) (s : State) : State :=
  match h.window with
  | some w =>
    match w.kind, h.txn.dir with
    | .rxRing, .write => s.afterRow execRxRingWrite
    | .control, .write => s.takeControl (controlUse w.base h.txn)
    | .staging, .write => s.afterRow execStagingWrite
    | .staging, .read => s.afterRow execStagingRead
    | .boot, .write | .config, .write | .image, .write => s.afterRow execFlashWindowWrite
    | .boot, .read | .config, .read | .image, .read | .rxRing, .read | .control, .read | .txRing, _ | .report, _ => s
  | none => s

/-- The transaction in hand at RESTART_IN, and the SRAM port it may occupy (R5, R20). An SRAM access under way for a transaction
that ends with ERR (an inspected read, a fill read, a held closing write) gives up the port at once: R5, R18 and R20 do not say
whether it keeps the port until its work is over (DESIGN CHOICE, log 43). -/
def State.restartTransaction (s : State) : State :=
  match s.ptu.inHand with
  | some h =>
    match h.atRestart s with
    | .goesOn => s
    | .taken => s.takeRouted h
    | .err =>
      { s.endTxn h .err with
        ptu.port := match s.ptu.port with
          | .passThrough => .free
          | .free => .free
          | .internal a g => .internal a g }
  | none => s

/-! ## Unit by unit -/

/-- PTU: R20. An internal access on the port completes, and its unit takes nothing from it; the queued ones, and one that
waits behind an overtaken access, are removed. A result write that holds the port is one of those that complete: its word reaches SRAM,
where R38, R134, R177 and R193 say that the result of a request answered before the restart is not written. R20 is followed (DESIGN
CHOICE, log 50). -/
def State.restartPtu (s : State) : State :=
  let s1 := s.restartTransaction
  { s1 with
    ptu.queue := []
    ptu.behind := none
    ptu.quiet := false
    ptu.further := 0
    ptu.port := match s1.ptu.port with
      | .internal a _ => .internal a true
      | .free => .free
      | .passThrough => .passThrough }

/-- CAU: R38, R34. -/
def State.restartCau (s : State) : State :=
  let s1 : State := { s with
    cau.shadow := s.cau.shadow.filter (fun c => decide (0x44 ≤ c.1))
    cau.slot := .free, cau.request := none, cau.pending := [], cau.gap := false
    cau.writeIdx := 0, cau.published := 0, cau.consumer := 0
    cau.statusLeft := [], cau.statusOut := false
    lines.attn := false }
  if s.cau.path = .notBegun then s1 else s1.beginRing

/-- STU, CGU, AU, SCU and RMU: every record is freed, the count returns to 0, drain mode is cleared (R84, R98, R115, R134,
R156). -/
def State.restartTable (s : State) : State :=
  { s with stu.stations := [], cgu.count := 0, cgu.contention := false, rmu.drain := false, rmu.summaries := [] }

/-- The flash port: reads that nobody wants any more are dropped, the session's operation is disowned (R161, R177, R184). -/
def FlashPort.restart (p : FlashPort) : FlashPort :=
  match p.dropRead.disown with
  | .reading q live a n => .reading q (if q = .scan then false else live) a n
  | .busy o => .busy o
  | .free => .free

/-- IMU: R177. -/
def State.restartImu (s : State) : State :=
  { s with
    imu.session := if s.imu.session.state = .committed then s.imu.session else s.imu.session.ended
    imu.port := s.imu.port.restart }

/-- SUC: R182, R188, R189, R193. LOADING goes on; otherwise SELECTING begins. A commit or confirm append not yet issued is
discarded (R182, R193); so is a start's own append that SELECTING has decided on and that is not yet issued, of which R189 and R193
say nothing: SELECTING then decides afresh (DESIGN CHOICE, log 53). -/
def State.restartSuc (s : State) : State :=
  { s with
    suc.startUp := if s.suc.startUp = .loading then .loading else .selecting
    suc.decided := false, suc.noFlash := false, suc.jobs := [], suc.scan := none, suc.trialRunning := false
    suc.append := s.suc.append.map (fun a => { a with job := { a.job with owner := .nobody } })
    lines.ready := false
    lines.restartReq := false }

/-- NODE_RESTART (R5, R20, R38, R62, R84, R98, R115, R134, R156, R177, R189, R193). -/
def execNodeRestart (s : State) : Host.Outcome State Fault Refusal :=
  .next (({ s.restartPtu with diu := Diu.powerOn } : State).restartCau.restartTable.restartImu.restartSuc)

end Sys2Proof.Machine
end

