-- ==== Sys2Proof/Machine/Dispatch.lean ====
section
/-! DEFINITION. One arm for each command, in the table's order. -/
namespace Sys2Proof.Machine

def exec (i : Instr) (s : State) : Host.Outcome State Fault Refusal :=
  match i with
  | .powerOn => Sys2Proof.Machine.execPowerOn s
  | .nodeRestart => Sys2Proof.Machine.execNodeRestart s
  | .flashNoResponse => Sys2Proof.Machine.execFlashNoResponse s
  | .configBlockReadEnd flips => Sys2Proof.Machine.execConfigBlockReadEnd flips s
  | .selectorScanReadEnd flips => Sys2Proof.Machine.execSelectorScanReadEnd flips s
  | .selectingDecision => Sys2Proof.Machine.execSelectingDecision s
  | .readyLowHoldExpiry => Sys2Proof.Machine.execReadyLowHoldExpiry s
  | .busTransaction t => Sys2Proof.Machine.execBusTransaction t s
  | .sramPortGrant => Sys2Proof.Machine.execSramPortGrant s
  | .passThroughSramDone => Sys2Proof.Machine.execPassThroughSramDone s
  | .txDescriptorFetch => Sys2Proof.Machine.execTxDescriptorFetch s
  | .transmitDecision => Sys2Proof.Machine.execTransmitDecision s
  | .txHoldExpiry => Sys2Proof.Machine.execTxHoldExpiry s
  | .rxRingWrite => Sys2Proof.Machine.execRxRingWrite s
  | .rxClosingWrite => Sys2Proof.Machine.execRxClosingWrite s
  | .rxHoldExpiry => Sys2Proof.Machine.execRxHoldExpiry s
  | .peerFetchReadDone => Sys2Proof.Machine.execPeerFetchReadDone s
  | .controlWrite => Sys2Proof.Machine.execControlWrite s
  | .consumerIndexWrite => Sys2Proof.Machine.execConsumerIndexWrite s
  | .classMapWrite => Sys2Proof.Machine.execClassMapWrite s
  | .nodePolicyRecord => Sys2Proof.Machine.execNodePolicyRecord s
  | .profileRecord => Sys2Proof.Machine.execProfileRecord s
  | .pinRecord => Sys2Proof.Machine.execPinRecord s
  | .badKindRequest => Sys2Proof.Machine.execBadKindRequest s
  | .requestClosingHeld => Sys2Proof.Machine.execRequestClosingHeld s
  | .requestHoldExpiry => Sys2Proof.Machine.execRequestHoldExpiry s
  | .setTime => Sys2Proof.Machine.execSetTime s
  | .pauseStation => Sys2Proof.Machine.execPauseStation s
  | .resumeStation => Sys2Proof.Machine.execResumeStation s
  | .extendStation => Sys2Proof.Machine.execExtendStation s
  | .forgetStation => Sys2Proof.Machine.execForgetStation s
  | .importContext => Sys2Proof.Machine.execImportContext s
  | .imageOpen => Sys2Proof.Machine.execImageOpen s
  | .imageClose => Sys2Proof.Machine.execImageClose s
  | .imageAbort => Sys2Proof.Machine.execImageAbort s
  | .activate => Sys2Proof.Machine.execActivate s
  | .activateCancel => Sys2Proof.Machine.execActivateCancel s
  | .bootConfirm => Sys2Proof.Machine.execBootConfirm s
  | .resultWriteDone => Sys2Proof.Machine.execResultWriteDone s
  | .reportBodyWriteDone => Sys2Proof.Machine.execReportBodyWriteDone s
  | .producerIndexWriteDone => Sys2Proof.Machine.execProducerIndexWriteDone s
  | .statusWriteDone => Sys2Proof.Machine.execStatusWriteDone s
  | .flashWindowRead => Sys2Proof.Machine.execFlashWindowRead s
  | .flashHoldExpiry => Sys2Proof.Machine.execFlashHoldExpiry s
  | .flashWindowWrite => Sys2Proof.Machine.execFlashWindowWrite s
  | .stagingRead => Sys2Proof.Machine.execStagingRead s
  | .stagingWrite => Sys2Proof.Machine.execStagingWrite s
  | .stagingWriteHoldExpiry => Sys2Proof.Machine.execStagingWriteHoldExpiry s
  | .flashPortGrant => Sys2Proof.Machine.execFlashPortGrant s
  | .flashStatusPoll busy suspended fail => Sys2Proof.Machine.execFlashStatusPoll busy suspended fail s
  | .flashPassThroughReadEnd flips => Sys2Proof.Machine.execFlashPassThroughReadEnd flips s
  | .flashSuspended => Sys2Proof.Machine.execFlashSuspended s
  | .suspendTimeout => Sys2Proof.Machine.execSuspendTimeout s
  | .minimumRunEnd => Sys2Proof.Machine.execMinimumRunEnd s
  | .flashOperationTimeout => Sys2Proof.Machine.execFlashOperationTimeout s
  | .flashOperationGiveUp => Sys2Proof.Machine.execFlashOperationGiveUp s
  | .verifyReadEnd flips => Sys2Proof.Machine.execVerifyReadEnd flips s
  | .selectorReadbackEnd flips => Sys2Proof.Machine.execSelectorReadbackEnd flips s
  | .secondBoundary order => Sys2Proof.Machine.execSecondBoundary order s
  | .minuteBoundary order => Sys2Proof.Machine.execMinuteBoundary order s
  | .holdCountdownExpiry slot => Sys2Proof.Machine.execHoldCountdownExpiry slot s
  | .gameLingerEnd slot => Sys2Proof.Machine.execGameLingerEnd slot s
  | .sweepVisit => Sys2Proof.Machine.execSweepVisit s
  | .pauseExpiry slot => Sys2Proof.Machine.execPauseExpiry slot s
  | .extensionExpiry slot => Sys2Proof.Machine.execExtensionExpiry slot s
  | .estimateEntryExpiry slot node => Sys2Proof.Machine.execEstimateEntryExpiry slot node s
  | .backoffExpiry slot => Sys2Proof.Machine.execBackoffExpiry slot s
  | .steerTimeout slot => Sys2Proof.Machine.execSteerTimeout slot s
  | .signalSummary => Sys2Proof.Machine.execSignalSummary s
  | .drainDeadline => Sys2Proof.Machine.execDrainDeadline s
  | .trialExpiry => Sys2Proof.Machine.execTrialExpiry s
  | .loadingReadStatus busy => Sys2Proof.Machine.execLoadingReadStatus busy s

end Sys2Proof.Machine
end

