-- ==== Sys2Proof/Machine/Step.lean ====
section
/-! DEFINITION. The step: the command at the front of the queue, or on an empty queue a tick of the time base. -/
namespace Sys2Proof.Machine

/-- One step: the command at the front of the queue is run with the queue's rest; on an empty queue one millisecond passes
that is no second boundary, or the block idles (R116; log 1). -/
def step (s : State) : Host.Outcome State Fault Refusal :=
  match s.pending with
  | c :: rest => exec c { s with pending := rest }
  | [] => .next s.tick

/-- The command a word spells is put at the front of the queue; the table gives no bits, so no word spells one and the state
is unchanged. -/
def State.withFetchWord (s : State) (nbits w : Nat) : State :=
  match decodeTableWord nbits w with
  | some c => { s with pending := c :: s.pending }
  | none => s

end Sys2Proof.Machine
end

