-- ==== Sys2Proof/Safety.lean ====
section
/-! DEFINITION. What claims are stated in: the invariants of the block that every step keeps, what raising reports may change,
the request in hand, the end of a transmit decision. -/
namespace Sys2Proof.Machine

/-! ## Shapes of claims -/

/-- Every step that answers a next state keeps an invariant, from every state that meets it. -/
def KeptByStep (inv : State → Prop) : Prop := ∀ s t : State, inv s → step s = .next t → inv t

/-- `t` is `s` but for what raising reports can change (R30, R31): the pending queue, the gap flag, the report path, the
arbiter's queue its write joins or waits for behind an overtaken access, and the model's counter of free values. -/
def OnlyReports (s t : State) : Prop :=
  t = { s with
    cau.pending := t.cau.pending
    cau.gap := t.cau.gap
    cau.path := t.cau.path
    ptu.queue := t.ptu.queue
    ptu.behind := t.ptu.behind
    freeIdx := t.freeIdx }

/-- A request is in hand with its owner: the slot is PENDING and no answer has been given (R27). -/
def State.HasRequest (s : State) (kind : Word) (q : Request) : Prop :=
  s.cau.slot = .pending ∧ s.cau.request = some q ∧ q.kind = kind

/-- The command that hands a request of each kind to its owner (table of section 2.4). -/
def requestRows : List (Nat × Instr) :=
  [(1, .setTime), (2, .pauseStation), (3, .resumeStation), (4, .extendStation), (5, .forgetStation), (6, .importContext),
   (7, .imageOpen), (8, .imageClose), (9, .imageAbort), (10, .activate), (11, .activateCancel), (12, .bootConfirm)]

/-- A held transmit read has ended with an outcome: the defer record of its ring takes it (R47, R48) and the words of R45 are
returned. -/
def State.decided (s : State) (h : InHand) (w : Window) (d : List Word) (o : TxOutcome) : State :=
  let q := deferStep s.policy.deferLimit h.txn.addr (s.diu.defers.getD w.ringId none) o
  ({ s with diu.defers := s.diu.defers.set w.ringId q.1 } : State).endTxn h (.data (judgedWords d q.2))

/-- The bytes of the page or sector that an operation works on (R157). -/
def FlashWork.covers (w : FlashWork) (a : Nat) : Prop :=
  match w with
  | .program p _ => p ≤ a ∧ a < p + 256
  | .erase p => p ≤ a ∧ a < p + 65536

/-- `t`'s flash is `s`'s with an operation broken off part-way (R157, R172, R194): every byte outside its page or sector is kept,
and of a programmed page no bit goes from 0 to 1 and none is cleared that the data leaves. -/
def LeftPartway (w : FlashWork) (s t : State) : Prop :=
  (∀ a, ¬w.covers a → t.flashByte a = s.flashByte a)
    ∧ ∀ (p : Nat) (data : List Byte) (i : Nat), w = .program p data → i < 256 →
        t.flashByte (p + i) &&& s.flashByte (p + i) = t.flashByte (p + i)
        ∧ s.flashByte (p + i) &&& data.getD i 0xFF &&& t.flashByte (p + i) = s.flashByte (p + i) &&& data.getD i 0xFF

/-- The 16 bytes that the array holds at an entry position of the selector log, sector 5 (R184). -/
def logEntryAt (s : State) (k : Nat) : Option Entry := entryOfBytes (s.flashRead (0x050000 + 16 * k) 16 [])

/-- The newest entry of `s`'s selector log stands in `t`'s and is the newest there (R184, R188); where `s`'s log holds no valid entry,
`t`'s holds none. -/
def NewestKept (s t : State) : Prop :=
  ((∀ k, k < 4096 → logEntryAt s k = none) → ∀ k, k < 4096 → logEntryAt t k = none)
    ∧ ((∃ k, k < 4096 ∧ logEntryAt s k ≠ none) → ∃ k e, k < 4096 ∧ logEntryAt s k = some e ∧ logEntryAt t k = some e
      ∧ ∀ j f, j < 4096 → logEntryAt s j = some f ∨ logEntryAt t j = some f → f.seq.toNat ≤ e.seq.toNat)

/-- What a failed append leaves of the array (R185, R188): no valid entry at its place, no bit turned from 0 to 1 (R157), every byte
beside the place as it was, and the whole array where the place held none already. -/
def NoEntryLeft (s t : State) : Prop :=
  t = { s with flash := t.flash, freeIdx := t.freeIdx }
    ∧ logEntryAt t s.position = none
    ∧ (∀ a, t.flashByte a &&& s.flashByte a = t.flashByte a)
    ∧ (∀ a, a < 0x050000 + 16 * s.position ∨ 0x050000 + 16 * s.position + 16 ≤ a → t.flashByte a = s.flashByte a)
    ∧ (logEntryAt s s.position = none → t = s)

/-- What sector 4 holds is no valid configuration block, so that a LOADING whose READs return what it holds installs the built-in
defaults (R174, R186, R187): its magic, format or length is wrong, or one of the later tests fails. -/
def ConfigInvalid (s : State) : Prop :=
  let bs := s.flashRead 0x040000 416 []
  byteWord bs 0 ≠ 0x53374C43#32 ∨ field (byteWord bs 1) 0 8 ≠ 1 ∨ blockLength bs < 416 ∨ 65536 < blockLength bs
    ∨ ∃ r, judgeBlock bs (crcBytes 0xFFFFFFFF (s.flashRead 0x040010 (blockLength bs - 16) [])) = .error r

/-- No two valid pins hold one address (R78). -/
def PinsDistinct (s : State) : Prop := (s.stu.pins.filterMap (fun p => p.map (fun q => q.addr))).Nodup

/-- The starting values of a record for an address that its creating event does not decide: profile and class from the address's pin, or
else profile 0 and none, and the units' starting fields (R65, R79, R135). -/
def Station.FreshIn (s : State) (m : Mac) (r : Station) : Prop :=
  r.addr = m ∧ r.age = 0 ∧ r.gameCount = 0 ∧ r.sustain = 0 ∧ r.estimates = [] ∧ r.dwell = 0 ∧ r.candidate = none
    ∧ r.steerTo = none ∧ r.steerTimer = 0 ∧ r.backoff = 0 ∧ r.current = none ∧ r.unmovable = false
    ∧ (∀ p, some p ∈ s.stu.pins → p.addr = m → PinsDistinct s → r.profile = p.profile ∧ r.pinned = p.cls)
    ∧ ((∀ p, some p ∈ s.stu.pins → p.addr ≠ m) → r.profile = 0 ∧ r.pinned = none)

/-- A record starts at the rate of its level, ceiling and multiplier, with full tokens, settled now (R65, R82, R102, R103). -/
def Station.StartedAt (s : State) (multiplier : Nat) (r : Station) : Prop :=
  r.rate = rateOf r.level (baseOf (s.workingCeiling r.profile)) multiplier ∧ r.cap = capacityOf r.rate
    ∧ r.tokens = 16 * (r.cap : Int) ∧ r.settled = s.time.ms

/-- The records with their sweep marks left out of account: a change of contention marks them all (R110). -/
def unmarked (rs : List Station) : List Station := rs.map (fun r => { r with mark := false })

/-- The rules of R7 on the used entries of a window map, as the manual lists them: kind counts, halves, alignment, overlap, fixed
sizes, rings. -/
def MapRules (ws : List Window) : Prop :=
  let ring := fun w : Window => w.kind = .txRing ∨ w.kind = .rxRing
  let count := fun k => (ws.filter (fun w => w.kind == k)).length
  (count .control = 1 ∧ count .report = 1 ∧ count .boot = 1 ∧ count .config = 1 ∧ count .image = 1 ∧ count .staging = 1
    ∧ count .txRing ≤ 8 ∧ count .rxRing ≤ 4)
  ∧ (∀ w ∈ ws,
      (ring w ∨ w.kind = .control ∨ w.kind = .report → w.base + w.size ≤ 0x8000000)
      ∧ (w.kind = .boot ∨ w.kind = .config ∨ w.kind = .image ∨ w.kind = .staging →
          0x8000000 ≤ w.base ∧ w.base + w.size ≤ 0x10000000)
      ∧ w.base % 4096 = 0 ∧ w.size % 4096 = 0 ∧ w.size ≠ 0
      ∧ (w.kind = .control → w.size = 16 * 1024)
      ∧ (w.kind = .report → 4 * 1024 ≤ w.size ∧ w.size ≤ 32 * 1024)
      ∧ (w.kind = .boot → w.size = 256 * 1024) ∧ (w.kind = .config → w.size = 64 * 1024)
      ∧ (w.kind = .image ∨ w.kind = .staging → w.size = 8192000)
      ∧ (ring w → 16 ≤ w.descCount ∧ w.descCount ≤ 4096 ∧ w.descCount * 32 ≤ w.size)
      ∧ (w.kind = .rxRing → w.ringId ≤ 3))
  ∧ ws.Pairwise (fun v w =>
      (∀ a, ¬(v.base ≤ a ∧ a < v.base + v.size ∧ w.base ≤ a ∧ a < w.base + w.size))
      ∧ (ring v → v.kind = w.kind → v.ringId ≠ w.ringId))

/-! ## Invariants -/

/-- The three byte memories are in canonical form: addresses strictly rising, and no entry equal to what an unlisted address
reads as. -/
def MemoriesCanonical (s : State) : Prop :=
  Memory.wf Config.sramUnwritten s.sram = true ∧ Memory.wf Config.flashErased s.flash = true
    ∧ Memory.wf Config.shadowZero s.cau.shadow = true

/-- ATTN is asserted exactly while the published producer index differs from the consumer index (R33). -/
def AttnFollowsIndices (s : State) : Prop := s.lines.attn = (s.cau.published != s.cau.consumer)

/-- READY is high exactly in start-up state READY (section 10.4). -/
def ReadyFollowsStartUp (s : State) : Prop := s.lines.ready = (s.suc.startUp == .ready)

/-- At most 16 records wait in the pending queue (R30). -/
def PendingBounded (s : State) : Prop := s.cau.pending.length ≤ 16

/-- The station table: slots 0..127 in ascending order, one record for each slot, and no address in two records (R64). -/
def TableProper (s : State) : Prop :=
  (s.stu.stations.map (fun r => r.slot)).Pairwise (· < ·)
    ∧ (∀ r ∈ s.stu.stations, r.slot < 128)
    ∧ (s.stu.stations.map (fun r => r.addr)).Nodup

/-- A record's capacity and tokens are within the bounds of R103. -/
def Station.TokensBounded (r : Station) : Prop :=
  3072 ≤ r.cap ∧ r.cap ≤ 1048576 ∧ -(16 * (r.cap : Int)) ≤ r.tokens ∧ r.tokens ≤ 16 * (r.cap : Int)

/-- Every record's capacity and tokens are within the bounds of R103. -/
def AllTokensBounded (s : State) : Prop := ∀ r ∈ s.stu.stations, r.TokensBounded

/-- The node game-active count is the number of game-active records, and contention is on exactly while it is above 0 (R93,
R94). -/
def GamesCounted (s : State) : Prop :=
  s.cgu.count = (s.stu.stations.filter (fun r => r.gameActive)).length ∧ s.cgu.contention = decide (0 < s.cgu.count)

/-- The fields of a record that belong to a state are there exactly in that state: a current node in AWAY, a steer target in
STEERING, a hold countdown in IDLE, EXPECTED and AWAY (R63, R70, R139, R145). -/
def Station.StateProper (r : Station) : Prop :=
  (r.state = .away ↔ r.current.isSome = true) ∧ (r.state = .steering ↔ r.steerTo.isSome = true)
    ∧ ((r.state = .idle ∨ r.state = .expected ∨ r.state = .away) ↔ r.hold.isSome = true)

/-- Every record's state and the fields that belong to it agree. -/
def AllStatesProper (s : State) : Prop := ∀ r ∈ s.stu.stations, r.StateProper

/-- A profile's levels are 0..4096: default level, the levels of the windows in use, and its current target (R118, R119). -/
def Profile.LevelsBounded (p : Profile) : Prop :=
  p.defaultLevel ≤ 4096 ∧ p.target ≤ 4096 ∧ ∀ w ∈ p.windows.take p.count, w.level ≤ 4096

/-- Every record's level lies between its station target and 4096 (R123), and is 0 while a pause is in force (R122). -/
def LevelsProper (s : State) : Prop :=
  (∀ r ∈ s.stu.stations, s.stationTarget r ≤ r.level ∧ r.level ≤ 4096 ∧ (r.pause.inForce = true → r.level = 0))
    ∧ ∀ p ∈ s.scu.profiles, p.LevelsBounded

/-- A record's admitted rate is 0 while its level is 0, and else lies between 1 and the base of its working ceiling; its
capacity is the one that rate gives (R99, R102, R103, R109). -/
def State.RateProper (s : State) (r : Station) : Prop :=
  (r.level = 0 → r.rate = 0)
    ∧ (0 < r.level → 1 ≤ r.rate ∧ r.rate ≤ baseOf (s.workingCeiling r.profile))
    ∧ r.cap = capacityOf r.rate

/-- Every record's rate is proper, over levels, a contention factor and a reference rate in their ranges. -/
def RatesProper (s : State) : Prop :=
  (∀ r ∈ s.stu.stations, r.level ≤ 4096 ∧ s.RateProper r) ∧ (∀ p ∈ s.scu.profiles, p.LevelsBounded)
    ∧ s.policy.factor ≤ 4096 ∧ 1 ≤ s.policy.refRate

/-- The paths with an access in the arbiter's queue or on the port, overtaken by a restart or not. -/
def State.issued (s : State) : List Nat :=
  s.ptu.queue.map (fun q => q.access.kind.path)
    ++ (match s.ptu.port with
        | .internal a _ => [a.kind.path]
        | .free => []
        | .passThrough => [])

/-- The paths whose unit waits for an access: one in the queue, one that waits behind an overtaken access, one on the port that
no restart has overtaken. -/
def State.outstanding (s : State) : List Nat :=
  s.ptu.queue.map (fun q => q.access.kind.path) ++ (s.ptu.behind.map (fun a => a.kind.path)).toList
    ++ (match s.ptu.port with
        | .internal a false => [a.kind.path]
        | .internal _ true => []
        | .free => []
        | .passThrough => [])

/-- The arbiter's queue (R16): wait counts 0..8 with the oldest entry's the highest; each path has at most one access issued, an
access waits behind only an overtaken one of its own path on the port (section 1.5), and each path has one outstanding
exactly when its unit waits for it. -/
def ArbiterProper (s : State) : Prop :=
  (s.ptu.queue.map (fun q => q.wait)).Pairwise (· ≥ ·)
    ∧ (∀ q ∈ s.ptu.queue, q.wait ≤ 8)
    ∧ s.issued.Nodup
    ∧ (∀ a, s.ptu.behind = some a → s.pathBlocked a.kind.path = true)
    ∧ s.outstanding.Nodup
    ∧ (0 ∈ s.outstanding ↔ s.cau.path = .zeroing ∨ s.cau.path = .body ∨ s.cau.path = .index)
    ∧ (1 ∈ s.outstanding ↔ s.cau.slot = .pending ∧ s.cau.request = none)
    ∧ (2 ∈ s.outstanding ↔ s.cau.statusOut = true)
    ∧ (3 ∈ s.outstanding ↔ s.diu.peerQueue ≠ [])
    ∧ (s.cau.request ≠ none → s.cau.slot = .pending)
    ∧ (s.suc.startUp = .loading → s.cau.path = .notBegun)

end Sys2Proof.Machine
end

