-- ==== Sys2Proof/Certificates/Slice0/Obligations.lean ====
section
/-! DEFINITION. The statements for the provers: the step, the invariants every step keeps, who may change what, and the effect
of every command by the numbered rules. -/
open Sys2Proof Sys2Proof.Machine

/-! ## The step and the invariants -/

/-- The queue's front command is what a step runs, on the state with the queue's rest; on an empty queue one millisecond of the
time base passes that is no second boundary, and at sub-second count 999 the block waits for the boundary's own command (R116;
the empty queue is the model's choice, log 1). With it pass 1,000 µs of the hold of the transaction in hand (R3), of LOADING's
wait for the flash (R186) and of the counts of a program or erase: its busy time but from SUSPEND to RESUME, the wait for a
suspension, the time since its timeout (R159, R161); nothing else changes. -/
def Obligations.StepRunsTheQueue : Prop :=
  (∀ (c : Instr) (rest : List Instr) (s : State),
    step { s with pending := c :: rest } = exec c { s with pending := rest })
  ∧ ∀ s : State, s.pending = [] →
    (s.time.sub < 999 → ∃ t, step s = .next t
      ∧ t = { s with
          time := { s.time with ms := s.time.ms + 1, sub := s.time.sub + 1 }
          ptu.inHand := s.ptu.inHand.map (fun h => { h with heldUs := h.heldUs + 1000 })
          imu.port := t.imu.port
          suc.loadUs :=
            if s.suc.startUp = .loading ∧ s.suc.load = .status then s.suc.loadUs + 1000 else s.suc.loadUs }
      ∧ ((∀ o, s.imu.port ≠ .busy o) → t.imu.port = s.imu.port)
      ∧ ∀ o, s.imu.port = .busy o →
          let late := if o.timedOut = true then o.lateUs + 1000 else o.lateUs
          (o.suspension = .running →
            t.imu.port = .busy { o with busyUs := o.busyUs + 1000, runUs := o.runUs + 1000, lateUs := late })
          ∧ (∀ w, o.suspension = .suspending w →
              t.imu.port = .busy { o with suspendUs := o.suspendUs + 1000, lateUs := late })
          ∧ (o.suspension = .suspended → t.imu.port = .busy { o with lateUs := late }))
    ∧ (999 ≤ s.time.sub → step s = .next s)

/-- Right after power-on every invariant stated below holds (R19, R37, R61, R83, R97, R114, R133, R155, R176, R192). -/
def Obligations.ResetMeetsTheInvariants : Prop :=
  MemoriesCanonical State.reset ∧ AttnFollowsIndices State.reset ∧ ReadyFollowsStartUp State.reset
  ∧ PendingBounded State.reset ∧ TableProper State.reset ∧ PinsDistinct State.reset ∧ AllTokensBounded State.reset
  ∧ RatesProper State.reset ∧ GamesCounted State.reset ∧ AllStatesProper State.reset ∧ LevelsProper State.reset
  ∧ ArbiterProper State.reset

/-- SRAM, flash and shadow stay in canonical form: addresses rising, no entry equal to what an unlisted address reads as. -/
def Obligations.MemoriesStayCanonical : Prop := KeptByStep MemoriesCanonical

/-- ATTN follows the two published indices (R33), READY the start-up state (section 10.4), and the pending queue never holds
more than 16 records (R30). -/
def Obligations.LinesAndReportQueueStayProper : Prop :=
  KeptByStep AttnFollowsIndices ∧ KeptByStep ReadyFollowsStartUp ∧ KeptByStep PendingBounded

/-- The station table never holds two records with one address or one slot, every slot is below 128 (R64), and no two valid
pins hold one address (R78). -/
def Obligations.TableAndPinsStayProper : Prop := KeptByStep TableProper ∧ KeptByStep PinsDistinct

/-- Tokens stay within −16 × B and +16 × B and capacity within 3,072..1,048,576 (R99); the rate is 0 at level 0 and else between
1 and the base of the working ceiling (R102, R109), and the capacity is the one the rate gives (R103). -/
def Obligations.AllowancesStayBounded : Prop := KeptByStep AllTokensBounded ∧ KeptByStep RatesProper

/-- Over a table with one record for each slot, the node game-active count always equals the number of records whose flag is
set, and contention is on exactly while it is above 0 (R93, R94). -/
def Obligations.GameCountStaysTrue : Prop := KeptByStep (fun s => TableProper s ∧ GamesCounted s)

/-- A record has a current node exactly in AWAY, a steering target exactly in STEERING, and a hold countdown exactly in IDLE,
EXPECTED and AWAY (R135, R70). -/
def Obligations.RecordStatesStayProper : Prop := KeptByStep AllStatesProper

/-- Every record's level lies between its current target and 4096 (R123), and is 0 while a pause is in force. -/
def Obligations.LevelsStayAboveTargets : Prop := KeptByStep LevelsProper

/-- The arbiter's queue: wait counts 0..8, the oldest entry's the highest, and each requester path with at most one access in the
queue or on the port, one that a restart has overtaken counted, and one outstanding exactly while its unit waits for one
(R16, R18, section 1.5). -/
def Obligations.ArbiterStaysProper : Prop := KeptByStep ArbiterProper

/-! ## Who may change what -/

/-- SRAM changes only when the SRAM port's work completes (a pass-through access or one of the SL7's own accesses; the end of
a peer fetch read is excused too, though that read stores nothing), and the flash array only when a program or erase ends or
is cut off, or an append's read-back shows what its program has left (R185; log 47). That power-on leaves the SRAM as it is,
which the first clause says with the rest, is the model's choice (log 15). -/
def Obligations.MemoriesChangeOnlyAtTheirPorts : Prop :=
  ∀ (c : Instr) (s t : State), exec c s = .next t →
    (c ≠ .passThroughSramDone → c ≠ .peerFetchReadDone → c ≠ .resultWriteDone → c ≠ .reportBodyWriteDone →
      c ≠ .producerIndexWriteDone → c ≠ .statusWriteDone → t.sram = s.sram)
    ∧ (c ≠ .powerOn → c ≠ .flashOperationGiveUp → (∀ b u f, c ≠ .flashStatusPoll b u f) →
      (∀ f, c ≠ .selectorReadbackEnd f) → t.flash = s.flash)

/-- The clock is changed by power-on, the second boundaries and SET_TIME alone, and SET_TIME keeps the ms counter and the
sub-second count (R116, R117, R134); the loaded configuration stands from LOADING to the next power-on (R20, R187, R193). -/
def Obligations.ClockAndConfigurationAreKept : Prop :=
  ∀ (c : Instr) (s t : State), exec c s = .next t → c ≠ .powerOn →
    ((∀ o, c ≠ .secondBoundary o) → (∀ o, c ≠ .minuteBoundary o) →
      (c ≠ .setTime → t.time = s.time) ∧ t.time.ms = s.time.ms ∧ t.time.sub = s.time.sub)
    ∧ (s.suc.startUp ≠ .loading
        ∨ (c ≠ .flashNoResponse ∧ (∀ b, c ≠ .loadingReadStatus b) ∧ ∀ f, c ≠ .configBlockReadEnd f) →
        t.ptu.windows = s.ptu.windows ∧ t.ptu.inspectLimit = s.ptu.inspectLimit ∧ t.ptu.flashLimit = s.ptu.flashLimit
        ∧ t.suc.node = s.suc.node ∧ t.suc.backhaul = s.suc.backhaul ∧ t.suc.trialWindow = s.suc.trialWindow
        ∧ t.suc.maxAttempts = s.suc.maxAttempts ∧ t.suc.defaulted = s.suc.defaulted)

/-- The absorbed tables are changed by power-on and by the absorption of their own records alone; a node restart keeps them
(R25, R37, R38, R84, R98, R134), but for a write in hand that it lets its owner take first (R5; NodeRestartKeepsAndClears). A
profile's current target is no part of its record (R118): the targets stand between a minute boundary, SET_TIME and the absorption
of a profile (R121), and the maintenance-open flag between a minute boundary and SET_TIME (R132; SecondAndMinuteBoundaries says which
second boundaries are minute boundaries). -/
def Obligations.AbsorbedTablesAreKept : Prop :=
  ∀ (c : Instr) (s t : State), exec c s = .next t → c ≠ .powerOn →
    (c = .nodeRestart → ∀ h, s.ptu.inHand = some h → h.phase ≠ .routed) →
    (c ≠ .nodePolicyRecord → t.policy = s.policy)
    ∧ (c ≠ .classMapWrite → t.cgu.classMap = s.cgu.classMap)
    ∧ (c ≠ .pinRecord → t.stu.pins = s.stu.pins)
    ∧ (c ≠ .profileRecord → t.scu.profiles.map (fun p => { p with target := 0 })
        = s.scu.profiles.map (fun p => { p with target := 0 }))
    ∧ (c ≠ .setTime → (∀ o, c ≠ .secondBoundary o) → (∀ o, c ≠ .minuteBoundary o) →
        t.scu.maintOpen = s.scu.maintOpen ∧ (c ≠ .profileRecord → t.scu = s.scu))

/-- The late counts move only at the two hold expiries, a transmit read's that came while it waited for its words when they come
(R49, log 21), and at the resets (R60, R62); RESTART_REQ stays asserted until a reset (R183); the flash-fault flag stays set
until power-on (R193); and the IMAGE slot mapping moves only where SELECTING can end (R14). -/
def Obligations.CountsLinesAndMappingAreKept : Prop :=
  ∀ (c : Instr) (s t : State), exec c s = .next t → c ≠ .powerOn →
    (c ≠ .nodeRestart → c ≠ .txHoldExpiry → c ≠ .txDescriptorFetch → t.diu.txLate = s.diu.txLate)
    ∧ (c ≠ .nodeRestart → c ≠ .rxHoldExpiry → t.diu.rxLate = s.diu.rxLate)
    ∧ (c ≠ .nodeRestart → s.lines.restartReq = true → t.lines.restartReq = true)
    ∧ (s.suc.flashFault = true → t.suc.flashFault = true)
    ∧ (c ≠ .selectingDecision → c ≠ .flashOperationTimeout → c ≠ .flashOperationGiveUp →
        (∀ b u f, c ≠ .flashStatusPoll b u f) → (∀ f, c ≠ .selectorReadbackEnd f) → t.ptu.mapping = s.ptu.mapping)

/-! ## The pass-through path -/

/-- A transaction beyond the 28-bit bus or of a form the bus does not carry stops; taken outside every window it goes straight to
the SRAM port in the lower half, and ends with ERR at once in the upper, with no PROTECT event (R8, section 1.1). -/
def Obligations.TransactionOutsideEveryWindow : Prop :=
  ∀ (x : Transaction) (s : State),
    (2 ^ 28 ≤ x.addr → exec (.busTransaction x) s = .fault .addressBeyondBus)
    ∧ (x.addr < 2 ^ 28 → x.wf = false → exec (.busTransaction x) s = .refused .notABusTransaction)
    ∧ (x.wf = true → s.lines.ready = true → s.ptu.inHand = none → s.windowAt x.addr = none →
        (x.addr < 0x8000000 → exec (.busTransaction x) s = .next
          { s with ptu.inHand := some { txn := x, window := none, phase := .sramWait .plain, heldUs := 0 } })
        ∧ (0x8000000 ≤ x.addr → exec (.busTransaction x) s = .next
            { s with ptu.reply := some { txn := x, ending := .err } }))

/-- A transaction its window does not permit is never held: ERR to a read, an acknowledgement to a write, and a PROTECT event
(R9), which makes a report with the further count while the quiet flag is clear, and else only counts, up to 65,535; each
second boundary clears the flag and keeps the count (R11). -/
def Obligations.DeniedAccessAndProtectLimit : Prop :=
  (∀ (x : Transaction) (w : Window) (s : State),
    x.wf = true → s.lines.ready = true → s.ptu.inHand = none → s.windowAt x.addr = some w → permitted w x = false →
      exec (.busTransaction x) s = .next
        (({ s with ptu.reply := some { txn := x, ending := if x.dir = .read then .err else .ack } } : State).protectEvent w x))
  ∧ (∀ (x : Transaction) (w : Window),
      permitted w x = (if x.dir = .read then w.readMask else w.writeMask).getLsbD x.master.val)
  ∧ (∀ (x : Transaction) (w : Window) (s : State),
      (s.ptu.quiet = false → s.protectEvent w x = ({ s with ptu.further := 0, ptu.quiet := true } : State).raise
        (.protect w.entry w.kind x.master.val x.dir x.addr s.ptu.further))
      ∧ (s.ptu.quiet = true → s.protectEvent w x = { s with ptu.further := min 65535 (s.ptu.further + 1) }))
  ∧ ∀ (order : List BoundaryUnit) (s t : State), exec (.secondBoundary order) s = .next t →
      t.ptu.quiet = false ∧ t.ptu.further = s.ptu.further

/-- A permitted transaction is taken and routed by its window's kind and nothing else changes (R12 to R15): REPORT and CONTROL
reads and everything a ring window does not give the DIU go to the SRAM port, the rest to the owning unit. -/
def Obligations.PermittedTransactionIsRouted : Prop :=
  ∀ (x : Transaction) (w : Window) (s : State),
    x.wf = true → s.lines.ready = true → s.ptu.inHand = none → s.windowAt x.addr = some w → permitted w x = true →
    ∃ p, exec (.busTransaction x) s = .next
        { s with ptu.inHand := some { txn := x, window := some w, phase := p, heldUs := 0 } }
      ∧ (w.kind = .report → p = .sramWait .plain)
      ∧ (w.kind = .control → x.dir = .read → p = .sramWait .plain)
      ∧ (w.kind = .control → x.dir = .write → p = .routed)
      ∧ (w.kind = .txRing → p =
          if x.dir = .read ∧ x.form = .burst 8 ∧ x.master.val = w.ringMaster ∧ x.addr < w.base + 32 * w.descCount
            ∧ (x.addr - w.base) % 32 = 0 then .sramWait .inspected else .sramWait .plain)
      ∧ (w.kind = .rxRing → p =
          if x.dir = .write ∧ x.master.val = w.ringMaster ∧ x.addr < w.base + 32 * w.descCount then .routed
          else .sramWait .plain)
      ∧ (w.kind = .boot ∨ w.kind = .config ∨ w.kind = .image ∨ w.kind = .staging → p = .routed)

/-- While READY is low a transaction is held whatever its address, window or master, and its hold's expiry ends it with ERR and
no PROTECT event (R4). -/
def Obligations.HeldWhileReadyIsLow : Prop :=
  (∀ (x : Transaction) (s : State), x.wf = true → s.lines.ready = false → s.ptu.inHand = none →
    exec (.busTransaction x) s = .next
      { s with ptu.inHand := some { txn := x, window := none, phase := .readyLow, heldUs := 0 } })
  ∧ ∀ (h : InHand) (s : State), s.ptu.inHand = some h → h.phase = .readyLow →
      exec .readyLowHoldExpiry s = .next
        { s with ptu.inHand := none, ptu.reply := some { txn := h.txn, ending := .err } }

/-- The arbiter of the SRAM port (R18): the free port goes to the oldest queued access when none of the master waits or its wait
count is 8, else to the master's, a closing write's fill read among them, and then every queued entry's count rises by one
(R16). An access of the SL7's own joins the queue with wait count 0, but where an access of its path that a restart has
overtaken still holds the port it waits behind that one (section 1.5). -/
def Obligations.SramPortArbitration : Prop :=
  (∀ (h : InHand) (work : SramWork) (s : State),
    s.ptu.port = .free → s.ptu.inHand = some h → h.phase = .sramWait work →
    (∀ q ∈ s.ptu.queue.head?, q.wait < 8) →
    exec .sramPortGrant s = .next
      { s with
        ptu.port := .passThrough
        ptu.queue := s.ptu.queue.map (fun q => { q with wait := q.wait + 1 })
        ptu.inHand := some { h with phase := .sramBusy work } })
  ∧ (∀ (q : Queued) (rest : List Queued) (s : State),
      s.ptu.port = .free → s.ptu.queue = q :: rest → (8 ≤ q.wait ∨ s.waitingPass = none) →
      exec .sramPortGrant s = .next { s with ptu.queue := rest, ptu.port := .internal q.access false })
  ∧ ∀ (a : InternalAccess) (s : State),
      ((∀ b, s.ptu.port = .internal b true → b.kind.path ≠ a.kind.path) →
        s.issue a = { s with ptu.queue := s.ptu.queue ++ [{ access := a, wait := 0 }] })
      ∧ ∀ b, s.ptu.port = .internal b true → b.kind.path = a.kind.path → s.issue a = { s with ptu.behind := some a }

/-- A pass-through access completes at the SRAM and frees the port (R17): a plain read returns the words SRAM holds, an inspected
read hands its eight words on, and a write changes exactly the bytes it carries, with DISCARD in the kind field where the
gate check asked for it (R54). While a fill read is under way the grant's work is not complete (R53). -/
def Obligations.SramAccessCompletes : Prop :=
  ∀ (h : InHand) (s : State), s.ptu.port = .passThrough → s.ptu.inHand = some h →
    (h.phase = .sramBusy .plain → h.txn.dir = .read → exec .passThroughSramDone s = .next
      { s with
        ptu.port := .free
        ptu.inHand := none
        ptu.reply := some { txn := h.txn, ending := .data (s.sramRead h.txn) } })
    ∧ (h.phase = .sramBusy .inspected → exec .passThroughSramDone s = .next
        { s with ptu.port := .free, ptu.inHand := some { h with phase := .fetched (s.sramRead h.txn) } })
    ∧ (h.phase = .sramBusy .closingFill → exec .passThroughSramDone s = .next s)
    ∧ ∀ x : Transaction,
        ((h.phase = .sramBusy .plain ∨ h.phase = .sramBusy .requestWrite ∨ h.phase = .sramBusy (.closingWrite false)) ∧ x = h.txn
          ∨ h.phase = .sramBusy (.closingWrite true)
            ∧ x = { h.txn with data := h.txn.data.set 0 (discardWord (h.txn.data.getD 0 0)) }) →
        h.txn.wf = true → h.txn.dir = .write → Memory.wf Config.sramUnwritten s.sram = true →
        ∃ t, exec .passThroughSramDone s = .next t
          ∧ t = { s with
                  ptu.port := .free
                  ptu.inHand := none
                  ptu.reply := some { txn := h.txn, ending := .ack }
                  sram := t.sram }
          ∧ (∀ c ∈ x.cells, t.sramByte c.1 = c.2)
          ∧ ∀ a, (∀ c ∈ x.cells, c.1 ≠ a) → t.sramByte a = s.sramByte a

/-! ## Descriptor inspection -/

/-- The eight words of an inspected read complete it as they are while the ready flag is clear, and are held for a decision while
it is set (R39); at the hold's expiry they are returned as DEFER LATE and the TX late count rises, with nothing else changed
(R49). A hold that expires while the read still waits for its words, which counts toward it (R3), makes a ready descriptor
DEFER LATE as soon as they are there (log 21). -/
def Obligations.TransmitReadHeldOrLate : Prop :=
  ∀ (h : InHand) (d : List Word) (s : State), s.ptu.inHand = some h →
    let late : State := { s with
      ptu.inHand := none
      ptu.reply := some { txn := h.txn, ending := .data (judgedWords d (.plain .defer .late)) }
      diu.txLate := s.diu.txLate + 1 }
    (h.phase = .fetched d → txReady d = false → exec .txDescriptorFetch s = .next
      { s with ptu.inHand := none, ptu.reply := some { txn := h.txn, ending := .data d } })
    ∧ (h.phase = .fetched d → txReady d = true → h.late = false → exec .txDescriptorFetch s = .next
        { s with ptu.inHand := some { h with phase := .txHeld d } })
    ∧ (h.phase = .fetched d → txReady d = true → h.late = true → exec .txDescriptorFetch s = .next late)
    ∧ (h.phase = .txHeld d ∨ h.phase = .fetched d ∧ txReady d = true → exec .txHoldExpiry s = .next late)
    ∧ (h.phase = .sramWait .inspected ∨ h.phase = .sramBusy .inspected → ∃ us, exec .txHoldExpiry s = .next
        { s with ptu.inHand := some { h with heldUs := us, late := true } })

/-- The transmit decision before the token test, in its order (R41 to R43): an unrecorded station on profile 0's target alone, a
record in AWAY is REDIRECTed and its hold restarted, a record at level 0 is DROPped; and a descriptor is returned as PASS only
where the level, or profile 0's target, is above 0 (R43). That the words are returned in the step of the decision, so that no restart
falls between the two (R50), is the model's choice (log 48). -/
def Obligations.TransmitDecisionBeforeTokens : Prop :=
  (∀ (h : InHand) (w : Window) (d : List Word) (s : State),
    s.ptu.inHand = some h → h.phase = .txHeld d → h.window = some w →
    (s.recordOf (txDest d) = none →
      ((s.profileOf 0).target = 0 →
        exec .transmitDecision s = .next (s.decided h w d (.plain .drop .unrecordedBlock)))
      ∧ (0 < (s.profileOf 0).target → exec .transmitDecision s = .next (s.decided h w d
          { TxOutcome.plain .pass .none with cls := some (s.resolveClass none (txClass d) (txTag d)) })))
    ∧ ∀ r, s.recordOf (txDest d) = some r →
        (∀ n, r.state = .away → r.current = some n → exec .transmitDecision s = .next
          ((s.putRecord { r with hold := some 120 }).decided h w d
            { TxOutcome.plain .redirect .none with egress := some s.suc.backhaul, node := some n }))
        ∧ (r.state ≠ .away → r.level = 0 → exec .transmitDecision s = .next
            (s.decided h w d (.plain .drop (if r.pause.inForce then .paused else .schedule)))))
  ∧ ∀ (d : List Word) (s : State), (s.judge d).1.action = .pass →
      (s.recordOf (txDest d) = none ∧ 0 < (s.profileOf 0).target)
      ∨ ∃ r, s.recordOf (txDest d) = some r ∧ r.state ≠ .away ∧ 0 < r.level

/-- The token test of a recorded station (R44, R107): the record is settled; where its tokens meet the class's reserve the
frame passes and is charged, a GAME pass counted (R46: one more, up to 255, R88), else it is deferred and only the settlement
stands. The class is the pinned one, else the descriptor's valid one, else the class map's (R85). The
words are returned in the step of the decision (the model's choice, log 48). -/
def Obligations.TransmitDecisionByTokens : Prop :=
  (∀ (h : InHand) (w : Window) (d : List Word) (r : Station) (s : State),
    s.ptu.inHand = some h → h.phase = .txHeld d → h.window = some w →
    s.recordOf (txDest d) = some r → r.state ≠ .away → 0 < r.level →
    let c := s.resolveClass r.pinned (txClass d) (txTag d)
    let r1 := settle s.time.ms r
    (reserveOf c r1.cap ≤ r1.tokens → exec .transmitDecision s = .next
      ((s.putRecord (if c = .game then countGame (charge (txLength d) r1) else charge (txLength d) r1)).decided h w d
        { TxOutcome.plain .pass .none with cls := some c }))
    ∧ (r1.tokens < reserveOf c r1.cap → exec .transmitDecision s = .next
        ((s.putRecord r1).decided h w d { TxOutcome.plain .defer .shaped with cls := some c })))
  ∧ (∀ r : Station, countGame r = { r with gameCount := min 255 (r.gameCount + 1) })
  ∧ ∀ (code tag : Nat) (s : State),
      (∀ c, s.resolveClass (some c) code tag = c)
      ∧ (∀ c : Machine.Class, s.resolveClass none c.code tag = c)
      ∧ (code = 0 ∨ 6 ≤ code → s.resolveClass none code tag = s.mapClass tag)

/-- A ring's defer record (R47, R48): an outcome other than DEFER clears the record of its own address and leaves another's; a
DEFER of the recorded address counts one more, of another begins at 1; one that reaches the limit turns into DROP SHAPED and
clears the record. One descriptor deferred again and again alone receives limit − 1 DEFERs and then a DROP. -/
def Obligations.DeferRecordRule : Prop :=
  (∀ (limit addr : Nat) (o : TxOutcome), o.action ≠ .defer →
    deferStep limit addr none o = (none, o)
    ∧ ∀ q : Defer, deferStep limit addr (some q) o = (if q.addr = addr then none else some q, o))
  ∧ (∀ (limit addr n : Nat) (rec : Option Defer) (o : TxOutcome), o.action = .defer →
      ((∃ k, rec = some { addr := addr, count := k } ∧ n = k + 1) ∨ ((∀ q, rec = some q → q.addr ≠ addr) ∧ n = 1)) →
      (n < limit → deferStep limit addr rec o = (some { addr := addr, count := n }, o))
      ∧ (limit ≤ n → deferStep limit addr rec o = (none, { o with action := .drop })))
  ∧ ∀ (limit addr k : Nat) (o : TxOutcome), o.action = .defer → k + 1 < limit →
      ((fun rec => (deferStep limit addr rec o).1)^[k + 1]) none = some { addr := addr, count := k + 1 }
      ∧ (deferStep limit addr (((fun rec => (deferStep limit addr rec o).1)^[limit - 1]) none) o).2.action = .drop

/-- The words returned for an outcome (R45): action and reason always, class, egress port and peer node where the outcome gives
one, and every other bit of the eight words as read, the reserved ones included (R194). -/
def Obligations.ReturnedDescriptor : Prop :=
  ∀ (d : List Word) (o : TxOutcome), d.length = 8 →
    let u := judgedWords d o
    u.length = 8
    ∧ field (u.getD 0 0) 16 2 = o.action.code ∧ field (u.getD 1 0) 16 4 = o.reason.code
    ∧ field (u.getD 0 0) 8 3 = (match o.cls with | some c => c.code | none => txClass d)
    ∧ (∀ n, n < 16 → o.egress = some n → field (u.getD 0 0) 12 4 = n)
    ∧ (o.egress = none → field (u.getD 0 0) 12 4 = field (d.getD 0 0) 12 4)
    ∧ (∀ n, n < 8 → o.node = some n → field (u.getD 4 0) 16 3 = n)
    ∧ (o.node = none → u.getD 4 0 = d.getD 4 0)
    ∧ txTag u = txTag d ∧ txReady u = txReady d ∧ txLength u = txLength d ∧ txDest u = txDest d
    ∧ (∀ i, i < 8 ∨ i = 11 ∨ 18 ≤ i → bit (u.getD 0 0) i = bit (d.getD 0 0) i)
    ∧ (∀ i, i < 16 ∨ 20 ≤ i → bit (u.getD 1 0) i = bit (d.getD 1 0) i)
    ∧ (∀ i, i < 16 ∨ 19 ≤ i → bit (u.getD 4 0) i = bit (d.getD 4 0) i)
    ∧ ∀ i, i ≠ 0 → i ≠ 1 → i ≠ 4 → u.getD i 0 = d.getD i 0

/-- An observed receive write that closes nothing is taken into its ring's capture record and goes to SRAM: each full word of
words 1 to 7 is seen with its value, a sub-word write unsees its word, and a write of another descriptor first forgets the old
one, a closing write of word 0 alone too (R51); a write of word 0 alone that closes nothing leaves the record (R52), one in
another descriptor than the record's too, where R51's forgetting could be read to hold (log 22). At a closing write's hold
expiry the record is cleared, the RX late count rises and the write goes to SRAM as it came, within its grant where it holds
the port for its fill read (R56). -/
def Obligations.ReceiveCaptureAndExpiry : Prop :=
  (∀ (h : InHand) (w : Window) (s : State), s.ptu.inHand = some h → h.window = some w → w.kind = .rxRing →
    (h.phase = .routed → h.txn.dir = .write → closingWrite h.txn = false → exec .rxRingWrite s = .next
      { s with
        diu.captures := s.diu.captures.set w.ringId (captureWrite (s.captureOf w.ringId) h.txn)
        ptu.inHand := some { h with phase := .sramWait .plain } })
    ∧ (h.phase = .routed ∨ h.phase = .sramWait .closingFill → closingWrite h.txn = true → ∃ us,
        exec .rxHoldExpiry s = .next
          { s with
            diu.rxLate := s.diu.rxLate + 1
            diu.captures := s.diu.captures.set w.ringId Capture.empty
            ptu.inHand := some { h with heldUs := us, phase := .sramWait (.closingWrite false) } })
    ∧ (h.phase = .sramBusy .closingFill → closingWrite h.txn = true → ∃ us, exec .rxHoldExpiry s = .next
        { s with
          diu.rxLate := s.diu.rxLate + 1
          diu.captures := s.diu.captures.set w.ringId Capture.empty
          ptu.inHand := some { h with heldUs := us, phase := .sramBusy (.closingWrite false) } }))
  ∧ ∀ (c : Capture) (x : Transaction), x.wf = true → x.dir = .write → c.words.length = 7 →
      (onlyWordZero x = true → closingWrite x = false → captureWrite c x = c)
      ∧ (onlyWordZero x = false ∨ closingWrite x = true → (captureWrite c x).addr = some (descriptorOf x)
        ∧ ∀ i, 1 ≤ i → i ≤ 7 →
          (∀ v, (descriptorOf x + 4 * i, v) ∈ x.fullWords → (captureWrite c x).word i = some v)
          ∧ (x.partWord = some (descriptorOf x + 4 * i) → (captureWrite c x).word i = none)
          ∧ ((∀ v, (descriptorOf x + 4 * i, v) ∉ x.fullWords) → x.partWord ≠ some (descriptorOf x + 4 * i) →
              (captureWrite c x).word i = if c.addr = some (descriptorOf x) then c.word i else none))

/-- The receive decision (R53 to R55): taken at once where the capture record holds every needed word, 3, 4 and 5 and of a
peer report 1 and 2 as well, else under the write's one grant, queued accesses below 8 waiting behind it, with the missing
words that the fill read brings from SRAM (log 32); DISCARD exactly for DATA from a recorded station at level 0, changing the
kind field alone; the record cleared, and the observation handed to the STU and then to the RMU. -/
def Obligations.ReceiveDecision : Prop :=
  (∀ (h : InHand) (w : Window) (s : State), s.ptu.inHand = some h → h.window = some w → w.kind = .rxRing →
    h.txn.dir = .write → closingWrite h.txn = true →
    let w0 := h.txn.data.getD 0 0
    let c := captureWrite (s.captureOf w.ringId) h.txn
    let s1 := s.putCapture w.ringId c
    c.addr = some (descriptorOf h.txn)
    ∧ (h.phase = .routed → c.complete (rxKind w0) = true →
      exec .rxClosingWrite s =
        let r := s1.receive w.ringId w0 (fun i => (c.word i).getD 0)
        .next (r.2.toPhase h (.sramWait (.closingWrite r.1))))
    ∧ (h.phase = .routed → c.complete (rxKind w0) = false →
        exec .rxClosingWrite s = .next (s1.toPhase h (.sramWait .closingFill)))
    ∧ (h.phase = .sramWait .closingFill → s.ptu.port = .free → (∀ q ∈ s.ptu.queue.head?, q.wait < 8) →
        exec .sramPortGrant s = .next { s with
          ptu.port := .passThrough
          ptu.queue := s.ptu.queue.map (fun q => { q with wait := q.wait + 1 })
          ptu.inHand := some { h with phase := .sramBusy .closingFill } })
    ∧ (h.phase = .sramBusy .closingFill → exec .rxClosingWrite s =
        let r := s.receive w.ringId w0 (s.filledWord w.ringId h.txn)
        .next (r.2.toPhase h (.sramBusy (.closingWrite r.1))))
    ∧ ∀ i, s.filledWord w.ringId h.txn i =
        if (s.captureOf w.ringId).addr = some (descriptorOf h.txn)
        then ((s.captureOf w.ringId).word i).getD (s.sramWord (descriptorOf h.txn + 4 * i))
        else s.sramWord (descriptorOf h.txn + 4 * i))
  ∧ (∀ (ring : Nat) (w0 : Word) (word : Nat → Word) (s : State),
      let m := macOfWords (word 3) (word 4)
      ((s.receive ring w0 word).1 = true ↔ rxKind w0 = .data ∧ ∃ r, s.recordOf m = some r ∧ r.level = 0)
      ∧ (rxKind w0 ≠ .peerReport → (s.receive ring w0 word).2 =
          (({ s with diu.captures := s.diu.captures.set ring Capture.empty } : State).observe m (rxKind w0)).sample m
            (rxSignal (word 5)))
      ∧ (rxKind w0 = .peerReport → (s.receive ring w0 word).2 =
          ({ s with diu.captures := s.diu.captures.set ring Capture.empty } : State).queuePeer
            { addr := field (word 2) 0 28, len := field (word 1) 0 14 }))
  ∧ (∀ (c : Capture) (k : RxKind), let seen := fun i => (c.word i).isSome = true
      c.complete k = true ↔ seen 3 ∧ seen 4 ∧ seen 5 ∧ (k = .peerReport → seen 1 ∧ seen 2))
  ∧ ∀ w0 : Word, field (discardWord w0) 0 4 = 7 ∧ ∀ i, 4 ≤ i → bit (discardWord w0) i = bit w0 i

/-- Receive observations: the table of R67 for a record, whose age returns to 0 (R69) and whose other fields stay but those
that end with its state, with STATION_BACK for one that returns from AWAY (R68); for an unknown address R66 and the new record
of R65, in the lowest FREE slot, with the profile and class of its pin, at its profile's target, with every other field at its start
(R135) and full tokens at the rate of its inputs, every other record unchanged, with STATION_LEARNED; in a full table in the slot of
R72's victim, which is freed with the GAME_EDGE of a game-active one (R93), and none where there is no victim (R73).
A sample takes the signal of word 5 (R55); no measurement, or no record, leaves everything; else the record's local entry is
16 × S where there was none, and where there was one moves one eighth of the way toward 16 × S, at least one step and never
past it, with age 0 (R136). -/
def Obligations.ObservationsLearnAndSample : Prop :=
  (∀ (m : Mac) (k : RxKind) (r : Station) (s : State), s.recordOf m = some r →
    s.observe m k = (s.putRecord (observeRecord k r)).raiseAll (backReport k r)
    ∧ (let st : StationState :=
        if (k = .assoc ∨ k = .data) ∧ (r.state = .idle ∨ r.state = .expected ∨ r.state = .away) then .associated
        else if k = .disassoc ∧ (r.state = .associated ∨ r.state = .steering) then .idle else r.state
      observeRecord k r = { r with
        age := 0
        state := st
        hold := if st = .idle then some 60 else if st = .associated ∧ r.state ≠ .associated then none else r.hold
        current := if r.state = .away ∧ st = .associated then none else r.current
        steerTo := if r.state = .steering ∧ st = .idle then none else r.steerTo
        steerTimer := if r.state = .steering ∧ st = .idle then 0 else r.steerTimer
        unmovable := if r.state ≠ .idle ∧ st = .idle then false else r.unmovable })
    ∧ (∀ n, r.state = .away → k = .assoc ∨ k = .data → r.current = some n → backReport k r = [.stationBack r.addr n])
    ∧ (r.state ≠ .away ∨ (k ≠ .assoc ∧ k ≠ .data) → backReport k r = []))
  ∧ (∀ (m : Mac) (s : State), s.recordOf m = none →
      s.observe m .disassoc = s ∧ s.observe m .other = s
      ∧ ∀ k : RxKind, k = .assoc ∨ k = .data ∨ k = .probe →
          let t := s.observe m k
          let state : StationState := if k = .probe then .idle else .associated
          let asNew := fun r : Station =>
            r.FreshIn s m ∧ r.state = state ∧ r.hold = (if k = .probe then some 60 else none)
            ∧ r.level = (s.profileOf r.profile).target ∧ r.pause = .none ∧ r.ext = 0 ∧ r.failures = 0
            ∧ r.gameActive = false ∧ r.linger = 0 ∧ r.mark = false ∧ r.StartedAt s (t.multiplier false)
          (∀ slot, s.freeSlot = some slot →
            ∃ r, t.recordOf m = some r ∧ r.slot = slot ∧ asNew r
              ∧ (∀ n, n ≠ m → t.recordOf n = s.recordOf n)
              ∧ t.cau.pending = (s.raise (.stationLearned m state)).cau.pending
              ∧ OnlyReports { s with stu.stations := t.stu.stations } t)
          ∧ (s.freeSlot = none → s.victim = none → t = s)
          ∧ ∀ v, s.freeSlot = none → s.victim = some v → TableProper s →
              ∃ r, t.recordOf m = some r ∧ r.slot = v.slot ∧ asNew r ∧ t.recordOf v.addr = none
                ∧ unmarked (t.stu.stations.filter (fun q => q.slot != v.slot))
                    = unmarked (s.stu.stations.filter (fun q => q.slot != v.slot))
                ∧ (v.gameActive = false → t.cau.pending = ((s.raise (.stationFreed v.addr v.state .evicted)).raise
                    (.stationLearned m state)).cau.pending)
                ∧ (v.gameActive = true → t.cau.pending = (s.raiseTogether
                    [[.stationFreed v.addr v.state .evicted, .stationLearned m state],
                     [.gameEdge v.addr false .freed t.cgu.count]]).cau.pending)
                ∧ t.cgu.count = flagged t.stu.stations
                ∧ OnlyReports { s with
                    stu.stations := t.stu.stations, cgu := t.cgu, rmu.summaries := t.rmu.summaries } t)
  ∧ (∀ s : State, TableProper s →
      (s.victim = none ↔ ∀ r ∈ s.stu.stations, r.state = .associated ∨ r.state = .steering)
      ∧ ∀ v, s.victim = some v → v ∈ s.stu.stations
          ∧ (v.state = .idle ∨ v.state = .away ∨ v.state = .expected)
          ∧ (∀ r ∈ s.stu.stations, r.state = .idle → v.state = .idle)
          ∧ (∀ r ∈ s.stu.stations, r.state = .away → v.state ≠ .expected)
          ∧ ∀ r ∈ s.stu.stations, r.state = v.state → r.age < v.age ∨ (r.age = v.age ∧ v.slot ≤ r.slot))
  ∧ (∀ w5 : Word, let n := field w5 0 8
      (n = 128 → rxSignal w5 = none) ∧ (n < 128 → rxSignal w5 = some 0)
      ∧ (128 < n → rxSignal w5 = some ((n : Int) - 256)))
  ∧ (∀ (m : Mac) (v : Int) (s : State),
      (s.recordOf m = none → s.sample m none = s ∧ s.sample m (some v) = s)
      ∧ (TableProper s → s.sample m none = s)
      ∧ ∀ r, s.recordOf m = some r → ∃ r', s.sample m (some v) = s.putRecord r'
          ∧ r' = { r with estimates := r'.estimates }
          ∧ (∀ n, n ≠ s.suc.node → r'.entryOf n = r.entryOf n)
          ∧ (r.entryOf s.suc.node = none → r'.entryOf s.suc.node = some { node := s.suc.node, value := 16 * v, age := 0 })
          ∧ ∀ e, r.entryOf s.suc.node = some e →
              r'.entryOf s.suc.node = some { node := s.suc.node, value := smooth e.value v, age := 0 })
  ∧ ∀ est sig : Int, let d := 16 * sig - est
      (0 < d → smooth est sig = est + max 1 (d / 8) ∧ smooth est sig ≤ 16 * sig)
      ∧ (d < 0 → smooth est sig = est - max 1 (-d / 8) ∧ 16 * sig ≤ smooth est sig)
      ∧ (d = 0 → smooth est sig = est)

/-- Peer reports: the three tests on a buffer in their order (R57), and its fetch under R58: the bytes SRAM holds are taken, a
bad format or node id ends it with its reason (R137), and else the entries used number the smallest of the count, 32 and what
the length holds. A read begins at the buffer's address and the bytes read, and ends with the aligned 32-byte block, or with
the header, or with the last entry used; a buffer that is done or ignored leaves the queue, and the next one's first read is
issued. A read that a restart has overtaken is discarded (R59). Each entry whose twelve bytes are there is handed once, in
buffer order; it sets the node's estimate in a recorded station's map, cut into −2,048..0, with age 0 (R138), and a claim
takes an IDLE, ASSOCIATED or STEERING record AWAY with CONTEXT_EXPORT of what it held (R80), moves an AWAY one, and leaves an
EXPECTED one (R139). Reports are raised before the next read of a buffer is issued (the model's choice, log 37). -/
def Obligations.PeerReportFetch : Prop :=
  (∀ (b : PeerBuffer) (s : State),
    (b.addr % 4 ≠ 0 → s.queuePeer b = s.raise (.peerReportIgnored .address))
    ∧ (0 < b.len → 0x8000000 < b.addr + b.len → s.queuePeer b = s.raise (.peerReportIgnored .address))
    ∧ (b.addr % 4 = 0 → b.addr + b.len ≤ 0x8000000 →
        (b.len < 16 → s.queuePeer b = s.raise (.peerReportIgnored .short))
        ∧ (16 ≤ b.len → 4 ≤ s.diu.peerQueue.length → s.queuePeer b = s.raise (.peerReportIgnored .queueFull))
        ∧ (16 ≤ b.len → 0 < s.diu.peerQueue.length → s.diu.peerQueue.length < 4 →
            s.queuePeer b = { s with diu.peerQueue := s.diu.peerQueue ++ [b] })
        ∧ (16 ≤ b.len → s.diu.peerQueue = [] →
            s.queuePeer b = ({ s with diu.peerQueue := [b] } : State).issueFetch)))
  ∧ (∀ (node used : Nat) (s : State), let f := s.diu.fetch
      let there := min used ((f.bytes.length - 16) / 12)
      (f.handed < there → s.handEntries node used
        = ({ s.peerEstimate node (entryAt f.bytes f.handed) with diu.fetch.handed := f.handed + 1 } : State).handEntries
            node used)
      ∧ (f.handed = there → there < used → s.handEntries node used = s.issueFetch)
      ∧ (f.handed = there → there = used → s.handEntries node used = s.endFetch))
  ∧ (∀ s : State,
      (s.diu.peerQueue = [] → s.issueFetch = s)
      ∧ (∀ b bs, s.diu.peerQueue = b :: bs →
          let n := s.diu.fetch.bytes.length
          let a := b.addr + n
          let span := fun len => s.issueFetch
            = s.issue { kind := .peerFetch, addr := a, data := [], len := min (32 - a % 32) (len - n) }
          (s.diu.fetch.taken = none → span 16) ∧ ∀ node used, s.diu.fetch.taken = some (node, used) → span (16 + 12 * used))
      ∧ s.endFetch = ({ s with
          diu.peerQueue := s.diu.peerQueue.tail
          diu.fetch := { bytes := [], taken := none, handed := 0 } } : State).issueFetch)
  ∧ (∀ (bytes : List Byte) (i : Nat), let w := fun k => wordOfBytes ((bytes.drop (16 + 12 * i + 4 * k)).take 4)
      entryAt bytes i
        = { addr := macOfWords (w 0) (w 1), value := signed 16 (field (w 1) 16 16), claim := bit (w 2) 0 })
  ∧ (∀ (n m : Nat) (v : Int) (r : Station),
      ({ r with estimates := putEstimate n v r.estimates } : Station).entryOf m
        = if m = n then some { node := n, value := v, age := 0 } else r.entryOf m)
  ∧ (∀ (n : Nat) (e : PeerEntry) (s : State),
      (s.recordOf e.addr = none → s.peerEstimate n e = s)
      ∧ ∀ r, s.recordOf e.addr = some r →
          let es := putEstimate n (max (-2048) (min 0 e.value)) r.estimates
          let taken := s.putRecord { r with estimates := es }
          (e.claim = false ∨ r.state = .expected ∨ (r.state = .away ∧ r.current = some n) →
            s.peerEstimate n e = taken)
          ∧ (e.claim = true → r.state = .idle ∨ r.state = .associated ∨ r.state = .steering →
              s.peerEstimate n e = (s.putRecord { r with
                  estimates := es, state := .away, hold := some 120, current := some n, dwell := 0, candidate := none
                  steerTo := none, steerTimer := 0, backoff := 0, failures := 0, unmovable := false }).raiseTogether
                [[.contextExport r.addr r.pause r.ext r.level r.gameActive (if r.gameActive then r.linger else 0)
                    r.failures],
                 [.stationAway r.addr n r.state]])
          ∧ (e.claim = true → r.state = .away → r.current ≠ some n →
              s.peerEstimate n e
                = (s.putRecord { r with estimates := es, current := some n }).raise (.stationAway r.addr n .away)))
  ∧ ∀ (a : InternalAccess) (s : State), a.kind = .peerFetch → a.data = [] →
      (s.ptu.port = .internal a true → exec .peerFetchReadDone s = .next
        { s with
          ptu.port := .free
          ptu.queue := s.ptu.queue ++ (s.ptu.behind.map (fun b => ({ access := b, wait := 0 } : Queued))).toList
          ptu.behind := none })
      ∧ ∀ (b : PeerBuffer) (bs : List PeerBuffer), s.ptu.port = .internal a false → s.diu.peerQueue = b :: bs →
          let bytes := s.diu.fetch.bytes ++ s.sramBytes a.addr a.len
          let s1 : State := { s with ptu.port := .free, diu.fetch.bytes := bytes }
          (∀ node used, s.diu.fetch.taken = some (node, used) →
            exec .peerFetchReadDone s = .next (s1.handEntries node used))
          ∧ (s.diu.fetch.taken = none →
              (bytes.length < 16 → exec .peerFetchReadDone s = .next s1.issueFetch)
              ∧ (16 ≤ bytes.length →
                let node := (bytes.getD 1 0).toNat
                let used := min (bytes.getD 2 0).toNat (min 32 ((b.len - 16) / 12))
                (bytes.getD 0 0 ≠ 1#8 →
                  exec .peerFetchReadDone s = .next (s1.raise (.peerReportIgnored .format)).endFetch)
                ∧ (bytes.getD 0 0 = 1#8 → node = s.suc.node →
                    exec .peerFetchReadDone s = .next (s1.raise (.peerReportIgnored .ownNode)).endFetch)
                ∧ (bytes.getD 0 0 = 1#8 → node ≠ s.suc.node → 7 < node →
                    exec .peerFetchReadDone s = .next (s1.raise (.peerReportIgnored .badNode)).endFetch)
                ∧ (bytes.getD 0 0 = 1#8 → node ≠ s.suc.node → node ≤ 7 → used = 0 →
                    exec .peerFetchReadDone s = .next s1.endFetch)
                ∧ (bytes.getD 0 0 = 1#8 → node ≠ s.suc.node → node ≤ 7 → 0 < used →
                    exec .peerFetchReadDone s = .next
                      ({ s1 with diu.fetch.taken := some (node, used) } : State).issueFetch)))

/-! ## The control area, requests and reports -/

/-- A control write goes to SRAM, and in the same transaction the shadow takes every byte of it that lies in an absorbed region,
and no other (R21); CONTROL_WRITE does nothing more. -/
def Obligations.ControlWriteReachesShadow : Prop :=
  ∀ (h : InHand) (w : Window) (s : State), s.routedTo .control .write = some (h, w) →
    (controlUse w.base h.txn = .plain → exec .controlWrite s = .next (s.absorb h w))
    ∧ (s.absorb h w = { s with
          ptu.inHand := some { h with phase := .sramWait .plain }
          cau.shadow := (s.absorb h w).cau.shadow })
    ∧ (h.txn.wf = true → w.base ≤ wordBase h.txn.addr → Memory.wf Config.shadowZero s.cau.shadow = true →
        (∀ a b, (a, b) ∈ h.txn.cells → absorbed (a - w.base) = true → (s.absorb h w).shadowByte (a - w.base) = b)
        ∧ ∀ o, (absorbed o = false ∨ ∀ b, (w.base + o, b) ∉ h.txn.cells) →
            (s.absorb h w).shadowByte o = s.shadowByte o)

/-- A write that touches the consumer index word proposes the shadow word as index c: accepted when c is below N and no farther
from the consumer index than the published producer index is; then the consumer index is c, ATTN follows, and the report
path goes on where there is room. Every other proposal is ignored (R32, R33). -/
def Obligations.ConsumerIndexProposal : Prop :=
  ∀ (h : InHand) (w : Window) (s : State), s.routedTo .control .write = some (h, w) →
    controlUse w.base h.txn = .consumerIndex →
    let s1 := s.absorb h w
    let c := (s1.shadowWord 0x40).toNat
    let n := s.ringSize
    (c < n ∧ (c + n - s.cau.consumer) % n ≤ (s.cau.published + n - s.cau.consumer) % n →
      exec .consumerIndexWrite s = .next
        ({ s1 with cau.consumer := c, lines.attn := s.cau.published != c } : State).pumpReports)
    ∧ (n ≤ c ∨ (s.cau.published + n - s.cau.consumer) % n < (c + n - s.cau.consumer) % n →
        exec .consumerIndexWrite s = .next s1)

/-- A class map write hands every entry byte it copied at one event (R87), and the CGU stores the class of a byte 1..5 and BULK
for any other (R86); the entries it did not touch, and everything else, stay (R23). -/
def Obligations.ClassMapEntriesStored : Prop :=
  ∀ (h : InHand) (w : Window) (s : State), s.routedTo .control .write = some (h, w) →
    controlUse w.base h.txn = .classMap → h.txn.wf = true → w.base ≤ wordBase h.txn.addr → s.cgu.classMap.length = 256 →
    ∃ t, exec .classMapWrite s = .next t
      ∧ t = { s.absorb h w with cgu.classMap := t.cgu.classMap }
      ∧ t.cgu.classMap.length = 256
      ∧ (∀ e (b : Byte), e < 256 → (w.base + 0x0400 + e, b) ∈ h.txn.cells →
          (∀ c : Machine.Class, b.toNat = c.code → t.cgu.classMap.getD e .bulk = c)
          ∧ ((∀ c : Machine.Class, b.toNat ≠ c.code) → t.cgu.classMap.getD e .bulk = .bulk))
      ∧ ∀ e, (∀ b, (w.base + 0x0400 + e, b) ∉ h.txn.cells) →
          t.cgu.classMap.getD e .bulk = s.cgu.classMap.getD e .bulk

/-- A node policy record is taken from the shadow, each field as written or at the nearer end of its range (R24), and stands at once
(R25). What it does to the table is said whole, record by record: a changed reference rate settles and recomputes the records of
profiles with ceiling 0 (R109), a changed contention factor marks every record for the sweep (R110), the recomputed ones too where
both change (log 26), a sustain count above a lowered setting is cut to it, and so is a game-active record's linger (R96); every
other count and linger, and every other field of every record, stands, and fields as they were change nothing. -/
def Obligations.NodePolicyTaken : Prop :=
  (∀ (h : InHand) (w : Window) (s : State), s.routedTo .control .write = some (h, w) →
    controlUse w.base h.txn = .policy →
    let p := policyOfWords ((s.absorb h w).shadowWords 0x80 16)
    ∃ t, exec .nodePolicyRecord s = .next t
      ∧ t = { s.absorb h w with policy := p, stu.stations := t.stu.stations }
      ∧ t.stu.stations = s.stu.stations.map (fun r =>
          let q := if p.refRate ≠ s.policy.refRate ∧ (s.profileOf r.profile).ceiling = 0 then t.rateChange r else r
          { q with
            mark := if p.factor ≠ s.policy.factor then true else q.mark
            sustain := if p.sustain < s.policy.sustain then min p.sustain r.sustain else r.sustain
            linger := if p.linger < s.policy.linger ∧ r.gameActive = true then min p.linger r.linger else r.linger })
      ∧ (p.factor = s.policy.factor → p.refRate = s.policy.refRate → s.policy.sustain ≤ p.sustain →
          s.policy.linger ≤ p.linger → t.stu.stations = s.stu.stations))
  ∧ ∀ ws : List Word, let p := policyOfWords ws
      1 ≤ p.refRate ∧ p.refRate ≤ 65535 ∧ p.factor ≤ 4096 ∧ 1 ≤ p.threshold ∧ p.threshold ≤ 255
      ∧ 1 ≤ p.sustain ∧ p.sustain ≤ 10 ∧ 5 ≤ p.linger ∧ p.linger ≤ 300 ∧ 1 ≤ p.deferLimit ∧ p.deferLimit ≤ 64
      ∧ -90 ≤ p.trigger ∧ p.trigger ≤ -40 ∧ 2 ≤ p.margin ∧ p.margin ≤ 20 ∧ 2 ≤ p.gameMargin ∧ p.gameMargin ≤ 30
      ∧ -95 ≤ p.floor ∧ p.floor ≤ -50 ∧ 1 ≤ p.dwell ∧ p.dwell ≤ 30 ∧ 1 ≤ p.gameDwell ∧ p.gameDwell ≤ 60
      ∧ 2 ≤ p.steerTimeout ∧ p.steerTimeout ≤ 60 ∧ 10 ≤ p.drainDeadline ∧ p.drainDeadline ≤ 600 ∧ p.maintCount ≤ 4
      ∧ (∀ m ∈ p.maintWindows, m.1 ≤ 10079 ∧ m.2 ≤ 10079)
      ∧ let g := fun i lo n => field (ws.getD i 0) lo n
        p.refRate = max 1 (min 65535 (g 0 0 16)) ∧ p.factor = min 4096 (g 0 16 16)
        ∧ p.threshold = max 1 (min 255 (g 1 0 8)) ∧ p.sustain = max 1 (min 10 (g 1 8 8))
        ∧ p.linger = max 5 (min 300 (g 1 16 16)) ∧ p.deferLimit = max 1 (min 64 (g 2 0 8))
        ∧ p.trigger = max (-90) (min (-40) (signed 8 (g 2 8 8))) ∧ p.margin = max 2 (min 20 (g 2 16 8))
        ∧ p.gameMargin = max 2 (min 30 (g 2 24 8)) ∧ p.floor = max (-95) (min (-50) (signed 8 (g 3 0 8)))
        ∧ p.dwell = max 1 (min 30 (g 3 8 8)) ∧ p.gameDwell = max 1 (min 60 (g 3 16 8))
        ∧ p.steerTimeout = max 2 (min 60 (g 3 24 8)) ∧ p.drainDeadline = max 10 (min 600 (g 15 0 16))
        ∧ p.maintCount = min 4 (g 15 16 8)
        ∧ p.maintWindows = [4, 5, 6, 7].map (fun i => (min 10079 (g i 0 16), min 10079 (g i 16 16)))

/-- A profile whose closing word is written, its fields as section 11.2 lays them out, is refused whole with RECORD_REFUSED where a
field is out of range, and else replaces the profile with its target re-evaluated, each of its records' levels moving by R123
with its edge, in slot order (R119, R125). A record whose level moves, and every record of the profile where the working ceiling
changes, is settled and recomputed by the AU (R108, R109), the others not; records of other profiles stay. -/
def Obligations.ProfileTakenOrRefused : Prop :=
  ∀ (h : InHand) (w : Window) (i : Nat) (s : State), s.routedTo .control .write = some (h, w) →
    controlUse w.base h.txn = .profile →
    (fullWordOffsets w.base h.txn).filter isProfileClosing = [0x0800 + 128 * i + 124] → i < 16 →
    let s1 := s.absorb h w
    let p := profileOfWords (s1.shadowWords (0x0800 + 128 * i) 32) 0
    (profileInRange p = false →
      exec .profileRecord s = .next (s1.raise (.recordRefused .profile i .range)))
    ∧ (profileInRange p = true → ∃ t, exec .profileRecord s = .next t
        ∧ t.scu.profiles = s.scu.profiles.set i { p with target := targetAt s.time p }
        ∧ (let level := fun r : Station => moveLevel (t.slopeOf r) r.pause.inForce (t.stationTarget r) r.level
          t.stu.stations = s.stu.stations.map (fun r =>
            if r.profile = i then
              if s.workingCeiling i ≠ t.workingCeiling i ∨ level r ≠ r.level then t.rateChange { r with level := level r }
              else r
            else r)
          ∧ t.cau.pending = (s.raiseAll (s.stu.stations.flatMap (fun r =>
              if r.profile = i then levelEdges r.addr (s.stationTarget r) r.level (t.stationTarget r) (level r)
              else []))).cau.pending)
        ∧ OnlyReports { s1 with scu.profiles := t.scu.profiles, stu.stations := t.stu.stations } t)
    ∧ (profileInRange p = true ↔ p.defaultLevel ≤ 4096 ∧ p.slope ≤ 7 ∧ p.count ≤ 8
        ∧ ∀ w ∈ p.windows.take p.count, w.start ≤ 10079 ∧ w.stop ≤ 10079 ∧ w.level ≤ 4096)
    ∧ let g := fun k lo n => field (s1.shadowWord (0x0800 + 128 * i + 4 * k)) lo n
      p = { ceiling := g 0 0 16, defaultLevel := g 0 16 16, slope := g 31 0 8, count := g 31 8 8, target := 0
            windows := [1, 3, 5, 7, 9, 11, 13, 15].map (fun k =>
              { start := g k 0 16, stop := g k 16 16, level := g (k + 1) 0 16 }) }

/-- Pins: the closing words of a write are acted on one after another, in ascending address order, a burst's two included (R22). A
pin, laid out as section 11.2 has it, is stored as written, another valid pin of the same address is invalidated with
RECORD_REFUSED (R77, R78), and its profile and class reach the record of its address; the record of the address the entry named
before falls back, and records of other addresses keep theirs (R79). A record whose profile index changes meets its new target,
with its edge, and is settled and recomputed by the AU (R108); the others are untouched. -/
def Obligations.PinTakenAndApplied : Prop :=
  (∀ (h : InHand) (w : Window) (j k : Nat) (s : State), s.routedTo .control .write = some (h, w) →
    controlUse w.base h.txn = .pin →
    let closing := (fullWordOffsets w.base h.txn).filter isPinClosing
    let s1 := s.absorb h w
    let words := fun j => s1.shadowWords (0x1000 + 16 * j) 4
    (closing = [0x1000 + 16 * j + 12] → exec .pinRecord s = .next (s1.takePin j (words j)))
    ∧ (closing = [0x1000 + 16 * j + 12, 0x1000 + 16 * k + 12] →
        exec .pinRecord s = .next ((s1.takePin j (words j)).takePin k (words k))))
  ∧ (∀ (j : Nat) (ws : List Word) (s : State), j < 64 → s.stu.pins.length = 64 → PinsDistinct s →
    let new := pinOfWords ws
    let old := s.stu.pins.getD j none
    let t := s.takePin j ws
    let doubled := fun k =>
      k ≠ j ∧ (s.stu.pins.getD k none).isSome ∧ (s.stu.pins.getD k none).map (fun q => q.addr) = new.map (fun q => q.addr)
    let pinned := fun r : Station =>
      if new.map (fun q => q.addr) = some r.addr then
        { r with profile := (new.map (fun q => q.profile)).getD 0, pinned := new.bind (fun q => q.cls) }
      else if old.map (fun q => q.addr) = some r.addr then { r with profile := 0, pinned := none } else r
    let level := fun q : Station => moveLevel (s.slopeOf q) q.pause.inForce (s.stationTarget q) q.level
    t.stu.pins.length = 64 ∧ t.stu.pins.getD j none = new
    ∧ (∀ k, k ≠ j → t.stu.pins.getD k none = if doubled k then none else s.stu.pins.getD k none)
    ∧ t.stu.stations = s.stu.stations.map (fun r =>
        if (pinned r).profile = r.profile then pinned r
        else s.rateChange { pinned r with level := level (pinned r) })
    ∧ t.cau.pending = (s.raiseTogether
        [(List.range 64).filterMap (fun k => if doubled k then some (.recordRefused .pin k .duplicate) else none),
         s.stu.stations.flatMap (fun r =>
          if (pinned r).profile = r.profile then []
          else levelEdges r.addr (s.stationTarget r) r.level (s.stationTarget (pinned r)) (level (pinned r)))]).cau.pending
    ∧ OnlyReports { s with stu := t.stu } t)
  ∧ ∀ ws : List Word,
      (bit (ws.getD 3 0) 0 = false → pinOfWords ws = none)
      ∧ (bit (ws.getD 3 0) 0 = true → ∃ p, pinOfWords ws = some p
          ∧ p.addr = macOfWords (ws.getD 0 0) (ws.getD 1 0) ∧ p.profile = field (ws.getD 2 0) 0 4
          ∧ (∀ c : Machine.Class, c.code = field (ws.getD 2 0) 8 3 → p.cls = some c)
          ∧ (field (ws.getD 2 0) 8 3 = 0 ∨ 5 < field (ws.getD 2 0) 8 3 → p.cls = none))

/-- A closing write of the request slot taken while the slot is FREE goes to SRAM and to the shadow, the request takes its kind
and its arguments from the shadow, and the slot is PENDING (R27); the owner's command then acts on that request. A kind that
names no request is answered BAD_KIND with detail 0. -/
def Obligations.RequestTakenFromShadow : Prop :=
  (∀ (h : InHand) (w : Window) (s : State), s.routedTo .control .write = some (h, w) →
    controlUse w.base h.txn = .request → s.cau.slot = .free →
    let a := s.absorb h w
    let q : Request := { kind := a.shadowWord 0x3C, args := a.shadowWords 0 14 }
    let s1 : State := { a with cau.slot := .pending, cau.request := some q }
    (∀ k row, (k, row) ∈ requestRows → q.kind.toNat = k → exec row s = exec row s1)
    ∧ (q.kind.toNat = 0 ∨ 12 < q.kind.toNat → exec .badKindRequest s = .next (s1.answer q .badKind 0)))
  ∧ ∀ (k : Word) (q : Request) (s : State), s.HasRequest k q → k.toNat = 0 ∨ 12 < k.toNat →
      exec .badKindRequest s = .next (s.answer q .badKind 0)

/-- A full-word write to w15 while the slot is PENDING is held: it reaches neither SRAM nor the shadow; at its hold's expiry it
ends with ERR and the slot stays as it is (R29). -/
def Obligations.RequestClosingWriteHeld : Prop :=
  ∀ (h : InHand) (w : Window) (s : State),
    (s.routedTo .control .write = some (h, w) → controlUse w.base h.txn = .request → s.cau.slot = .pending →
      exec .requestClosingHeld s = .next { s with ptu.inHand := some { h with phase := .requestHeld } })
    ∧ (s.ptu.inHand = some h → h.phase = .requestHeld →
        exec .requestHoldExpiry s = .next
          { s with ptu.inHand := none, ptu.reply := some { txn := h.txn, ending := .err } })

/-- SET_TIME (R117): RANGE outside 0..10079 and 0..59; else the clock is set and valid, the ms counter and the sub-second
count stand, every profile's target and the maintenance-open flag are re-evaluated, every level moves by R123 with its edge, a
record whose level moves is settled and recomputed (R108), and DONE is answered with detail 0, after the reports (the model's
choice, log 37). A window runs from its start minute to the one before its stop, across the week's end where the stop lies
below the start, and is empty where they are equal (R120); a target is the least level of the windows in use that hold the
minute, and the default where none does or time is not valid (R121). -/
def Obligations.SetTimeRequest : Prop :=
  ∀ (q : Request) (s : State), s.HasRequest 1 q →
    (10079 < q.arg 0 ∨ 59 < q.arg 1 → exec .setTime s = .next (s.answer q .range 0))
    ∧ (q.arg 0 ≤ 10079 → q.arg 1 ≤ 59 → ∃ t, exec .setTime s = .next (t.answer q .done 0)
        ∧ t.time = { s.time with minute := q.arg 0, second := q.arg 1, valid := true }
        ∧ t.scu.profiles = s.scu.profiles.map (fun p => { p with target := targetAt t.time p })
        ∧ t.scu.maintOpen = (s.policy.maintWindows.take s.policy.maintCount).any (fun w => minuteIn w.1 w.2 (q.arg 0))
        ∧ (let level := fun r : Station => moveLevel (t.slopeOf r) r.pause.inForce (t.stationTarget r) r.level
          t.stu.stations = s.stu.stations.map (fun r =>
            if level r = r.level then r else t.rateChange { r with level := level r })
          ∧ t.cau.pending = (({ s with time := t.time } : State).raiseAll (s.stu.stations.flatMap (fun r =>
              levelEdges r.addr (s.stationTarget r) r.level (t.stationTarget r) (level r)))).cau.pending)
        ∧ OnlyReports { s with time := t.time, scu := t.scu, stu.stations := t.stu.stations } t)
    ∧ (∀ start stop m : Nat,
        (start < stop → (minuteIn start stop m = true ↔ start ≤ m ∧ m < stop))
        ∧ (stop < start → (minuteIn start stop m = true ↔ start ≤ m ∨ m < stop))
        ∧ (start = stop → minuteIn start stop m = false))
    ∧ ∀ (c : TimeBase) (p : Profile),
        let holds := fun w : ProfileWindow => minuteIn w.start w.stop c.minute = true
        let used := p.windows.take p.count
        (c.valid = false ∨ (∀ w ∈ used, ¬holds w) → targetAt c p = p.defaultLevel)
        ∧ (c.valid = true → (∃ w ∈ used, holds w) →
            (∃ w ∈ used, holds w ∧ targetAt c p = w.level) ∧ ∀ w ∈ used, holds w → targetAt c p ≤ w.level)

/-- PAUSE_STATION, RESUME_STATION and EXTEND_STATION judge in the order of R128, R129 and R130; a pause takes the level to 0
at once with GATED when it was above 0 and ends an extension, an extension takes it to 4096 with OPENED when it leaves 0, a
resume lifts a pause with detail 1 and answers 0 where none was in force. A level that moves has the AU settle and recompute
the record (R108); nothing else of it moves, and the report goes before the answer (the model's choice, log 37). A station's
target is 0 under a pause, else 4096 under an extension, else its profile's (R122); a level at or below its target goes to it
at once, one above it at once under a pause or slope code 0, and else stays for the ramp (R123). The edge of an event (R125):
GATED where the level comes to 0, OPENED where it leaves 0, else WIND_DOWN where it stood at its target just before (log 25)
and is now above the new one. -/
def Obligations.PauseResumeExtendRequests : Prop :=
  ∀ (q : Request) (s : State),
    (s.HasRequest 2 q →
      (1440 < q.arg 2 → exec .pauseStation s = .next (s.answer q .range 0))
      ∧ (q.arg 2 ≤ 1440 → s.recordOf q.station = none → exec .pauseStation s = .next (s.answer q .unknownStation 0))
      ∧ ∀ r, q.arg 2 ≤ 1440 → s.recordOf q.station = some r →
          let p := { r with
            pause := if q.arg 2 = 0 then .indefinite else .timed (60 * q.arg 2), ext := 0, level := 0 }
          exec .pauseStation s = .next (((s.putRecord (if r.level = 0 then p else s.rateChange p)).raiseAll
            (if 0 < r.level then [.levelEdge r.addr .gated 0 0] else [])).answer q .done 0))
    ∧ (s.HasRequest 3 q →
        (s.recordOf q.station = none → exec .resumeStation s = .next (s.answer q .unknownStation 0))
        ∧ ∀ r, s.recordOf q.station = some r →
          (r.pause.inForce = false → exec .resumeStation s = .next (s.answer q .done 0))
          ∧ (r.pause.inForce = true → r.level = 0 → r.ext = 0 →
              let l := (s.profileOf r.profile).target
              let p := { r with pause := .none, level := l }
              exec .resumeStation s = .next (((s.putRecord (if l = 0 then p else s.rateChange p)).raiseAll
                (if 0 < l then [.levelEdge r.addr .opened l l] else [])).answer q .done 1)))
    ∧ (s.HasRequest 4 q →
        (q.arg 2 = 0 ∨ 240 < q.arg 2 → exec .extendStation s = .next (s.answer q .range 0))
        ∧ (1 ≤ q.arg 2 → q.arg 2 ≤ 240 →
          (s.recordOf q.station = none → exec .extendStation s = .next (s.answer q .unknownStation 0))
          ∧ ∀ r, s.recordOf q.station = some r →
            (r.pause.inForce = true → exec .extendStation s = .next (s.answer q .paused 0))
            ∧ (r.pause.inForce = false → r.level ≤ 4096 →
                let p := { r with ext := 60 * q.arg 2, level := 4096 }
                exec .extendStation s = .next (((s.putRecord (if r.level = 4096 then p else s.rateChange p)).raiseAll
                  (if r.level = 0 then [.levelEdge r.addr .opened 4096 4096] else [])).answer q .done 0))))
    ∧ (∀ r : Station,
        (r.pause.inForce = true → s.stationTarget r = 0)
        ∧ (r.pause.inForce = false → 0 < r.ext → s.stationTarget r = 4096)
        ∧ (r.pause.inForce = false → r.ext = 0 → s.stationTarget r = (s.profileOf r.profile).target)
        ∧ (r.pause.inForce = true ↔ r.pause = .indefinite ∨ ∃ n, 0 < n ∧ r.pause = .timed n))
    ∧ (∀ (slope target level : Nat) (paused : Bool),
        (level ≤ target → moveLevel slope paused target level = target)
        ∧ (target < level → paused = true ∨ slope = 0 → moveLevel slope paused target level = target)
        ∧ (target < level → paused = false → slope ≠ 0 → moveLevel slope paused target level = level))
    ∧ ∀ (m : Mac) (t0 l0 t1 l1 : Nat),
        (0 < l0 → l1 = 0 → levelEdges m t0 l0 t1 l1 = [.levelEdge m .gated 0 t1])
        ∧ (l0 = 0 → 0 < l1 → levelEdges m t0 l0 t1 l1 = [.levelEdge m .opened l1 t1])
        ∧ (0 < l0 → 0 < l1 → l0 = t0 → t1 < l1 → levelEdges m t0 l0 t1 l1 = [.levelEdge m .windDown l1 t1])
        ∧ (l0 = 0 ∧ l1 = 0 ∨ 0 < l0 ∧ 0 < l1 ∧ (l0 ≠ t0 ∨ l1 ≤ t1) → levelEdges m t0 l0 t1 l1 = [])

/-- Frees (R74): FORGET_STATION ends a record in whatever state it is (R75), and a hold that runs out ends it with the reason
of its state (R71); a lookup then finds none, the other records stay but for a sweep's mark, and STATION_FREED is raised, with
GAME_EDGE OFF FREED and the count after the free for a game-active record, in either order (R30, R93). A station without a
record is answered UNKNOWN_STATION. R75 lets a freed record's report and the result word reach SRAM in either order: that the
report's body joins the arbiter's queue before the result word is the model's choice (log 37). -/
def Obligations.FreesByRequestAndHold : Prop :=
  (∀ (q : Request) (s : State), s.HasRequest 5 q →
    (s.recordOf q.station = none → exec .forgetStation s = .next (s.answer q .unknownStation 0))
    ∧ ∀ r, s.recordOf q.station = some r →
        exec .forgetStation s = .next ((s.freeRecord r .forgotten).answer q .done 0))
  ∧ (∀ (slot n : Nat) (r : Station) (s : State), s.recordAt slot = some r → r.hold = some n → n ≤ 1 →
      (r.state = .idle → exec (.holdCountdownExpiry slot) s = .next (s.freeRecord r .idleTimeout))
      ∧ (r.state = .expected → exec (.holdCountdownExpiry slot) s = .next (s.freeRecord r .expectedTimeout))
      ∧ (r.state = .away → exec (.holdCountdownExpiry slot) s = .next (s.freeRecord r .awayRelease)))
  ∧ ∀ (r : Station) (reason : FreeReason) (s : State), TableProper s → r ∈ s.stu.stations →
      let t := s.freeRecord r reason
      t.recordOf r.addr = none
      ∧ t.stu.stations.map (fun q => { q with mark := false })
          = (s.stu.stations.filter (fun q => q.slot != r.slot)).map (fun q => { q with mark := false })
      ∧ t.cgu.count = flagged t.stu.stations
      ∧ (r.gameActive = false → t.cau.pending = (s.raise (.stationFreed r.addr r.state reason)).cau.pending)
      ∧ (r.gameActive = true → t.cau.pending = (s.raiseTogether
          [[.stationFreed r.addr r.state reason], [.gameEdge r.addr false .freed t.cgu.count]]).cau.pending)
      ∧ t.cgu.contention = decide (0 < t.cgu.count)
      ∧ OnlyReports { s with stu.stations := t.stu.stations, cgu := t.cgu, rmu.summaries := t.rmu.summaries } t

/-- IMPORT_CONTEXT (R81, R82): RANGE for a field out of range, a pause with an extension among them; an unknown address in a
full table with no victim is TABLE_FULL; else the record, found or created in EXPECTED, takes the state of R81's table and the
context, its level moving from the larger of the imported level and its target. Its other fields and every other record stay,
but for a sweep's mark, which the import's own contention change sets on the created record too (the model's choice, log 52);
a found record is settled and recomputed once (log 24), a created one starts with full tokens (R82) and every other field at
its start (R65, R135). The edges are GATED, OPENED and GAME_EDGE alone (R93, R125), after STATION_LEARNED of a created record,
in any order between units (R30). In a full table it takes the slot of R72's victim, which is freed first, with the count after
the free in its GAME_EDGE (R65, R93; the model's choice, log 26). The reports go before the answer (the model's choice, log
37). -/
def Obligations.ImportContextRequest : Prop :=
  ∀ (q : Request) (s : State), s.HasRequest 6 q →
    (contextOf q = none ↔
      2 < q.arg 2 ∨ (q.arg 2 = 2 ∧ (q.arg 3 = 0 ∨ 86400 < q.arg 3)) ∨ 14400 < q.arg 4 ∨ 4096 < q.arg 5 ∨ 4 < q.arg 8
        ∨ (bit (q.args.getD 6 0) 0 = true ∧ (q.arg 7 = 0 ∨ 300 < q.arg 7)) ∨ (q.arg 2 ≠ 0 ∧ q.arg 4 ≠ 0))
    ∧ (contextOf q = none → exec .importContext s = .next (s.answer q .range 0))
    ∧ (∀ c, contextOf q = some c →
      (s.recordOf q.station = none → s.makeRoom = none → exec .importContext s = .next (s.answer q .tableFull 0))
      ∧ ∀ r, (s.recordOf q.station = some r
            ∨ s.recordOf q.station = none ∧ ∃ k, s.freeSlot = some k ∧ r = s.blankRecord q.station .expected k) →
          TableProper s →
          ∃ t r', exec .importContext s = .next (t.answer q .done 0) ∧ t.recordOf q.station = some r'
            ∧ r'.slot = r.slot
            ∧ r'.state = (if r.state = .associated ∨ r.state = .steering then r.state else .expected)
            ∧ r'.hold = (if r.state = .associated ∨ r.state = .steering then r.hold else some 30)
            ∧ (let p : Station := { r with
                  state := r'.state, hold := r'.hold, level := r'.level
                  current := if r.state = .away then none else r.current
                  pause := c.pause, ext := c.ext, failures := c.failures
                  gameActive := r.gameActive || c.active, linger := if c.active = true then c.linger else r.linger }
              r' = { p with tokens := r'.tokens, rate := r'.rate, cap := r'.cap, settled := r'.settled, mark := r'.mark }
              ∧ (s.recordOf q.station = some r → { r' with mark := false } = s.rateChange p)
              ∧ (s.recordOf q.station = none → r'.StartedAt s (s.multiplier c.active)))
            ∧ unmarked (t.stu.stations.filter (fun p => p.slot != r.slot))
                = unmarked (s.stu.stations.filter (fun p => p.slot != r.slot))
            ∧ t.cgu.count = flagged t.stu.stations
            ∧ (s.recordOf q.station = some r → t.cau.pending = (s.raiseTogether
                [if 0 < r.level ∧ r'.level = 0 then [.levelEdge r.addr .gated 0 (s.stationTarget r')]
                  else if r.level = 0 ∧ 0 < r'.level then [.levelEdge r.addr .opened r'.level (s.stationTarget r')] else [],
                 if r.gameActive = false ∧ c.active = true then [.gameEdge r.addr true .imported t.cgu.count]
                  else []]).cau.pending)
            ∧ (s.recordOf q.station = none → t.cau.pending = (s.raiseTogether
                [[.stationLearned q.station .expected],
                 if c.active = true then [.gameEdge q.station true .imported t.cgu.count] else [],
                 if 0 < r.level ∧ r'.level = 0 then [.levelEdge q.station .gated 0 (s.stationTarget r')]
                  else if r.level = 0 ∧ 0 < r'.level then [.levelEdge q.station .opened r'.level (s.stationTarget r')]
                  else []]).cau.pending)
            ∧ r'.level = moveLevel (s.slopeOf r) c.pause.inForce (s.stationTarget r') (max c.level (s.stationTarget r'))
            ∧ OnlyReports { s with stu.stations := t.stu.stations, cgu := t.cgu } t)
    ∧ (∀ k, let r := s.blankRecord q.station .expected k
        r.FreshIn s q.station ∧ r.slot = k ∧ r.state = .expected ∧ r.level = (s.profileOf r.profile).target
        ∧ r.gameActive = false ∧ r.linger = 0)
    ∧ ∀ c v, contextOf q = some c → s.recordOf q.station = none → s.freeSlot = none → s.victim = some v → TableProper s →
        ∃ t r', exec .importContext s = .next (t.answer q .done 0) ∧ t.recordOf q.station = some r'
          ∧ t.recordOf v.addr = none ∧ r'.slot = v.slot ∧ r'.state = .expected ∧ r'.hold = some 30
          ∧ r'.pause = c.pause ∧ r'.ext = c.ext ∧ r'.failures = c.failures
          ∧ r'.gameActive = c.active ∧ r'.linger = (if c.active = true then c.linger else 0)
          ∧ r'.FreshIn s q.station ∧ r'.StartedAt s (t.multiplier c.active)
          ∧ r'.level = moveLevel (s.slopeOf r') c.pause.inForce (s.stationTarget r') (max c.level (s.stationTarget r'))
          ∧ unmarked (t.stu.stations.filter (fun p => p.slot != v.slot))
              = unmarked (s.stu.stations.filter (fun p => p.slot != v.slot))
          ∧ t.cgu.count = flagged t.stu.stations
          ∧ (v.gameActive = false → c.active = false → (0 < r'.level ↔ 0 < (s.profileOf r'.profile).target) →
              t.cau.pending = ((s.raise (.stationFreed v.addr v.state .evicted)).raise
                (.stationLearned q.station .expected)).cau.pending)
          ∧ (let target := (s.profileOf r'.profile).target
            let left := flagged (s.stu.stations.filter (fun p => p.slot != v.slot))
            t.cau.pending = (s.raiseTogether
              [[.stationFreed v.addr v.state .evicted, .stationLearned q.station .expected],
               (if v.gameActive = true then [.gameEdge v.addr false .freed left] else [])
                ++ (if c.active = true then [.gameEdge q.station true .imported t.cgu.count] else []),
               if 0 < target ∧ r'.level = 0 then [.levelEdge q.station .gated 0 (s.stationTarget r')]
                else if target = 0 ∧ 0 < r'.level then [.levelEdge q.station .opened r'.level (s.stationTarget r')]
                else []]).cau.pending)
          ∧ OnlyReports { s with stu.stations := t.stu.stations, cgu := t.cgu, rmu.summaries := t.rmu.summaries } t

/-- IMAGE_OPEN, IMAGE_CLOSE and IMAGE_ABORT (R163, R170, R173): refused by state, then by range; an accepted IMAGE_OPEN begins
the session afresh for the slot the IMAGE window does not map or for sector 4; an accepted IMAGE_CLOSE enters CLOSING once
every word has come; an accepted IMAGE_ABORT leaves of the session its refused flag alone (R165), whatever R176 does not give
for IDLE at the values of log 45, and one in DRAINING clears drain mode with every mark and dwell count (R151). A program or erase
of the session's in progress at the abort runs on, its suspension and its times as they were, with no session to hear of its end,
a verify READ in transfer runs on with its data unwanted, and every other operation or READ is as it was (R173). IMAGE_STATE
goes before the answer (the model's choice, log 37). -/
def Obligations.SessionRequests : Prop :=
  ∀ (q : Request) (s : State), let n := s.imu.session
    (s.HasRequest 7 q →
      ((n.state ≠ .idle ∧ n.state ≠ .failed) ∨ s.suc.boot = .trial → exec .imageOpen s = .next (s.answer q .state 0))
      ∧ (n.state = .idle ∨ n.state = .failed → s.suc.boot = .confirmed →
        (¬(q.arg 0 = 1 ∧ 1 ≤ q.arg 1 ∧ q.arg 1 ≤ 8192000) → ¬(q.arg 0 = 2 ∧ 64 ≤ q.arg 1 ∧ q.arg 1 ≤ 65536) →
          exec .imageOpen s = .next (s.answer q .range 0))
        ∧ ∀ target, (q.arg 0 = 1 ∧ 1 ≤ q.arg 1 ∧ q.arg 1 ≤ 8192000
              ∧ target = .image (if s.ptu.mapping = .a then .b else .a))
            ∨ (q.arg 0 = 2 ∧ 64 ≤ q.arg 1 ∧ q.arg 1 ≤ 65536 ∧ target = .config) →
          exec .imageOpen s = .next ((({ s with imu.session := { Session.idle with
              state := .receiving, target := some target, length := q.arg 1, expCrc := q.args.getD 2 0
              version := q.args.getD 3 0, needed := (q.arg 1 + 65535) / 65536 } } : State).raise
            (.imageState .receiving .none 0 (q.args.getD 3 0))).answer q .done ((q.arg 1 + 65535) / 65536))))
    ∧ (s.HasRequest 8 q →
        (n.state ≠ .receiving ∨ n.nextWord ≠ (n.length + 3) / 4 → exec .imageClose s = .next (s.answer q .state 0))
        ∧ (n.state = .receiving → n.nextWord = (n.length + 3) / 4 → ∃ t n',
            exec .imageClose s = .next (t.answer q .done 0) ∧ n'.state = .closing ∧ n'.current = []
            ∧ t = ({ s with imu.session := n' } : State).raise (.imageState .closing .none n.pages n.version)
            ∧ (n.current = [] → n' = { n with state := .closing })
            ∧ (n.current ≠ [] → n' = { n with state := .closing, current := [], queue := n.queue ++
                [{ page := (4 * n.nextWord - n.current.length) / 256
                   bytes := n.current ++ List.replicate (256 - n.current.length) 0xFF }] })))
    ∧ (s.HasRequest 9 q →
        (n.state = .idle ∨ n.state = .committing ∨ n.state = .committed →
          exec .imageAbort s = .next (s.answer q .state 0))
        ∧ (n.state ≠ .idle → n.state ≠ .committing → n.state ≠ .committed → ∃ t,
            exec .imageAbort s = .next (t.answer q .done 0)
            ∧ t.imu.session = { Session.idle with refused := n.refused }
            ∧ t.imu.lastFail = s.imu.lastFail ∧ t.imu.toggle = s.imu.toggle
            ∧ (s.imu.port = .free → t.imu.port = .free)
            ∧ (∀ p live a k, s.imu.port = .reading p live a k →
                t.imu.port = .reading p (if p = .verify then false else live) a k)
            ∧ (∀ o, s.imu.port = .busy o →
                t.imu.port = .busy { o with owner := if o.owner = .session then .pastSession else o.owner })
            ∧ t.cau.pending = (s.raise (.imageState .idle .aborted n.pages n.version)).cau.pending
            ∧ t.rmu.drain = (s.rmu.drain && n.state != .draining)
            ∧ (n.state ≠ .draining → t.stu.stations = s.stu.stations)
            ∧ (n.state = .draining → t.stu.stations = s.stu.stations.map (fun r =>
                { r with unmovable := false, dwell := 0, candidate := none }))
            ∧ OnlyReports { s with imu := t.imu, rmu.drain := t.rmu.drain, stu.stations := t.stu.stations } t))

/-- ACTIVATE (R178) arms a VERIFIED IMAGE session with the flags of the request, refusing by STATE and then by RANGE;
ACTIVATE_CANCEL (R181) takes an ARMED or DRAINING session back to VERIFIED with no flag, and DRAINING clears drain mode with every
mark and dwell count (R151). IMAGE_STATE goes before the answer (the model's choice, log 37). -/
def Obligations.ActivationRequests : Prop :=
  ∀ (q : Request) (s : State), let n := s.imu.session
    (s.HasRequest 10 q →
      (n.state ≠ .verified ∨ (∀ sl, n.target ≠ some (.image sl)) → exec .activate s = .next (s.answer q .state 0))
      ∧ ∀ sl, n.state = .verified → n.target = some (.image sl) →
        (3 < q.arg 0 → exec .activate s = .next (s.answer q .range 0))
        ∧ (q.arg 0 ≤ 3 → exec .activate s = .next ((({ s with imu.session := { n with
              state := .armed, now := decide (q.arg 0 % 2 = 1), force := decide (2 ≤ q.arg 0) } } : State).raise
            (.imageState .armed .none n.pages n.version)).answer q .done 0)))
    ∧ (s.HasRequest 11 q →
        (n.state ≠ .armed → n.state ≠ .draining → exec .activateCancel s = .next (s.answer q .state 0))
        ∧ (n.state = .armed ∨ n.state = .draining → ∃ t, exec .activateCancel s = .next (t.answer q .done 0)
            ∧ t.imu.session = { n with state := .verified, now := false, force := false, drainLeft := 0 }
            ∧ t.rmu.drain = (s.rmu.drain && n.state != .draining)
            ∧ (n.state ≠ .draining → t.stu.stations = s.stu.stations)
            ∧ (n.state = .draining → t.stu.stations = s.stu.stations.map (fun r =>
                { r with unmovable := false, dwell := 0, candidate := none }))
            ∧ t.cau.pending = (s.raise (.imageState .verified .cancelled n.pages n.version)).cau.pending
            ∧ OnlyReports { s with imu.session := t.imu.session, rmu.drain := t.rmu.drain, stu.stations := t.stu.stations } t))

/-- BOOT_CONFIRM is accepted on trial with time remaining and no confirm append in progress, stops the timer and asks for the
CONFIRMED append of the mapped slot, and is refused with STATE else (R191). That an append asked for and not yet issued counts as in
progress, and so blocks acceptance, is the model's choice (log 46); when the trial's last second runs out RESTART_REQ
is asserted and the boot state stays TRIAL (R190). -/
def Obligations.ConfirmAndTrialExpiry : Prop :=
  (∀ (q : Request) (s : State), s.HasRequest 12 q →
    (s.suc.boot = .confirmed ∨ s.suc.trialLeft = 0 ∨ s.confirming = true →
      exec .bootConfirm s = .next (s.answer q .state 0))
    ∧ (s.suc.boot = .trial → 0 < s.suc.trialLeft → s.confirming = false →
        exec .bootConfirm s = .next (({ s with
          suc.trialRunning := false
          suc.jobs := s.suc.jobs ++ [{ owner := .confirm, slot := s.ptu.mapping, boot := .confirmed, attempts := 0
                                       fallback := false }] } : State).answer q .done 0)))
  ∧ ∀ s : State, s.suc.startUp = .ready → s.suc.boot = .trial → s.suc.trialRunning = true → s.suc.trialLeft = 1 →
      exec .trialExpiry s = .next { s with suc.trialLeft := 0, lines.restartReq := true }

/-- The SL7's own writes complete (R28, R29, R31, R35, R36): the bytes reach SRAM and the port is free; the result write frees the
slot and lets a held closing write be taken, which is held until it completes (R5; log 33); a record's body leaves the queue and its
producer index follows, which then moves the published index and ATTN (R33); the next status write follows. One that a restart has
overtaken gives its unit nothing (R20), a result write's word in SRAM all the same, where R134 has it not written (the model's
choice, log 50), and the access that has waited behind it joins the queue (section 1.5). What they write: an answer puts the kind's
low byte, its result code and its detail into w14 (R28); a refresh's four writes carry the 32 words of section 11.2, each word's
least significant byte at its lowest address. -/
def Obligations.InternalWritesComplete : Prop :=
  (∀ (q : Request) (c : ResultCode) (n : Nat) (s : State), s.answer q c n = ({ s with cau.request := none } : State).issue
    { kind := .result, addr := s.controlBase + 0x38, len := 0
      data := bytesOfWord (BitVec.ofNat 32 (q.kind.toNat % 2 ^ 8 + c.code * 2 ^ 8 + n % 2 ^ 16 * 2 ^ 16)) })
  ∧ [ResultCode.done, .badKind, .range, .state, .unknownStation, .tableFull, .paused].map (fun c => c.code)
      = [1, 2, 3, 4, 5, 6, 7]
  ∧ (∀ (w : Word) (ws : List Word),
      bytesOfWord w = [w.extractLsb' 0 8, w.extractLsb' 8 8, w.extractLsb' 16 8, w.extractLsb' 24 8]
      ∧ bytesOfWords ws = ws.flatMap bytesOfWord)
  ∧ (∀ s : State,
      let w := fun n : Nat => BitVec.ofNat 32 n
      let b := fun x : Bool => if x = true then 1 else 0
      let sl := fun x : Slot => if x = .a then 0 else 1
      let records := fun st => (s.stu.stations.filter (fun r => r.state == st)).length % 2 ^ 8
      let words : List Word :=
        [s.cau.refreshCount, s.time.ms,
         w (s.time.minute % 2 ^ 16 + s.time.second % 2 ^ 8 * 2 ^ 16 + b s.time.valid * 2 ^ 24),
         w ((128 - s.stu.stations.length) % 2 ^ 8 + records .idle * 2 ^ 8 + records .expected * 2 ^ 16
           + records .associated * 2 ^ 24),
         w (records .steering + records .away * 2 ^ 8 + s.cgu.count % 2 ^ 8 * 2 ^ 16 + b s.cgu.contention * 2 ^ 24
           + b s.scu.maintOpen * 2 ^ 25),
         s.diu.txLate, s.diu.rxLate,
         w (s.cau.consumer % 2 ^ 10 + s.cau.pending.length % 2 ^ 5 * 2 ^ 16),
         w (s.imu.session.state.code + s.imu.lastFail.code * 2 ^ 8),
         w (sl s.ptu.mapping + (if s.suc.boot = .trial then 1 else 0) * 2 + b s.suc.defaulted * 2 ^ 2
           + b s.suc.flashFault * 2 ^ 3 + (if s.suc.boot = .trial then s.suc.trialLeft % 2 ^ 16 else 0) * 2 ^ 16)]
        ++ List.replicate 21 0 ++ [s.cau.refreshCount]
      s.statusWords = words
      ∧ s.statusWrites = [0, 8, 16, 24].map (fun k => (4 * k, bytesOfWords ((words.drop k).take 8))))
  ∧ ∀ (a : InternalAccess) (s : State),
    let s1 : State := { s with
      ptu.port := .free, sram := Memory.writeCells Config.sramUnwritten s.sram (cellsAt a.addr a.data) }
    let s2 : State := { s1 with
      ptu.queue := s.ptu.queue ++ (s.ptu.behind.map (fun b => ({ access := b, wait := 0 } : Queued))).toList
      ptu.behind := none }
    (s.ptu.port = .internal a true →
      (a.kind = .result → exec .resultWriteDone s = .next s2)
      ∧ (a.kind = .reportBody → exec .reportBodyWriteDone s = .next s2)
      ∧ (a.kind = .producerIndex → exec .producerIndexWriteDone s = .next s2)
      ∧ (a.kind = .status → exec .statusWriteDone s = .next s2))
    ∧ (s.ptu.port = .internal a false →
      (a.kind = .result → (∀ h, s.ptu.inHand = some h → h.phase ≠ .requestHeld) →
        (∀ h w, s.routedTo .control .write = some (h, w) → controlUse w.base h.txn ≠ .request) →
        exec .resultWriteDone s = .next { s1 with cau.slot := .free })
      ∧ (∀ h w, a.kind = .result →
          (s.ptu.inHand = some h ∧ h.phase = .requestHeld ∧ h.window = some w
            ∨ s.routedTo .control .write = some (h, w) ∧ controlUse w.base h.txn = .request) →
          let f : State := { s1 with cau.slot := .free }
          exec .resultWriteDone s = .next { (f.absorb h w).takeRequest with
            ptu.inHand := some { h with phase := .sramWait .requestWrite } })
      ∧ (a.kind = .reportBody →
          let n := (s.cau.writeIdx + 1) % s.ringSize
          exec .reportBodyWriteDone s = .next
            { s1 with
              cau.pending := s.cau.pending.tail
              cau.writeIdx := n
              cau.path := .index
              ptu.queue := s.ptu.queue ++ [{ access := { kind := .producerIndex, addr := s.controlBase + 0x2080
                                                         data := bytesOfWord (BitVec.ofNat 32 n), len := 0 }
                                             wait := 0 }] })
      ∧ (a.kind = .producerIndex → exec .producerIndexWriteDone s = .next
          ({ s1 with
            cau.published := s.cau.writeIdx
            cau.path := .idle
            lines.attn := s.cau.writeIdx != s.cau.consumer } : State).pumpReports)
      ∧ (a.kind = .status →
          (s.cau.statusLeft = [] → exec .statusWriteDone s = .next { s1 with cau.statusOut := false })
          ∧ ∀ o bs rest, s.cau.statusLeft = (o, bs) :: rest → exec .statusWriteDone s = .next
              { s1 with
                cau.statusLeft := rest
                cau.statusOut := true
                ptu.queue := s.ptu.queue ++ [{ access := { kind := .status, addr := s.controlBase + 0x2000 + o
                                                           data := bs, len := 0 }
                                               wait := 0 }] }))

/-- Raising a report (R30): stamped with the wall clock while time is valid and else with the ms counter, it joins the queue of
fewer than 16 records with the gap flag, which it clears, and is lost from a full one, which sets the flag; the record at
the head goes to the slot of the write index where the ring has room (R31); nothing else changes. A record's eight words are the
header and the fields that section 11.3 lays out for its kind, with its codes. -/
def Obligations.RaisedReportsQueue : Prop :=
  (∀ (b : ReportBody) (gap : Bool),
    let w := fun n : Nat => BitVec.ofNat 32 n
    let head := b.kindCode + (if gap = true then 2 ^ 9 else 0)
    let rest := w b.station.toNat :: w (b.station.toNat / 2 ^ 32) :: b.fields
    (∀ m sec, ({ stamp := .wall m sec, gap := gap, body := b } : Report).words
      = w head :: w (sec % 2 ^ 8 + m % 2 ^ 16 * 2 ^ 16) :: rest)
    ∧ ∀ ms, ({ stamp := .counter ms, gap := gap, body := b } : Report).words = w (head + 2 ^ 8) :: ms :: rest)
  ∧ (let row := fun b : ReportBody => (b.kindCode, b.station, b.fields)
    let w := fun n : Nat => BitVec.ofNat 32 n
    let f := fun (n lo k : Nat) => n % 2 ^ k * 2 ^ lo
    let on := fun (x : Bool) (lo : Nat) => if x = true then 2 ^ lo else 0
    let est := fun v : Int => (v % 2 ^ 16).toNat
    (∀ m st, row (.stationLearned m st) = (1, m, [w st.code, 0, 0, 0]))
    ∧ (∀ m st (y : FreeReason), row (.stationFreed m st y) = (2, m, [w (st.code + y.code * 2 ^ 8), 0, 0, 0]))
    ∧ (∀ m (e : LevelEdge) l g, row (.levelEdge m e l g) = (3, m, [w e.code, w (f l 0 16 + f g 16 16), 0, 0]))
    ∧ (∀ m x (y : GameCause) n,
        row (.gameEdge m x y n) = (4, m, [w (on x 0 + y.code * 2 ^ 8 + f n 16 8), 0, 0, 0]))
    ∧ (∀ m n (y : SteerCause) l g, row (.steer m n y l g)
        = (5, m, [w (f n 0 8 + y.code * 2 ^ 8), w (est l + est g * 2 ^ 16), 0, 0]))
    ∧ (∀ m n k u g, row (.steerFailed m n k u g) = (6, m, [w (f n 0 8 + f k 8 8 + on u 16), w (f g 0 16), 0, 0]))
    ∧ (∀ m n st, row (.stationAway m n st) = (7, m, [w (f n 0 8 + st.code * 2 ^ 8), 0, 0, 0]))
    ∧ (∀ m n, row (.stationBack m n) = (8, m, [w (f n 0 8), 0, 0, 0]))
    ∧ (∀ m p x l a g k, row (.contextExport m p x l a g k)
        = (9, m, [w ((match p with | .none => 0 | .indefinite => 1 | .timed _ => 2) + on a 4 + f k 8 3
                    + (if a = true then f g 16 9 else 0)),
                  w (match p with | .none => 0 | .indefinite => 0 | .timed n => n), w (f x 0 16 + f l 16 16), 0]))
    ∧ (∀ m e h, row (.signalSummary m e h) = (10, m, [w (est e + on h 16), 0, 0, 0]))
    ∧ (∀ st (y : Reason) p v, row (.imageState st y p v) = (11, 0, [w (st.code + y.code * 2 ^ 8), w p, v, 0]))
    ∧ (∀ e (k : WindowKind) n d a g, row (.protect e k n d a g)
        = (12, 0, [w (f e 0 5 + k.code * 2 ^ 8 + f n 16 4 + (if d = .write then 2 ^ 24 else 0)), w a, w (f g 0 16), 0]))
    ∧ (∀ sl a x, row (.fallback sl a x)
        = (13, 0, [w ((if sl = .a then 0 else 1) + f a 8 8 + on x 16), 0, 0, 0]))
    ∧ (∀ (a : RefusedArea) n (y : RefusedReason),
        row (.recordRefused a n y) = (14, 0, [w (a.code + f n 8 8 + y.code * 2 ^ 16), 0, 0, 0]))
    ∧ (∀ y : IgnoredReason, row (.peerReportIgnored y) = (15, 0, [w y.code, 0, 0, 0]))
    ∧ ∀ y : DefaultedReason, row (.configDefaulted y) = (16, 0, [w y.code, 0, 0, 0]))
  ∧ ([StationState.idle, .expected, .associated, .steering, .away].map (fun x => x.code) = [1, 2, 3, 4, 5]
    ∧ [FreeReason.idleTimeout, .expectedTimeout, .awayRelease, .evicted, .forgotten].map (fun x => x.code)
        = [1, 2, 3, 4, 5]
    ∧ [LevelEdge.windDown, .gated, .opened].map (fun x => x.code) = [1, 2, 3]
    ∧ [GameCause.detected, .imported, .lingerEnd, .freed].map (fun x => x.code) = [1, 2, 3, 4]
    ∧ [SteerCause.evaluation, .drain].map (fun x => x.code) = [1, 2]
    ∧ [WindowKind.txRing, .rxRing, .control, .report, .boot, .config, .image, .staging].map (fun x => x.code)
        = [1, 2, 3, 4, 5, 6, 7, 8]
    ∧ [RefusedArea.profile, .pin].map (fun x => x.code) = [1, 2]
    ∧ [RefusedReason.range, .duplicate].map (fun x => x.code) = [1, 2]
    ∧ [IgnoredReason.address, .short, .queueFull, .format, .ownNode, .badNode].map (fun x => x.code) = [1, 2, 3, 4, 5, 6]
    ∧ [DefaultedReason.noFlash, .magic, .format, .length, .crc, .node, .port, .windows].map (fun x => x.code)
        = [1, 2, 3, 4, 5, 6, 7, 8])
  ∧ ∀ (b : ReportBody) (s : State),
    (s.cau.pending.length < 16 →
      (s.raise b).cau.pending = s.cau.pending ++
        [{ stamp := if s.time.valid then .wall s.time.minute s.time.second else .counter s.time.ms
           gap := s.cau.gap, body := b }]
      ∧ (s.raise b).cau.gap = false)
    ∧ (16 ≤ s.cau.pending.length → (s.raise b).cau.pending = s.cau.pending ∧ (s.raise b).cau.gap = true)
    ∧ OnlyReports s (s.raise b)
    ∧ (∀ r rest, s.cau.path = .idle → s.cau.pending = r :: rest → (s.cau.writeIdx + 1) % s.ringSize ≠ s.cau.consumer →
        (∀ a, s.ptu.port = .internal a true → a.kind.path ≠ 0) →
        s.pumpReports = { s with
          cau.path := .body
          ptu.queue := s.ptu.queue ++ [{ access := { kind := .reportBody, addr := s.reportBase + 32 * s.cau.writeIdx
                                                     data := bytesOfWords r.words, len := 0 }
                                         wait := 0 }] })
    ∧ (s.cau.path ≠ .idle ∨ s.cau.pending = [] ∨ (s.cau.writeIdx + 1) % s.ringSize = s.cau.consumer →
        s.pumpReports = s)
    ∧ (∀ bs, OnlyReports s (s.raiseAll bs)) ∧ ∀ groups, OnlyReports s (s.raiseTogether groups)

/-! ## The flash windows, the staging session and the flash port -/

/-- A permitted read of BOOT, CONFIG or IMAGE, and of STAGING while the session is IDLE, is held for the flash port at its
flash address (R13 to R15); at the flash hold limit it ends with ERR, and a suspension for it is released: with RESUME at that
moment where the operation is suspended already, its minimum run beginning then, and else once the flash reports suspended
(R161; log 30); a READ that is not for it goes on as it was; a write into BOOT, CONFIG or IMAGE is acknowledged and discarded with
a PROTECT event (R175). -/
def Obligations.FlashWindowAccess : Prop :=
  (∀ (h : InHand) (w : Window) (s : State), s.ptu.inHand = some h → h.window = some w → h.phase = .routed →
    (h.txn.dir = .read →
      (w.kind = .boot ∨ w.kind = .config ∨ w.kind = .image ∨ (w.kind = .staging ∧ s.imu.session.state = .idle)) →
      let base := match w.kind, s.ptu.mapping with
        | .config, _ => 0x040000
        | .image, .a => 0x060000
        | .image, .b => 0x830000
        | .staging, .a => 0x830000
        | .staging, .b => 0x060000
        | _, _ => 0
      let held := Phase.flashHeld (base + (h.txn.addr - w.base)) h.txn.byteCount
      ∃ t, exec .flashWindowRead s = .next t
        ∧ t = { s with ptu.inHand := some { h with phase := held }, imu.port := t.imu.port }
        ∧ ((∀ o, s.imu.port ≠ .busy o) → t.imu.port = s.imu.port)
        ∧ ∀ o, s.imu.port = .busy o → t.imu.port = .busy
            (if o.suspension = .running ∧ o.inMinRun = false ∧ o.answers = true
                ∧ o.work.clearOf (base + (h.txn.addr - w.base)) = true
             then { o with suspension := .suspending true, suspendUs := 0 } else o))
    ∧ (h.txn.dir = .write → w.kind = .boot ∨ w.kind = .config ∨ w.kind = .image →
        exec .flashWindowWrite s = .next
          (({ s with ptu.inHand := none, ptu.reply := some { txn := h.txn, ending := .ack } } : State).protectEvent w h.txn)))
  ∧ ∀ (h : InHand) (a n : Nat) (s : State), s.ptu.inHand = some h → h.phase = .flashHeld a n → ∃ t,
      exec .flashHoldExpiry s = .next t
      ∧ t = { s with
          ptu.inHand := none
          ptu.reply := some { txn := h.txn, ending := .err }
          imu.port := t.imu.port }
      ∧ (s.imu.port = .free → t.imu.port = .free)
      ∧ (∀ l b m, s.imu.port = .reading .passThrough l b m → t.imu.port = .reading .passThrough false b m)
      ∧ (∀ p l b m, p ≠ .passThrough → s.imu.port = .reading p l b m → t.imu.port = s.imu.port)
      ∧ ∀ o w, s.imu.port = .busy o →
          (o.suspension = .running → t.imu.port = .busy o)
          ∧ (o.suspension = .suspending w → t.imu.port = .busy { o with suspension := .suspending false })
          ∧ (o.suspension = .suspended → t.imu.port = .busy { o with suspension := .running, inMinRun := true, runUs := 0 })

/-- STAGING: in RECEIVING a write of whole words at the next expected offset below the length is accepted whole, into the page
buffer and the running CRC (R164, R168); any other is acknowledged and discarded with the refused flag set (R165), as every
write is in the later states, and in IDLE with a PROTECT event (R15); one that needs a free page buffer is held, and refused at
its hold's expiry (R166), outside RECEIVING too (log 27). The page buffer takes the bytes below the length and 0xFF beyond it,
and a full one joins the program queue with its page (R164, R167). A read outside IDLE returns the progress and detail words
(section 11.4, with the states and reasons of section 11.2) without the flash port (R169). -/
def Obligations.StagingWindowAccess : Prop :=
  (∀ (h : InHand) (w : Window) (s : State), s.routedTo .staging .write = some (h, w) →
    let n := s.imu.session
    let words := h.txn.fullWords.length
    let fits := 0 < words ∧ (wordBase h.txn.addr - w.base) / 4 = n.nextWord ∧ 4 * (n.nextWord + words - 1) < n.length
    let refused : State := { s with
      ptu.inHand := none
      ptu.reply := some { txn := h.txn, ending := .ack }
      imu.session := { n with refused := true } }
    (n.state = .idle → exec .stagingWrite s = .next
      (({ s with ptu.inHand := none, ptu.reply := some { txn := h.txn, ending := .ack } } : State).protectEvent w h.txn))
    ∧ (n.state ≠ .idle → n.state ≠ .receiving ∨ ¬fits → exec .stagingWrite s = .next refused)
    ∧ (n.state = .receiving → fits → 4 * n.nextWord % 256 = 0 → n.freeBuffers = 0 →
        exec .stagingWrite s = .next { s with ptu.inHand := some { h with phase := .stagingHeld } })
    ∧ (n.state = .receiving → fits → (4 * n.nextWord % 256 ≠ 0 ∨ n.freeBuffers ≠ 0) →
        let bytes := bytesOfWords (h.txn.fullWords.map Prod.snd)
        let inside := bytes.take (n.length - 4 * n.nextWord)
        let page := n.current ++ inside ++ List.replicate (bytes.length - inside.length) 0xFF
        exec .stagingWrite s = .next { s with
          ptu.inHand := none
          ptu.reply := some { txn := h.txn, ending := .ack }
          imu.session := { n with
            nextWord := n.nextWord + words
            refused := false
            crc := crcBytes n.crc inside
            current := if page.length < 256 then page else []
            queue := if page.length < 256 then n.queue
              else n.queue ++ [{ page := (4 * (n.nextWord + words) - 1) / 256, bytes := page }] } }))
  ∧ (∀ (h : InHand) (s : State), s.ptu.inHand = some h → h.phase = .stagingHeld →
      exec .stagingWriteHoldExpiry s = .next { s with
        ptu.inHand := none
        ptu.reply := some { txn := h.txn, ending := .ack }
        imu.session := { s.imu.session with refused := true } })
  ∧ (∀ s : State, let n := s.imu.session
      s.progressWord = BitVec.ofNat 32 (n.state.code + (if s.imu.toggle = true then 2 ^ 4 else 0)
        + (if n.refused = true then 2 ^ 5 else 0)
        + (8 - (n.queue.length + if n.current = [] then 0 else 1)) * 2 ^ 6 + n.nextWord % 2 ^ 21 * 2 ^ 11)
      ∧ s.detailWord
          = BitVec.ofNat 32 (n.pages % 2 ^ 16 + n.sectors % 2 ^ 8 * 2 ^ 16 + s.imu.lastFail.code * 2 ^ 24))
  ∧ [SessionState.idle, .receiving, .closing, .verified, .failed, .armed, .draining, .committing, .committed].map
      (fun x => x.code) = [0, 1, 2, 3, 4, 5, 6, 7, 8]
  ∧ [Reason.none, .flashFault, .flashTimeout, .crcMismatch, .readbackMismatch, .aborted, .cancelled, .drainComplete,
      .drainDeadline].map (fun x => x.code) = [0, 1, 2, 3, 4, 5, 6, 7, 8]
  ∧ ∀ (h : InHand) (w : Window) (s : State), s.routedTo .staging .read = some (h, w) → s.imu.session.state ≠ .idle →
      let flips := s.imu.port.sessionWork = true
        ∧ (∀ en, h.txn.form = .single en → (wordBase h.txn.addr - w.base) / 4 % 2 = 0)
      ∃ t, exec .stagingRead s = .next t
        ∧ (flips → t.imu.toggle = !s.imu.toggle) ∧ (¬flips → t.imu.toggle = s.imu.toggle)
        ∧ t = { s with
            ptu.inHand := none
            imu.toggle := t.imu.toggle
            ptu.reply := some { txn := h.txn, ending := .data (h.txn.readData (fun i =>
              if ((wordBase h.txn.addr - w.base) / 4 + i) % 2 = 0 then t.progressWord else t.detailWord)) } }

/-- The free flash port goes to the first waiting requester in the order of R160: the pass-through read, the start-up controller,
and then the session's verify READ, its ready page program, its erase-ahead (R167, R171). What the start-up controller asks for:
in LOADING the block's header, and then the rest of the block up to its length (R186); else the step its append has reached, with
the entry at its place in the page and 0xFF around it; for the next append asked for, or a SELECTING still to decide, a scan first
while the copy is stale, in ascending order of 32 bytes (R184, R188). An append takes the newest sequence number and one, or 1
without one or after the greatest, and begins with an erase when the log is full or the numbers are spent (R185). -/
def Obligations.FlashPortOrder : Prop :=
  (∀ s : State, let u := s.suc
    let pos := 0x040000 + u.cfgPos
    let p := u.appendPos.getD 0
    let scan := SucWant.read .scan (0x050000 + (match u.scan with | none => 0 | some sc => sc.pos)) 32
    (u.startUp = .loading →
      (u.load = .status → s.sucWant = .nothing)
      ∧ (u.load = .header → s.sucWant = .read .config pos (16 - u.cfgPos))
      ∧ (u.load = .body → s.sucWant
          = .read .config pos (min (32 - pos % 32) ((byteWord u.cfgBytes 2).toNat - u.cfgPos))))
    ∧ (u.startUp ≠ .loading →
        (∀ a, u.append = some a →
          (a.phase = .erase → s.sucWant = .work (.erase 0x050000))
          ∧ (a.phase = .program → s.sucWant = .work (.program (0x050000 + p / 16 * 256) (appendPage p a.entry)))
          ∧ (a.phase = .readback → s.sucWant = .read .readback (0x050000 + 16 * p) 16))
        ∧ (∀ j rest, u.append = none → u.jobs = j :: rest →
            s.sucWant = if u.stale = true then scan else .begins j rest)
        ∧ (u.append = none → u.jobs = [] → s.sucWant =
            if u.startUp = .selecting ∧ u.decided = false ∧ u.noFlash = false ∧ u.stale = true then scan else .nothing)))
  ∧ (∀ (j : AppendJob) (s : State), let spent := ∃ e, s.suc.newest = some e ∧ e.seq = 0xFFFFFFFF#32
      let a := s.beginAppend j
      a.job = j ∧ (s.suc.newest = none ∨ spent → a.seq = 1) ∧ (∀ e, s.suc.newest = some e → ¬spent → a.seq = e.seq + 1)
      ∧ (s.suc.appendPos = none ∨ spent → a.phase = .erase) ∧ (s.suc.appendPos ≠ none → ¬spent → a.phase = .program))
  ∧ (∀ (a : Append) (p : Nat), let e := a.entry
      let w1 := BitVec.ofNat 32 ((if e.slot = .a then 1 else 2) + (if e.boot = .confirmed then 1 else 2) * 2 ^ 8
        + e.attempts % 2 ^ 3 * 2 ^ 16 + (if e.fallback = true then 2 ^ 24 else 0))
      e = { seq := a.seq, slot := a.job.slot, boot := a.job.boot, attempts := a.job.attempts, fallback := a.job.fallback }
      ∧ e.bytes = bytesOfWords [e.seq, w1, 0, ~~~(e.seq ^^^ w1)]
      ∧ (appendPage p e).length = 256
      ∧ ∀ i, i < 256 → (appendPage p e).getD i 0 = if i / 16 = p % 16 then e.bytes.getD (i % 16) 0 else 0xFF)
  ∧ ∀ s : State, s.imu.port = .free →
    (∀ h a n, s.ptu.inHand = some h → h.phase = .flashHeld a n →
      exec .flashPortGrant s = .next { s with imu.port := .reading .passThrough true a n })
    ∧ (s.waitingRead = none →
      (∀ p a n, s.sucWant = .read p a n → exec .flashPortGrant s = .next { s with imu.port := .reading p true a n })
      ∧ (∀ w, s.sucWant = .work w →
          exec .flashPortGrant s = .next { s with imu.port := .busy (FlashOp.issued w .startUp) })
      ∧ (∀ j rest, s.sucWant = .begins j rest → ∃ t, exec .flashPortGrant s = .next t
          ∧ t = { s with suc.append := some (s.beginAppend j), suc.jobs := rest, imu.port := t.imu.port }
          ∧ (s.suc.appendPos = none ∨ s.seqSpent = true →
              t.imu.port = .busy (FlashOp.issued (.erase 0x050000) .startUp))
          ∧ ∀ p, s.suc.appendPos = some p → s.seqSpent = false → t.imu.port = .busy (FlashOp.issued
              (.program (0x050000 + p / 16 * 256) (appendPage p (s.beginAppend j).entry)) .startUp))
      ∧ (s.sucWant = .nothing → let n := s.imu.session
        let a := n.base + n.rbPos
        (n.verifying = true → exec .flashPortGrant s = .next
          { s with imu.port := .reading .verify true a (min (32 - a % 32) (n.length - n.rbPos)) })
        ∧ (∀ p rest, n.verifying = false → n.state = .receiving ∨ n.state = .closing → n.queue = p :: rest →
            p.page * 256 / 65536 < n.sectors → exec .flashPortGrant s = .next
              { s with imu.port := .busy (FlashOp.issued (.program (n.base + 256 * p.page) p.bytes) .session) })
        ∧ (n.verifying = false → n.state = .receiving ∨ n.state = .closing →
            (∀ p ∈ n.queue.head?, n.sectors ≤ p.page * 256 / 65536) →
            (n.sectors < n.needed → exec .flashPortGrant s = .next
              { s with imu.port := .busy (FlashOp.issued (.erase (n.base + 65536 * n.sectors)) .session) })
            ∧ (n.needed ≤ n.sectors → exec .flashPortGrant s = .next s))
        ∧ (n.verifying = false → n.state ≠ .receiving → n.state ≠ .closing → exec .flashPortGrant s = .next s)))

/-- Suspension (R161): a suspension reported serves the waiting read, or begins the minimum run where none waits any more; 1 ms
without it ends the attempt for good, so that a suspension reported after it, as one reported where none is asked for, changes nothing
(the model's choice, log 49); the minimum run's end lets a held read outside the page or sector at work suspend it; and
a pass-through READ's data completes the read that still waits, with RESUME where the operation was suspended for it; the end of a
READ for which RESUME has come before, its read having ended with ERR, changes nothing more (log 30). -/
def Obligations.SuspensionForReads : Prop :=
  (∀ (o : FlashOp) (s : State), s.imu.port = .busy o →
    (o.suspension = .suspending true → exec .flashSuspended s = .next
      { s with imu.port := .busy { o with suspension := .suspended } })
    ∧ (o.suspension = .suspending false → exec .flashSuspended s = .next
        { s with imu.port := .busy { o with suspension := .running, inMinRun := true, runUs := 0 } })
    ∧ (∀ w, o.suspension = .suspending w → ∃ us, exec .suspendTimeout s = .next
        { s with imu.port := .busy { o with suspension := .running, answers := false, suspendUs := us } })
    ∧ ((∀ w, o.suspension ≠ .suspending w) → exec .flashSuspended s = .next s ∧ exec .suspendTimeout s = .next s)
    ∧ (o.inMinRun = true → o.suspension = .running → ∃ us,
        (s.waitingRead = none → exec .minimumRunEnd s = .next
          { s with imu.port := .busy { o with inMinRun := false, runUs := us } })
        ∧ ∀ h a n, s.ptu.inHand = some h → h.phase = .flashHeld a n →
          let clear := match o.work with
            | .program p _ => a / 256 ≠ p / 256
            | .erase p => a / 65536 ≠ p / 65536
          (o.answers = true → clear → exec .minimumRunEnd s = .next { s with imu.port := .busy { o with
            inMinRun := false, runUs := us, suspension := .suspending true, suspendUs := 0 } })
          ∧ (o.answers = false ∨ ¬clear → exec .minimumRunEnd s = .next
              { s with imu.port := .busy { o with inMinRun := false, runUs := us } }))
    ∧ (∀ flips, o.suspension ≠ .suspended → exec (.flashPassThroughReadEnd flips) s = .next s)
    ∧ ∀ flips h a n, o.suspension = .suspended → s.ptu.inHand = some h → h.phase = .flashHeld a n →
        exec (.flashPassThroughReadEnd flips) s = .next { s with
          imu.port := .busy { o with suspension := .running, inMinRun := true, runUs := 0 }
          ptu.inHand := none
          ptu.reply := some { txn := h.txn, ending := .data (h.txn.dataOfBytes (s.flashRead a n flips)) } })
  ∧ ∀ (flips : List Byte) (b m : Nat) (s : State),
      (s.imu.port = .reading .passThrough false b m →
        exec (.flashPassThroughReadEnd flips) s = .next { s with imu.port := .free })
      ∧ ∀ h a n, s.imu.port = .reading .passThrough true b m → s.ptu.inHand = some h → h.phase = .flashHeld a n →
          exec (.flashPassThroughReadEnd flips) s = .next { s with
            imu.port := .free
            ptu.inHand := none
            ptu.reply := some { txn := h.txn, ending := .data (h.txn.dataOfBytes (s.flashRead a n flips)) } }

/-- The ends of programs and erases (R157 to R159, R167, R172, R185): the READ_STATUS with busy and suspended clear ends the
operation and frees the port; one with suspended set reports the suspension where SUSPEND is pending, and changes nothing where none
is, after the 1 ms of a SUSPEND too (the model's choice, log 49); one that busy alone is set in changes nothing, nor does any while
the operation is suspended (none is issued then, log 10); a success leaves the programmed page's bits cleared as its data says, or
the sector at 0xFF, and every byte outside it; a failure, or giving up, leaves the page or sector part-way, no programmed bit set
and none cleared that the data leaves. The session counts a success, whose page's buffer is free, so that a STAGING write held for
one is accepted (R166), and fails on a failure or a timeout: FAILED with its reason, program queue and buffers emptied, pages and
sectors kept, a held write still held (R172; log 27). An append goes on to its program or its read-back, or fails, its owner
receiving the failure or timeout: a commit's session fails (R182), a confirm's trial timer runs again (R191), a start ends with the
other slot or its fallback (R188). An operation past 5 ms or 4 s of busy time, counted in whole ticks (log 12), gives its owner a
timeout, also where its end is seen later, and stays on the port; the array then takes a success as done (log 5), but for a page of
sector 4, whose CONFIG session has failed (log 51); and a program of the selector log that fails or times out leaves no valid entry
at its place, so none in a log erased before it (R185), and the log's newest entry stands after such a program and after an erase of
the log that fails or times out (R188; log 47). A session's operation of sector 4 that is lost leaves no valid configuration block
there: its erase none, a page program none where there was none (R174; log 51). One still there, busy or suspended, 4 s later is
given up: the flash-fault flag is set, the port is free, or the READ's in transfer (log 30), and a SELECTING that waited decides for
slot A (R188). -/
def Obligations.FlashOperationEnds : Prop :=
  ∀ (o : FlashOp) (s : State), s.imu.port = .busy o →
    let limit := match o.work with
      | .program _ _ => 5000
      | .erase _ => 4000000
    let n := s.imu.session
    let fails := fun (why : Reason) (flash : Memory) (port : FlashPort) (t : State) =>
      t.cau.pending = (s.raise (.imageState .failed why n.pages n.version)).cau.pending
      ∧ OnlyReports { s with
          imu.port := port, flash := flash, imu.lastFail := why
          imu.session := { n with state := .failed, current := [], queue := [] } } t
    let lost := o.timedOut = true ∨ limit < o.busyUs
    let gone := fun (x : Append) (why : Reason) (w t : State) =>
      let u : State := { w with suc.append := none, suc.stale := true, suc.flashFault := true }
      (x.job.owner = .commit → n.state = .committing → t = ({ u with
          imu.lastFail := why
          imu.session := { n with state := .failed, current := [], queue := [] } } : State).raise
            (.imageState .failed why n.pages n.version))
      ∧ (x.job.owner = .nobody ∨ x.job.owner = .commit ∧ n.state ≠ .committing → t = u)
      ∧ (x.job.owner = .confirm → t = { u with suc.trialRunning := true })
      ∧ ∀ sl a, x.job.owner = .trialStart ∧ sl = (if x.job.slot = .a then .b else .a) ∧ a = x.job.attempts
            ∨ x.job.owner = .fallbackStart a ∧ sl = x.job.slot →
          t = State.riseReady sl .confirmed [.fallback sl a true] u
    (∀ fail, exec (.flashStatusPoll true false fail) s = .next s)
    ∧ (∀ busy suspended fail, o.suspension = .suspended → exec (.flashStatusPoll busy suspended fail) s = .next s)
    ∧ (∀ busy fail, o.suspension = .running → exec (.flashStatusPoll busy true fail) s = .next s)
    ∧ (∀ busy fail v, o.suspension = .suspending v → exec (.flashStatusPoll busy true fail) s = .next { s with
        imu.port := .busy (if v = true then { o with suspension := .suspended }
          else { o with suspension := .running, inMinRun := true, runUs := 0 }) })
    ∧ (∀ fail, o.suspension ≠ .suspended → o.timedOut = false ∨ o.lateUs ≤ 4000000 → ∃ t,
      exec (.flashStatusPoll false false fail) s = .next t
      ∧ t.imu.port = .free
      ∧ (∀ a, ¬o.work.covers a → t.flashByte a = s.flashByte a)
      ∧ (fail = true → LeftPartway o.work s t)
      ∧ (∀ p data i, fail = false → o.owner ≠ .startUp ∧ p / 65536 ≠ 4 ∨ ¬lost → o.work = .program p data → i < 256 →
          t.flashByte (p + i) = s.flashByte (p + i) &&& data.getD i 0xFF)
      ∧ (∀ p i, fail = false → o.owner ≠ .startUp ∨ ¬lost → o.work = .erase p → i < 65536 → t.flashByte (p + i) = 0xFF)
      ∧ (∀ p, o.owner = .startUp → fail = true ∨ lost → o.work = .erase p → LeftPartway o.work s t ∧ NewestKept s t)
      ∧ (∀ p data, o.owner = .startUp → fail = true ∨ lost → o.work = .program p data →
          LeftPartway o.work s t ∧ (logEntryAt s s.position = none → logEntryAt t s.position = none)
          ∧ (∀ e, p = 0x050000 + s.position / 16 * 256 → data = appendPage s.position e →
              (logEntryAt s s.position = none → NewestKept s t)
              ∧ ((∀ i, i < 65536 → s.flashByte (0x050000 + i) = 0xFF) → ∀ k, k < 4096 → logEntryAt t k = none)))
      ∧ (o.owner ≠ .startUp → o.work = .erase 0x040000 → ConfigInvalid t)
      ∧ (∀ p data, o.owner ≠ .startUp → o.work = .program p data → p / 65536 = 4 → fail = true ∨ lost →
          LeftPartway o.work s t ∧ (ConfigInvalid s → ConfigInvalid t))
      ∧ (o.owner = .session → n.state = .receiving ∨ n.state = .closing →
          (o.timedOut = false → o.busyUs ≤ limit →
            (fail = true → fails .flashFault t.flash t.imu.port t)
            ∧ (∀ p, fail = false → o.work = .erase p →
                t = { s with imu.port := .free, flash := t.flash, imu.session := { n with sectors := n.sectors + 1 } })
            ∧ ∀ p data, fail = false → o.work = .program p data →
                let freed : State := { s with
                  imu.port := .free, flash := t.flash
                  imu.session := { n with pages := n.pages + 1, queue := n.queue.tail } }
                ((∀ h, s.ptu.inHand = some h → h.phase ≠ .stagingHeld) → t = freed)
                ∧ ∀ h w, s.ptu.inHand = some h → h.phase = .stagingHeld → h.window = some w → w.kind = .staging →
                    h.txn.dir = .write →
                    let retaken : State := { freed with ptu.inHand := some { h with phase := .routed } }
                    (n.state = .receiving → 0 < h.txn.fullWords.length →
                      (wordBase h.txn.addr - w.base) / 4 = n.nextWord →
                      4 * (n.nextWord + h.txn.fullWords.length - 1) < n.length → 0 < freed.imu.session.freeBuffers →
                      exec .stagingWrite retaken = .next t ∧ t.ptu.inHand = none
                        ∧ t.ptu.reply = some { txn := h.txn, ending := .ack })
                    ∧ (n.state ≠ .receiving → t = freed))
          ∧ (o.timedOut = false → limit < o.busyUs → fails .flashTimeout t.flash t.imu.port t)
          ∧ (o.timedOut = true → t.imu.session = n ∧ t.imu.lastFail = s.imu.lastFail))
      ∧ (o.owner = .pastSession → t.imu.session = n ∧ t.imu.lastFail = s.imu.lastFail)
      ∧ (∀ x, o.owner = .startUp → s.suc.append = some x → o.timedOut = false → limit < o.busyUs →
          gone x .flashTimeout { s with imu.port := .free, flash := t.flash, freeIdx := s.freeIdx + 1 } t)
      ∧ ∀ x, o.owner = .startUp → s.suc.append = some x → o.timedOut = false → o.busyUs ≤ limit →
          (fail = true → gone x .flashFault { s with imu.port := .free, flash := t.flash, freeIdx := s.freeIdx + 1 } t)
          ∧ (fail = false → x.phase = .erase → t = { s with
              imu.port := .free
              flash := t.flash
              suc.newest := none
              suc.appendPos := some 0
              suc.append := some { x with phase := .program } })
          ∧ (fail = false → x.phase = .program → t = { s with
              imu.port := .free, flash := t.flash, suc.append := some { x with phase := .readback } }))
    ∧ (o.timedOut = false → limit ≤ o.busyUs → ∃ t us, exec .flashOperationTimeout s = .next t
        ∧ t.imu.port = .busy { o with timedOut := true, lateUs := 0, busyUs := us } ∧ limit < us
        ∧ t.flash = s.flash
        ∧ (o.owner = .session → n.state = .receiving ∨ n.state = .closing → fails .flashTimeout s.flash t.imu.port t)
        ∧ (o.owner = .pastSession → t = { s with imu.port := t.imu.port })
        ∧ ∀ x, o.owner = .startUp → s.suc.append = some x → gone x .flashTimeout { s with imu.port := t.imu.port } t)
    ∧ (o.timedOut = true ∨ o.busyUs < limit → exec .flashOperationTimeout s = .next s)
    ∧ (o.timedOut = true → 4000000 ≤ o.lateUs → ∃ t, exec .flashOperationGiveUp s = .next t
        ∧ (o.suspension ≠ .suspended ∨ s.waitingRead = none → t.imu.port = .free)
        ∧ (∀ h a k, o.suspension = .suspended → s.ptu.inHand = some h → h.phase = .flashHeld a k →
            t.imu.port = .reading .passThrough true a k)
        ∧ t.suc.flashFault = true ∧ LeftPartway o.work s t
        ∧ (∀ p data, o.owner = .startUp → o.work = .program p data → logEntryAt s s.position = none →
            logEntryAt t s.position = none)
        ∧ (∀ p, o.owner = .startUp → o.work = .erase p → NewestKept s t)
        ∧ (o.owner ≠ .startUp → o.work = .erase 0x040000 → ConfigInvalid t)
        ∧ (∀ p data, o.owner ≠ .startUp → o.work = .program p data → p / 65536 = 4 → ConfigInvalid s → ConfigInvalid t)
        ∧ ((s.suc.startUp ≠ .selecting ∨ s.suc.decided = true) →
            t = { s with imu.port := t.imu.port, suc.flashFault := true, flash := t.flash, freeIdx := t.freeIdx })
        ∧ (s.suc.startUp = .selecting → s.suc.decided = false → t = State.riseReady .a .confirmed [] { s with
            imu.port := t.imu.port, flash := t.flash, freeIdx := t.freeIdx
            suc.flashFault := true, suc.stale := true, suc.noFlash := true }))
    ∧ (∀ fail, o.suspension ≠ .suspended → o.timedOut = true → 4000000 < o.lateUs →
        exec (.flashStatusPoll false false fail) s = exec .flashOperationGiveUp s)
    ∧ (o.timedOut = false ∨ o.lateUs < 4000000 → exec .flashOperationGiveUp s = .next s)

/-- The ends of the SL7's own READs: the last verify READ brings the comparison of the three CRCs (R171), discarded where its
session has ended (R173); a read-back equal to the entry makes an append succeed, and the copy of the log holds it (R185), a
commit's with COMMITTED, its report and RESTART_REQ (R182), one that differs makes it fail, a commit's with FLASH_FAULT and no
restart asked for (R182), a start's fallback standing on either (R188), and where the owner has gone only the copy is concerned; a
read-back that differs leaves no valid entry at the append's place, and turns no bit from 0 to 1 (R157, R185; log 47). The scan of
the whole log gives the newest entry and the append position, and clears the stale mark (R184): of the 16-byte entries read, those
with a right check word and named codes are valid, the newest is one of the highest sequence number (of equal ones: log 6), every
other is passed over, and the append position is the lowest erased entry, or none. -/
def Obligations.OwnReadsEnd : Prop :=
  (∀ (flips : List Byte) (live : Bool) (a n : Nat) (s : State), s.imu.port = .reading .verify live a n →
    let m := s.imu.session
    let rb := crcBytes m.rbCrc (s.flashRead a n flips)
    let s1 : State := { s with imu.port := .free, imu.session := { m with rbCrc := rb, rbPos := m.rbPos + n } }
    (live = false ∨ m.state ≠ .closing → exec (.verifyReadEnd flips) s = .next { s with imu.port := .free })
    ∧ (live = true → m.state = .closing → m.rbPos + n < m.length → exec (.verifyReadEnd flips) s = .next s1)
    ∧ (live = true → m.state = .closing → m.length ≤ m.rbPos + n → ∃ t, exec (.verifyReadEnd flips) s = .next t
        ∧ (let fails := fun why : Reason => t = ({ s1 with
            imu.lastFail := why
            imu.session := { s1.imu.session with state := .failed, current := [], queue := [] } } : State).raise
              (.imageState .failed why m.pages m.version)
          (rb ≠ m.crc → fails .readbackMismatch) ∧ (rb = m.crc → ~~~m.crc ≠ m.expCrc → fails .crcMismatch))
        ∧ (rb = m.crc → ~~~m.crc = m.expCrc → t = ({ s1 with imu.session := { s1.imu.session with
            state := .verified } } : State).raise (.imageState .verified .none m.pages m.version))))
  ∧ (∀ (flips : List Byte) (live : Bool) (p n : Nat) (s : State), s.imu.port = .reading .readback live p n →
      (s.suc.append = none → exec (.selectorReadbackEnd flips) s = .next { s with imu.port := .free })
      ∧ ∀ x, s.suc.append = some x → ∃ v, NoEntryLeft s v ∧
          (s.flashRead p n flips = x.entry.bytes → x.job.owner = .confirm →
            exec (.selectorReadbackEnd flips) s = .next { s with
              imu.port := .free
              suc.append := none
              suc.newest := some x.entry
              suc.appendPos := if s.position + 1 < 4096 then some (s.position + 1) else none
              suc.boot := .confirmed
              suc.trialLeft := 0
              suc.trialRunning := false })
          ∧ (s.flashRead p n flips ≠ x.entry.bytes → x.job.owner = .confirm →
              exec (.selectorReadbackEnd flips) s = .next { v with
                imu.port := .free
                suc.append := none
                suc.stale := true
                suc.flashFault := true
                suc.trialRunning := true })
          ∧ (s.flashRead p n flips = x.entry.bytes → x.job.owner = .commit → s.imu.session.state = .committing → ∃ t,
              exec (.selectorReadbackEnd flips) s = .next t
              ∧ t = ({ s with
                  imu.port := .free
                  imu.session := { s.imu.session with state := .committed }
                  lines.restartReq := true
                  suc.append := none
                  suc.newest := some x.entry
                  suc.appendPos := if s.position + 1 < 4096 then some (s.position + 1) else none } : State).raise
                    (.imageState .committed .none s.imu.session.pages s.imu.session.version))
          ∧ (s.flashRead p n flips ≠ x.entry.bytes → x.job.owner = .commit → s.imu.session.state = .committing →
              let m := { s.imu.session with state := .failed, current := [], queue := [] }
              exec (.selectorReadbackEnd flips) s = .next (({ v with
                imu.port := .free
                imu.lastFail := .flashFault
                imu.session := m
                suc.append := none
                suc.stale := true
                suc.flashFault := true } : State).raise (.imageState .failed .flashFault m.pages m.version)))
          ∧ (x.job.owner = .nobody ∨ x.job.owner = .commit ∧ s.imu.session.state ≠ .committing →
              (s.flashRead p n flips = x.entry.bytes → exec (.selectorReadbackEnd flips) s = .next { s with
                imu.port := .free
                suc.append := none
                suc.newest := some x.entry
                suc.appendPos := if s.position + 1 < 4096 then some (s.position + 1) else none })
              ∧ (s.flashRead p n flips ≠ x.entry.bytes → exec (.selectorReadbackEnd flips) s = .next { v with
                  imu.port := .free, suc.append := none, suc.stale := true, suc.flashFault := true }))
          ∧ ∀ a, x.job.owner = .fallbackStart a →
              (s.flashRead p n flips = x.entry.bytes → exec (.selectorReadbackEnd flips) s
                = .next (State.riseReady x.job.slot .confirmed [.fallback x.job.slot a true] { s with
                    imu.port := .free
                    suc.append := none
                    suc.newest := some x.entry
                    suc.appendPos := if s.position + 1 < 4096 then some (s.position + 1) else none }))
              ∧ (s.flashRead p n flips ≠ x.entry.bytes → exec (.selectorReadbackEnd flips) s
                = .next (State.riseReady x.job.slot .confirmed [.fallback x.job.slot a true] { v with
                    imu.port := .free, suc.append := none, suc.stale := true, suc.flashFault := true })))
  ∧ (∀ (flips : List Byte) (live : Bool) (a n : Nat) (s : State), s.imu.port = .reading .scan live a n →
      let sc := takeScan (s.suc.scan.getD Scan.start) (s.flashRead a n flips)
      (live = false → exec (.selectorScanReadEnd flips) s = .next { s with imu.port := .free })
      ∧ (live = true → sc.pos < 65536 →
          exec (.selectorScanReadEnd flips) s = .next { s with imu.port := .free, suc.scan := some sc })
      ∧ (live = true → 65536 ≤ sc.pos → exec (.selectorScanReadEnd flips) s = .next { s with
          imu.port := .free
          suc.scan := none
          suc.newest := sc.newest.map Prod.snd
          suc.appendPos := sc.free
          suc.stale := false }))
  ∧ (∀ reads : List (List Byte), (∀ bs ∈ reads, bs.length = 32) →
      let sc := reads.foldl takeScan { pos := 0, newest := none, free := none }
      let place := fun k => (reads.flatten.drop (16 * k)).take 16
      let n := 2 * reads.length
      sc.pos = 16 * n
      ∧ (sc.newest = none ↔ ∀ k, k < n → entryOfBytes (place k) = none)
      ∧ (∀ k e, sc.newest = some (k, e) → k < n ∧ entryOfBytes (place k) = some e
          ∧ ∀ j f, j < n → entryOfBytes (place j) = some f → f.seq.toNat ≤ e.seq.toNat)
      ∧ (sc.free = none ↔ ∀ k, k < n → place k ≠ List.replicate 16 0xFF)
      ∧ ∀ k, sc.free = some k ↔
          k < n ∧ place k = List.replicate 16 0xFF ∧ ∀ j, j < k → place j ≠ List.replicate 16 0xFF)
  ∧ ∀ (bs : List Byte) (e : Entry), let w := byteWord bs
      entryOfBytes bs = some e ↔ w 3 = ~~~(w 0 ^^^ w 1 ^^^ w 2)
        ∧ field (w 1) 0 8 = (if e.slot = .a then 1 else 2) ∧ field (w 1) 8 8 = (if e.boot = .confirmed then 1 else 2)
        ∧ e.seq = w 0 ∧ e.attempts = field (w 1) 16 3 ∧ e.fallback = bit (w 1) 24

/-! ## Start-up -/

/-- LOADING (R186, R187): a flash that is not busy has its header read; one that has been busy for 4 s, counted in whole ticks
(log 12), whether FLASH_NO_RESPONSE or a later READ_STATUS says so, gives the built-in configuration with NO_FLASH and the
flash-fault flag. READs of the block are taken in order; the header's tests stop the read at the first that fails, and of the
whole block CRC, NODE, PORT and WINDOWS (the rules of R7 on the used entries of section 11.5) are judged in that order. A valid
block installs its map, its node id and port, and its limits, trial window and attempts taken into range. A failed one installs
the built-in configuration, sets the configuration-defaulted flag and raises CONFIG_DEFAULTED with its reason. The report ring
then begins (R34), and SELECTING is entered, without a flash that does not respond (log 16). -/
def Obligations.LoadingTheConfiguration : Prop :=
  (∀ s : State, s.suc.startUp = .loading → s.suc.load = .status →
    exec (.loadingReadStatus true) s = .next s
    ∧ (s.suc.loadUs ≤ 4000000 → exec (.loadingReadStatus false) s = .next { s with suc.load := .header })
    ∧ (4000000 < s.suc.loadUs → exec (.loadingReadStatus false) s = exec .flashNoResponse s)
    ∧ (s.suc.loadUs < 4000000 → exec .flashNoResponse s = .next s)
    ∧ (4000000 ≤ s.suc.loadUs → ∃ t, exec .flashNoResponse s = .next t
      ∧ t = ({ s with suc.loadUs := t.suc.loadUs } : State).installDefaults .noFlash
      ∧ t.suc.startUp = .selecting ∧ t.suc.defaulted = true ∧ t.suc.flashFault = true))
  ∧ (∀ (r : DefaultedReason) (s : State), let t := s.installDefaults r
      t.cau.pending = (({ s with cau.gap := false } : State).raise (.configDefaulted r)).cau.pending
      ∧ t = { s.install
            { windows := builtInMap, inspectLimit := 8, flashLimit := 100, node := 0, backhaul := 15, trialWindow := 300
              maxAttempts := 3 } with
          suc.defaulted := true
          suc.flashFault := s.suc.flashFault || r == .noFlash
          suc.noFlash := r == .noFlash
          cau.pending := t.cau.pending
          cau.gap := t.cau.gap })
  ∧ MapRules builtInMap ∧ (∀ w ∈ builtInMap, w.readMask = 0xFFFF ∧ w.writeMask = 0xFFFF)
  ∧ builtInMap.map (fun w => (w.entry, w.kind, w.base))
      = [(0, .boot, 0x8000000), (1, .config, 0x8040000), (2, .image, 0x8800000), (3, .staging, 0x9000000),
         (4, .control, 0x7FF0000), (5, .report, 0x7FF8000)]
  ∧ (∀ (c : Install) (s : State),
      let u : State := { s with
        ptu.windows := c.windows, ptu.inspectLimit := c.inspectLimit, ptu.flashLimit := c.flashLimit
        suc.node := c.node, suc.backhaul := c.backhaul, suc.trialWindow := c.trialWindow
        suc.maxAttempts := c.maxAttempts, suc.startUp := .selecting
        cau.writeIdx := 0, cau.published := 0, cau.consumer := 0, cau.gap := false, cau.path := .zeroing
        lines.attn := false }
      s.install c = u.issue
        { kind := .producerIndex, addr := u.controlBase + 0x2080, data := [0, 0, 0, 0], len := 0 })
  ∧ (∀ (bs : List Byte) (crc : Word), let g := fun i lo n => field (byteWord bs i) lo n
      (~~~crc ≠ byteWord bs 3 → judgeBlock bs crc = .error .crc)
      ∧ (~~~crc = byteWord bs 3 →
        (7 < g 4 0 8 → judgeBlock bs crc = .error .node)
        ∧ (g 4 0 8 ≤ 7 → 15 < g 4 8 8 → judgeBlock bs crc = .error .port)
        ∧ (g 4 0 8 ≤ 7 → g 4 8 8 ≤ 15 →
          let code := fun e => g (10 + 4 * e) 0 4
          let map := ((List.range 24).filter (fun e => code e != 0)).map (fun e =>
            ({ entry := e, base := (byteWord bs (8 + 4 * e)).toNat, size := (byteWord bs (9 + 4 * e)).toNat
               kind := [.txRing, .rxRing, .control, .report, .boot, .config, .image, .staging].getD (code e - 1) .control
               readMask := BitVec.ofNat 16 (g (11 + 4 * e) 0 16), writeMask := BitVec.ofNat 16 (g (11 + 4 * e) 16 16)
               ringId := g (10 + 4 * e) 8 3, ringMaster := g (10 + 4 * e) 12 4, descCount := g (10 + 4 * e) 16 16 }
              : Window))
          ((∃ e, e < 24 ∧ 8 < code e) ∨ ¬MapRules map → judgeBlock bs crc = .error .windows)
          ∧ ((∀ e, e < 24 → code e ≤ 8) → MapRules map → judgeBlock bs crc = .ok
              { windows := map
                inspectLimit := max 2 (min 32 (g 5 0 16)), flashLimit := max 20 (min 500 (g 5 16 16))
                node := g 4 0 8, backhaul := g 4 8 8
                trialWindow := max 60 (min 1800 (g 6 0 16)), maxAttempts := max 1 (min 7 (g 6 16 8)) }))))
  ∧ ∀ (flips : List Byte) (live : Bool) (a n : Nat) (s : State),
      s.imu.port = .reading .config live a n → s.suc.startUp = .loading →
      let bs := (s.suc.cfgBytes ++ s.flashRead a n flips).take 416
      let crc := crcBytes s.suc.cfgCrc ((s.flashRead a n flips).drop (16 - s.suc.cfgPos))
      let s1 : State := { s with
        imu.port := .free, suc.cfgBytes := bs, suc.cfgCrc := crc, suc.cfgPos := s.suc.cfgPos + n }
      (s.suc.load = .header →
        (s.suc.cfgPos + n < 16 → exec (.configBlockReadEnd flips) s = .next s1)
        ∧ (16 ≤ s.suc.cfgPos + n →
          (byteWord bs 0 ≠ 0x53374C43#32 → exec (.configBlockReadEnd flips) s = .next (s1.installDefaults .magic))
          ∧ (byteWord bs 0 = 0x53374C43#32 → field (byteWord bs 1) 0 8 ≠ 1 →
              exec (.configBlockReadEnd flips) s = .next (s1.installDefaults .format))
          ∧ (byteWord bs 0 = 0x53374C43#32 → field (byteWord bs 1) 0 8 = 1 →
              (blockLength bs < 416 ∨ 65536 < blockLength bs →
                exec (.configBlockReadEnd flips) s = .next (s1.installDefaults .length))
              ∧ (416 ≤ blockLength bs → blockLength bs ≤ 65536 →
                  exec (.configBlockReadEnd flips) s = .next { s1 with suc.load := .body }))))
      ∧ (s.suc.load = .body →
        (s.suc.cfgPos + n < blockLength bs → exec (.configBlockReadEnd flips) s = .next s1)
        ∧ (blockLength bs ≤ s.suc.cfgPos + n →
          (∀ r, judgeBlock bs crc = .error r → exec (.configBlockReadEnd flips) s = .next (s1.installDefaults r))
          ∧ ∀ c, judgeBlock bs crc = .ok c → exec (.configBlockReadEnd flips) s = .next (s1.install c)))

/-- The decision of SELECTING from the newest entry, its attempts and the maximum installed (R188): slot A CONFIRMED without
an entry or with a flash that does not respond, the entry's slot when CONFIRMED, with FALLBACK where its fallback flag is set
(its attempts: log 23), and on TRIAL an append first: one more attempt, or at the maximum the other slot with the fallback
flag. A trial's append ends it: the slot on TRIAL with the trial window, or, where its read-back differs, the other slot
CONFIRMED with FALLBACK, and no valid entry at its place (the model's choice, log 47). At READY's rise mapping and boot state
are set, the session of a COMMITTED update is IDLE (its values that R176 does not give: log 45; its refused flag kept, R165)
with IMAGE_STATE (R183), the status block is refreshed (R35), after those reports (the model's choice, logs 37 and 44), and a
transaction held for READY is taken up as if it had just arrived (a CONTROL write to reach SRAM and shadow afterwards: log
34), or ends with ERR where its hold exceeds the limit of its window, judged before its permission (R4, log 19). -/
def Obligations.SelectingDecides : Prop :=
  (∀ (sl : Slot) (boot : BootState) (fb : List ReportBody) (s : State), let n := s.imu.session
    s.riseReady sl boot fb = (({ s with
      ptu.mapping := sl
      suc.boot := boot
      suc.trialLeft := if boot = .trial then s.suc.trialWindow else 0
      suc.trialRunning := boot == .trial
      suc.startUp := .ready
      suc.decided := true
      lines.ready := true
      imu.session := if n.state = .committed then { Session.idle with refused := n.refused } else n } : State).raiseTogether
        [fb, if n.state = .committed then [.imageState .idle .none n.pages n.version] else []]).refreshStatus.takeUpHeld)
  ∧ (∀ s : State, s.lines.ready = true →
      (s.ptu.inHand = none → s.takeUpHeld = s)
      ∧ ∀ h, s.ptu.inHand = some h →
        (h.phase ≠ .readyLow → s.takeUpHeld = s)
        ∧ (h.phase = .readyLow → h.txn.addr < 2 ^ 28 → h.txn.wf = true →
          let spent := ∃ w, s.windowAt h.txn.addr = some w ∧ w.kind ≠ .report ∧
            (if w.kind = .txRing ∨ w.kind = .rxRing ∨ w.kind = .control then s.ptu.inspectLimit else s.ptu.flashLimit)
              < h.heldUs
          (spent → s.takeUpHeld = { s with ptu.inHand := none, ptu.reply := some { txn := h.txn, ending := .err } })
          ∧ (¬spent → ∃ t, exec (.busTransaction h.txn) { s with ptu.inHand := none } = .next t
              ∧ s.takeUpHeld = { t with
                ptu.inHand := t.ptu.inHand.map (fun g => { g with heldUs := h.heldUs, late := h.late }) })))
  ∧ (∀ (flips : List Byte) (live : Bool) (p n : Nat) (x : Append) (s : State),
    s.imu.port = .reading .readback live p n → s.suc.append = some x → x.job.owner = .trialStart →
    let other := if x.job.slot = .a then Slot.b else .a
    (s.flashRead p n flips = x.entry.bytes → exec (.selectorReadbackEnd flips) s
      = .next (State.riseReady x.job.slot .trial [] { s with
          imu.port := .free
          suc.append := none
          suc.newest := some x.entry
          suc.appendPos := if s.position + 1 < 4096 then some (s.position + 1) else none }))
    ∧ (s.flashRead p n flips ≠ x.entry.bytes → ∃ v, NoEntryLeft s v ∧ exec (.selectorReadbackEnd flips) s
      = .next (State.riseReady other .confirmed [.fallback other x.job.attempts true] { v with
          imu.port := .free, suc.append := none, suc.stale := true, suc.flashFault := true })))
  ∧ ∀ s : State, s.canDecide = true →
    (s.suc.newest = none ∨ s.suc.noFlash = true →
      exec .selectingDecision s = .next (s.riseReady .a .confirmed []))
    ∧ ∀ e, s.suc.newest = some e → s.suc.noFlash = false →
      (e.boot = .confirmed → exec .selectingDecision s
        = .next (s.riseReady e.slot .confirmed (if e.fallback = true then [.fallback e.slot e.attempts false] else [])))
      ∧ (e.boot = .trial → e.attempts + 1 ≤ s.suc.maxAttempts → exec .selectingDecision s = .next { s with
          suc.decided := true
          suc.jobs := s.suc.jobs ++ [{ owner := .trialStart, slot := e.slot, boot := .trial
                                       attempts := e.attempts + 1, fallback := false }] })
      ∧ (e.boot = .trial → s.suc.maxAttempts < e.attempts + 1 → exec .selectingDecision s = .next { s with
          suc.decided := true
          suc.jobs := s.suc.jobs ++ [{ owner := .fallbackStart (e.attempts + 1)
                                       slot := if e.slot = .a then .b else .a, boot := .confirmed
                                       attempts := min 7 (e.attempts + 1), fallback := true }] })

/-! ## Time, allowances and resets -/

/-- A second boundary (R116): the sub-second count returns to 0 and the ms counter has run the whole second; while time is
valid the second advances, and from 59 the minute, wrapping at the week's end; while it is invalid both stay. At a minute
boundary every profile's target and the maintenance-open flag are evaluated on the new clock; at every other second boundary they
stand, and nothing else of the SCU's own state moves at either (R121, R132). That a boundary
commanded at any sub-second count runs time on to it is the model's choice (log 1). Every unit takes the boundary once, in the
order the command carries (log 8): the PTU clears its quiet flag (R11), the CAU refreshes the status block, whose writes
replace those of the last refresh that have not joined the arbiter's queue (R35, R36), the SUC counts the trial (R190), the
IMU judges the gates or counts the drain (R179, R180), the SCU takes its five steps (R126), reporting as logs 25, 38, 40, 41
and 42 have it; STU and CGU are RecordCountdownsEnd's, the RMU NodeCountdownsAndSweep's. -/
def Obligations.SecondAndMinuteBoundaries : Prop :=
  (∀ (order : List BoundaryUnit) (s : State),
    (∃ t, exec (.secondBoundary order) s = .next t
      ∧ t.time.sub = 0 ∧ t.time.ms = s.time.ms + BitVec.ofNat 32 (1000 - s.time.sub) ∧ t.time.valid = s.time.valid
      ∧ (s.time.valid = false → t.time.second = s.time.second ∧ t.time.minute = s.time.minute)
      ∧ (s.time.valid = true → s.time.second < 59 →
          t.time.second = s.time.second + 1 ∧ t.time.minute = s.time.minute)
      ∧ (s.time.valid = false ∨ s.time.second < 59 → t.scu = s.scu)
      ∧ t.sram = s.sram ∧ t.flash = s.flash ∧ t.policy = s.policy ∧ t.stu.pins = s.stu.pins)
    ∧ (s.time.valid = true → 59 ≤ s.time.second → ∃ t,
        exec (.minuteBoundary order) s = .next t ∧ exec (.secondBoundary order) s = .next t
        ∧ t.time.second = 0 ∧ t.time.minute = (if 10079 ≤ s.time.minute then 0 else s.time.minute + 1)
        ∧ t.scu.profiles = s.scu.profiles.map (fun p => { p with target := targetAt t.time p })
        ∧ t.scu.maintOpen
            = (s.policy.maintWindows.take s.policy.maintCount).any (fun w => minuteIn w.1 w.2 t.time.minute)))
  ∧ (∀ (order : List BoundaryUnit) (s : State), orderWf order = true →
      exec (.secondBoundary order) s = .next (order.foldl (fun u unit => u.unitBoundary unit) s.toBoundary))
  ∧ ∀ s : State, let n := s.imu.session
    s.unitBoundary .ptu = { s with ptu.quiet := false }
    ∧ (s.cau.path = .notBegun → s.unitBoundary .cau = s)
    ∧ (s.cau.path ≠ .notBegun → s.unitBoundary .cau = s.refreshStatus)
    ∧ (let counted : State := { s with cau.refreshCount := s.cau.refreshCount + 1 }
      let parked := ∃ a, s.ptu.behind = some a ∧ a.kind = .status
      (s.cau.statusOut = true → ¬parked → s.refreshStatus = { counted with cau.statusLeft := counted.statusWrites })
      ∧ ∀ o bs rest, counted.statusWrites = (o, bs) :: rest →
        (s.cau.statusOut = false → ¬parked → s.refreshStatus
          = ({ counted with cau.statusLeft := rest, cau.statusOut := true } : State).issue
              { kind := .status, addr := s.controlBase + 0x2000 + o, data := bs, len := 0 })
        ∧ (parked → s.refreshStatus
          = ({ counted with ptu.behind := none, cau.statusLeft := rest, cau.statusOut := true } : State).issue
              { kind := .status, addr := s.controlBase + 0x2000 + o, data := bs, len := 0 }))
    ∧ (let trial := s.suc.startUp = .ready ∧ s.suc.boot = .trial ∧ s.suc.trialRunning = true ∧ 0 < s.suc.trialLeft
      (¬trial → s.unitBoundary .suc = s)
      ∧ (trial → s.unitBoundary .suc = { s with
          suc.trialLeft := s.suc.trialLeft - 1
          lines.restartReq := s.lines.restartReq || s.suc.trialLeft == 1 }))
    ∧ (let met := (s.scu.maintOpen = true ∨ n.now = true) ∧ (s.cgu.count = 0 ∨ n.force = true)
      let t := s.unitBoundary .imu
      (n.state ≠ .armed → n.state ≠ .draining → t = s) ∧ (n.state = .armed → ¬met → t = s)
      ∧ (n.state = .armed → met → t = ({ s with
          imu.session := { n with state := .draining, drainLeft := s.policy.drainDeadline }
          rmu.drain := true
          stu.stations := s.stu.stations.map (fun r => { r with unmovable := false }) } : State).raise
            (.imageState .draining .none n.pages n.version))
      ∧ (n.state = .draining → 1 < n.drainLeft →
          t = { s with imu.session := { n with drainLeft := n.drainLeft - 1 } })
      ∧ (n.state = .draining → n.drainLeft ≤ 1 → exec .drainDeadline s = .next t))
    ∧ let t := s.unitBoundary .scu
      let stepped := fun r : Station => rampLevel (s.slopeOf r) (s.stationTarget r) r.level
      let counted := fun r : Station => { r with level := stepped r, pause := r.pause.count, ext := r.ext - 1 }
      let meets := fun r : Station => r.pause = .timed 0 ∨ r.pause = .timed 1 ∨ r.ext = 1
        ∨ (s.profileOf r.profile).target ≠ (t.profileOf r.profile).target
      let level := fun r : Station =>
        if meets r then moveLevel (s.slopeOf r) r.pause.count.inForce (t.stationTarget (counted r)) (stepped r)
        else stepped r
      (s.time.valid = false → t.time = s.time ∧ t.scu = s.scu)
      ∧ (s.time.valid = true → s.time.second < 59 →
          t.time = { s.time with second := s.time.second + 1 } ∧ t.scu = s.scu)
      ∧ (s.time.valid = true → 59 ≤ s.time.second →
          t.time = { s.time with second := 0, minute := if 10079 ≤ s.time.minute then 0 else s.time.minute + 1 }
          ∧ t.scu = {
              profiles := s.scu.profiles.map (fun p => { p with target := targetAt t.time p })
              maintOpen :=
                (s.policy.maintWindows.take s.policy.maintCount).any (fun w => minuteIn w.1 w.2 t.time.minute) })
      ∧ t.stu.stations = s.stu.stations.map (fun r =>
          if level r = r.level then { counted r with level := r.level } else t.rateChange { counted r with level := level r })
      ∧ t.cau.pending = (({ s with time := t.time } : State).raiseAll
          (s.stu.stations.flatMap (fun r =>
              if 0 < r.level ∧ stepped r = 0 then [.levelEdge r.addr .gated 0 (s.stationTarget r)] else [])
            ++ s.stu.stations.flatMap (fun r =>
              if meets r then levelEdges r.addr (s.stationTarget r) (stepped r) (t.stationTarget (counted r)) (level r)
              else []))).cau.pending
      ∧ OnlyReports { s with time := t.time, scu := t.scu, stu.stations := t.stu.stations } t

/-- The last second of a record's countdown runs out: a linger ends the game session (R90), a pause and an extension end and
the level moves by R123 (R127), a backoff ends (R148), an old estimate leaves its map (R141), a steer timer makes the record
ASSOCIATED again with one failure more, its backoff and STEER_FAILED (R146). Where the level or the game flag moves the AU
settles and recomputes the record, and else keeps its tokens and rate (R94, R108). Everything else stands. At a second
boundary the STU counts every age and hold and frees each record whose hold runs out, of several in slot order (R69, R71; log
36), a game-active one with GAME_EDGE OFF FREED and the count after its own free (R93); and the CGU judges every record's
second against the threshold (R89, R90), moves the count once and raises its edges with the count after it (R91, R92),
contention following (R94). -/
def Obligations.RecordCountdownsEnd : Prop :=
  (∀ (slot : Nat) (r : Station) (s : State), s.recordAt slot = some r →
    (r.gameActive = true → r.linger = 1 → r.gameCount < s.policy.threshold → ∃ t,
      let r' := s.rateChange { r with sustain := 0, gameCount := 0, linger := 0, gameActive := false }
      exec (.gameLingerEnd slot) s = .next t
      ∧ t.stu.stations.map (fun q => { q with mark := false })
          = (s.putRecord r').stu.stations.map (fun q => { q with mark := false })
      ∧ t.cgu.count = flagged t.stu.stations
      ∧ t.cau.pending = (s.raise (.gameEdge r.addr false .lingerEnd t.cgu.count)).cau.pending
      ∧ OnlyReports { s with stu.stations := t.stu.stations, cgu := t.cgu } t)
    ∧ (r.pause = .timed 1 →
        let target := if 0 < r.ext then 4096 else (s.profileOf r.profile).target
        let l := moveLevel (s.slopeOf r) false target r.level
        let p := { r with pause := .none, level := l }
        exec (.pauseExpiry slot) s = .next ((s.putRecord (if l = r.level then p else s.rateChange p)).raiseAll
          (levelEdges r.addr 0 r.level target l)))
    ∧ (r.ext = 1 → r.pause = .none →
        let target := (s.profileOf r.profile).target
        let l := moveLevel (s.slopeOf r) false target r.level
        let p := { r with ext := 0, level := l }
        exec (.extensionExpiry slot) s = .next ((s.putRecord (if l = r.level then p else s.rateChange p)).raiseAll
          (levelEdges r.addr 4096 r.level target l)))
    ∧ (r.backoff = 1 → exec (.backoffExpiry slot) s = .next (s.putRecord { r with backoff := 0 }))
    ∧ (∀ node, exec (.estimateEntryExpiry slot node) s = .next (s.putRecord
        { r with estimates := r.estimates.filter (fun e => !(e.node == node && decide (60 ≤ e.age))) }))
    ∧ ∀ n, r.state = .steering → r.steerTo = some n → r.steerTimer = 1 →
        let f := min 4 (r.failures + 1)
        let b := min 240 (30 * 2 ^ (f - 1))
        exec (.steerTimeout slot) s = .next ((s.putRecord { r with
            state := .associated, hold := none, steerTo := none, steerTimer := 0, failures := f, backoff := b
            unmovable := s.rmu.drain }).raise (.steerFailed r.addr n f s.rmu.drain b)))
  ∧ (∀ s : State, TableProper s →
      let t := s.unitBoundary .stu
      let counted := s.stu.stations.map (fun r => { r with
        age := min 65535 (r.age + 1), hold := r.hold.map (fun n => n - 1) })
      let spent := fun r : Station => r.hold == some 0 && (r.state == .idle || r.state == .expected || r.state == .away)
      unmarked t.stu.stations = unmarked (counted.filter (fun r => !spent r))
      ∧ (GamesCounted s → t.cgu.count = flagged t.stu.stations)
      ∧ ((∀ r ∈ counted, spent r = true → r.gameActive = false) →
          t.cau.pending = (s.raiseAll ((counted.filter spent).map (fun r => .stationFreed r.addr r.state
            (if r.state = .idle then .idleTimeout else if r.state = .expected then .expectedTimeout
             else .awayRelease)))).cau.pending)
      ∧ t = (counted.filter spent).foldl (fun u r => u.freeRecord r
          (if r.state = .idle then .idleTimeout else if r.state = .expected then .expectedTimeout else .awayRelease))
          { s with stu.stations := counted }
      ∧ (∀ (r : Station) (why : FreeReason) (u : State),
          (u.freeRecord r why).cau.pending = ((u.removeRecord r).raiseTogether
            [[.stationFreed r.addr r.state why],
             if r.gameActive = true then [.gameEdge r.addr false .freed (u.removeRecord r).cgu.count] else []]).cau.pending
          ∧ (u.removeRecord r).cgu.count = flagged (u.removeRecord r).stu.stations)
      ∧ OnlyReports { s with stu.stations := t.stu.stations, cgu := t.cgu, rmu.summaries := t.rmu.summaries } t)
  ∧ (∀ (p : Policy) (r : Station),
      let n := min p.sustain (r.sustain + 1)
      (p.threshold ≤ r.gameCount →
        (r.gameActive = true → gameEvaluate p r = ({ r with sustain := n, gameCount := 0, linger := p.linger }, none))
        ∧ (r.gameActive = false → n = p.sustain → gameEvaluate p r
            = ({ r with sustain := n, gameCount := 0, gameActive := true, linger := p.linger }, some (true, .detected)))
        ∧ (r.gameActive = false → n < p.sustain → gameEvaluate p r = ({ r with sustain := n, gameCount := 0 }, none)))
      ∧ (r.gameCount < p.threshold →
        (r.gameActive = false → gameEvaluate p r = ({ r with sustain := 0, gameCount := 0 }, none))
        ∧ (r.gameActive = true → 1 < r.linger →
            gameEvaluate p r = ({ r with sustain := 0, gameCount := 0, linger := r.linger - 1 }, none))
        ∧ (r.gameActive = true → r.linger ≤ 1 → gameEvaluate p r
            = ({ r with sustain := 0, gameCount := 0, linger := 0, gameActive := false }, some (false, .lingerEnd)))))
  ∧ ∀ s : State, let t := s.unitBoundary .cgu
      unmarked t.stu.stations = unmarked (s.stu.stations.map (fun r =>
        if (gameEvaluate s.policy r).2.isSome then s.rateChange (gameEvaluate s.policy r).1
        else (gameEvaluate s.policy r).1))
      ∧ t.cgu.count = flagged t.stu.stations ∧ t.cgu.contention = decide (0 < t.cgu.count)
      ∧ (s.cgu.contention ≠ t.cgu.contention → ∀ r ∈ t.stu.stations, r.mark = true)
      ∧ t.cau.pending = (s.raiseAll (s.stu.stations.flatMap (fun r =>
          ((gameEvaluate s.policy r).2.map (fun e =>
            ReportBody.gameEdge r.addr e.1 e.2 t.cgu.count)).toList))).cau.pending
      ∧ OnlyReports { s with stu.stations := t.stu.stations, cgu := t.cgu } t

/-- The node's own countdowns: a drain's last second begins COMMITTING with DRAIN_DEADLINE, clears drain mode and asks for the
commit append of the target's slot (R180, R182); a sweep's visit settles the first marked record at its old rate, recomputes it
from the inputs as they stand, cuts its tokens into the new bounds and clears its mark (R110), and with no record marked there
is none; and the next summary still due is raised while the pending queue has room (R150). At a second boundary the RMU ages
every estimate and ends those over 60 (R141), counts backoffs and steer timers (R142, R146), then evaluates the records toward
the best candidate (R143 to R145) or, in drain mode, steers every movable one (R152, R153; its local estimate log 14), judges
the drain complete (R154), which begins COMMITTING with DRAIN_COMPLETE and asks for the commit append (R180, R182), and at
every second boundary of its own makes the summaries due, of the records fresh then (R150). Its reports join the pending queue
in the order of its steps, DRAIN_COMPLETE before the summaries (the model's choice, log 35), and last each due summary while
the queue has room, those it left at the last such boundary before them; the ones without room wait. -/
def Obligations.NodeCountdownsAndSweep : Prop :=
  (∀ (sl : Slot) (s : State), s.imu.session.state = .draining → s.imu.session.drainLeft = 1 →
    s.imu.session.target = some (.image sl) → ∃ t, exec .drainDeadline s = .next t
      ∧ t.imu.session = { s.imu.session with state := .committing, drainLeft := 0, now := false, force := false }
      ∧ t.rmu.drain = false
      ∧ t.stu.stations = s.stu.stations.map (fun r => { r with unmovable := false, dwell := 0, candidate := none })
      ∧ t.suc = { s.suc with jobs := s.suc.jobs ++ [{ owner := .commit, slot := sl, boot := .trial, attempts := 0
                                                      fallback := false }] }
      ∧ t.cau.pending = (s.raise (.imageState .committing .drainDeadline s.imu.session.pages
          s.imu.session.version)).cau.pending
      ∧ OnlyReports { s with
          imu.session := t.imu.session, rmu.drain := false, stu.stations := t.stu.stations, suc := t.suc } t)
  ∧ (∀ s : State,
      ((∀ r ∈ s.stu.stations, r.mark = false) → exec .sweepVisit s = .next s)
      ∧ ∀ r, s.stu.stations.find? (fun q => q.mark) = some r →
          let u := s.rateChange r
          exec .sweepVisit s = .next (s.putRecord u)
          ∧ u.mark = false ∧ u.settled = s.time.ms ∧ u.rate = s.rateFor r ∧ u.cap = capacityOf u.rate
          ∧ u.tokens = max (-16 * (u.cap : Int)) (min (16 * (u.cap : Int)) (settle s.time.ms r).tokens)
          ∧ u = { r with tokens := u.tokens, rate := u.rate, cap := u.cap, settled := u.settled, mark := false })
  ∧ (∀ (k : Nat) (ks : List Nat) (b : ReportBody) (s : State), s.rmu.summaries = k :: ks → s.summaryOf k = some b →
      (s.cau.pending.length < 16 →
        exec .signalSummary s = .next (({ s with rmu.summaries := ks } : State).raise b))
      ∧ (16 ≤ s.cau.pending.length → exec .signalSummary s = .next s))
  ∧ (∀ (drain : Bool) (r : Station),
      let aged := { r with
        backoff := r.backoff - 1
        estimates := (r.estimates.map (fun e => { e with age := e.age + 1 })).filter (fun e => decide (e.age ≤ 60)) }
      let f := min 4 (r.failures + 1)
      let b := min 240 (30 * 2 ^ (f - 1))
      (r.state ≠ .steering → roamCount drain r = (aged, []))
      ∧ (r.state = .steering → 1 < r.steerTimer →
          roamCount drain r = ({ aged with steerTimer := r.steerTimer - 1 }, []))
      ∧ ∀ n, r.state = .steering → r.steerTimer ≤ 1 → r.steerTo = some n → roamCount drain r
          = ({ aged with state := .associated, hold := none, steerTo := none, steerTimer := 0, failures := f, backoff := b
                         unmovable := drain }, [.steerFailed r.addr n f drain b]))
  ∧ (∀ (p : Policy) (own : Nat) (r : Station),
      let best := bestCandidate own r
      let here := freshLocal own r
      let rests : Station × List ReportBody := ({ r with dwell := 0, candidate := none }, [])
      let begins := fun (b : Estimate) (cause : SteerCause) (est : Int) =>
        ({ r with state := .steering, hold := none, steerTo := some b.node, steerTimer := p.steerTimeout, dwell := 0
                  candidate := none, unmovable := false }, [ReportBody.steer r.addr b.node cause est b.value])
      (best = none ↔ ∀ e ∈ r.estimates, e.age ≤ 10 → e.node = own)
      ∧ (∀ b, best = some b → b ∈ r.estimates ∧ b.age ≤ 10 ∧ b.node ≠ own
          ∧ ∀ e ∈ r.estimates, e.age ≤ 10 → e.node ≠ own → e.value < b.value ∨ (e.value = b.value ∧ b.node ≤ e.node))
      ∧ (r.state ≠ .associated ∨ r.backoff ≠ 0 ∨ here = none ∨ best = none → evaluateRecord p own r = rests)
      ∧ (∀ l b, r.state = .associated → r.backoff = 0 → here = some l → best = some b →
          let met := l.value < 16 * p.trigger ∧ 16 * p.floor ≤ b.value
            ∧ 16 * (if r.gameActive then (p.gameMargin : Int) else p.margin) ≤ b.value - l.value
          let n := if r.candidate = some b.node then r.dwell + 1 else 1
          let setting := if r.gameActive then p.gameDwell else p.dwell
          (¬met → evaluateRecord p own r = rests)
          ∧ (met → n < setting → evaluateRecord p own r = ({ r with dwell := n, candidate := some b.node }, []))
          ∧ (met → setting ≤ n → evaluateRecord p own r = begins b .evaluation l.value))
      ∧ (∀ b, r.state = .associated → r.unmovable = false → best = some b → 16 * p.floor ≤ b.value →
          drainRecord p own r = begins b .drain (((r.entryOf own).map (fun e => e.value)).getD 0))
      ∧ (r.state ≠ .associated ∨ r.unmovable = true ∨ (∀ b, best = some b → b.value < 16 * p.floor) →
          drainRecord p own r = rests))
  ∧ ∀ s : State,
      let t := s.unitBoundary .rmu
      let counted := s.stu.stations.map (fun r => roamCount s.rmu.drain r)
      let moved := counted.map (fun c =>
        if s.rmu.drain then drainRecord s.policy s.suc.node c.1 else evaluateRecord s.policy s.suc.node c.1)
      let ended := s.rmu.drain = true ∧ s.imu.session.state = .draining ∧ ∀ m ∈ moved, m.1.state ≠ .steering
      let n := s.imu.session
      let steps := counted.flatMap Prod.snd ++ moved.flatMap Prod.snd
      (¬ended → t.stu.stations = moved.map Prod.fst ∧ t.rmu.drain = s.rmu.drain
        ∧ OnlyReports { s with stu.stations := t.stu.stations, rmu := t.rmu } t)
      ∧ (ended → t.rmu.drain = false
        ∧ t.stu.stations = moved.map (fun m => { m.1 with unmovable := false, dwell := 0, candidate := none })
        ∧ t.imu = { s.imu with session := { n with state := .committing, now := false, force := false } }
        ∧ (∀ sl, n.target = some (.image sl) → t.suc.jobs = s.suc.jobs ++
            [{ owner := .commit, slot := sl, boot := .trial, attempts := 0, fallback := false }])
        ∧ OnlyReports { s with stu.stations := t.stu.stations, rmu := t.rmu, imu := t.imu, suc.jobs := t.suc.jobs } t)
      ∧ t.rmu.toggle = !s.rmu.toggle
      ∧ (∃ raised,
        (t.rmu.toggle = false → raised = [] ∧ t.rmu.summaries = [])
        ∧ (t.rmu.toggle = true → t.summariesDue = raised ++ t.rmu.summaries)
        ∧ (t.rmu.summaries ≠ [] → 16 ≤ t.cau.pending.length)
        ∧ (¬ended → t.cau.pending
            = (s.raiseAll (steps ++ (s.rmu.summaries ++ raised).filterMap t.summaryOf)).cau.pending)
        ∧ (ended → t.cau.pending = (s.raiseAll (steps ++ [.imageState .committing .drainComplete n.pages n.version]
            ++ (s.rmu.summaries ++ raised).filterMap t.summaryOf)).cau.pending))
      ∧ (∀ k r, t.recordAt k = some r → t.summaryOf k = (r.entryOf s.suc.node).bind (fun e =>
          if e.age ≤ 10 then some (.signalSummary r.addr e.value (r.state == .associated || r.state == .steering))
          else none))
      ∧ t.summariesDue.Sublist (t.stu.stations.map (fun r => r.slot))
      ∧ ∀ k, k ∈ t.summariesDue ↔ ∃ r e, t.recordAt k = some r ∧ r.entryOf s.suc.node = some e ∧ e.age ≤ 10

/-- The allowance arithmetic: the base of a working ceiling (R100), the multiplier (R101), the rate in its four steps, which
every recomputation takes from the record's inputs as they stand (R102), with the capacity and the cut of the tokens (R103),
which follows settlement at the old rate wherever a rate input changes (R108), the reserve of each class (R105), the charge of
a frame (R106), and settlement, which earns at most 1,024 ms of the rate, never lowers the tokens and keeps the bound (R104);
and a ramp step falls by its slope's step, not below the target (R124). -/
def Obligations.AllowanceArithmetic : Prop :=
  (∀ (p : Nat) (s : State), s.workingCeiling p =
      (if (s.profileOf p).ceiling = 0 then s.policy.refRate else (s.profileOf p).ceiling)
    ∧ baseOf (s.workingCeiling p) = s.workingCeiling p * 16384 / 1000
    ∧ ∀ g, s.multiplier g = if s.cgu.contention = true ∧ g = false then s.policy.factor else 4096)
  ∧ (∀ level base k : Nat,
      (level = 0 → rateOf level base k = 0)
      ∧ (0 < level → rateOf level base k = max 1 (base * level / 4096 * k / 4096))
      ∧ (level ≤ 4096 → k ≤ 4096 → 1 ≤ base → rateOf level base k ≤ base))
  ∧ (∀ (r : Station) (s : State), let u := s.recompute r
      u.rate = rateOf r.level (baseOf (s.workingCeiling r.profile)) (s.multiplier r.gameActive)
      ∧ u.cap = capacityOf u.rate ∧ u.mark = false
      ∧ u.tokens = max (-16 * (u.cap : Int)) (min (16 * (u.cap : Int)) r.tokens)
      ∧ u = { r with tokens := u.tokens, rate := u.rate, cap := u.cap, mark := u.mark }
      ∧ s.rateChange r = s.recompute (settle s.time.ms r))
  ∧ (∀ rate : Nat, capacityOf rate = min 1048576 (max 3072 (4 * rate)))
  ∧ (∀ cap : Nat, reserveOf .game cap = -8 * (cap : Int) ∧ reserveOf .voice cap = -8 * (cap : Int)
      ∧ reserveOf .stream cap = 0 ∧ reserveOf .bulk cap = 4 * (cap : Int)
      ∧ reserveOf .background cap = 8 * (cap : Int))
  ∧ (∀ (len : Nat) (r : Station),
      charge len r = { r with tokens := max (-16 * (r.cap : Int)) (r.tokens - 16 * (min len 9216 : Nat)) })
  ∧ (∀ (now : BitVec 32) (r : Station), r.tokens ≤ 16 * (r.cap : Int) →
      settle now r = { r with
        tokens := min (16 * (r.cap : Int)) (r.tokens + (min 1024 (now - r.settled).toNat * r.rate : Nat))
        settled := now }
      ∧ r.tokens ≤ (settle now r).tokens)
  ∧ ∀ slope target level : Nat, 1 ≤ slope → slope ≤ 7 → target < level →
      rampLevel slope target level = max target (level - [0, 69, 35, 14, 7, 5, 3, 2].getD slope 0)

/-- Power-on sets every unit's state (R19, R37, R61, R83, R97, R114, R133, R155, R176, R192) from any state before it. Of that state
the node id, the backhaul port, the trial window and the attempts before LOADING installs them are log 9's, the fields of the
windows that a window count of 0 leaves unused log 39's, and what R176 does not give of the IDLE session log 45's. That SRAM and
flash keep what they hold is the model's choice (log 15), and so is what a cut-off program or erase leaves of its own page or sector
(log 5); no byte outside it moves. Cut off after its CONFIG session has failed by its timeout, was aborted or was abandoned, the
erase of sector 4 leaves no valid configuration block there, and a page program none where there was none (R174; log 51). -/
def Obligations.PowerOnResetsEveryUnit : Prop :=
  ∀ s : State, ∃ t, exec .powerOn s = .next t
    ∧ t = { State.reset with pending := s.pending, sram := s.sram, flash := t.flash, freeIdx := t.freeIdx }
    ∧ ((∀ o, s.imu.port ≠ .busy o) → t.flash = s.flash ∧ t.freeIdx = s.freeIdx)
    ∧ ∀ o, s.imu.port = .busy o → LeftPartway o.work s t
      ∧ (o.owner = .pastSession ∨ o.owner = .session ∧ o.timedOut = true →
        (o.work = .erase 0x040000 → ConfigInvalid t)
        ∧ ∀ p data, o.work = .program p data → p / 65536 = 4 → ConfigInvalid s → ConfigInvalid t)

/-- A node restart (R5, R20, R38, R62, R84, R98, R115, R134, R156, R177, R193): a held transaction ends with ERR, one that its owner
must hold from its taking among them, and an SRAM access under way for it gives up the port (the model's choice, log 43), and a
transmit read held for its decision loses it with no late count, one decided having returned its words already (R50; log 48); one
that waits for the SRAM port completes (a closing write of the request slot that was held while a result was pending ends with ERR
there too, and none of it reaches SRAM: R5, log 33), and one handed to an owner that does not hold it is taken by its owner's row
first (log 17), a request so taken not being carried out. An internal access on the port completes, a result write too, where R134
has its word not written (the model's choice, log 50). The arbiter's queue, the pending queue, the inspection state, the table,
drain mode, every append not yet issued (the commit's by R182, a confirm's by R193, a start's own by the model's choice, log 53) and
every session but a COMMITTED one are gone, but for its refused flag (R165; of the IDLE session's other values those R176 does not
give are log 45's); the clock, the configuration, the absorbed tables and the copy of the log stay; ATTN, READY and RESTART_REQ
fall, the ring begins again where it has begun, and SELECTING is entered, where LOADING does not still go on (R189). At the flash
port a READ for the held read, the session or a scan is dropped, an operation runs on, the session's without an owner, an append's
too (R177, R193), and one suspended for the held read is resumed, at once or once the flash reports suspended (R161). -/
def Obligations.NodeRestartKeepsAndClears : Prop :=
  ∀ s : State,
  let held := fun (h : InHand) => ∃ w, h.window = some w ∧
    (w.kind = .rxRing ∧ h.txn.dir = .write ∧ closingWrite h.txn = true
      ∨ w.kind = .control ∧ h.txn.dir = .write ∧ controlUse w.base h.txn = .request ∧ s.cau.slot = .pending
      ∨ w.kind = .staging ∧ h.txn.dir = .write ∧ s.imu.session.judgeWrite w.base h.txn = .hold
      ∨ w.kind = .staging ∧ h.txn.dir = .read ∧ s.imu.session.state = .idle
      ∨ (w.kind = .boot ∨ w.kind = .config ∨ w.kind = .image) ∧ h.txn.dir = .read)
  (∀ row ∈ [Instr.rxRingWrite, .controlWrite, .consumerIndexWrite, .classMapWrite, .nodePolicyRecord, .profileRecord,
        .pinRecord, .stagingWrite, .stagingRead, .flashWindowWrite],
      ∀ u, exec row s = .next u → exec .nodeRestart s = exec .nodeRestart u)
  ∧ (∀ h w, s.routedTo .control .write = some (h, w) → controlUse w.base h.txn = .request → s.cau.slot = .free →
      exec .nodeRestart s = exec .nodeRestart { s.absorb h w with
        cau.slot := .pending
        cau.request := some { kind := (s.absorb h w).shadowWord 0x3C, args := (s.absorb h w).shadowWords 0 14 } })
  ∧ ((∀ h, s.ptu.inHand = some h → h.phase = .routed → held h) → ∃ t, exec .nodeRestart s = .next t
    ∧ (let loading := s.suc.startUp = .loading
      t = { s with
        ptu.inHand := t.ptu.inHand, ptu.reply := t.ptu.reply, ptu.port := t.ptu.port
        ptu.queue := t.ptu.queue, ptu.behind := t.ptu.behind, ptu.quiet := false, ptu.further := 0
        cau.shadow := t.cau.shadow, cau.slot := .free, cau.request := none, cau.pending := [], cau.gap := false
        cau.writeIdx := 0, cau.published := 0, cau.consumer := 0, cau.statusLeft := [], cau.statusOut := false
        cau.path := if s.cau.path = .notBegun then .notBegun else .zeroing
        lines := { attn := false, restartReq := false, ready := false }
        diu := Diu.powerOn
        stu.stations := []
        cgu.count := 0, cgu.contention := false
        rmu.drain := false, rmu.summaries := []
        imu.session :=
          if s.imu.session.state = .committed then s.imu.session else { Session.idle with refused := s.imu.session.refused }
        imu.port := t.imu.port
        suc.startUp := if loading then .loading else .selecting
        suc.decided := false, suc.noFlash := false, suc.jobs := [], suc.scan := none, suc.trialRunning := false
        suc.append := s.suc.append.map (fun a => { a with job := { a.job with owner := .nobody } }) })
    ∧ (∀ h, s.ptu.inHand = some h →
        (h.phase = .readyLow ∨ h.phase = .requestHeld ∨ h.phase = .stagingHeld ∨ (∃ d, h.phase = .txHeld d)
          ∨ (∃ d, h.phase = .fetched d) ∨ (∃ a n, h.phase = .flashHeld a n)
          ∨ (∃ k, k ≠ .plain ∧ (h.phase = .sramWait k ∨ h.phase = .sramBusy k))
          ∨ (h.phase = .routed ∧ held h)) →
        t.ptu.inHand = none ∧ t.ptu.reply = some { txn := h.txn, ending := .err }
        ∧ (s.ptu.port = .passThrough → t.ptu.port = .free))
    ∧ (∀ h, s.ptu.inHand = some h → h.phase = .sramWait .plain ∨ h.phase = .sramBusy .plain →
        t.ptu.inHand = some h ∧ t.ptu.reply = s.ptu.reply ∧ (s.ptu.port = .passThrough → t.ptu.port = .passThrough))
    ∧ (s.ptu.inHand = none → t.ptu.inHand = none ∧ t.ptu.reply = s.ptu.reply)
    ∧ (s.ptu.port = .free → t.ptu.port = .free)
    ∧ (∀ a g, s.ptu.port = .internal a g → t.ptu.port = .internal a true)
    ∧ (s.cau.path = .notBegun → t.ptu.queue = [] ∧ t.ptu.behind = none)
    ∧ (s.cau.path ≠ .notBegun →
      let zero : InternalAccess := { kind := .producerIndex, addr := s.controlBase + 0x2080, data := [0, 0, 0, 0]
                                     len := 0 }
      ((∀ a g, s.ptu.port = .internal a g → a.kind.path ≠ 0) →
        t.ptu.queue = [{ access := zero, wait := 0 }] ∧ t.ptu.behind = none)
      ∧ ∀ a g, s.ptu.port = .internal a g → a.kind.path = 0 → t.ptu.queue = [] ∧ t.ptu.behind = some zero)
    ∧ (∀ o, t.shadowByte o = if o < 0x44 then 0 else s.shadowByte o)
    ∧ (s.imu.port = .free → t.imu.port = .free)
    ∧ (∀ p live a n, s.imu.port = .reading p live a n → t.imu.port = .reading p
        (if p = .passThrough ∨ p = .verify ∨ p = .scan then false else live) a n)
    ∧ ∀ o, s.imu.port = .busy o →
        let p : FlashOp := { o with owner := if o.owner = .session then .pastSession else o.owner }
        (o.suspension = .running → t.imu.port = .busy p)
        ∧ (∀ v, o.suspension = .suspending v → t.imu.port = .busy { p with suspension := .suspending false })
        ∧ (o.suspension = .suspended →
            t.imu.port = .busy { p with suspension := .running, inMinRun := true, runUs := 0 }))
end

