-- ==== Sys2Proof/Laws/Memory.lean ====
section
/-! SUPPORT. The laws of the byte memories: a read after a write, that every operation keeps the canonical form, and what an
operation leaves alone. -/
namespace Sys2Proof.Machine

/-! ## The canonical form -/

theorem Memory.wfAbove_iff (d : Byte) (lo : Option Nat) (m : Memory) :
    Memory.wfAbove d lo m = true ↔
      (∀ l, lo = some l → ∀ c ∈ m, l < c.1) ∧ m.Pairwise (fun a b => a.1 < b.1) ∧ ∀ c ∈ m, c.2 ≠ d := by
  induction m generalizing lo with
  | nil => simp [Memory.wfAbove]
  | cons c m ih =>
    obtain ⟨k, b⟩ := c
    cases lo with
    | none =>
      simp only [Memory.wfAbove, Bool.true_and, Bool.and_eq_true, decide_eq_true_eq, ih, List.pairwise_cons,
        List.mem_cons, forall_eq_or_imp]
      constructor
      · rintro ⟨hd, hk, hp, hm⟩
        exact ⟨by simp, ⟨fun c hc => hk k rfl c hc, hp⟩, hd, hm⟩
      · rintro ⟨-, ⟨hk, hp⟩, hd, hm⟩
        exact ⟨hd, fun l hl c hc => by cases hl; exact hk c hc, hp, hm⟩
    | some l =>
      simp only [Memory.wfAbove, Bool.and_eq_true, decide_eq_true_eq, ih, List.pairwise_cons, List.mem_cons,
        forall_eq_or_imp]
      constructor
      · rintro ⟨⟨hlk, hd⟩, hk, hp, hm⟩
        refine ⟨fun l' hl' => ?_, ⟨fun c hc => hk k rfl c hc, hp⟩, hd, hm⟩
        cases hl'
        exact ⟨hlk, fun c hc => lt_trans hlk (hk k rfl c hc)⟩
      · rintro ⟨hl, ⟨hk, hp⟩, hd, hm⟩
        exact ⟨⟨(hl l rfl).1, hd⟩, fun l' hl' c hc => by cases hl'; exact hk c hc, hp, hm⟩

/-- The canonical form as rising addresses and no entry that reads as an unlisted address does. -/
theorem Memory.wf_iff (d : Byte) (m : Memory) :
    Memory.wf d m = true ↔ m.Pairwise (fun a b => a.1 < b.1) ∧ ∀ c ∈ m, c.2 ≠ d := by
  simp [Memory.wf, Memory.wfAbove_iff]

theorem Memory.wf_nil (d : Byte) : Memory.wf d [] = true := rfl

/-- Entries after a write are entries before it or the one written. -/
theorem Memory.mem_write (d : Byte) (m : Memory) (a : Nat) (b : Byte) (c : Host.Cell)
    (h : c ∈ Memory.write d m a b) : c ∈ m ∨ (c = (a, b) ∧ b ≠ d) := by
  induction m with
  | nil => simp only [Memory.write] at h; split at h <;> simp_all
  | cons x m ih =>
    obtain ⟨k, v⟩ := x
    simp only [Memory.write] at h
    split at h
    · split at h <;> simp_all
      grind
    · split at h
      · split at h <;> simp_all
        grind
      · simp only [List.mem_cons] at h ⊢
        grind

/-- A write keeps the canonical form. -/
theorem Memory.write_wf (d : Byte) (m : Memory) (a : Nat) (b : Byte) (h : Memory.wf d m = true) :
    Memory.wf d (Memory.write d m a b) = true := by
  rw [Memory.wf_iff] at h ⊢
  obtain ⟨hp, hm⟩ := h
  refine ⟨?_, fun c hc => ?_⟩
  · induction m with
    | nil => simp only [Memory.write]; split <;> simp
    | cons x m ih =>
      obtain ⟨k, v⟩ := x
      simp only [List.pairwise_cons] at hp
      have ih := ih hp.2 (fun c hc => hm c (List.mem_cons_of_mem _ hc))
      simp only [Memory.write]
      split
      · split
        · simp only [List.pairwise_cons]; exact hp
        · simp only [List.pairwise_cons, List.mem_cons, forall_eq_or_imp]
          exact ⟨⟨‹_›, fun c hc => lt_trans ‹_› (hp.1 c hc)⟩, hp⟩
      · split
        · subst_vars
          split
          · exact hp.2
          · simp only [List.pairwise_cons]; exact hp
        · simp only [List.pairwise_cons]
          refine ⟨fun c hc => ?_, ih⟩
          rcases Memory.mem_write d m a b c hc with h' | ⟨rfl, -⟩
          · exact hp.1 c h'
          · simp only; omega
  · rcases Memory.mem_write d m a b c hc with h' | ⟨rfl, hb⟩
    · exact hm c h'
    · exact hb

/-- Writing cells keeps the canonical form. -/
theorem Memory.writeCells_wf (d : Byte) (m : Memory) (cs : List Host.Cell) (h : Memory.wf d m = true) :
    Memory.wf d (Memory.writeCells d m cs) = true := by
  unfold Memory.writeCells
  induction cs generalizing m with
  | nil => exact h
  | cons c cs ih => exact ih _ (Memory.write_wf d m c.1 c.2 h)

/-- Keeping some of the entries keeps the canonical form. -/
theorem Memory.filter_wf (d : Byte) (m : Memory) (p : Host.Cell → Bool) (h : Memory.wf d m = true) :
    Memory.wf d (m.filter p) = true := by
  rw [Memory.wf_iff] at h ⊢
  exact ⟨h.1.filter p, fun c hc => h.2 c (List.mem_of_mem_filter hc)⟩

/-- Replacing a range keeps the canonical form. -/
theorem Memory.overlay_wf (d : Byte) (m : Memory) (a n : Nat) (f : Nat → Byte) (h : Memory.wf d m = true) :
    Memory.wf d (Memory.overlay d m a n f) = true := by
  rw [Memory.wf_iff] at h ⊢
  obtain ⟨hp, hm⟩ := h
  unfold Memory.overlay
  constructor
  · rw [List.pairwise_append, List.pairwise_append]
    refine ⟨⟨hp.filter _, ?_, ?_⟩, hp.filter _, ?_⟩
    · refine List.Pairwise.filter _ ?_
      rw [List.pairwise_map]
      exact List.pairwise_lt_range.imp (fun h => by simp only; omega)
    · intro x hx y hy
      simp only [List.mem_filter, List.mem_map, List.mem_range, decide_eq_true_eq] at hx hy
      obtain ⟨⟨i, hi, rfl⟩, -⟩ := hy
      simp only; omega
    · intro x hx y hy
      simp only [List.mem_append, List.mem_filter, List.mem_map, List.mem_range, decide_eq_true_eq] at hx hy
      rcases hx with hx | ⟨⟨i, hi, rfl⟩, -⟩
      · omega
      · simp only; omega
  · intro c hc
    simp only [List.mem_append, List.mem_filter, List.mem_map, List.mem_range, decide_eq_true_eq] at hc
    rcases hc with (hc | ⟨⟨i, hi, rfl⟩, hd⟩) | hc
    · exact hm c hc.1
    · exact hd
    · exact hm c hc.1

/-! ## Reads -/

@[simp] theorem Memory.read_nil (d : Byte) (x : Nat) : Memory.read d [] x = d := rfl

theorem Memory.read_eq_of_not_mem (d : Byte) (m : Memory) (x : Nat) (h : ∀ c ∈ m, c.1 ≠ x) : Memory.read d m x = d := by
  induction m with
  | nil => rfl
  | cons c m ih =>
    obtain ⟨k, b⟩ := c
    have hk : k ≠ x := h (k, b) List.mem_cons_self
    simp only [Memory.read, hk, if_false]
    exact ih (fun c hc => h c (List.mem_cons_of_mem _ hc))

/-- A read after a write to the same address gives what was written (in the canonical form). -/
theorem Memory.read_write_same (d : Byte) (m : Memory) (a : Nat) (b : Byte) (h : Memory.wf d m = true) :
    Memory.read d (Memory.write d m a b) a = b := by
  rw [Memory.wf_iff] at h
  obtain ⟨hp, -⟩ := h
  induction m with
  | nil => simp only [Memory.write]; split <;> simp_all [Memory.read]
  | cons x m ih =>
    obtain ⟨k, v⟩ := x
    simp only [List.pairwise_cons] at hp
    simp only [Memory.write]
    split
    · split
      · rw [Memory.read_eq_of_not_mem]
        · simp_all
        · intro c hc
          simp only [List.mem_cons] at hc
          rcases hc with rfl | hc
          · simp only; omega
          · have := hp.1 c hc; omega
      · simp [Memory.read]
    · split
      · subst_vars
        split
        · rw [Memory.read_eq_of_not_mem]
          · simp_all
          · intro c hc
            have := hp.1 c hc; omega
        · simp [Memory.read]
      · have hk : k ≠ a := by omega
        simp only [Memory.read, hk, if_false]
        exact ih hp.2

/-- A write leaves every other address alone. -/
theorem Memory.read_write_other (d : Byte) (m : Memory) (a : Nat) (b : Byte) (x : Nat) (h : x ≠ a) :
    Memory.read d (Memory.write d m a b) x = Memory.read d m x := by
  induction m with
  | nil => simp only [Memory.write]; split <;> simp [Memory.read, Ne.symm h]
  | cons c m ih =>
    obtain ⟨k, v⟩ := c
    simp only [Memory.write]
    split
    · split
      · rfl
      · simp [Memory.read, Ne.symm h]
    · split
      · subst_vars
        split
        · simp [Memory.read, Ne.symm h]
        · simp [Memory.read, Ne.symm h]
      · simp only [Memory.read, ih]

/-- Cells leave every address they do not name alone. -/
theorem Memory.read_writeCells_other (d : Byte) (m : Memory) (cs : List Host.Cell) (x : Nat)
    (h : ∀ c ∈ cs, c.1 ≠ x) : Memory.read d (Memory.writeCells d m cs) x = Memory.read d m x := by
  unfold Memory.writeCells
  induction cs generalizing m with
  | nil => rfl
  | cons c cs ih =>
    rw [List.foldl_cons, ih _ (fun c' hc => h c' (List.mem_cons_of_mem _ hc)),
      Memory.read_write_other d m c.1 c.2 x (Ne.symm (h c List.mem_cons_self))]

theorem Memory.read_append_left (d : Byte) (m₁ m₂ : Memory) (x : Nat) (h : ∀ c ∈ m₁, c.1 ≠ x) :
    Memory.read d (m₁ ++ m₂) x = Memory.read d m₂ x := by
  induction m₁ with
  | nil => rfl
  | cons c m ih =>
    obtain ⟨k, b⟩ := c
    have hk : k ≠ x := h (k, b) List.mem_cons_self
    simp only [List.cons_append, Memory.read, hk, if_false]
    exact ih (fun c hc => h c (List.mem_cons_of_mem _ hc))

theorem Memory.read_append_right (d : Byte) (m₁ m₂ : Memory) (x : Nat) (h : ∀ c ∈ m₂, c.1 ≠ x) :
    Memory.read d (m₁ ++ m₂) x = Memory.read d m₁ x := by
  induction m₁ with
  | nil => rw [List.nil_append, Memory.read_eq_of_not_mem d m₂ x h]; rfl
  | cons c m ih =>
    obtain ⟨k, b⟩ := c
    simp only [List.cons_append, Memory.read, ih]

theorem Memory.read_filter (d : Byte) (m : Memory) (p : Nat → Bool) (x : Nat) (h : p x = true) :
    Memory.read d (m.filter (fun c => p c.1)) x = Memory.read d m x := by
  induction m with
  | nil => rfl
  | cons c m ih =>
    obtain ⟨k, b⟩ := c
    by_cases hk : k = x
    · subst hk; simp [h, Memory.read]
    · by_cases hpk : p k = true
      · simp [hpk, Memory.read, hk, ih]
      · simp [hpk, Memory.read, hk, ih]

/-- Outside the range replaced, every address reads as before. -/
theorem Memory.read_overlay_outside (d : Byte) (m : Memory) (a n : Nat) (f : Nat → Byte) (x : Nat)
    (h : x < a ∨ a + n ≤ x) : Memory.read d (Memory.overlay d m a n f) x = Memory.read d m x := by
  unfold Memory.overlay
  rcases h with h | h
  · rw [Memory.read_append_right, Memory.read_append_right]
    · exact Memory.read_filter d m (fun k => decide (k < a)) x (by simpa using h)
    · intro c hc
      simp only [List.mem_filter, List.mem_map, List.mem_range, decide_eq_true_eq] at hc
      obtain ⟨⟨i, -, rfl⟩, -⟩ := hc
      simp only; omega
    · intro c hc
      simp only [List.mem_filter, decide_eq_true_eq] at hc
      omega
  · rw [Memory.read_append_left]
    · exact Memory.read_filter d m (fun k => decide (a + n ≤ k)) x (by simpa using h)
    · intro c hc
      simp only [List.mem_append, List.mem_filter, List.mem_map, List.mem_range, decide_eq_true_eq] at hc
      rcases hc with hc | ⟨⟨i, hi, rfl⟩, -⟩
      · omega
      · simp only; omega

/-- Inside the range replaced, every address reads as the new contents. -/
theorem Memory.read_overlay_inside (d : Byte) (m : Memory) (a n : Nat) (f : Nat → Byte) (x : Nat)
    (h₁ : a ≤ x) (h₂ : x < a + n) : Memory.read d (Memory.overlay d m a n f) x = f x := by
  unfold Memory.overlay
  rw [Memory.read_append_right, Memory.read_append_left]
  · by_cases hd : f x = d
    · rw [Memory.read_eq_of_not_mem, hd]
      intro c hc
      simp only [List.mem_filter, List.mem_map, List.mem_range, decide_eq_true_eq] at hc
      obtain ⟨⟨i, hi, rfl⟩, hne⟩ := hc
      intro he
      simp only at he hne
      exact hne (he ▸ hd)
    · have key : ∀ (l : List Nat), (∃ i ∈ l, a + i = x) →
          Memory.read d ((l.map (fun i => (a + i, f (a + i)))).filter (fun c => decide (c.2 ≠ d))) x = f x := by
        intro l
        induction l with
        | nil => rintro ⟨i, hi, -⟩; simp at hi
        | cons j l ih =>
          rintro ⟨i, hi, hix⟩
          by_cases hj : a + j = x
          · subst hj
            simp [hd, Memory.read]
          · have hl : ∃ i ∈ l, a + i = x := by
              refine ⟨i, ?_, hix⟩
              rcases List.mem_cons.mp hi with rfl | h'
              · exact absurd hix hj
              · exact h'
            by_cases hfj : f (a + j) = d
            · simpa [List.filter_cons, hfj] using ih hl
            · simpa [List.filter_cons, hfj, Memory.read, hj] using ih hl
      exact key _ ⟨x - a, by simp; omega, by omega⟩
  · intro c hc
    simp only [List.mem_filter, decide_eq_true_eq] at hc
    omega
  · intro c hc
    simp only [List.mem_filter, decide_eq_true_eq] at hc
    omega

/-! ## The three memories of the state -/

theorem State.sramByte_storeSram_other (s : State) (cs : List Host.Cell) (x : Nat) (h : ∀ c ∈ cs, c.1 ≠ x) :
    (s.storeSram cs).sramByte x = s.sramByte x :=
  Memory.read_writeCells_other _ _ _ _ h

theorem State.shadowByte_storeShadow_other (s : State) (cs : List Host.Cell) (x : Nat) (h : ∀ c ∈ cs, c.1 ≠ x) :
    (s.storeShadow cs).shadowByte x = s.shadowByte x :=
  Memory.read_writeCells_other _ _ _ _ h

theorem State.flashByte_overlay_outside (s : State) (a n : Nat) (f : Nat → Byte) (x : Nat) (h : x < a ∨ a + n ≤ x) :
    (s.overlayFlash a n f).flashByte x = s.flashByte x :=
  Memory.read_overlay_outside _ _ _ _ _ _ h

theorem State.flashByte_overlay_inside (s : State) (a n : Nat) (f : Nat → Byte) (x : Nat) (h₁ : a ≤ x) (h₂ : x < a + n) :
    (s.overlayFlash a n f).flashByte x = f x :=
  Memory.read_overlay_inside _ _ _ _ _ _ h₁ h₂

end Sys2Proof.Machine
end

