-- ==== Sys2Proof/Laws/Operations.lean ====
section
/-! SUPPORT. For each shared operation that branches, one lemma that says once everything it can do; and what the look-ups of
the work in hand find. -/
namespace Sys2Proof.Machine

/-! ## What is in hand -/

/-- A routed transaction found by `routedTo` is the one in hand, with its window. -/
theorem State.routedTo_eq_some_iff (s : State) (k : WindowKind) (d : Dir) (h : InHand) (w : Window) :
    s.routedTo k d = some (h, w) ↔
      s.ptu.inHand = some h ∧ h.window = some w ∧ h.phase = .routed ∧ w.kind = k ∧ h.txn.dir = d := by
  unfold State.routedTo
  cases hh : s.ptu.inHand with
  | none => simp
  | some g =>
    dsimp only
    cases hw : g.window with
    | none =>
      simp only [reduceCtorEq, Option.some.injEq, false_iff, not_and]
      rintro rfl h1
      simp [hw] at h1
    | some v =>
      dsimp only
      simp only [Option.some.injEq]
      constructor
      · split
        · rename_i hc
          simp only [Option.some.injEq, Prod.mk.injEq]
          rintro ⟨rfl, rfl⟩
          exact ⟨rfl, hw, hc⟩
        · simp
      · rintro ⟨rfl, h1, h2⟩
        rw [hw] at h1
        cases h1
        rw [if_pos h2]

/-- A CONTROL write for a use is a routed CONTROL write whose bytes make it one. -/
theorem State.controlFor_eq_some_iff (s : State) (u : ControlUse) (h : InHand) (w : Window) :
    s.controlFor u = some (h, w) ↔ s.routedTo .control .write = some (h, w) ∧ controlUse w.base h.txn = u := by
  unfold State.controlFor
  cases hr : s.routedTo .control .write with
  | none => simp
  | some x =>
    obtain ⟨g, v⟩ := x
    simp only [Option.some.injEq, Prod.mk.injEq]
    constructor
    · split
      · rename_i hc
        simp only [Option.some.injEq, Prod.mk.injEq]
        rintro ⟨rfl, rfl⟩
        exact ⟨⟨rfl, rfl⟩, hc⟩
      · simp
    · rintro ⟨⟨rfl, rfl⟩, hc⟩
      rw [if_pos hc]

/-- The transaction that waits for the SRAM port is in hand in that phase. -/
theorem State.waitingPass_eq_some_iff (s : State) (h : InHand) (work : SramWork) :
    s.waitingPass = some (h, work) ↔ s.ptu.inHand = some h ∧ h.phase = .sramWait work := by
  unfold State.waitingPass
  cases s.ptu.inHand with
  | none => simp
  | some g =>
    dsimp only
    cases hp : g.phase with
    | sramWait v =>
      simp only [Option.some.injEq, Prod.mk.injEq]
      constructor
      · rintro ⟨rfl, rfl⟩; exact ⟨rfl, hp⟩
      · rintro ⟨rfl, h1⟩; rw [hp] at h1; cases h1; exact ⟨rfl, rfl⟩
    | _ =>
      simp only [reduceCtorEq, Option.some.injEq, false_iff, not_and]
      rintro rfl
      simp [hp]

/-- The read that waits for the flash port is in hand in that phase, with its flash address and length. -/
theorem State.waitingRead_eq_some_iff (s : State) (h : InHand) (a n : Nat) :
    s.waitingRead = some (h, a, n) ↔ s.ptu.inHand = some h ∧ h.phase = .flashHeld a n := by
  unfold State.waitingRead
  cases s.ptu.inHand with
  | none => simp
  | some g =>
    dsimp only
    cases hp : g.phase with
    | flashHeld b m =>
      simp only [Option.some.injEq, Prod.mk.injEq]
      constructor
      · rintro ⟨rfl, rfl, rfl⟩; exact ⟨rfl, hp⟩
      · rintro ⟨rfl, h1⟩; rw [hp] at h1; cases h1; exact ⟨rfl, rfl, rfl⟩
    | _ =>
      simp only [reduceCtorEq, Option.some.injEq, false_iff, not_and]
      rintro rfl
      simp [hp]

/-- The internal access of a kind on the SRAM port. -/
theorem State.portAccess_eq_some_iff (s : State) (k : InternalKind) (a : InternalAccess) (g : Bool) :
    s.portAccess k = some (a, g) ↔ s.ptu.port = .internal a g ∧ a.kind = k := by
  unfold State.portAccess
  cases s.ptu.port with
  | free => simp
  | passThrough => simp
  | internal b f =>
    dsimp only
    simp only [SramPort.internal.injEq]
    split
    · rename_i hk
      simp only [Option.some.injEq, Prod.mk.injEq]
      constructor
      · rintro ⟨rfl, rfl⟩; exact ⟨⟨rfl, rfl⟩, hk⟩
      · rintro ⟨⟨rfl, rfl⟩, _⟩; exact ⟨rfl, rfl⟩
    · rename_i hk
      simp only [reduceCtorEq, false_iff, not_and]
      rintro ⟨rfl, _⟩
      exact hk

/-- A record found by its address is in the table and has it. -/
theorem State.recordOf_some {s : State} {m : Mac} {r : Station} (h : s.recordOf m = some r) :
    r ∈ s.stu.stations ∧ r.addr = m := by
  unfold State.recordOf at h
  exact ⟨List.mem_of_find?_eq_some h, by simpa using List.find?_some h⟩

/-- A record found by its slot is in the table and stands there. -/
theorem State.recordAt_some {s : State} {k : Nat} {r : Station} (h : s.recordAt k = some r) :
    r ∈ s.stu.stations ∧ r.slot = k := by
  unfold State.recordAt at h
  exact ⟨List.mem_of_find?_eq_some h, by simpa using List.find?_some h⟩

/-! ## Requests -/

/-- While the slot is PENDING nothing is taken. -/
theorem State.takeClosing_of_pending {s : State} (h : s.cau.slot = .pending) : s.takeClosing = s := by
  unfold State.takeClosing
  split <;> simp [h]

/-- Taking up a closing write leaves the state, or takes the routed write of a FREE slot. -/
theorem State.takeClosing_cases (s : State) :
    s.takeClosing = s
    ∨ ∃ h w, s.routedTo .control .write = some (h, w) ∧ controlUse w.base h.txn = .request ∧ s.cau.slot = .free
        ∧ s.takeClosing = (s.absorb h w).takeRequest := by
  unfold State.takeClosing
  cases hc : s.controlFor .request with
  | none => exact .inl rfl
  | some x =>
    obtain ⟨h, w⟩ := x
    rw [State.controlFor_eq_some_iff] at hc
    by_cases hf : s.cau.slot = .free
    · exact .inr ⟨h, w, hc.1, hc.2, hf, by simp [hf]⟩
    · exact .inl (by simp [hf])

/-- A request row leaves the state, or runs its owner on the request taken. -/
theorem State.onRequest_cases (accepts : Word → Bool) (owner : Request → State → State) (s : State) :
    s.onRequest accepts owner = s
    ∨ ∃ q, s.takeClosing.cau.request = some q ∧ accepts q.kind = true
        ∧ s.onRequest accepts owner = owner q s.takeClosing := by
  unfold State.onRequest
  cases hq : s.takeClosing.cau.request with
  | none => exact .inl (by simp [hq])
  | some q =>
    by_cases ha : accepts q.kind = true
    · exact .inr ⟨q, rfl, ha, by simp [hq, ha]⟩
    · exact .inl (by simp [hq, ha])

/-- A request in hand of a kind the row accepts is run by its owner. -/
theorem State.onRequest_pending {s : State} {q : Request} {accepts : Word → Bool} (owner : Request → State → State)
    (hs : s.cau.slot = .pending) (hq : s.cau.request = some q) (ha : accepts q.kind = true) :
    s.onRequest accepts owner = owner q s := by
  simp [State.onRequest, State.takeClosing_of_pending hs, hq, ha]

/-! ## Reports -/

/-- The report path takes up the head of the queue, or stays. -/
theorem State.pumpReports_cases (s : State) :
    s.pumpReports = s
    ∨ ∃ r rest, s.cau.path = .idle ∧ s.cau.pending = r :: rest ∧ s.ringRoom = true
        ∧ s.pumpReports = ({ s with cau.path := .body } : State).issue
            { kind := .reportBody, addr := s.reportBase + 32 * s.cau.writeIdx, data := bytesOfWords r.words, len := 0 } := by
  unfold State.pumpReports
  split
  · rename_i r rest hp hq
    by_cases hr : s.ringRoom = true
    · exact .inr ⟨r, rest, hp, hq, hr, by simp [hr]⟩
    · exact .inl (by simp [hr])
  · exact .inl rfl

@[simp] theorem State.pumpReports_pending (s : State) : s.pumpReports.cau.pending = s.cau.pending := by
  rcases s.pumpReports_cases with h | ⟨_, _, _, _, _, h⟩ <;> (rw [h]; try rfl)

@[simp] theorem State.pumpReports_gap (s : State) : s.pumpReports.cau.gap = s.cau.gap := by
  rcases s.pumpReports_cases with h | ⟨_, _, _, _, _, h⟩ <;> (rw [h]; try rfl)

/-- The status path issues the next write, or stays. -/
theorem State.pumpStatus_cases (s : State) :
    s.pumpStatus = s
    ∨ ∃ o bs rest, s.cau.statusOut = false ∧ s.cau.statusLeft = (o, bs) :: rest
        ∧ s.pumpStatus = ({ s with cau.statusLeft := rest, cau.statusOut := true } : State).issue
            { kind := .status, addr := s.controlBase + 0x2000 + o, data := bs, len := 0 } := by
  unfold State.pumpStatus
  cases ho : s.cau.statusOut with
  | true => exact .inl (by simp)
  | false =>
    cases hl : s.cau.statusLeft with
    | nil => exact .inl (by simp)
    | cons x rest => exact .inr ⟨x.1, x.2, rest, rfl, rfl, by simp⟩

/-- A refresh gives up a status write exactly where one waits behind an overtaken access of its path. -/
theorem State.dropParked_cases (s : State) :
    ((∀ a, s.ptu.behind = some a → a.kind.path ≠ InternalKind.status.path) ∧ s.dropParked = s)
    ∨ ∃ a, s.ptu.behind = some a ∧ a.kind.path = InternalKind.status.path
        ∧ s.dropParked = { s with ptu.behind := none, cau.statusOut := false } := by
  unfold State.dropParked State.statusParked
  cases hb : s.ptu.behind with
  | none => exact .inl ⟨by simp, by simp⟩
  | some a =>
    by_cases h : a.kind.path = InternalKind.status.path
    · exact .inr ⟨a, rfl, h, by simp [h]⟩
    · exact .inl ⟨by rintro _ ⟨⟩; exact h, by simp [h]⟩

/-- A refresh counts one up and issues the first of the writes gathered now, or leaves them to follow the one that is out. -/
theorem State.refreshStatus_cases (s : State) :
    let s1 := State.dropParked { s with cau.refreshCount := s.cau.refreshCount + 1 }
    s.refreshStatus = { s1 with cau.statusLeft := s1.statusWrites }
    ∨ ∃ o bs rest, s1.cau.statusOut = false ∧ s1.statusWrites = (o, bs) :: rest
        ∧ s.refreshStatus = ({ s1 with cau.statusLeft := rest, cau.statusOut := true } : State).issue
            { kind := .status, addr := s1.controlBase + 0x2000 + o, data := bs, len := 0 } :=
  State.pumpStatus_cases _

/-- A PROTECT event counts up, or raises a report and sets the quiet flag. -/
theorem State.protectEvent_cases (w : Window) (t : Transaction) (s : State) :
    (s.ptu.quiet = true ∧ ∃ n, s.protectEvent w t = { s with ptu.further := n })
    ∨ (s.ptu.quiet = false ∧ s.protectEvent w t = ({ s with ptu.further := 0, ptu.quiet := true } : State).raise
        (.protect w.entry w.kind t.master.val t.dir t.addr s.ptu.further)) := by
  unfold State.protectEvent
  cases hq : s.ptu.quiet with
  | true => exact .inl ⟨rfl, _, by simp; rfl⟩
  | false => exact .inr ⟨rfl, by simp⟩

/-! ## Records -/

/-- A record that meets its target: the level of R123, the AU's fields, and the edges of R125. -/
theorem State.moveRecord_shape (s : State) (t0 : Nat) (handed : Bool) (r : Station) :
    ∃ r', s.moveRecord t0 handed r
        = (r', levelEdges r.addr t0 r.level (s.stationTarget r)
            (moveLevel (s.slopeOf r) r.pause.inForce (s.stationTarget r) r.level))
      ∧ r' = { r with
          level := moveLevel (s.slopeOf r) r.pause.inForce (s.stationTarget r) r.level
          tokens := r'.tokens, rate := r'.rate, cap := r'.cap, settled := r'.settled, mark := r'.mark } := by
  unfold State.moveRecord
  refine ⟨_, rfl, ?_⟩
  split <;> rfl

/-- What a new policy does to one record: the AU's fields where its reference rate changes (R109), its sustain count and a
game-active record's linger cut to a lowered setting (R96), and nothing else. -/
theorem State.policyRecord_shape (s s1 : State) (r : Station) :
    ∃ q, q = (if s1.policy.refRate ≠ s.policy.refRate ∧ (s.profileOf r.profile).ceiling = 0 then s1.rateChange r else r)
      ∧ s.policyRecord s1 r = { q with
          sustain := if s1.policy.sustain < s.policy.sustain then min s1.policy.sustain r.sustain else r.sustain
          linger := if s1.policy.linger < s.policy.linger ∧ r.gameActive = true then min s1.policy.linger r.linger
            else r.linger } := by
  refine ⟨_, rfl, ?_⟩
  by_cases h : s1.policy.refRate ≠ s.policy.refRate ∧ (s.profileOf r.profile).ceiling = 0
  · simp only [State.policyRecord, if_pos h]; rfl
  · simp only [State.policyRecord, if_neg h]

/-- A policy is taken: every record takes it, and is marked for the sweep where the factor changes (R110). -/
theorem State.takePolicy_cases (p : Policy) (s : State) :
    (p.factor = s.policy.factor ∧ s.takePolicy p
        = { s with policy := p, stu.stations := s.stu.stations.map (s.policyRecord { s with policy := p }) })
    ∨ (p.factor ≠ s.policy.factor ∧ s.takePolicy p = ({ s with
        policy := p, stu.stations := s.stu.stations.map (s.policyRecord { s with policy := p }) } : State).markAll) := by
  unfold State.takePolicy
  by_cases h : p.factor = s.policy.factor
  · exact .inl ⟨h, if_pos h⟩
  · exact .inr ⟨h, if_neg h⟩

/-- The node game-active count moves, and contention with the sweep's marks where it crosses 0. -/
theorem State.setGameCount_cases (n : Nat) (s : State) :
    (s.cgu.contention = decide (0 < n) ∧ s.setGameCount n = { s with cgu.count := n })
    ∨ (s.cgu.contention ≠ decide (0 < n)
        ∧ s.setGameCount n = ({ s with cgu.count := n, cgu.contention := decide (0 < n) } : State).markAll) := by
  unfold State.setGameCount
  by_cases h : s.cgu.contention = decide (0 < n)
  · exact .inl ⟨h, by simp [h]⟩
  · exact .inr ⟨h, by simp [h]⟩

/-- The token test settles the record, and charges it on a pass. -/
theorem tokenTest_cases (now : BitVec 32) (c : Class) (len : Nat) (r : Station) :
    (reserveOf c (settle now r).cap ≤ (settle now r).tokens ∧ tokenTest now c len r = (true, charge len (settle now r)))
    ∨ ((settle now r).tokens < reserveOf c (settle now r).cap ∧ tokenTest now c len r = (false, settle now r)) := by
  unfold tokenTest
  by_cases h : reserveOf c (settle now r).cap ≤ (settle now r).tokens
  · exact .inl ⟨h, by simp [h]⟩
  · exact .inr ⟨by omega, by simp [h]⟩

/-- Room for a new record: a FREE slot, or a victim's. -/
theorem State.makeRoom_cases (s : State) :
    (∃ k, s.freeSlot = some k ∧ s.makeRoom = some (k, s, [], []))
    ∨ (∃ v, s.freeSlot = none ∧ s.victim = some v
        ∧ s.makeRoom = some (v.slot, s.removeRecord v, [.stationFreed v.addr v.state .evicted],
            freedEdge v (s.removeRecord v).cgu.count))
    ∨ (s.freeSlot = none ∧ s.victim = none ∧ s.makeRoom = none) := by
  unfold State.makeRoom
  cases hf : s.freeSlot with
  | some k => exact .inl ⟨k, rfl, rfl⟩
  | none =>
    cases hv : s.victim with
    | some v => exact .inr (.inl ⟨v, rfl, rfl, rfl⟩)
    | none => exact .inr (.inr ⟨rfl, rfl, rfl⟩)

/-! ## Transactions and the flash port -/

/-- A transaction taken up is routed, answered, or answered with a PROTECT event. -/
theorem State.takeUp_cases (h : InHand) (s : State) :
    (s.windowAt h.txn.addr = none ∧ h.txn.addr < 0x8000000
      ∧ s.takeUp h = s.toPhase { h with window := none } (.sramWait .plain))
    ∨ (s.windowAt h.txn.addr = none ∧ 0x8000000 ≤ h.txn.addr ∧ s.takeUp h = s.endTxn h .err)
    ∨ (∃ w, s.windowAt h.txn.addr = some w ∧ permitted w h.txn = true
        ∧ s.takeUp h = s.toPhase { h with window := some w } (routeOf w h.txn))
    ∨ (∃ w, s.windowAt h.txn.addr = some w ∧ permitted w h.txn = false
        ∧ s.takeUp h = (s.endTxn h (deniedReply h.txn.dir)).protectEvent w h.txn) := by
  unfold State.takeUp
  cases hw : s.windowAt h.txn.addr with
  | none =>
    by_cases ha : h.txn.addr < 0x8000000
    · exact .inl ⟨rfl, ha, by simp [ha]⟩
    · exact .inr (.inl ⟨rfl, by omega, by simp [ha]⟩)
  | some w =>
    cases hp : permitted w h.txn with
    | true => exact .inr (.inr (.inl ⟨w, rfl, hp, by simp [hp]⟩))
    | false => exact .inr (.inr (.inr ⟨w, rfl, hp, by simp [hp]⟩))

/-- At READY's rise a held transaction ends with ERR or is taken up; anything else stays. -/
theorem State.takeUpHeld_cases (s : State) :
    s.takeUpHeld = s ∨ ∃ h, s.ptu.inHand = some h ∧ h.phase = .readyLow
      ∧ (s.takeUpHeld = s.endTxn h .err ∨ s.takeUpHeld = s.takeUp h) := by
  unfold State.takeUpHeld
  cases s.ptu.inHand with
  | none => exact .inl rfl
  | some h =>
    by_cases hp : h.phase = .readyLow
    · refine .inr ⟨h, rfl, hp, ?_⟩
      simp only [hp, if_true]
      split
      · split
        · exact .inl rfl
        · exact .inr rfl
      · exact .inr rfl
    · exact .inl (by simp [hp])

/-- When the slot becomes FREE, a closing write of it that came before is taken up and is held at the SRAM port; else nothing happens. -/
theorem State.takeUpRequest_cases (s : State) :
    s.takeUpRequest = s
    ∨ ∃ h w, s.ptu.inHand = some h ∧ h.window = some w ∧ (h.phase = .requestHeld ∨ s.controlFor .request = some (h, w))
        ∧ s.takeUpRequest = (s.absorb h w).takeRequest.toPhase h (.sramWait .requestWrite) := by
  unfold State.takeUpRequest
  cases hc : s.controlFor .request with
  | some x =>
    have hr := ((State.controlFor_eq_some_iff s .request x.1 x.2).1 hc).1
    have hi := (State.routedTo_eq_some_iff s .control .write x.1 x.2).1 hr
    exact .inr ⟨x.1, x.2, hi.1, hi.2.1, .inr rfl, by simp [State.heldRequest, hc]⟩
  | none =>
    cases hi : s.ptu.inHand with
    | none => exact .inl (by simp [State.heldRequest, hc, hi])
    | some h =>
      by_cases hp : h.phase = .requestHeld
      · cases hw : h.window with
        | none => exact .inl (by simp [State.heldRequest, hc, hi, hw])
        | some w => exact .inr ⟨h, w, rfl, hw, .inl hp, by simp [State.heldRequest, hc, hi, hp, hw]⟩
      · exact .inl (by simp [State.heldRequest, hc, hi, hp])

/-- A suspension reported: the waiting read's READ is in transfer, RESUME where the read has ended, or nothing where no SUSPEND is
pending (R161; log 49). -/
theorem FlashOp.paused_cases (o : FlashOp) :
    (o.suspension = .suspending true ∧ o.paused = { o with suspension := .suspended })
    ∨ (o.suspension = .suspending false ∧ o.paused = o.resume)
    ∨ ((∀ w, o.suspension ≠ .suspending w) ∧ o.paused = o) := by
  unfold FlashOp.paused
  cases h : o.suspension with
  | running => exact .inr (.inr ⟨nofun, rfl⟩)
  | suspended => exact .inr (.inr ⟨nofun, rfl⟩)
  | suspending w => cases w with
    | true => exact .inl ⟨rfl, rfl⟩
    | false => exact .inr (.inl ⟨rfl, rfl⟩)

/-- SUSPEND is issued for the waiting read where R161 allows, and else nothing happens. -/
theorem State.trySuspend_cases (s : State) :
    s.trySuspend = s
    ∨ ∃ o h a n, s.imu.port = .busy o ∧ s.waitingRead = some (h, a, n) ∧ o.suspension = .running ∧ o.inMinRun = false
        ∧ o.answers = true ∧ o.work.clearOf a = true
        ∧ s.trySuspend = { s with imu.port := .busy { o with suspension := .suspending true, suspendUs := 0 } } := by
  unfold State.trySuspend
  split
  · rename_i o h a n hp hw
    by_cases hc : o.suspension = .running ∧ o.inMinRun = false ∧ o.answers = true ∧ o.work.clearOf a = true
    · exact .inr ⟨o, h, a, n, hp, hw, hc.1, hc.2.1, hc.2.2.1, hc.2.2.2, by simp [hc]⟩
    · exact .inl (by rw [if_neg hc])
  · exact .inl rfl

/-- A page buffer that comes free lets the write held for one be accepted. -/
theorem State.releaseStaging_cases (s : State) :
    s.releaseStaging = s
    ∨ ∃ h w, s.ptu.inHand = some h ∧ h.phase = .stagingHeld ∧ h.window = some w
        ∧ s.imu.session.judgeWrite w.base h.txn = .accept ∧ s.releaseStaging = s.acceptStaging h := by
  unfold State.releaseStaging
  cases hi : s.ptu.inHand with
  | none => exact .inl rfl
  | some h =>
    dsimp only
    split
    · rename_i w hp hw
      by_cases hj : s.imu.session.judgeWrite w.base h.txn = .accept
      · exact .inr ⟨h, w, rfl, hp, hw, hj, by simp [hj]⟩
      · exact .inl (by simp [hj])
    · exact .inl rfl

/-- What the free port is granted for, by what the start-up controller wants. -/
theorem State.grantSuc_cases (s : State) :
    (s.sucWant = .nothing ∧ s.grantSuc = s.grantSession)
    ∨ (∃ p a n, s.sucWant = .read p a n ∧ s.grantSuc = s.grantRead p a n)
    ∨ (∃ w, s.sucWant = .work w ∧ s.grantSuc = s.grantWork w .startUp)
    ∨ (∃ j rest, s.sucWant = .begins j rest
        ∧ (s.grantSuc = { s with suc.append := some (s.beginAppend j), suc.jobs := rest }
          ∨ ∃ w, s.grantSuc = ({ s with suc.append := some (s.beginAppend j), suc.jobs := rest } : State).grantWork w
              .startUp)) := by
  unfold State.grantSuc
  split
  · rename_i h; exact .inl ⟨h, rfl⟩
  · rename_i p a n h; exact .inr (.inl ⟨p, a, n, h, rfl⟩)
  · rename_i w h; exact .inr (.inr (.inl ⟨w, h, rfl⟩))
  · rename_i j rest h
    refine .inr (.inr (.inr ⟨j, rest, h, ?_⟩))
    dsimp only
    split
    · rename_i w _; exact .inr ⟨w, rfl⟩
    all_goals exact .inl rfl

/-! ## The arbiter's queue, the flash port's operations and the restart -/

/-- A path is blocked by an overtaken access of its own on the port. -/
theorem State.pathBlocked_eq_true_iff (s : State) (path : Nat) :
    s.pathBlocked path = true ↔ ∃ a, s.ptu.port = .internal a true ∧ a.kind.path = path := by
  unfold State.pathBlocked
  cases s.ptu.port with
  | internal a g => simp only [Bool.and_eq_true, beq_iff_eq, SramPort.internal.injEq, and_assoc, exists_eq_left']
  | free => simp
  | passThrough => simp

/-- An access joins the arbiter's queue with wait count 0, or waits behind its path's overtaken access. -/
theorem State.issue_cases (a : InternalAccess) (s : State) :
    (s.pathBlocked a.kind.path = false ∧ s.issue a = { s with ptu.queue := s.ptu.queue ++ [{ access := a, wait := 0 }] })
    ∨ (s.pathBlocked a.kind.path = true ∧ s.issue a = { s with ptu.behind := some a }) := by
  unfold State.issue
  cases hb : s.pathBlocked a.kind.path
  · exact Or.inl ⟨rfl, by simp⟩
  · exact Or.inr ⟨rfl, by simp⟩

/-- The owner of an operation that has ended receives nothing, a timeout, or the outcome. -/
theorem State.operationEnded_cases (o : FlashOp) (fail : Bool) (s : State) :
    (o.timedOut = true ∧ s.operationEnded o fail = s)
    ∨ (o.overdue = true ∧ s.operationEnded o fail = s.operationTimedOut o)
    ∨ (o.timedOut = false ∧ o.busyUs ≤ o.work.limitUs
      ∧ ((o.owner = .session ∧ s.operationEnded o fail = s.sessionOutcome o.work fail)
        ∨ (o.owner = .pastSession ∧ s.operationEnded o fail = s)
        ∨ (o.owner = .startUp ∧ s.operationEnded o fail = s.appendOutcome fail))) := by
  unfold State.operationEnded FlashOp.overdue
  cases ht : o.timedOut with
  | true => simp
  | false =>
    by_cases hl : o.work.limitUs < o.busyUs
    · simp [hl]
    · cases ho : o.owner <;> simp [hl, Nat.le_of_not_lt hl]

/-- The newer of two entries is one of them, of the higher sequence number, or of equal ones the one R184 leaves open. -/
theorem newer_cases (best : Option (Nat × Entry)) (p : Nat) (e : Entry) :
    (newer best p e = some (p, e) ∧ ∀ b, best = some b → b.2.seq.toNat ≤ e.seq.toNat)
    ∨ ∃ b, best = some b ∧ newer best p e = some b ∧ e.seq.toNat ≤ b.2.seq.toNat := by
  unfold newer
  rcases best with _ | ⟨q, f⟩
  · exact .inl ⟨rfl, nofun⟩
  · dsimp only
    split
    · next h => exact .inl ⟨rfl, by rintro _ ⟨⟩; exact h.le⟩
    · split
      · next h => exact .inl ⟨rfl, by rintro _ ⟨⟩; simp [h.1]⟩
      · next h _ => exact .inr ⟨_, rfl, rfl, Nat.le_of_not_lt h⟩

/-- The newest entry below the next position. -/
theorem newestBelow_succ (entry : Nat → Option Entry) (n : Nat) :
    newestBelow entry (n + 1) = takeNewest (newestBelow entry n) n (entry n) := by
  simp only [newestBelow, List.range_succ, List.foldl_append, List.foldl_cons, List.foldl_nil]

/-- The newest entry below a position is none where no place holds a valid entry, and else stands at its place with no valid entry
of a higher sequence number there (R184). -/
theorem newestBelow_cases (entry : Nat → Option Entry) (n : Nat) :
    (newestBelow entry n = none ∧ ∀ k, k < n → entry k = none)
    ∨ ∃ k e, newestBelow entry n = some (k, e) ∧ k < n ∧ entry k = some e
        ∧ ∀ j f, j < n → entry j = some f → f.seq.toNat ≤ e.seq.toNat := by
  induction n with
  | zero => exact .inl ⟨rfl, by omega⟩
  | succ n ih =>
    rw [newestBelow_succ]
    cases he : entry n with
    | none =>
      have last : ∀ k, k < n + 1 → entry k ≠ none → k < n := by
        intro k hk hne
        rcases Nat.lt_succ_iff_lt_or_eq.1 hk with h | rfl
        · exact h
        · exact absurd he hne
      rcases ih with ⟨h, hall⟩ | ⟨k, e, h, hk, hke, hall⟩
      · refine .inl ⟨h, fun k hk => ?_⟩
        by_contra hne
        exact hne (hall k (last k hk hne))
      · exact .inr ⟨k, e, h, by omega, hke, fun j f hj hf => hall j f (last j hj (by simp [hf])) hf⟩
    | some e =>
      refine .inr ?_
      rcases newer_cases (newestBelow entry n) n e with ⟨hn, hb⟩ | ⟨b, hb, hn, hle⟩
      · refine ⟨n, e, hn, by omega, he, fun j f hj hf => ?_⟩
        rcases Nat.lt_succ_iff_lt_or_eq.1 hj with hj | rfl
        · rcases ih with ⟨_, hall⟩ | ⟨k, g, hk, _, _, hall⟩
          · simp [hall j hj] at hf
          · exact (hall j f hj hf).trans (hb (k, g) hk)
        · rw [he] at hf
          cases hf
          exact le_rfl
      · rcases ih with ⟨h, _⟩ | ⟨k, g, h, hk, hke, hall⟩
        · simp [h] at hb
        · rw [h] at hb
          cases hb
          refine ⟨k, g, hn, by omega, hke, fun j f hj hf => ?_⟩
          rcases Nat.lt_succ_iff_lt_or_eq.1 hj with hj | rfl
          · exact hall j f hj hf
          · rw [he] at hf
            cases hf
            exact hle

/-- Logs that agree below a position agree on the newest entry there. -/
theorem newestBelow_congr (f g : Nat → Option Entry) (n : Nat) (h : ∀ k, k < n → f k = g k) :
    newestBelow f n = newestBelow g n := by
  induction n with
  | zero => rfl
  | succ n ih => rw [newestBelow_succ, newestBelow_succ, h n (by omega), ih (fun k hk => h k (by omega))]

/-- What a lost operation leaves: its page or sector part-way, or, where that breaks what the start-up controller's log still holds, the
array as it was, or, where that leaves a CONFIG session's sector with a valid block, the page as it was or the sector erased. -/
theorem State.workLost_cases (w : FlashWork) (o : OpOwner) (s : State) :
    (s.workLost w o = s.workPartway w ∧ (o = .startUp → s.logBroken (s.workPartway w) w = false)
      ∧ (o ≠ .startUp → s.configBroken (s.workPartway w) w = false))
    ∨ (o = .startUp ∧ s.logBroken (s.workPartway w) w = true ∧ s.workLost w o = { s with freeIdx := s.freeIdx + 1 })
    ∨ (o ≠ .startUp ∧ s.configBroken (s.workPartway w) w = true ∧ s.workLost w o = s.workVoid w) := by
  cases o
  case startUp => cases h : s.logBroken (s.workPartway w) w <;> simp [State.workLost, h]
  all_goals cases h : s.configBroken (s.workPartway w) w <;> simp [State.workLost, h]

/-- The tests of a block's header, as R186 lists them. -/
theorem headerFault_eq_none_iff (bs : List Byte) :
    headerFault bs = none ↔ byteWord bs 0 = 0x53374C43#32 ∧ field (byteWord bs 1) 0 8 = 1
      ∧ ¬blockLength bs < 416 ∧ ¬65536 < blockLength bs := by
  unfold headerFault
  split_ifs with h1 h2 h3
  · exact ⟨nofun, fun h => absurd h.1 h1⟩
  · exact ⟨nofun, fun h => absurd h.2.1 h2⟩
  · exact ⟨nofun, fun h => by omega⟩
  · exact ⟨fun _ => ⟨not_not.1 h1, not_not.1 h2, by omega, by omega⟩, fun _ => rfl⟩

/-- The tests of a block, as R186 lists them. -/
theorem blockPasses_eq_false_iff (bs : List Byte) (crc : Word) :
    blockPasses bs crc = false ↔ byteWord bs 0 ≠ 0x53374C43#32 ∨ field (byteWord bs 1) 0 8 ≠ 1 ∨ blockLength bs < 416
      ∨ 65536 < blockLength bs ∨ ∃ r, judgeBlock bs crc = .error r := by
  unfold blockPasses
  rw [Bool.and_eq_false_iff, Option.isNone_eq_false_iff, Option.isSome_iff_ne_none, ne_eq, headerFault_eq_none_iff]
  cases judgeBlock bs crc with
  | error r => exact ⟨fun _ => .inr (.inr (.inr (.inr ⟨r, rfl⟩))), fun _ => .inr rfl⟩
  | ok c =>
    simp only [reduceCtorEq, exists_false, or_false]
    tauto

/-- The check of LOADING on what sector 4 holds, in the terms of the statements (R186). -/
theorem State.blockValid_eq_false_iff (s : State) : s.blockValid = false ↔ ConfigInvalid s := by
  unfold State.blockValid ConfigInvalid
  exact blockPasses_eq_false_iff _ _

/-- The check looks at the flash alone. -/
theorem State.blockValid_congr {s t : State} (h : t.flash = s.flash) : t.blockValid = s.blockValid := by
  have hr : ∀ a n, t.flashRead a n [] = s.flashRead a n [] := fun a n => by
    unfold State.flashRead State.flashByte
    rw [h]
  unfold State.blockValid
  rw [hr configBase 416, hr (configBase + 16)]

/-- A sector 4 at 0xFF holds no valid block: its magic is wrong (R186). -/
theorem State.blockValid_of_erased {s : State} (h : ∀ i, i < 4 → s.flashByte (configBase + i) = 0xFF) :
    s.blockValid = false := by
  refine (State.blockValid_eq_false_iff s).2 (.inl ?_)
  have hw : (s.flashRead configBase 416 []).take 4 = [0xFF, 0xFF, 0xFF, 0xFF] := by
    unfold State.flashRead
    rw [← List.map_take, List.take_range, show min 4 416 = 4 from rfl, show List.range 4 = [0, 1, 2, 3] from rfl]
    simp only [List.map_cons, List.map_nil, h 0 (by omega), h 1 (by omega), h 2 (by omega), h 3 (by omega)]
    rfl
  change byteWord (s.flashRead configBase 416 []) 0 ≠ _
  unfold byteWord
  rw [Nat.mul_zero, List.drop_zero, hw]
  decide

/-- The lost erase of sector 4 of a CONFIG session leaves no valid block (R174). -/
theorem State.workLost_config_erase (o : OpOwner) (s : State) (h : o ≠ .startUp) :
    (s.workLost (.erase configBase) o).blockValid = false := by
  rcases State.workLost_cases (.erase configBase) o s with ⟨he, _, hb⟩ | ⟨ho, _, _⟩ | ⟨_, _, he⟩
  · rw [he]
    simpa [State.configBroken, inConfigSector] using hb h
  · exact absurd ho h
  · rw [he]
    exact State.blockValid_of_erased fun i hi =>
      State.flashByte_overlay_inside _ _ _ _ _ (by omega) (by omega)

/-- A lost page program of a CONFIG session leaves sector 4 without a valid block where it held none (R174). -/
theorem State.workLost_config_page (p : Nat) (data : List Byte) (o : OpOwner) (s : State) (h : o ≠ .startUp)
    (hp : inConfigSector p = true) (hs : s.blockValid = false) : (s.workLost (.program p data) o).blockValid = false := by
  rcases State.workLost_cases (.program p data) o s with ⟨he, _, hb⟩ | ⟨ho, _, _⟩ | ⟨_, _, he⟩
  · rw [he]
    simpa [State.configBroken, hp, hs] using hb h
  · exact absurd ho h
  · rw [he]
    exact (State.blockValid_congr (by rfl)).trans hs

/-- Logs with one newest entry keep it, in the terms of the statements (R184). -/
theorem newestKept_of_logNewest {s t : State} (h : t.logNewest = s.logNewest) : NewestKept s t := by
  unfold State.logNewest at h
  rcases newestBelow_cases s.entryAt 4096 with ⟨hs, alls⟩ | ⟨k, e, hs, hk, hke, alls⟩ <;>
    rcases newestBelow_cases t.entryAt 4096 with ⟨ht, allt⟩ | ⟨j, f, ht, hj, hjf, allt⟩ <;>
    rw [hs, ht] at h
  · exact ⟨fun _ => allt, fun ⟨i, hi, hne⟩ => absurd (alls i hi) hne⟩
  · cases h
  · cases h
  · cases h
    exact ⟨fun hn => absurd ((hn k hk).symm.trans hke) nofun,
      fun _ => ⟨k, e, hk, hke, hjf, fun i g hi hg => hg.elim (alls i g hi) (allt i g hi)⟩⟩

/-- A lost erase of the start-up controller leaves the newest entry of the log where it stood (R188). -/
theorem State.workLost_erase_newest (p : Nat) (s : State) : (s.workLost (.erase p) .startUp).logNewest = s.logNewest := by
  rcases State.workLost_cases (.erase p) .startUp s with ⟨h, hk, _⟩ | ⟨_, _, h⟩ | ⟨h, _⟩
  · rw [h]
    simpa [State.logBroken] using hk rfl
  · rw [h]
    rfl
  · exact absurd rfl h

/-- The array at an operation's end holds its work, or what a lost one leaves: one with the fail flag, and of an append and of a page of
sector 4 one that has timed out. -/
theorem State.workEnded_cases (o : FlashOp) (fail : Bool) (s : State) :
    (s.workEnded o fail = s.workLost o.work o.owner
        ∧ (fail = true
          ∨ (o.timedOut = true ∨ o.overdue = true) ∧ (o.owner = .startUp ∨ o.work.configPage = true)))
    ∨ (s.workEnded o fail = s.workDone o.work ∧ fail = false
        ∧ (o.owner = .startUp ∨ o.work.configPage = true → o.timedOut = false ∧ o.overdue = false)) := by
  unfold State.workEnded
  cases fail <;> cases ho : o.owner <;> cases ht : o.timedOut <;> cases hd : o.overdue <;> cases hc : o.work.configPage <;> simp

/-- The place of an append is left as it is where it holds no valid entry; else bits of its sixteen bytes alone are cleared, so that it
holds none, or all of them. -/
theorem State.voidPlace_cases (s : State) :
    (s.placeValid = false ∧ s.voidPlace = s)
    ∨ ∃ f : Nat → Byte,
        s.voidPlace = ({ s with freeIdx := s.freeIdx + 1 } : State).overlayFlash (logBase + 16 * s.position) 16 f
        ∧ (∀ x, f x &&& s.flashByte x = f x)
        ∧ (s.voidPlace.placeValid = false ∨ f = fun _ => 0) := by
  unfold State.voidPlace
  cases h : s.placeValid
  · exact .inl ⟨rfl, by simp⟩
  · refine .inr ?_
    dsimp only
    cases hv : (({ s with freeIdx := s.freeIdx + 1 } : State).overlayFlash (logBase + 16 * s.position) 16
        (fun x => s.flashByte x &&& Config.partwayByte s.freeIdx x)).placeValid
    · refine ⟨fun x => s.flashByte x &&& Config.partwayByte s.freeIdx x, by simp, fun x => ?_, .inl (by simpa using hv)⟩
      dsimp only
      rw [BitVec.and_comm (s.flashByte x), BitVec.and_assoc, BitVec.and_self]
    · exact ⟨fun _ => 0, by simp, fun x => by simp, .inr rfl⟩

/-- The transaction in hand at a node restart stays, is taken by its owner's row, or ends with ERR, the port with it where it had
it. -/
theorem State.restartTransaction_cases (s : State) :
    (s.restartTransaction = s)
    ∨ (∃ h w, s.ptu.inHand = some h ∧ h.phase = .routed ∧ h.window = some w ∧ s.mustHold w h.txn = false
        ∧ s.restartTransaction = s.takeRouted h)
    ∨ ∃ h p, s.ptu.inHand = some h ∧ s.restartTransaction = { s.endTxn h .err with ptu.port := p }
        ∧ ((s.ptu.port = .passThrough ∧ p = .free) ∨ p = s.ptu.port) := by
  unfold State.restartTransaction
  cases hh : s.ptu.inHand with
  | none => exact Or.inl rfl
  | some h =>
    dsimp only
    cases hr : h.atRestart s with
    | goesOn => exact Or.inl rfl
    | taken =>
      refine Or.inr (Or.inl ?_)
      unfold InHand.atRestart at hr
      split at hr <;> try cases hr
      rename_i hp
      split at hr
      · rename_i w hw
        split at hr
        · cases hr
        · rename_i hm
          exact ⟨h, w, rfl, hp, hw, by simpa using hm, rfl⟩
      · cases hr
    | err =>
      refine Or.inr (Or.inr ⟨h, _, rfl, rfl, ?_⟩)
      cases s.ptu.port <;> simp

end Sys2Proof.Machine
end

