-- ==== Sys2Proof/Laws/State.lean ====
section
/-! SUPPORT. One lemma per field of State for each named update, so that no proof unfolds a record update: what the update
writes, and what it leaves. -/
namespace Sys2Proof.Machine

/-! ### State.storeSram -/

@[simp] theorem State.storeSram_pending (s : State) (cells : List Host.Cell) : (s.storeSram cells).pending = s.pending := rfl
@[simp] theorem State.storeSram_time (s : State) (cells : List Host.Cell) : (s.storeSram cells).time = s.time := rfl
@[simp] theorem State.storeSram_lines (s : State) (cells : List Host.Cell) : (s.storeSram cells).lines = s.lines := rfl
@[simp] theorem State.storeSram_ptu (s : State) (cells : List Host.Cell) : (s.storeSram cells).ptu = s.ptu := rfl
@[simp] theorem State.storeSram_cau (s : State) (cells : List Host.Cell) : (s.storeSram cells).cau = s.cau := rfl
@[simp] theorem State.storeSram_policy (s : State) (cells : List Host.Cell) : (s.storeSram cells).policy = s.policy := rfl
@[simp] theorem State.storeSram_diu (s : State) (cells : List Host.Cell) : (s.storeSram cells).diu = s.diu := rfl
@[simp] theorem State.storeSram_stu (s : State) (cells : List Host.Cell) : (s.storeSram cells).stu = s.stu := rfl
@[simp] theorem State.storeSram_cgu (s : State) (cells : List Host.Cell) : (s.storeSram cells).cgu = s.cgu := rfl
@[simp] theorem State.storeSram_scu (s : State) (cells : List Host.Cell) : (s.storeSram cells).scu = s.scu := rfl
@[simp] theorem State.storeSram_rmu (s : State) (cells : List Host.Cell) : (s.storeSram cells).rmu = s.rmu := rfl
@[simp] theorem State.storeSram_imu (s : State) (cells : List Host.Cell) : (s.storeSram cells).imu = s.imu := rfl
@[simp] theorem State.storeSram_suc (s : State) (cells : List Host.Cell) : (s.storeSram cells).suc = s.suc := rfl
@[simp] theorem State.storeSram_sram (s : State) (cells : List Host.Cell) :
    (s.storeSram cells).sram = Memory.writeCells Config.sramUnwritten s.sram cells := rfl
@[simp] theorem State.storeSram_flash (s : State) (cells : List Host.Cell) : (s.storeSram cells).flash = s.flash := rfl
@[simp] theorem State.storeSram_freeIdx (s : State) (cells : List Host.Cell) : (s.storeSram cells).freeIdx = s.freeIdx := rfl

/-! ### State.overlayFlash -/

@[simp] theorem State.overlayFlash_pending (s : State) (a n : Nat) (f : Nat → Byte) : (s.overlayFlash a n f).pending = s.pending := rfl
@[simp] theorem State.overlayFlash_time (s : State) (a n : Nat) (f : Nat → Byte) : (s.overlayFlash a n f).time = s.time := rfl
@[simp] theorem State.overlayFlash_lines (s : State) (a n : Nat) (f : Nat → Byte) : (s.overlayFlash a n f).lines = s.lines := rfl
@[simp] theorem State.overlayFlash_ptu (s : State) (a n : Nat) (f : Nat → Byte) : (s.overlayFlash a n f).ptu = s.ptu := rfl
@[simp] theorem State.overlayFlash_cau (s : State) (a n : Nat) (f : Nat → Byte) : (s.overlayFlash a n f).cau = s.cau := rfl
@[simp] theorem State.overlayFlash_policy (s : State) (a n : Nat) (f : Nat → Byte) : (s.overlayFlash a n f).policy = s.policy := rfl
@[simp] theorem State.overlayFlash_diu (s : State) (a n : Nat) (f : Nat → Byte) : (s.overlayFlash a n f).diu = s.diu := rfl
@[simp] theorem State.overlayFlash_stu (s : State) (a n : Nat) (f : Nat → Byte) : (s.overlayFlash a n f).stu = s.stu := rfl
@[simp] theorem State.overlayFlash_cgu (s : State) (a n : Nat) (f : Nat → Byte) : (s.overlayFlash a n f).cgu = s.cgu := rfl
@[simp] theorem State.overlayFlash_scu (s : State) (a n : Nat) (f : Nat → Byte) : (s.overlayFlash a n f).scu = s.scu := rfl
@[simp] theorem State.overlayFlash_rmu (s : State) (a n : Nat) (f : Nat → Byte) : (s.overlayFlash a n f).rmu = s.rmu := rfl
@[simp] theorem State.overlayFlash_imu (s : State) (a n : Nat) (f : Nat → Byte) : (s.overlayFlash a n f).imu = s.imu := rfl
@[simp] theorem State.overlayFlash_suc (s : State) (a n : Nat) (f : Nat → Byte) : (s.overlayFlash a n f).suc = s.suc := rfl
@[simp] theorem State.overlayFlash_sram (s : State) (a n : Nat) (f : Nat → Byte) : (s.overlayFlash a n f).sram = s.sram := rfl
@[simp] theorem State.overlayFlash_flash (s : State) (a n : Nat) (f : Nat → Byte) :
    (s.overlayFlash a n f).flash = Memory.overlay Config.flashErased s.flash a n f := rfl
@[simp] theorem State.overlayFlash_freeIdx (s : State) (a n : Nat) (f : Nat → Byte) : (s.overlayFlash a n f).freeIdx = s.freeIdx := rfl

/-! ### State.storeShadow -/

@[simp] theorem State.storeShadow_pending (s : State) (cells : List Host.Cell) : (s.storeShadow cells).pending = s.pending := rfl
@[simp] theorem State.storeShadow_time (s : State) (cells : List Host.Cell) : (s.storeShadow cells).time = s.time := rfl
@[simp] theorem State.storeShadow_lines (s : State) (cells : List Host.Cell) : (s.storeShadow cells).lines = s.lines := rfl
@[simp] theorem State.storeShadow_ptu (s : State) (cells : List Host.Cell) : (s.storeShadow cells).ptu = s.ptu := rfl
@[simp] theorem State.storeShadow_cau (s : State) (cells : List Host.Cell) :
    (s.storeShadow cells).cau = { s.cau with shadow := Memory.writeCells Config.shadowZero s.cau.shadow cells } := rfl
@[simp] theorem State.storeShadow_policy (s : State) (cells : List Host.Cell) : (s.storeShadow cells).policy = s.policy := rfl
@[simp] theorem State.storeShadow_diu (s : State) (cells : List Host.Cell) : (s.storeShadow cells).diu = s.diu := rfl
@[simp] theorem State.storeShadow_stu (s : State) (cells : List Host.Cell) : (s.storeShadow cells).stu = s.stu := rfl
@[simp] theorem State.storeShadow_cgu (s : State) (cells : List Host.Cell) : (s.storeShadow cells).cgu = s.cgu := rfl
@[simp] theorem State.storeShadow_scu (s : State) (cells : List Host.Cell) : (s.storeShadow cells).scu = s.scu := rfl
@[simp] theorem State.storeShadow_rmu (s : State) (cells : List Host.Cell) : (s.storeShadow cells).rmu = s.rmu := rfl
@[simp] theorem State.storeShadow_imu (s : State) (cells : List Host.Cell) : (s.storeShadow cells).imu = s.imu := rfl
@[simp] theorem State.storeShadow_suc (s : State) (cells : List Host.Cell) : (s.storeShadow cells).suc = s.suc := rfl
@[simp] theorem State.storeShadow_sram (s : State) (cells : List Host.Cell) : (s.storeShadow cells).sram = s.sram := rfl
@[simp] theorem State.storeShadow_flash (s : State) (cells : List Host.Cell) : (s.storeShadow cells).flash = s.flash := rfl
@[simp] theorem State.storeShadow_freeIdx (s : State) (cells : List Host.Cell) : (s.storeShadow cells).freeIdx = s.freeIdx := rfl

/-! ### State.issue -/

@[simp] theorem State.issue_pending (s : State) (a : InternalAccess) : (s.issue a).pending = s.pending := rfl
@[simp] theorem State.issue_time (s : State) (a : InternalAccess) : (s.issue a).time = s.time := rfl
@[simp] theorem State.issue_lines (s : State) (a : InternalAccess) : (s.issue a).lines = s.lines := rfl
@[simp] theorem State.issue_ptu (s : State) (a : InternalAccess) :
    (s.issue a).ptu = { s.ptu with
      queue := if s.pathBlocked a.kind.path then s.ptu.queue else s.ptu.queue ++ [{ access := a, wait := 0 }]
      behind := if s.pathBlocked a.kind.path then some a else s.ptu.behind } := rfl
@[simp] theorem State.issue_cau (s : State) (a : InternalAccess) : (s.issue a).cau = s.cau := rfl
@[simp] theorem State.issue_policy (s : State) (a : InternalAccess) : (s.issue a).policy = s.policy := rfl
@[simp] theorem State.issue_diu (s : State) (a : InternalAccess) : (s.issue a).diu = s.diu := rfl
@[simp] theorem State.issue_stu (s : State) (a : InternalAccess) : (s.issue a).stu = s.stu := rfl
@[simp] theorem State.issue_cgu (s : State) (a : InternalAccess) : (s.issue a).cgu = s.cgu := rfl
@[simp] theorem State.issue_scu (s : State) (a : InternalAccess) : (s.issue a).scu = s.scu := rfl
@[simp] theorem State.issue_rmu (s : State) (a : InternalAccess) : (s.issue a).rmu = s.rmu := rfl
@[simp] theorem State.issue_imu (s : State) (a : InternalAccess) : (s.issue a).imu = s.imu := rfl
@[simp] theorem State.issue_suc (s : State) (a : InternalAccess) : (s.issue a).suc = s.suc := rfl
@[simp] theorem State.issue_sram (s : State) (a : InternalAccess) : (s.issue a).sram = s.sram := rfl
@[simp] theorem State.issue_flash (s : State) (a : InternalAccess) : (s.issue a).flash = s.flash := rfl
@[simp] theorem State.issue_freeIdx (s : State) (a : InternalAccess) : (s.issue a).freeIdx = s.freeIdx := rfl

/-! ### State.joinBehind -/

@[simp] theorem State.joinBehind_pending (s : State) : (s.joinBehind).pending = s.pending := rfl
@[simp] theorem State.joinBehind_time (s : State) : (s.joinBehind).time = s.time := rfl
@[simp] theorem State.joinBehind_lines (s : State) : (s.joinBehind).lines = s.lines := rfl
@[simp] theorem State.joinBehind_ptu (s : State) :
    (s.joinBehind).ptu = { s.ptu with
      queue := s.ptu.queue ++ (s.ptu.behind.map (fun a => ({ access := a, wait := 0 } : Queued))).toList
      behind := none } := rfl
@[simp] theorem State.joinBehind_cau (s : State) : (s.joinBehind).cau = s.cau := rfl
@[simp] theorem State.joinBehind_policy (s : State) : (s.joinBehind).policy = s.policy := rfl
@[simp] theorem State.joinBehind_diu (s : State) : (s.joinBehind).diu = s.diu := rfl
@[simp] theorem State.joinBehind_stu (s : State) : (s.joinBehind).stu = s.stu := rfl
@[simp] theorem State.joinBehind_cgu (s : State) : (s.joinBehind).cgu = s.cgu := rfl
@[simp] theorem State.joinBehind_scu (s : State) : (s.joinBehind).scu = s.scu := rfl
@[simp] theorem State.joinBehind_rmu (s : State) : (s.joinBehind).rmu = s.rmu := rfl
@[simp] theorem State.joinBehind_imu (s : State) : (s.joinBehind).imu = s.imu := rfl
@[simp] theorem State.joinBehind_suc (s : State) : (s.joinBehind).suc = s.suc := rfl
@[simp] theorem State.joinBehind_sram (s : State) : (s.joinBehind).sram = s.sram := rfl
@[simp] theorem State.joinBehind_flash (s : State) : (s.joinBehind).flash = s.flash := rfl
@[simp] theorem State.joinBehind_freeIdx (s : State) : (s.joinBehind).freeIdx = s.freeIdx := rfl

/-! ### State.endTxn -/

@[simp] theorem State.endTxn_pending (s : State) (h : InHand) (e : Ending) : (s.endTxn h e).pending = s.pending := rfl
@[simp] theorem State.endTxn_time (s : State) (h : InHand) (e : Ending) : (s.endTxn h e).time = s.time := rfl
@[simp] theorem State.endTxn_lines (s : State) (h : InHand) (e : Ending) : (s.endTxn h e).lines = s.lines := rfl
@[simp] theorem State.endTxn_ptu (s : State) (h : InHand) (e : Ending) :
    (s.endTxn h e).ptu = { s.ptu with inHand := none, reply := some { txn := h.txn, ending := e } } := rfl
@[simp] theorem State.endTxn_cau (s : State) (h : InHand) (e : Ending) : (s.endTxn h e).cau = s.cau := rfl
@[simp] theorem State.endTxn_policy (s : State) (h : InHand) (e : Ending) : (s.endTxn h e).policy = s.policy := rfl
@[simp] theorem State.endTxn_diu (s : State) (h : InHand) (e : Ending) : (s.endTxn h e).diu = s.diu := rfl
@[simp] theorem State.endTxn_stu (s : State) (h : InHand) (e : Ending) : (s.endTxn h e).stu = s.stu := rfl
@[simp] theorem State.endTxn_cgu (s : State) (h : InHand) (e : Ending) : (s.endTxn h e).cgu = s.cgu := rfl
@[simp] theorem State.endTxn_scu (s : State) (h : InHand) (e : Ending) : (s.endTxn h e).scu = s.scu := rfl
@[simp] theorem State.endTxn_rmu (s : State) (h : InHand) (e : Ending) : (s.endTxn h e).rmu = s.rmu := rfl
@[simp] theorem State.endTxn_imu (s : State) (h : InHand) (e : Ending) : (s.endTxn h e).imu = s.imu := rfl
@[simp] theorem State.endTxn_suc (s : State) (h : InHand) (e : Ending) : (s.endTxn h e).suc = s.suc := rfl
@[simp] theorem State.endTxn_sram (s : State) (h : InHand) (e : Ending) : (s.endTxn h e).sram = s.sram := rfl
@[simp] theorem State.endTxn_flash (s : State) (h : InHand) (e : Ending) : (s.endTxn h e).flash = s.flash := rfl
@[simp] theorem State.endTxn_freeIdx (s : State) (h : InHand) (e : Ending) : (s.endTxn h e).freeIdx = s.freeIdx := rfl

/-! ### State.toPhase -/

@[simp] theorem State.toPhase_pending (s : State) (h : InHand) (p : Phase) : (s.toPhase h p).pending = s.pending := rfl
@[simp] theorem State.toPhase_time (s : State) (h : InHand) (p : Phase) : (s.toPhase h p).time = s.time := rfl
@[simp] theorem State.toPhase_lines (s : State) (h : InHand) (p : Phase) : (s.toPhase h p).lines = s.lines := rfl
@[simp] theorem State.toPhase_ptu (s : State) (h : InHand) (p : Phase) :
    (s.toPhase h p).ptu = { s.ptu with inHand := some { h with phase := p } } := rfl
@[simp] theorem State.toPhase_cau (s : State) (h : InHand) (p : Phase) : (s.toPhase h p).cau = s.cau := rfl
@[simp] theorem State.toPhase_policy (s : State) (h : InHand) (p : Phase) : (s.toPhase h p).policy = s.policy := rfl
@[simp] theorem State.toPhase_diu (s : State) (h : InHand) (p : Phase) : (s.toPhase h p).diu = s.diu := rfl
@[simp] theorem State.toPhase_stu (s : State) (h : InHand) (p : Phase) : (s.toPhase h p).stu = s.stu := rfl
@[simp] theorem State.toPhase_cgu (s : State) (h : InHand) (p : Phase) : (s.toPhase h p).cgu = s.cgu := rfl
@[simp] theorem State.toPhase_scu (s : State) (h : InHand) (p : Phase) : (s.toPhase h p).scu = s.scu := rfl
@[simp] theorem State.toPhase_rmu (s : State) (h : InHand) (p : Phase) : (s.toPhase h p).rmu = s.rmu := rfl
@[simp] theorem State.toPhase_imu (s : State) (h : InHand) (p : Phase) : (s.toPhase h p).imu = s.imu := rfl
@[simp] theorem State.toPhase_suc (s : State) (h : InHand) (p : Phase) : (s.toPhase h p).suc = s.suc := rfl
@[simp] theorem State.toPhase_sram (s : State) (h : InHand) (p : Phase) : (s.toPhase h p).sram = s.sram := rfl
@[simp] theorem State.toPhase_flash (s : State) (h : InHand) (p : Phase) : (s.toPhase h p).flash = s.flash := rfl
@[simp] theorem State.toPhase_freeIdx (s : State) (h : InHand) (p : Phase) : (s.toPhase h p).freeIdx = s.freeIdx := rfl

/-! ### State.driveAttn -/

@[simp] theorem State.driveAttn_pending (s : State) : (s.driveAttn).pending = s.pending := rfl
@[simp] theorem State.driveAttn_time (s : State) : (s.driveAttn).time = s.time := rfl
@[simp] theorem State.driveAttn_lines (s : State) :
    (s.driveAttn).lines = { s.lines with attn := s.cau.published != s.cau.consumer } := rfl
@[simp] theorem State.driveAttn_ptu (s : State) : (s.driveAttn).ptu = s.ptu := rfl
@[simp] theorem State.driveAttn_cau (s : State) : (s.driveAttn).cau = s.cau := rfl
@[simp] theorem State.driveAttn_policy (s : State) : (s.driveAttn).policy = s.policy := rfl
@[simp] theorem State.driveAttn_diu (s : State) : (s.driveAttn).diu = s.diu := rfl
@[simp] theorem State.driveAttn_stu (s : State) : (s.driveAttn).stu = s.stu := rfl
@[simp] theorem State.driveAttn_cgu (s : State) : (s.driveAttn).cgu = s.cgu := rfl
@[simp] theorem State.driveAttn_scu (s : State) : (s.driveAttn).scu = s.scu := rfl
@[simp] theorem State.driveAttn_rmu (s : State) : (s.driveAttn).rmu = s.rmu := rfl
@[simp] theorem State.driveAttn_imu (s : State) : (s.driveAttn).imu = s.imu := rfl
@[simp] theorem State.driveAttn_suc (s : State) : (s.driveAttn).suc = s.suc := rfl
@[simp] theorem State.driveAttn_sram (s : State) : (s.driveAttn).sram = s.sram := rfl
@[simp] theorem State.driveAttn_flash (s : State) : (s.driveAttn).flash = s.flash := rfl
@[simp] theorem State.driveAttn_freeIdx (s : State) : (s.driveAttn).freeIdx = s.freeIdx := rfl

/-! ### State.putRecord -/

@[simp] theorem State.putRecord_pending (s : State) (r : Station) : (s.putRecord r).pending = s.pending := rfl
@[simp] theorem State.putRecord_time (s : State) (r : Station) : (s.putRecord r).time = s.time := rfl
@[simp] theorem State.putRecord_lines (s : State) (r : Station) : (s.putRecord r).lines = s.lines := rfl
@[simp] theorem State.putRecord_ptu (s : State) (r : Station) : (s.putRecord r).ptu = s.ptu := rfl
@[simp] theorem State.putRecord_cau (s : State) (r : Station) : (s.putRecord r).cau = s.cau := rfl
@[simp] theorem State.putRecord_policy (s : State) (r : Station) : (s.putRecord r).policy = s.policy := rfl
@[simp] theorem State.putRecord_diu (s : State) (r : Station) : (s.putRecord r).diu = s.diu := rfl
@[simp] theorem State.putRecord_stu (s : State) (r : Station) :
    (s.putRecord r).stu = { s.stu with stations := s.stu.stations.map (fun q => if q.slot = r.slot then r else q) } := rfl
@[simp] theorem State.putRecord_cgu (s : State) (r : Station) : (s.putRecord r).cgu = s.cgu := rfl
@[simp] theorem State.putRecord_scu (s : State) (r : Station) : (s.putRecord r).scu = s.scu := rfl
@[simp] theorem State.putRecord_rmu (s : State) (r : Station) : (s.putRecord r).rmu = s.rmu := rfl
@[simp] theorem State.putRecord_imu (s : State) (r : Station) : (s.putRecord r).imu = s.imu := rfl
@[simp] theorem State.putRecord_suc (s : State) (r : Station) : (s.putRecord r).suc = s.suc := rfl
@[simp] theorem State.putRecord_sram (s : State) (r : Station) : (s.putRecord r).sram = s.sram := rfl
@[simp] theorem State.putRecord_flash (s : State) (r : Station) : (s.putRecord r).flash = s.flash := rfl
@[simp] theorem State.putRecord_freeIdx (s : State) (r : Station) : (s.putRecord r).freeIdx = s.freeIdx := rfl

/-! ### State.markAll -/

@[simp] theorem State.markAll_pending (s : State) : (s.markAll).pending = s.pending := rfl
@[simp] theorem State.markAll_time (s : State) : (s.markAll).time = s.time := rfl
@[simp] theorem State.markAll_lines (s : State) : (s.markAll).lines = s.lines := rfl
@[simp] theorem State.markAll_ptu (s : State) : (s.markAll).ptu = s.ptu := rfl
@[simp] theorem State.markAll_cau (s : State) : (s.markAll).cau = s.cau := rfl
@[simp] theorem State.markAll_policy (s : State) : (s.markAll).policy = s.policy := rfl
@[simp] theorem State.markAll_diu (s : State) : (s.markAll).diu = s.diu := rfl
@[simp] theorem State.markAll_stu (s : State) :
    (s.markAll).stu = { s.stu with stations := s.stu.stations.map (fun r => { r with mark := true }) } := rfl
@[simp] theorem State.markAll_cgu (s : State) : (s.markAll).cgu = s.cgu := rfl
@[simp] theorem State.markAll_scu (s : State) : (s.markAll).scu = s.scu := rfl
@[simp] theorem State.markAll_rmu (s : State) : (s.markAll).rmu = s.rmu := rfl
@[simp] theorem State.markAll_imu (s : State) : (s.markAll).imu = s.imu := rfl
@[simp] theorem State.markAll_suc (s : State) : (s.markAll).suc = s.suc := rfl
@[simp] theorem State.markAll_sram (s : State) : (s.markAll).sram = s.sram := rfl
@[simp] theorem State.markAll_flash (s : State) : (s.markAll).flash = s.flash := rfl
@[simp] theorem State.markAll_freeIdx (s : State) : (s.markAll).freeIdx = s.freeIdx := rfl

/-! ### State.addRecord -/

@[simp] theorem State.addRecord_pending (s : State) (r : Station) : (s.addRecord r).pending = s.pending := rfl
@[simp] theorem State.addRecord_time (s : State) (r : Station) : (s.addRecord r).time = s.time := rfl
@[simp] theorem State.addRecord_lines (s : State) (r : Station) : (s.addRecord r).lines = s.lines := rfl
@[simp] theorem State.addRecord_ptu (s : State) (r : Station) : (s.addRecord r).ptu = s.ptu := rfl
@[simp] theorem State.addRecord_cau (s : State) (r : Station) : (s.addRecord r).cau = s.cau := rfl
@[simp] theorem State.addRecord_policy (s : State) (r : Station) : (s.addRecord r).policy = s.policy := rfl
@[simp] theorem State.addRecord_diu (s : State) (r : Station) : (s.addRecord r).diu = s.diu := rfl
@[simp] theorem State.addRecord_stu (s : State) (r : Station) :
    (s.addRecord r).stu = { s.stu with stations := insertRecord r s.stu.stations } := rfl
@[simp] theorem State.addRecord_cgu (s : State) (r : Station) : (s.addRecord r).cgu = s.cgu := rfl
@[simp] theorem State.addRecord_scu (s : State) (r : Station) : (s.addRecord r).scu = s.scu := rfl
@[simp] theorem State.addRecord_rmu (s : State) (r : Station) : (s.addRecord r).rmu = s.rmu := rfl
@[simp] theorem State.addRecord_imu (s : State) (r : Station) : (s.addRecord r).imu = s.imu := rfl
@[simp] theorem State.addRecord_suc (s : State) (r : Station) : (s.addRecord r).suc = s.suc := rfl
@[simp] theorem State.addRecord_sram (s : State) (r : Station) : (s.addRecord r).sram = s.sram := rfl
@[simp] theorem State.addRecord_flash (s : State) (r : Station) : (s.addRecord r).flash = s.flash := rfl
@[simp] theorem State.addRecord_freeIdx (s : State) (r : Station) : (s.addRecord r).freeIdx = s.freeIdx := rfl

/-! ### State.setDrain -/

@[simp] theorem State.setDrain_pending (s : State) (on : Bool) : (s.setDrain on).pending = s.pending := rfl
@[simp] theorem State.setDrain_time (s : State) (on : Bool) : (s.setDrain on).time = s.time := rfl
@[simp] theorem State.setDrain_lines (s : State) (on : Bool) : (s.setDrain on).lines = s.lines := rfl
@[simp] theorem State.setDrain_ptu (s : State) (on : Bool) : (s.setDrain on).ptu = s.ptu := rfl
@[simp] theorem State.setDrain_cau (s : State) (on : Bool) : (s.setDrain on).cau = s.cau := rfl
@[simp] theorem State.setDrain_policy (s : State) (on : Bool) : (s.setDrain on).policy = s.policy := rfl
@[simp] theorem State.setDrain_diu (s : State) (on : Bool) : (s.setDrain on).diu = s.diu := rfl
@[simp] theorem State.setDrain_stu (s : State) (on : Bool) :
    (s.setDrain on).stu = { s.stu with stations := s.stu.stations.map (drainSwitched on) } := rfl
@[simp] theorem State.setDrain_cgu (s : State) (on : Bool) : (s.setDrain on).cgu = s.cgu := rfl
@[simp] theorem State.setDrain_scu (s : State) (on : Bool) : (s.setDrain on).scu = s.scu := rfl
@[simp] theorem State.setDrain_rmu (s : State) (on : Bool) :
    (s.setDrain on).rmu = { s.rmu with drain := on } := rfl
@[simp] theorem State.setDrain_imu (s : State) (on : Bool) : (s.setDrain on).imu = s.imu := rfl
@[simp] theorem State.setDrain_suc (s : State) (on : Bool) : (s.setDrain on).suc = s.suc := rfl
@[simp] theorem State.setDrain_sram (s : State) (on : Bool) : (s.setDrain on).sram = s.sram := rfl
@[simp] theorem State.setDrain_flash (s : State) (on : Bool) : (s.setDrain on).flash = s.flash := rfl
@[simp] theorem State.setDrain_freeIdx (s : State) (on : Bool) : (s.setDrain on).freeIdx = s.freeIdx := rfl

/-! ### State.storeClasses -/

@[simp] theorem State.storeClasses_pending (s : State) (es : List Host.Cell) : (s.storeClasses es).pending = s.pending := rfl
@[simp] theorem State.storeClasses_time (s : State) (es : List Host.Cell) : (s.storeClasses es).time = s.time := rfl
@[simp] theorem State.storeClasses_lines (s : State) (es : List Host.Cell) : (s.storeClasses es).lines = s.lines := rfl
@[simp] theorem State.storeClasses_ptu (s : State) (es : List Host.Cell) : (s.storeClasses es).ptu = s.ptu := rfl
@[simp] theorem State.storeClasses_cau (s : State) (es : List Host.Cell) : (s.storeClasses es).cau = s.cau := rfl
@[simp] theorem State.storeClasses_policy (s : State) (es : List Host.Cell) : (s.storeClasses es).policy = s.policy := rfl
@[simp] theorem State.storeClasses_diu (s : State) (es : List Host.Cell) : (s.storeClasses es).diu = s.diu := rfl
@[simp] theorem State.storeClasses_stu (s : State) (es : List Host.Cell) : (s.storeClasses es).stu = s.stu := rfl
@[simp] theorem State.storeClasses_cgu (s : State) (es : List Host.Cell) :
    (s.storeClasses es).cgu = { s.cgu with classMap := es.foldl (fun m e => m.set e.1 (classOfByte e.2)) s.cgu.classMap } := rfl
@[simp] theorem State.storeClasses_scu (s : State) (es : List Host.Cell) : (s.storeClasses es).scu = s.scu := rfl
@[simp] theorem State.storeClasses_rmu (s : State) (es : List Host.Cell) : (s.storeClasses es).rmu = s.rmu := rfl
@[simp] theorem State.storeClasses_imu (s : State) (es : List Host.Cell) : (s.storeClasses es).imu = s.imu := rfl
@[simp] theorem State.storeClasses_suc (s : State) (es : List Host.Cell) : (s.storeClasses es).suc = s.suc := rfl
@[simp] theorem State.storeClasses_sram (s : State) (es : List Host.Cell) : (s.storeClasses es).sram = s.sram := rfl
@[simp] theorem State.storeClasses_flash (s : State) (es : List Host.Cell) : (s.storeClasses es).flash = s.flash := rfl
@[simp] theorem State.storeClasses_freeIdx (s : State) (es : List Host.Cell) : (s.storeClasses es).freeIdx = s.freeIdx := rfl

/-! ### State.putCapture -/

@[simp] theorem State.putCapture_pending (s : State) (ring : Nat) (c : Capture) : (s.putCapture ring c).pending = s.pending := rfl
@[simp] theorem State.putCapture_time (s : State) (ring : Nat) (c : Capture) : (s.putCapture ring c).time = s.time := rfl
@[simp] theorem State.putCapture_lines (s : State) (ring : Nat) (c : Capture) : (s.putCapture ring c).lines = s.lines := rfl
@[simp] theorem State.putCapture_ptu (s : State) (ring : Nat) (c : Capture) : (s.putCapture ring c).ptu = s.ptu := rfl
@[simp] theorem State.putCapture_cau (s : State) (ring : Nat) (c : Capture) : (s.putCapture ring c).cau = s.cau := rfl
@[simp] theorem State.putCapture_policy (s : State) (ring : Nat) (c : Capture) : (s.putCapture ring c).policy = s.policy := rfl
@[simp] theorem State.putCapture_diu (s : State) (ring : Nat) (c : Capture) :
    (s.putCapture ring c).diu = { s.diu with captures := s.diu.captures.set ring c } := rfl
@[simp] theorem State.putCapture_stu (s : State) (ring : Nat) (c : Capture) : (s.putCapture ring c).stu = s.stu := rfl
@[simp] theorem State.putCapture_cgu (s : State) (ring : Nat) (c : Capture) : (s.putCapture ring c).cgu = s.cgu := rfl
@[simp] theorem State.putCapture_scu (s : State) (ring : Nat) (c : Capture) : (s.putCapture ring c).scu = s.scu := rfl
@[simp] theorem State.putCapture_rmu (s : State) (ring : Nat) (c : Capture) : (s.putCapture ring c).rmu = s.rmu := rfl
@[simp] theorem State.putCapture_imu (s : State) (ring : Nat) (c : Capture) : (s.putCapture ring c).imu = s.imu := rfl
@[simp] theorem State.putCapture_suc (s : State) (ring : Nat) (c : Capture) : (s.putCapture ring c).suc = s.suc := rfl
@[simp] theorem State.putCapture_sram (s : State) (ring : Nat) (c : Capture) : (s.putCapture ring c).sram = s.sram := rfl
@[simp] theorem State.putCapture_flash (s : State) (ring : Nat) (c : Capture) : (s.putCapture ring c).flash = s.flash := rfl
@[simp] theorem State.putCapture_freeIdx (s : State) (ring : Nat) (c : Capture) : (s.putCapture ring c).freeIdx = s.freeIdx := rfl

/-! ### State.retargetProfiles -/

@[simp] theorem State.retargetProfiles_pending (s : State) : (s.retargetProfiles).pending = s.pending := rfl
@[simp] theorem State.retargetProfiles_time (s : State) : (s.retargetProfiles).time = s.time := rfl
@[simp] theorem State.retargetProfiles_lines (s : State) : (s.retargetProfiles).lines = s.lines := rfl
@[simp] theorem State.retargetProfiles_ptu (s : State) : (s.retargetProfiles).ptu = s.ptu := rfl
@[simp] theorem State.retargetProfiles_cau (s : State) : (s.retargetProfiles).cau = s.cau := rfl
@[simp] theorem State.retargetProfiles_policy (s : State) : (s.retargetProfiles).policy = s.policy := rfl
@[simp] theorem State.retargetProfiles_diu (s : State) : (s.retargetProfiles).diu = s.diu := rfl
@[simp] theorem State.retargetProfiles_stu (s : State) : (s.retargetProfiles).stu = s.stu := rfl
@[simp] theorem State.retargetProfiles_cgu (s : State) : (s.retargetProfiles).cgu = s.cgu := rfl
@[simp] theorem State.retargetProfiles_scu (s : State) :
    (s.retargetProfiles).scu = { s.scu with profiles := s.scu.profiles.map (fun p => { p with target := targetAt s.time p }) } := rfl
@[simp] theorem State.retargetProfiles_rmu (s : State) : (s.retargetProfiles).rmu = s.rmu := rfl
@[simp] theorem State.retargetProfiles_imu (s : State) : (s.retargetProfiles).imu = s.imu := rfl
@[simp] theorem State.retargetProfiles_suc (s : State) : (s.retargetProfiles).suc = s.suc := rfl
@[simp] theorem State.retargetProfiles_sram (s : State) : (s.retargetProfiles).sram = s.sram := rfl
@[simp] theorem State.retargetProfiles_flash (s : State) : (s.retargetProfiles).flash = s.flash := rfl
@[simp] theorem State.retargetProfiles_freeIdx (s : State) : (s.retargetProfiles).freeIdx = s.freeIdx := rfl

/-! ### State.evaluateMaintenance -/

@[simp] theorem State.evaluateMaintenance_pending (s : State) : (s.evaluateMaintenance).pending = s.pending := rfl
@[simp] theorem State.evaluateMaintenance_time (s : State) : (s.evaluateMaintenance).time = s.time := rfl
@[simp] theorem State.evaluateMaintenance_lines (s : State) : (s.evaluateMaintenance).lines = s.lines := rfl
@[simp] theorem State.evaluateMaintenance_ptu (s : State) : (s.evaluateMaintenance).ptu = s.ptu := rfl
@[simp] theorem State.evaluateMaintenance_cau (s : State) : (s.evaluateMaintenance).cau = s.cau := rfl
@[simp] theorem State.evaluateMaintenance_policy (s : State) : (s.evaluateMaintenance).policy = s.policy := rfl
@[simp] theorem State.evaluateMaintenance_diu (s : State) : (s.evaluateMaintenance).diu = s.diu := rfl
@[simp] theorem State.evaluateMaintenance_stu (s : State) : (s.evaluateMaintenance).stu = s.stu := rfl
@[simp] theorem State.evaluateMaintenance_cgu (s : State) : (s.evaluateMaintenance).cgu = s.cgu := rfl
@[simp] theorem State.evaluateMaintenance_scu (s : State) :
    (s.evaluateMaintenance).scu = { s.scu with maintOpen := s.time.valid
      && (s.policy.maintWindows.take s.policy.maintCount).any (fun w => minuteIn w.1 w.2 s.time.minute) } := rfl
@[simp] theorem State.evaluateMaintenance_rmu (s : State) : (s.evaluateMaintenance).rmu = s.rmu := rfl
@[simp] theorem State.evaluateMaintenance_imu (s : State) : (s.evaluateMaintenance).imu = s.imu := rfl
@[simp] theorem State.evaluateMaintenance_suc (s : State) : (s.evaluateMaintenance).suc = s.suc := rfl
@[simp] theorem State.evaluateMaintenance_sram (s : State) : (s.evaluateMaintenance).sram = s.sram := rfl
@[simp] theorem State.evaluateMaintenance_flash (s : State) : (s.evaluateMaintenance).flash = s.flash := rfl
@[simp] theorem State.evaluateMaintenance_freeIdx (s : State) : (s.evaluateMaintenance).freeIdx = s.freeIdx := rfl

/-! ### State.finishAccess -/

@[simp] theorem State.finishAccess_pending (s : State) (a : InternalAccess) : (s.finishAccess a).pending = s.pending := rfl
@[simp] theorem State.finishAccess_time (s : State) (a : InternalAccess) : (s.finishAccess a).time = s.time := rfl
@[simp] theorem State.finishAccess_lines (s : State) (a : InternalAccess) : (s.finishAccess a).lines = s.lines := rfl
@[simp] theorem State.finishAccess_ptu (s : State) (a : InternalAccess) :
    (s.finishAccess a).ptu = { s.ptu with port := .free } := rfl
@[simp] theorem State.finishAccess_cau (s : State) (a : InternalAccess) : (s.finishAccess a).cau = s.cau := rfl
@[simp] theorem State.finishAccess_policy (s : State) (a : InternalAccess) : (s.finishAccess a).policy = s.policy := rfl
@[simp] theorem State.finishAccess_diu (s : State) (a : InternalAccess) : (s.finishAccess a).diu = s.diu := rfl
@[simp] theorem State.finishAccess_stu (s : State) (a : InternalAccess) : (s.finishAccess a).stu = s.stu := rfl
@[simp] theorem State.finishAccess_cgu (s : State) (a : InternalAccess) : (s.finishAccess a).cgu = s.cgu := rfl
@[simp] theorem State.finishAccess_scu (s : State) (a : InternalAccess) : (s.finishAccess a).scu = s.scu := rfl
@[simp] theorem State.finishAccess_rmu (s : State) (a : InternalAccess) : (s.finishAccess a).rmu = s.rmu := rfl
@[simp] theorem State.finishAccess_imu (s : State) (a : InternalAccess) : (s.finishAccess a).imu = s.imu := rfl
@[simp] theorem State.finishAccess_suc (s : State) (a : InternalAccess) : (s.finishAccess a).suc = s.suc := rfl
@[simp] theorem State.finishAccess_sram (s : State) (a : InternalAccess) :
    (s.finishAccess a).sram = Memory.writeCells Config.sramUnwritten s.sram (cellsAt a.addr a.data) := rfl
@[simp] theorem State.finishAccess_flash (s : State) (a : InternalAccess) : (s.finishAccess a).flash = s.flash := rfl
@[simp] theorem State.finishAccess_freeIdx (s : State) (a : InternalAccess) : (s.finishAccess a).freeIdx = s.freeIdx := rfl

/-! ### State.grantInternal -/

@[simp] theorem State.grantInternal_pending (s : State) (q : Queued) (rest : List Queued) : (s.grantInternal q rest).pending = s.pending := rfl
@[simp] theorem State.grantInternal_time (s : State) (q : Queued) (rest : List Queued) : (s.grantInternal q rest).time = s.time := rfl
@[simp] theorem State.grantInternal_lines (s : State) (q : Queued) (rest : List Queued) : (s.grantInternal q rest).lines = s.lines := rfl
@[simp] theorem State.grantInternal_ptu (s : State) (q : Queued) (rest : List Queued) :
    (s.grantInternal q rest).ptu = { s.ptu with queue := rest, port := .internal q.access false } := rfl
@[simp] theorem State.grantInternal_cau (s : State) (q : Queued) (rest : List Queued) : (s.grantInternal q rest).cau = s.cau := rfl
@[simp] theorem State.grantInternal_policy (s : State) (q : Queued) (rest : List Queued) : (s.grantInternal q rest).policy = s.policy := rfl
@[simp] theorem State.grantInternal_diu (s : State) (q : Queued) (rest : List Queued) : (s.grantInternal q rest).diu = s.diu := rfl
@[simp] theorem State.grantInternal_stu (s : State) (q : Queued) (rest : List Queued) : (s.grantInternal q rest).stu = s.stu := rfl
@[simp] theorem State.grantInternal_cgu (s : State) (q : Queued) (rest : List Queued) : (s.grantInternal q rest).cgu = s.cgu := rfl
@[simp] theorem State.grantInternal_scu (s : State) (q : Queued) (rest : List Queued) : (s.grantInternal q rest).scu = s.scu := rfl
@[simp] theorem State.grantInternal_rmu (s : State) (q : Queued) (rest : List Queued) : (s.grantInternal q rest).rmu = s.rmu := rfl
@[simp] theorem State.grantInternal_imu (s : State) (q : Queued) (rest : List Queued) : (s.grantInternal q rest).imu = s.imu := rfl
@[simp] theorem State.grantInternal_suc (s : State) (q : Queued) (rest : List Queued) : (s.grantInternal q rest).suc = s.suc := rfl
@[simp] theorem State.grantInternal_sram (s : State) (q : Queued) (rest : List Queued) : (s.grantInternal q rest).sram = s.sram := rfl
@[simp] theorem State.grantInternal_flash (s : State) (q : Queued) (rest : List Queued) : (s.grantInternal q rest).flash = s.flash := rfl
@[simp] theorem State.grantInternal_freeIdx (s : State) (q : Queued) (rest : List Queued) : (s.grantInternal q rest).freeIdx = s.freeIdx := rfl

/-! ### State.grantPass -/

@[simp] theorem State.grantPass_pending (s : State) (h : InHand) (w : SramWork) : (s.grantPass h w).pending = s.pending := rfl
@[simp] theorem State.grantPass_time (s : State) (h : InHand) (w : SramWork) : (s.grantPass h w).time = s.time := rfl
@[simp] theorem State.grantPass_lines (s : State) (h : InHand) (w : SramWork) : (s.grantPass h w).lines = s.lines := rfl
@[simp] theorem State.grantPass_ptu (s : State) (h : InHand) (w : SramWork) :
    (s.grantPass h w).ptu = { s.ptu with
      port := .passThrough
      queue := s.ptu.queue.map (fun q => { q with wait := q.wait + 1 })
      inHand := some { h with phase := .sramBusy w } } := rfl
@[simp] theorem State.grantPass_cau (s : State) (h : InHand) (w : SramWork) : (s.grantPass h w).cau = s.cau := rfl
@[simp] theorem State.grantPass_policy (s : State) (h : InHand) (w : SramWork) : (s.grantPass h w).policy = s.policy := rfl
@[simp] theorem State.grantPass_diu (s : State) (h : InHand) (w : SramWork) : (s.grantPass h w).diu = s.diu := rfl
@[simp] theorem State.grantPass_stu (s : State) (h : InHand) (w : SramWork) : (s.grantPass h w).stu = s.stu := rfl
@[simp] theorem State.grantPass_cgu (s : State) (h : InHand) (w : SramWork) : (s.grantPass h w).cgu = s.cgu := rfl
@[simp] theorem State.grantPass_scu (s : State) (h : InHand) (w : SramWork) : (s.grantPass h w).scu = s.scu := rfl
@[simp] theorem State.grantPass_rmu (s : State) (h : InHand) (w : SramWork) : (s.grantPass h w).rmu = s.rmu := rfl
@[simp] theorem State.grantPass_imu (s : State) (h : InHand) (w : SramWork) : (s.grantPass h w).imu = s.imu := rfl
@[simp] theorem State.grantPass_suc (s : State) (h : InHand) (w : SramWork) : (s.grantPass h w).suc = s.suc := rfl
@[simp] theorem State.grantPass_sram (s : State) (h : InHand) (w : SramWork) : (s.grantPass h w).sram = s.sram := rfl
@[simp] theorem State.grantPass_flash (s : State) (h : InHand) (w : SramWork) : (s.grantPass h w).flash = s.flash := rfl
@[simp] theorem State.grantPass_freeIdx (s : State) (h : InHand) (w : SramWork) : (s.grantPass h w).freeIdx = s.freeIdx := rfl

/-! ### State.grantRead -/

@[simp] theorem State.grantRead_pending (s : State) (p : ReadFor) (a n : Nat) : (s.grantRead p a n).pending = s.pending := rfl
@[simp] theorem State.grantRead_time (s : State) (p : ReadFor) (a n : Nat) : (s.grantRead p a n).time = s.time := rfl
@[simp] theorem State.grantRead_lines (s : State) (p : ReadFor) (a n : Nat) : (s.grantRead p a n).lines = s.lines := rfl
@[simp] theorem State.grantRead_ptu (s : State) (p : ReadFor) (a n : Nat) : (s.grantRead p a n).ptu = s.ptu := rfl
@[simp] theorem State.grantRead_cau (s : State) (p : ReadFor) (a n : Nat) : (s.grantRead p a n).cau = s.cau := rfl
@[simp] theorem State.grantRead_policy (s : State) (p : ReadFor) (a n : Nat) : (s.grantRead p a n).policy = s.policy := rfl
@[simp] theorem State.grantRead_diu (s : State) (p : ReadFor) (a n : Nat) : (s.grantRead p a n).diu = s.diu := rfl
@[simp] theorem State.grantRead_stu (s : State) (p : ReadFor) (a n : Nat) : (s.grantRead p a n).stu = s.stu := rfl
@[simp] theorem State.grantRead_cgu (s : State) (p : ReadFor) (a n : Nat) : (s.grantRead p a n).cgu = s.cgu := rfl
@[simp] theorem State.grantRead_scu (s : State) (p : ReadFor) (a n : Nat) : (s.grantRead p a n).scu = s.scu := rfl
@[simp] theorem State.grantRead_rmu (s : State) (p : ReadFor) (a n : Nat) : (s.grantRead p a n).rmu = s.rmu := rfl
@[simp] theorem State.grantRead_imu (s : State) (p : ReadFor) (a n : Nat) :
    (s.grantRead p a n).imu = { s.imu with port := .reading p true a n } := rfl
@[simp] theorem State.grantRead_suc (s : State) (p : ReadFor) (a n : Nat) : (s.grantRead p a n).suc = s.suc := rfl
@[simp] theorem State.grantRead_sram (s : State) (p : ReadFor) (a n : Nat) : (s.grantRead p a n).sram = s.sram := rfl
@[simp] theorem State.grantRead_flash (s : State) (p : ReadFor) (a n : Nat) : (s.grantRead p a n).flash = s.flash := rfl
@[simp] theorem State.grantRead_freeIdx (s : State) (p : ReadFor) (a n : Nat) : (s.grantRead p a n).freeIdx = s.freeIdx := rfl

/-! ### State.grantWork -/

@[simp] theorem State.grantWork_pending (s : State) (w : FlashWork) (o : OpOwner) : (s.grantWork w o).pending = s.pending := rfl
@[simp] theorem State.grantWork_time (s : State) (w : FlashWork) (o : OpOwner) : (s.grantWork w o).time = s.time := rfl
@[simp] theorem State.grantWork_lines (s : State) (w : FlashWork) (o : OpOwner) : (s.grantWork w o).lines = s.lines := rfl
@[simp] theorem State.grantWork_ptu (s : State) (w : FlashWork) (o : OpOwner) : (s.grantWork w o).ptu = s.ptu := rfl
@[simp] theorem State.grantWork_cau (s : State) (w : FlashWork) (o : OpOwner) : (s.grantWork w o).cau = s.cau := rfl
@[simp] theorem State.grantWork_policy (s : State) (w : FlashWork) (o : OpOwner) : (s.grantWork w o).policy = s.policy := rfl
@[simp] theorem State.grantWork_diu (s : State) (w : FlashWork) (o : OpOwner) : (s.grantWork w o).diu = s.diu := rfl
@[simp] theorem State.grantWork_stu (s : State) (w : FlashWork) (o : OpOwner) : (s.grantWork w o).stu = s.stu := rfl
@[simp] theorem State.grantWork_cgu (s : State) (w : FlashWork) (o : OpOwner) : (s.grantWork w o).cgu = s.cgu := rfl
@[simp] theorem State.grantWork_scu (s : State) (w : FlashWork) (o : OpOwner) : (s.grantWork w o).scu = s.scu := rfl
@[simp] theorem State.grantWork_rmu (s : State) (w : FlashWork) (o : OpOwner) : (s.grantWork w o).rmu = s.rmu := rfl
@[simp] theorem State.grantWork_imu (s : State) (w : FlashWork) (o : OpOwner) :
    (s.grantWork w o).imu = { s.imu with port := .busy (FlashOp.issued w o) } := rfl
@[simp] theorem State.grantWork_suc (s : State) (w : FlashWork) (o : OpOwner) : (s.grantWork w o).suc = s.suc := rfl
@[simp] theorem State.grantWork_sram (s : State) (w : FlashWork) (o : OpOwner) : (s.grantWork w o).sram = s.sram := rfl
@[simp] theorem State.grantWork_flash (s : State) (w : FlashWork) (o : OpOwner) : (s.grantWork w o).flash = s.flash := rfl
@[simp] theorem State.grantWork_freeIdx (s : State) (w : FlashWork) (o : OpOwner) : (s.grantWork w o).freeIdx = s.freeIdx := rfl

/-! ### Session.ended -/

@[simp] theorem Session.ended_refused (n : Session) : n.ended.refused = n.refused := rfl
@[simp] theorem Session.ended_state (n : Session) : n.ended.state = Session.idle.state := rfl
@[simp] theorem Session.ended_target (n : Session) : n.ended.target = Session.idle.target := rfl
@[simp] theorem Session.ended_length (n : Session) : n.ended.length = Session.idle.length := rfl
@[simp] theorem Session.ended_expCrc (n : Session) : n.ended.expCrc = Session.idle.expCrc := rfl
@[simp] theorem Session.ended_version (n : Session) : n.ended.version = Session.idle.version := rfl
@[simp] theorem Session.ended_needed (n : Session) : n.ended.needed = Session.idle.needed := rfl
@[simp] theorem Session.ended_crc (n : Session) : n.ended.crc = Session.idle.crc := rfl
@[simp] theorem Session.ended_nextWord (n : Session) : n.ended.nextWord = Session.idle.nextWord := rfl
@[simp] theorem Session.ended_current (n : Session) : n.ended.current = Session.idle.current := rfl
@[simp] theorem Session.ended_queue (n : Session) : n.ended.queue = Session.idle.queue := rfl
@[simp] theorem Session.ended_pages (n : Session) : n.ended.pages = Session.idle.pages := rfl
@[simp] theorem Session.ended_sectors (n : Session) : n.ended.sectors = Session.idle.sectors := rfl
@[simp] theorem Session.ended_rbPos (n : Session) : n.ended.rbPos = Session.idle.rbPos := rfl
@[simp] theorem Session.ended_rbCrc (n : Session) : n.ended.rbCrc = Session.idle.rbCrc := rfl
@[simp] theorem Session.ended_now (n : Session) : n.ended.now = Session.idle.now := rfl
@[simp] theorem Session.ended_force (n : Session) : n.ended.force = Session.idle.force := rfl
@[simp] theorem Session.ended_drainLeft (n : Session) : n.ended.drainLeft = Session.idle.drainLeft := rfl

/-! ### State.dropSession -/

@[simp] theorem State.dropSession_pending (s : State) : (s.dropSession).pending = s.pending := rfl
@[simp] theorem State.dropSession_time (s : State) : (s.dropSession).time = s.time := rfl
@[simp] theorem State.dropSession_lines (s : State) : (s.dropSession).lines = s.lines := rfl
@[simp] theorem State.dropSession_ptu (s : State) : (s.dropSession).ptu = s.ptu := rfl
@[simp] theorem State.dropSession_cau (s : State) : (s.dropSession).cau = s.cau := rfl
@[simp] theorem State.dropSession_policy (s : State) : (s.dropSession).policy = s.policy := rfl
@[simp] theorem State.dropSession_diu (s : State) : (s.dropSession).diu = s.diu := rfl
@[simp] theorem State.dropSession_stu (s : State) : (s.dropSession).stu = s.stu := rfl
@[simp] theorem State.dropSession_cgu (s : State) : (s.dropSession).cgu = s.cgu := rfl
@[simp] theorem State.dropSession_scu (s : State) : (s.dropSession).scu = s.scu := rfl
@[simp] theorem State.dropSession_rmu (s : State) : (s.dropSession).rmu = s.rmu := rfl
@[simp] theorem State.dropSession_imu (s : State) :
    (s.dropSession).imu = { s.imu with session := s.imu.session.ended, port := s.imu.port.disown } := rfl
@[simp] theorem State.dropSession_suc (s : State) : (s.dropSession).suc = s.suc := rfl
@[simp] theorem State.dropSession_sram (s : State) : (s.dropSession).sram = s.sram := rfl
@[simp] theorem State.dropSession_flash (s : State) : (s.dropSession).flash = s.flash := rfl
@[simp] theorem State.dropSession_freeIdx (s : State) : (s.dropSession).freeIdx = s.freeIdx := rfl

/-! ### State.acceptStaging -/

@[simp] theorem State.acceptStaging_pending (s : State) (h : InHand) : (s.acceptStaging h).pending = s.pending := rfl
@[simp] theorem State.acceptStaging_time (s : State) (h : InHand) : (s.acceptStaging h).time = s.time := rfl
@[simp] theorem State.acceptStaging_lines (s : State) (h : InHand) : (s.acceptStaging h).lines = s.lines := rfl
@[simp] theorem State.acceptStaging_ptu (s : State) (h : InHand) :
    (s.acceptStaging h).ptu = { s.ptu with inHand := none, reply := some { txn := h.txn, ending := .ack } } := rfl
@[simp] theorem State.acceptStaging_cau (s : State) (h : InHand) : (s.acceptStaging h).cau = s.cau := rfl
@[simp] theorem State.acceptStaging_policy (s : State) (h : InHand) : (s.acceptStaging h).policy = s.policy := rfl
@[simp] theorem State.acceptStaging_diu (s : State) (h : InHand) : (s.acceptStaging h).diu = s.diu := rfl
@[simp] theorem State.acceptStaging_stu (s : State) (h : InHand) : (s.acceptStaging h).stu = s.stu := rfl
@[simp] theorem State.acceptStaging_cgu (s : State) (h : InHand) : (s.acceptStaging h).cgu = s.cgu := rfl
@[simp] theorem State.acceptStaging_scu (s : State) (h : InHand) : (s.acceptStaging h).scu = s.scu := rfl
@[simp] theorem State.acceptStaging_rmu (s : State) (h : InHand) : (s.acceptStaging h).rmu = s.rmu := rfl
@[simp] theorem State.acceptStaging_imu (s : State) (h : InHand) :
    (s.acceptStaging h).imu = { s.imu with session := s.imu.session.takeWords (h.txn.fullWords.map Prod.snd) } := rfl
@[simp] theorem State.acceptStaging_suc (s : State) (h : InHand) : (s.acceptStaging h).suc = s.suc := rfl
@[simp] theorem State.acceptStaging_sram (s : State) (h : InHand) : (s.acceptStaging h).sram = s.sram := rfl
@[simp] theorem State.acceptStaging_flash (s : State) (h : InHand) : (s.acceptStaging h).flash = s.flash := rfl
@[simp] theorem State.acceptStaging_freeIdx (s : State) (h : InHand) : (s.acceptStaging h).freeIdx = s.freeIdx := rfl

/-! ### State.refuseStaging -/

@[simp] theorem State.refuseStaging_pending (s : State) (h : InHand) : (s.refuseStaging h).pending = s.pending := rfl
@[simp] theorem State.refuseStaging_time (s : State) (h : InHand) : (s.refuseStaging h).time = s.time := rfl
@[simp] theorem State.refuseStaging_lines (s : State) (h : InHand) : (s.refuseStaging h).lines = s.lines := rfl
@[simp] theorem State.refuseStaging_ptu (s : State) (h : InHand) :
    (s.refuseStaging h).ptu = { s.ptu with inHand := none, reply := some { txn := h.txn, ending := .ack } } := rfl
@[simp] theorem State.refuseStaging_cau (s : State) (h : InHand) : (s.refuseStaging h).cau = s.cau := rfl
@[simp] theorem State.refuseStaging_policy (s : State) (h : InHand) : (s.refuseStaging h).policy = s.policy := rfl
@[simp] theorem State.refuseStaging_diu (s : State) (h : InHand) : (s.refuseStaging h).diu = s.diu := rfl
@[simp] theorem State.refuseStaging_stu (s : State) (h : InHand) : (s.refuseStaging h).stu = s.stu := rfl
@[simp] theorem State.refuseStaging_cgu (s : State) (h : InHand) : (s.refuseStaging h).cgu = s.cgu := rfl
@[simp] theorem State.refuseStaging_scu (s : State) (h : InHand) : (s.refuseStaging h).scu = s.scu := rfl
@[simp] theorem State.refuseStaging_rmu (s : State) (h : InHand) : (s.refuseStaging h).rmu = s.rmu := rfl
@[simp] theorem State.refuseStaging_imu (s : State) (h : InHand) :
    (s.refuseStaging h).imu = { s.imu with session := { s.imu.session with refused := true } } := rfl
@[simp] theorem State.refuseStaging_suc (s : State) (h : InHand) : (s.refuseStaging h).suc = s.suc := rfl
@[simp] theorem State.refuseStaging_sram (s : State) (h : InHand) : (s.refuseStaging h).sram = s.sram := rfl
@[simp] theorem State.refuseStaging_flash (s : State) (h : InHand) : (s.refuseStaging h).flash = s.flash := rfl
@[simp] theorem State.refuseStaging_freeIdx (s : State) (h : InHand) : (s.refuseStaging h).freeIdx = s.freeIdx := rfl

/-! ### State.answer -/

@[simp] theorem State.answer_pending (s : State) (q : Request) (c : ResultCode) (d : Nat) : (s.answer q c d).pending = s.pending := rfl
@[simp] theorem State.answer_time (s : State) (q : Request) (c : ResultCode) (d : Nat) : (s.answer q c d).time = s.time := rfl
@[simp] theorem State.answer_lines (s : State) (q : Request) (c : ResultCode) (d : Nat) : (s.answer q c d).lines = s.lines := rfl
@[simp] theorem State.answer_ptu (s : State) (q : Request) (c : ResultCode) (d : Nat) :
    (s.answer q c d).ptu = (s.issue
      { kind := .result, addr := s.controlBase + 0x38, data := bytesOfWord (resultWord q.kind c d), len := 0 }).ptu := rfl
@[simp] theorem State.answer_cau (s : State) (q : Request) (c : ResultCode) (d : Nat) :
    (s.answer q c d).cau = { s.cau with request := none } := rfl
@[simp] theorem State.answer_policy (s : State) (q : Request) (c : ResultCode) (d : Nat) : (s.answer q c d).policy = s.policy := rfl
@[simp] theorem State.answer_diu (s : State) (q : Request) (c : ResultCode) (d : Nat) : (s.answer q c d).diu = s.diu := rfl
@[simp] theorem State.answer_stu (s : State) (q : Request) (c : ResultCode) (d : Nat) : (s.answer q c d).stu = s.stu := rfl
@[simp] theorem State.answer_cgu (s : State) (q : Request) (c : ResultCode) (d : Nat) : (s.answer q c d).cgu = s.cgu := rfl
@[simp] theorem State.answer_scu (s : State) (q : Request) (c : ResultCode) (d : Nat) : (s.answer q c d).scu = s.scu := rfl
@[simp] theorem State.answer_rmu (s : State) (q : Request) (c : ResultCode) (d : Nat) : (s.answer q c d).rmu = s.rmu := rfl
@[simp] theorem State.answer_imu (s : State) (q : Request) (c : ResultCode) (d : Nat) : (s.answer q c d).imu = s.imu := rfl
@[simp] theorem State.answer_suc (s : State) (q : Request) (c : ResultCode) (d : Nat) : (s.answer q c d).suc = s.suc := rfl
@[simp] theorem State.answer_sram (s : State) (q : Request) (c : ResultCode) (d : Nat) : (s.answer q c d).sram = s.sram := rfl
@[simp] theorem State.answer_flash (s : State) (q : Request) (c : ResultCode) (d : Nat) : (s.answer q c d).flash = s.flash := rfl
@[simp] theorem State.answer_freeIdx (s : State) (q : Request) (c : ResultCode) (d : Nat) : (s.answer q c d).freeIdx = s.freeIdx := rfl

/-! ### State.absorb -/

@[simp] theorem State.absorb_pending (s : State) (h : InHand) (w : Window) : (s.absorb h w).pending = s.pending := rfl
@[simp] theorem State.absorb_time (s : State) (h : InHand) (w : Window) : (s.absorb h w).time = s.time := rfl
@[simp] theorem State.absorb_lines (s : State) (h : InHand) (w : Window) : (s.absorb h w).lines = s.lines := rfl
@[simp] theorem State.absorb_ptu (s : State) (h : InHand) (w : Window) :
    (s.absorb h w).ptu = { s.ptu with inHand := some { h with phase := .sramWait .plain } } := rfl
@[simp] theorem State.absorb_cau (s : State) (h : InHand) (w : Window) :
    (s.absorb h w).cau = { s.cau with shadow := Memory.writeCells Config.shadowZero s.cau.shadow (shadowCells w.base h.txn) } := rfl
@[simp] theorem State.absorb_policy (s : State) (h : InHand) (w : Window) : (s.absorb h w).policy = s.policy := rfl
@[simp] theorem State.absorb_diu (s : State) (h : InHand) (w : Window) : (s.absorb h w).diu = s.diu := rfl
@[simp] theorem State.absorb_stu (s : State) (h : InHand) (w : Window) : (s.absorb h w).stu = s.stu := rfl
@[simp] theorem State.absorb_cgu (s : State) (h : InHand) (w : Window) : (s.absorb h w).cgu = s.cgu := rfl
@[simp] theorem State.absorb_scu (s : State) (h : InHand) (w : Window) : (s.absorb h w).scu = s.scu := rfl
@[simp] theorem State.absorb_rmu (s : State) (h : InHand) (w : Window) : (s.absorb h w).rmu = s.rmu := rfl
@[simp] theorem State.absorb_imu (s : State) (h : InHand) (w : Window) : (s.absorb h w).imu = s.imu := rfl
@[simp] theorem State.absorb_suc (s : State) (h : InHand) (w : Window) : (s.absorb h w).suc = s.suc := rfl
@[simp] theorem State.absorb_sram (s : State) (h : InHand) (w : Window) : (s.absorb h w).sram = s.sram := rfl
@[simp] theorem State.absorb_flash (s : State) (h : InHand) (w : Window) : (s.absorb h w).flash = s.flash := rfl
@[simp] theorem State.absorb_freeIdx (s : State) (h : InHand) (w : Window) : (s.absorb h w).freeIdx = s.freeIdx := rfl

/-! ### State.takeRequest -/

@[simp] theorem State.takeRequest_pending (s : State) : (s.takeRequest).pending = s.pending := rfl
@[simp] theorem State.takeRequest_time (s : State) : (s.takeRequest).time = s.time := rfl
@[simp] theorem State.takeRequest_lines (s : State) : (s.takeRequest).lines = s.lines := rfl
@[simp] theorem State.takeRequest_ptu (s : State) : (s.takeRequest).ptu = s.ptu := rfl
@[simp] theorem State.takeRequest_cau (s : State) :
    (s.takeRequest).cau = { s.cau with
      slot := .pending, request := some { kind := s.shadowWord 0x3C, args := s.shadowWords 0 14 } } := rfl
@[simp] theorem State.takeRequest_policy (s : State) : (s.takeRequest).policy = s.policy := rfl
@[simp] theorem State.takeRequest_diu (s : State) : (s.takeRequest).diu = s.diu := rfl
@[simp] theorem State.takeRequest_stu (s : State) : (s.takeRequest).stu = s.stu := rfl
@[simp] theorem State.takeRequest_cgu (s : State) : (s.takeRequest).cgu = s.cgu := rfl
@[simp] theorem State.takeRequest_scu (s : State) : (s.takeRequest).scu = s.scu := rfl
@[simp] theorem State.takeRequest_rmu (s : State) : (s.takeRequest).rmu = s.rmu := rfl
@[simp] theorem State.takeRequest_imu (s : State) : (s.takeRequest).imu = s.imu := rfl
@[simp] theorem State.takeRequest_suc (s : State) : (s.takeRequest).suc = s.suc := rfl
@[simp] theorem State.takeRequest_sram (s : State) : (s.takeRequest).sram = s.sram := rfl
@[simp] theorem State.takeRequest_flash (s : State) : (s.takeRequest).flash = s.flash := rfl
@[simp] theorem State.takeRequest_freeIdx (s : State) : (s.takeRequest).freeIdx = s.freeIdx := rfl

/-! ### State.beginRing -/

@[simp] theorem State.beginRing_pending (s : State) : (s.beginRing).pending = s.pending := rfl
@[simp] theorem State.beginRing_time (s : State) : (s.beginRing).time = s.time := rfl
@[simp] theorem State.beginRing_lines (s : State) :
    (s.beginRing).lines = { s.lines with attn := false } := rfl
@[simp] theorem State.beginRing_ptu (s : State) :
    (s.beginRing).ptu = (s.issue
      { kind := .producerIndex, addr := s.controlBase + 0x2080, data := bytesOfWord 0, len := 0 }).ptu := rfl
@[simp] theorem State.beginRing_cau (s : State) :
    (s.beginRing).cau = { s.cau with writeIdx := 0, published := 0, consumer := 0, gap := false, path := .zeroing } := rfl
@[simp] theorem State.beginRing_policy (s : State) : (s.beginRing).policy = s.policy := rfl
@[simp] theorem State.beginRing_diu (s : State) : (s.beginRing).diu = s.diu := rfl
@[simp] theorem State.beginRing_stu (s : State) : (s.beginRing).stu = s.stu := rfl
@[simp] theorem State.beginRing_cgu (s : State) : (s.beginRing).cgu = s.cgu := rfl
@[simp] theorem State.beginRing_scu (s : State) : (s.beginRing).scu = s.scu := rfl
@[simp] theorem State.beginRing_rmu (s : State) : (s.beginRing).rmu = s.rmu := rfl
@[simp] theorem State.beginRing_imu (s : State) : (s.beginRing).imu = s.imu := rfl
@[simp] theorem State.beginRing_suc (s : State) : (s.beginRing).suc = s.suc := rfl
@[simp] theorem State.beginRing_sram (s : State) : (s.beginRing).sram = s.sram := rfl
@[simp] theorem State.beginRing_flash (s : State) : (s.beginRing).flash = s.flash := rfl
@[simp] theorem State.beginRing_freeIdx (s : State) : (s.beginRing).freeIdx = s.freeIdx := rfl

/-! ### settle, on a record -/

@[simp] theorem settle_slot (now : BitVec 32) (r : Station) : (settle now r).slot = r.slot := rfl
@[simp] theorem settle_addr (now : BitVec 32) (r : Station) : (settle now r).addr = r.addr := rfl
@[simp] theorem settle_state (now : BitVec 32) (r : Station) : (settle now r).state = r.state := rfl
@[simp] theorem settle_profile (now : BitVec 32) (r : Station) : (settle now r).profile = r.profile := rfl
@[simp] theorem settle_pinned (now : BitVec 32) (r : Station) : (settle now r).pinned = r.pinned := rfl
@[simp] theorem settle_hold (now : BitVec 32) (r : Station) : (settle now r).hold = r.hold := rfl
@[simp] theorem settle_age (now : BitVec 32) (r : Station) : (settle now r).age = r.age := rfl
@[simp] theorem settle_level (now : BitVec 32) (r : Station) : (settle now r).level = r.level := rfl
@[simp] theorem settle_pause (now : BitVec 32) (r : Station) : (settle now r).pause = r.pause := rfl
@[simp] theorem settle_ext (now : BitVec 32) (r : Station) : (settle now r).ext = r.ext := rfl
@[simp] theorem settle_gameCount (now : BitVec 32) (r : Station) : (settle now r).gameCount = r.gameCount := rfl
@[simp] theorem settle_sustain (now : BitVec 32) (r : Station) : (settle now r).sustain = r.sustain := rfl
@[simp] theorem settle_gameActive (now : BitVec 32) (r : Station) : (settle now r).gameActive = r.gameActive := rfl
@[simp] theorem settle_linger (now : BitVec 32) (r : Station) : (settle now r).linger = r.linger := rfl
@[simp] theorem settle_rate (now : BitVec 32) (r : Station) : (settle now r).rate = r.rate := rfl
@[simp] theorem settle_cap (now : BitVec 32) (r : Station) : (settle now r).cap = r.cap := rfl
@[simp] theorem settle_mark (now : BitVec 32) (r : Station) : (settle now r).mark = r.mark := rfl
@[simp] theorem settle_estimates (now : BitVec 32) (r : Station) : (settle now r).estimates = r.estimates := rfl
@[simp] theorem settle_dwell (now : BitVec 32) (r : Station) : (settle now r).dwell = r.dwell := rfl
@[simp] theorem settle_candidate (now : BitVec 32) (r : Station) : (settle now r).candidate = r.candidate := rfl
@[simp] theorem settle_steerTo (now : BitVec 32) (r : Station) : (settle now r).steerTo = r.steerTo := rfl
@[simp] theorem settle_steerTimer (now : BitVec 32) (r : Station) : (settle now r).steerTimer = r.steerTimer := rfl
@[simp] theorem settle_failures (now : BitVec 32) (r : Station) : (settle now r).failures = r.failures := rfl
@[simp] theorem settle_backoff (now : BitVec 32) (r : Station) : (settle now r).backoff = r.backoff := rfl
@[simp] theorem settle_current (now : BitVec 32) (r : Station) : (settle now r).current = r.current := rfl
@[simp] theorem settle_unmovable (now : BitVec 32) (r : Station) : (settle now r).unmovable = r.unmovable := rfl

/-! ### charge, on a record -/

@[simp] theorem charge_slot (len : Nat) (r : Station) : (charge len r).slot = r.slot := rfl
@[simp] theorem charge_addr (len : Nat) (r : Station) : (charge len r).addr = r.addr := rfl
@[simp] theorem charge_state (len : Nat) (r : Station) : (charge len r).state = r.state := rfl
@[simp] theorem charge_profile (len : Nat) (r : Station) : (charge len r).profile = r.profile := rfl
@[simp] theorem charge_pinned (len : Nat) (r : Station) : (charge len r).pinned = r.pinned := rfl
@[simp] theorem charge_hold (len : Nat) (r : Station) : (charge len r).hold = r.hold := rfl
@[simp] theorem charge_age (len : Nat) (r : Station) : (charge len r).age = r.age := rfl
@[simp] theorem charge_level (len : Nat) (r : Station) : (charge len r).level = r.level := rfl
@[simp] theorem charge_pause (len : Nat) (r : Station) : (charge len r).pause = r.pause := rfl
@[simp] theorem charge_ext (len : Nat) (r : Station) : (charge len r).ext = r.ext := rfl
@[simp] theorem charge_gameCount (len : Nat) (r : Station) : (charge len r).gameCount = r.gameCount := rfl
@[simp] theorem charge_sustain (len : Nat) (r : Station) : (charge len r).sustain = r.sustain := rfl
@[simp] theorem charge_gameActive (len : Nat) (r : Station) : (charge len r).gameActive = r.gameActive := rfl
@[simp] theorem charge_linger (len : Nat) (r : Station) : (charge len r).linger = r.linger := rfl
@[simp] theorem charge_rate (len : Nat) (r : Station) : (charge len r).rate = r.rate := rfl
@[simp] theorem charge_cap (len : Nat) (r : Station) : (charge len r).cap = r.cap := rfl
@[simp] theorem charge_settled (len : Nat) (r : Station) : (charge len r).settled = r.settled := rfl
@[simp] theorem charge_mark (len : Nat) (r : Station) : (charge len r).mark = r.mark := rfl
@[simp] theorem charge_estimates (len : Nat) (r : Station) : (charge len r).estimates = r.estimates := rfl
@[simp] theorem charge_dwell (len : Nat) (r : Station) : (charge len r).dwell = r.dwell := rfl
@[simp] theorem charge_candidate (len : Nat) (r : Station) : (charge len r).candidate = r.candidate := rfl
@[simp] theorem charge_steerTo (len : Nat) (r : Station) : (charge len r).steerTo = r.steerTo := rfl
@[simp] theorem charge_steerTimer (len : Nat) (r : Station) : (charge len r).steerTimer = r.steerTimer := rfl
@[simp] theorem charge_failures (len : Nat) (r : Station) : (charge len r).failures = r.failures := rfl
@[simp] theorem charge_backoff (len : Nat) (r : Station) : (charge len r).backoff = r.backoff := rfl
@[simp] theorem charge_current (len : Nat) (r : Station) : (charge len r).current = r.current := rfl
@[simp] theorem charge_unmovable (len : Nat) (r : Station) : (charge len r).unmovable = r.unmovable := rfl

/-! ### countGame, on a record -/

@[simp] theorem countGame_slot (r : Station) : (countGame r).slot = r.slot := rfl
@[simp] theorem countGame_addr (r : Station) : (countGame r).addr = r.addr := rfl
@[simp] theorem countGame_state (r : Station) : (countGame r).state = r.state := rfl
@[simp] theorem countGame_profile (r : Station) : (countGame r).profile = r.profile := rfl
@[simp] theorem countGame_pinned (r : Station) : (countGame r).pinned = r.pinned := rfl
@[simp] theorem countGame_hold (r : Station) : (countGame r).hold = r.hold := rfl
@[simp] theorem countGame_age (r : Station) : (countGame r).age = r.age := rfl
@[simp] theorem countGame_level (r : Station) : (countGame r).level = r.level := rfl
@[simp] theorem countGame_pause (r : Station) : (countGame r).pause = r.pause := rfl
@[simp] theorem countGame_ext (r : Station) : (countGame r).ext = r.ext := rfl
@[simp] theorem countGame_sustain (r : Station) : (countGame r).sustain = r.sustain := rfl
@[simp] theorem countGame_gameActive (r : Station) : (countGame r).gameActive = r.gameActive := rfl
@[simp] theorem countGame_linger (r : Station) : (countGame r).linger = r.linger := rfl
@[simp] theorem countGame_tokens (r : Station) : (countGame r).tokens = r.tokens := rfl
@[simp] theorem countGame_rate (r : Station) : (countGame r).rate = r.rate := rfl
@[simp] theorem countGame_cap (r : Station) : (countGame r).cap = r.cap := rfl
@[simp] theorem countGame_settled (r : Station) : (countGame r).settled = r.settled := rfl
@[simp] theorem countGame_mark (r : Station) : (countGame r).mark = r.mark := rfl
@[simp] theorem countGame_estimates (r : Station) : (countGame r).estimates = r.estimates := rfl
@[simp] theorem countGame_dwell (r : Station) : (countGame r).dwell = r.dwell := rfl
@[simp] theorem countGame_candidate (r : Station) : (countGame r).candidate = r.candidate := rfl
@[simp] theorem countGame_steerTo (r : Station) : (countGame r).steerTo = r.steerTo := rfl
@[simp] theorem countGame_steerTimer (r : Station) : (countGame r).steerTimer = r.steerTimer := rfl
@[simp] theorem countGame_failures (r : Station) : (countGame r).failures = r.failures := rfl
@[simp] theorem countGame_backoff (r : Station) : (countGame r).backoff = r.backoff := rfl
@[simp] theorem countGame_current (r : Station) : (countGame r).current = r.current := rfl
@[simp] theorem countGame_unmovable (r : Station) : (countGame r).unmovable = r.unmovable := rfl

/-! ### State.recompute, on a record -/

@[simp] theorem State.recompute_slot (s : State) (r : Station) : (s.recompute r).slot = r.slot := rfl
@[simp] theorem State.recompute_addr (s : State) (r : Station) : (s.recompute r).addr = r.addr := rfl
@[simp] theorem State.recompute_state (s : State) (r : Station) : (s.recompute r).state = r.state := rfl
@[simp] theorem State.recompute_profile (s : State) (r : Station) : (s.recompute r).profile = r.profile := rfl
@[simp] theorem State.recompute_pinned (s : State) (r : Station) : (s.recompute r).pinned = r.pinned := rfl
@[simp] theorem State.recompute_hold (s : State) (r : Station) : (s.recompute r).hold = r.hold := rfl
@[simp] theorem State.recompute_age (s : State) (r : Station) : (s.recompute r).age = r.age := rfl
@[simp] theorem State.recompute_level (s : State) (r : Station) : (s.recompute r).level = r.level := rfl
@[simp] theorem State.recompute_pause (s : State) (r : Station) : (s.recompute r).pause = r.pause := rfl
@[simp] theorem State.recompute_ext (s : State) (r : Station) : (s.recompute r).ext = r.ext := rfl
@[simp] theorem State.recompute_gameCount (s : State) (r : Station) : (s.recompute r).gameCount = r.gameCount := rfl
@[simp] theorem State.recompute_sustain (s : State) (r : Station) : (s.recompute r).sustain = r.sustain := rfl
@[simp] theorem State.recompute_gameActive (s : State) (r : Station) : (s.recompute r).gameActive = r.gameActive := rfl
@[simp] theorem State.recompute_linger (s : State) (r : Station) : (s.recompute r).linger = r.linger := rfl
@[simp] theorem State.recompute_settled (s : State) (r : Station) : (s.recompute r).settled = r.settled := rfl
@[simp] theorem State.recompute_estimates (s : State) (r : Station) : (s.recompute r).estimates = r.estimates := rfl
@[simp] theorem State.recompute_dwell (s : State) (r : Station) : (s.recompute r).dwell = r.dwell := rfl
@[simp] theorem State.recompute_candidate (s : State) (r : Station) : (s.recompute r).candidate = r.candidate := rfl
@[simp] theorem State.recompute_steerTo (s : State) (r : Station) : (s.recompute r).steerTo = r.steerTo := rfl
@[simp] theorem State.recompute_steerTimer (s : State) (r : Station) : (s.recompute r).steerTimer = r.steerTimer := rfl
@[simp] theorem State.recompute_failures (s : State) (r : Station) : (s.recompute r).failures = r.failures := rfl
@[simp] theorem State.recompute_backoff (s : State) (r : Station) : (s.recompute r).backoff = r.backoff := rfl
@[simp] theorem State.recompute_current (s : State) (r : Station) : (s.recompute r).current = r.current := rfl
@[simp] theorem State.recompute_unmovable (s : State) (r : Station) : (s.recompute r).unmovable = r.unmovable := rfl

/-! ### State.rateChange, on a record -/

@[simp] theorem State.rateChange_slot (s : State) (r : Station) : (s.rateChange r).slot = r.slot := rfl
@[simp] theorem State.rateChange_addr (s : State) (r : Station) : (s.rateChange r).addr = r.addr := rfl
@[simp] theorem State.rateChange_state (s : State) (r : Station) : (s.rateChange r).state = r.state := rfl
@[simp] theorem State.rateChange_profile (s : State) (r : Station) : (s.rateChange r).profile = r.profile := rfl
@[simp] theorem State.rateChange_pinned (s : State) (r : Station) : (s.rateChange r).pinned = r.pinned := rfl
@[simp] theorem State.rateChange_hold (s : State) (r : Station) : (s.rateChange r).hold = r.hold := rfl
@[simp] theorem State.rateChange_age (s : State) (r : Station) : (s.rateChange r).age = r.age := rfl
@[simp] theorem State.rateChange_level (s : State) (r : Station) : (s.rateChange r).level = r.level := rfl
@[simp] theorem State.rateChange_pause (s : State) (r : Station) : (s.rateChange r).pause = r.pause := rfl
@[simp] theorem State.rateChange_ext (s : State) (r : Station) : (s.rateChange r).ext = r.ext := rfl
@[simp] theorem State.rateChange_gameCount (s : State) (r : Station) : (s.rateChange r).gameCount = r.gameCount := rfl
@[simp] theorem State.rateChange_sustain (s : State) (r : Station) : (s.rateChange r).sustain = r.sustain := rfl
@[simp] theorem State.rateChange_gameActive (s : State) (r : Station) : (s.rateChange r).gameActive = r.gameActive := rfl
@[simp] theorem State.rateChange_linger (s : State) (r : Station) : (s.rateChange r).linger = r.linger := rfl
@[simp] theorem State.rateChange_estimates (s : State) (r : Station) : (s.rateChange r).estimates = r.estimates := rfl
@[simp] theorem State.rateChange_dwell (s : State) (r : Station) : (s.rateChange r).dwell = r.dwell := rfl
@[simp] theorem State.rateChange_candidate (s : State) (r : Station) : (s.rateChange r).candidate = r.candidate := rfl
@[simp] theorem State.rateChange_steerTo (s : State) (r : Station) : (s.rateChange r).steerTo = r.steerTo := rfl
@[simp] theorem State.rateChange_steerTimer (s : State) (r : Station) : (s.rateChange r).steerTimer = r.steerTimer := rfl
@[simp] theorem State.rateChange_failures (s : State) (r : Station) : (s.rateChange r).failures = r.failures := rfl
@[simp] theorem State.rateChange_backoff (s : State) (r : Station) : (s.rateChange r).backoff = r.backoff := rfl
@[simp] theorem State.rateChange_current (s : State) (r : Station) : (s.rateChange r).current = r.current := rfl
@[simp] theorem State.rateChange_unmovable (s : State) (r : Station) : (s.rateChange r).unmovable = r.unmovable := rfl

/-! ### drainSwitched, on a record -/

@[simp] theorem drainSwitched_slot (on : Bool) (r : Station) : (drainSwitched on r).slot = r.slot := rfl
@[simp] theorem drainSwitched_addr (on : Bool) (r : Station) : (drainSwitched on r).addr = r.addr := rfl
@[simp] theorem drainSwitched_state (on : Bool) (r : Station) : (drainSwitched on r).state = r.state := rfl
@[simp] theorem drainSwitched_profile (on : Bool) (r : Station) : (drainSwitched on r).profile = r.profile := rfl
@[simp] theorem drainSwitched_pinned (on : Bool) (r : Station) : (drainSwitched on r).pinned = r.pinned := rfl
@[simp] theorem drainSwitched_hold (on : Bool) (r : Station) : (drainSwitched on r).hold = r.hold := rfl
@[simp] theorem drainSwitched_age (on : Bool) (r : Station) : (drainSwitched on r).age = r.age := rfl
@[simp] theorem drainSwitched_level (on : Bool) (r : Station) : (drainSwitched on r).level = r.level := rfl
@[simp] theorem drainSwitched_pause (on : Bool) (r : Station) : (drainSwitched on r).pause = r.pause := rfl
@[simp] theorem drainSwitched_ext (on : Bool) (r : Station) : (drainSwitched on r).ext = r.ext := rfl
@[simp] theorem drainSwitched_gameCount (on : Bool) (r : Station) : (drainSwitched on r).gameCount = r.gameCount := rfl
@[simp] theorem drainSwitched_sustain (on : Bool) (r : Station) : (drainSwitched on r).sustain = r.sustain := rfl
@[simp] theorem drainSwitched_gameActive (on : Bool) (r : Station) : (drainSwitched on r).gameActive = r.gameActive := rfl
@[simp] theorem drainSwitched_linger (on : Bool) (r : Station) : (drainSwitched on r).linger = r.linger := rfl
@[simp] theorem drainSwitched_tokens (on : Bool) (r : Station) : (drainSwitched on r).tokens = r.tokens := rfl
@[simp] theorem drainSwitched_rate (on : Bool) (r : Station) : (drainSwitched on r).rate = r.rate := rfl
@[simp] theorem drainSwitched_cap (on : Bool) (r : Station) : (drainSwitched on r).cap = r.cap := rfl
@[simp] theorem drainSwitched_settled (on : Bool) (r : Station) : (drainSwitched on r).settled = r.settled := rfl
@[simp] theorem drainSwitched_mark (on : Bool) (r : Station) : (drainSwitched on r).mark = r.mark := rfl
@[simp] theorem drainSwitched_estimates (on : Bool) (r : Station) : (drainSwitched on r).estimates = r.estimates := rfl
@[simp] theorem drainSwitched_steerTo (on : Bool) (r : Station) : (drainSwitched on r).steerTo = r.steerTo := rfl
@[simp] theorem drainSwitched_steerTimer (on : Bool) (r : Station) : (drainSwitched on r).steerTimer = r.steerTimer := rfl
@[simp] theorem drainSwitched_failures (on : Bool) (r : Station) : (drainSwitched on r).failures = r.failures := rfl
@[simp] theorem drainSwitched_backoff (on : Bool) (r : Station) : (drainSwitched on r).backoff = r.backoff := rfl
@[simp] theorem drainSwitched_current (on : Bool) (r : Station) : (drainSwitched on r).current = r.current := rfl

/-! ### State.startAllowance, on a record -/

@[simp] theorem State.startAllowance_slot (s : State) (r : Station) : (s.startAllowance r).slot = r.slot := rfl
@[simp] theorem State.startAllowance_addr (s : State) (r : Station) : (s.startAllowance r).addr = r.addr := rfl
@[simp] theorem State.startAllowance_state (s : State) (r : Station) : (s.startAllowance r).state = r.state := rfl
@[simp] theorem State.startAllowance_profile (s : State) (r : Station) : (s.startAllowance r).profile = r.profile := rfl
@[simp] theorem State.startAllowance_pinned (s : State) (r : Station) : (s.startAllowance r).pinned = r.pinned := rfl
@[simp] theorem State.startAllowance_hold (s : State) (r : Station) : (s.startAllowance r).hold = r.hold := rfl
@[simp] theorem State.startAllowance_age (s : State) (r : Station) : (s.startAllowance r).age = r.age := rfl
@[simp] theorem State.startAllowance_level (s : State) (r : Station) : (s.startAllowance r).level = r.level := rfl
@[simp] theorem State.startAllowance_pause (s : State) (r : Station) : (s.startAllowance r).pause = r.pause := rfl
@[simp] theorem State.startAllowance_ext (s : State) (r : Station) : (s.startAllowance r).ext = r.ext := rfl
@[simp] theorem State.startAllowance_gameCount (s : State) (r : Station) : (s.startAllowance r).gameCount = r.gameCount := rfl
@[simp] theorem State.startAllowance_sustain (s : State) (r : Station) : (s.startAllowance r).sustain = r.sustain := rfl
@[simp] theorem State.startAllowance_gameActive (s : State) (r : Station) : (s.startAllowance r).gameActive = r.gameActive := rfl
@[simp] theorem State.startAllowance_linger (s : State) (r : Station) : (s.startAllowance r).linger = r.linger := rfl
@[simp] theorem State.startAllowance_estimates (s : State) (r : Station) : (s.startAllowance r).estimates = r.estimates := rfl
@[simp] theorem State.startAllowance_dwell (s : State) (r : Station) : (s.startAllowance r).dwell = r.dwell := rfl
@[simp] theorem State.startAllowance_candidate (s : State) (r : Station) : (s.startAllowance r).candidate = r.candidate := rfl
@[simp] theorem State.startAllowance_steerTo (s : State) (r : Station) : (s.startAllowance r).steerTo = r.steerTo := rfl
@[simp] theorem State.startAllowance_steerTimer (s : State) (r : Station) : (s.startAllowance r).steerTimer = r.steerTimer := rfl
@[simp] theorem State.startAllowance_failures (s : State) (r : Station) : (s.startAllowance r).failures = r.failures := rfl
@[simp] theorem State.startAllowance_backoff (s : State) (r : Station) : (s.startAllowance r).backoff = r.backoff := rfl
@[simp] theorem State.startAllowance_current (s : State) (r : Station) : (s.startAllowance r).current = r.current := rfl
@[simp] theorem State.startAllowance_unmovable (s : State) (r : Station) : (s.startAllowance r).unmovable = r.unmovable := rfl

end Sys2Proof.Machine
end

