-- ==== Sys2Proof/Laws/Windows.lean ====
section
/-! SUPPORT. The check of a window map says the rules of R7. -/
open Sys2Proof Sys2Proof.Machine

namespace Sys2Proof.Machine

/-- The overlap test of a map is pairwise. -/
theorem pairwiseApart_iff (ws : List Window) :
    pairwiseApart ws = true ↔ ws.Pairwise (fun v w => windowsApart v w = true) := by
  induction ws with
  | nil => simp [pairwiseApart]
  | cons w ws ih => simp [pairwiseApart, ih]

/-- Two windows of some size are apart when they share no address and, of one ring kind, no ring id. -/
theorem windowsApart_iff (v w : Window) (hv : v.size ≠ 0) (hw : w.size ≠ 0) :
    windowsApart v w = true ↔
      (∀ a, ¬(v.base ≤ a ∧ a < v.base + v.size ∧ w.base ≤ a ∧ a < w.base + w.size))
      ∧ (v.kind = .txRing ∨ v.kind = .rxRing → v.kind = w.kind → v.ringId ≠ w.ringId) := by
  have apart : (∀ a, ¬(v.base ≤ a ∧ a < v.base + v.size ∧ w.base ≤ a ∧ a < w.base + w.size))
      ↔ (v.base + v.size ≤ w.base ∨ w.base + w.size ≤ v.base) := by
    constructor
    · intro h
      have := h v.base
      have := h w.base
      omega
    · intro h a
      omega
  rw [apart]
  simp only [windowsApart, Bool.and_eq_true, Bool.or_eq_true, decide_eq_true_eq, Bool.not_eq_true', Bool.and_eq_false_iff]
  cases v.kind <;> simp [WindowKind.ring]
  all_goals
    intro _
    by_cases hk : w.kind = .txRing <;> by_cases hr : w.kind = .rxRing <;> simp_all [eq_comm]
    try tauto

/-- A map passes the check exactly where it obeys the rules of R7. -/
theorem mapValid_iff_mapRules (ws : List Window) : mapValid ws = true ↔ MapRules ws := by
  unfold mapValid MapRules
  simp only [Bool.and_eq_true, pairwiseApart_iff, List.all_cons, List.all_nil, beq_iff_eq, List.all_eq_true,
    Bool.and_true, countKind]
  constructor
  · rintro ⟨⟨⟨⟨⟨a, b, c, d, e, f⟩, g⟩, h⟩, i⟩, j⟩
    have hw : ∀ w ∈ ws, _ := fun w hm => by
      have := i w hm
      simp only [windowValid, Bool.and_eq_true, decide_eq_true_eq] at this
      exact this
    refine ⟨⟨a, b, c, d, e, f, of_decide_eq_true g, of_decide_eq_true h⟩, fun w hm => ?_, ?_⟩
    · obtain ⟨⟨⟨⟨⟨h1, h2⟩, h3⟩, h4⟩, h5⟩, h6⟩ := hw w hm
      cases hk : w.kind <;> simp [hk, WindowKind.lower] at h4 h5 h6 ⊢ <;> omega
    · refine List.Pairwise.imp_of_mem (fun {v w} hv hm hp => ?_) j
      exact (windowsApart_iff v w (by have := hw v hv; omega) (by have := hw w hm; omega)).1 hp
  · rintro ⟨⟨a, b, c, d, e, f, g, h⟩, hw, j⟩
    refine ⟨⟨⟨⟨⟨a, b, c, d, e, f⟩, decide_eq_true g⟩, decide_eq_true h⟩, fun w hm => ?_⟩, ?_⟩
    · have := hw w hm
      simp only [windowValid, Bool.and_eq_true, decide_eq_true_eq]
      cases hk : w.kind <;> simp [hk, WindowKind.lower] at this ⊢ <;> omega
    · refine List.Pairwise.imp_of_mem (fun {v w} hv hm hp => ?_) j
      exact (windowsApart_iff v w (hw v hv).2.2.2.2.1 (hw w hm).2.2.2.2.1).2 hp

end Sys2Proof.Machine
end

