-- ==== Sys2Proof/Tests/Slice0.lean ====
section
/-! SUPPORT. Tests: ill-formed commands refused; values the manual's own tables and sequences give; and for every obligation with
hypotheses a named theorem showing a concrete state and operands that meet them, at boundary values where a clause has a range. -/
open Sys2Proof Sys2Proof.Machine

set_option maxRecDepth 8000

namespace Sys2Proof.Tests

/-! ## Helpers -/

/-- A TX ring window of 16 descriptors at 0x1000, inspect master 1. -/
def txWin : Window :=
  { entry := 6, base := 0x1000, size := 0x1000, kind := .txRing, readMask := 0xFFFF, writeMask := 0xFFFE, ringId := 0
    ringMaster := 1, descCount := 16 }

/-- An RX ring window of 16 descriptors at 0x2000, producer master 2. -/
def rxWin : Window :=
  { entry := 7, base := 0x2000, size := 0x1000, kind := .rxRing, readMask := 0xFFFF, writeMask := 0xFFFF, ringId := 0
    ringMaster := 2, descCount := 16 }

/-- The built-in CONTROL window. -/
def ctlWin : Window :=
  { entry := 4, base := 0x7FF0000, size := 16 * 1024, kind := .control, readMask := 0xFFFF, writeMask := 0xFFFF, ringId := 0
    ringMaster := 0, descCount := 0 }

/-- The built-in BOOT window. -/
def bootWin : Window := { ctlWin with entry := 0, base := 0x8000000, size := 256 * 1024, kind := .boot }

/-- The built-in STAGING window. -/
def stgWin : Window := { ctlWin with entry := 3, base := 0x9000000, size := 8192000, kind := .staging }

/-- A block that is up: the built-in map with two rings, READY high, the report ring begun. -/
def up : State :=
  { State.reset with
    lines.ready := true, suc.startUp := .ready, suc.stale := false, cau.path := .idle
    ptu.windows := builtInMap ++ [txWin, rxWin] }

/-- A single read of a whole word. -/
def rd (a : Nat) : Transaction := { addr := a, master := 0, dir := .read, form := .single 0b1111, data := [] }

/-- A single write of a whole word. -/
def wr (a : Nat) (v : Word) : Transaction := { addr := a, master := 0, dir := .write, form := .single 0b1111, data := [v] }

/-- The inspected read of the first descriptor. -/
def txRead : Transaction := { addr := 0x1000, master := 1, dir := .read, form := .burst 8, data := [] }

/-- A receive write by the producer master. -/
def rxWr (a : Nat) (v : Word) : Transaction := { wr a v with master := 2 }

/-- A state with a transaction in hand. -/
def hand (s : State) (x : Transaction) (w : Option Window) (p : Phase) : State :=
  { s with ptu.inHand := some { txn := x, window := w, phase := p, heldUs := 0 } }

/-- A record at full level, in a state that needs no field of its own. -/
def sta (k : Nat) (m : Mac) : Station :=
  { slot := k, addr := m, state := .associated, profile := 0, pinned := none, hold := none, age := 0, level := 4096
    pause := .none, ext := 0, gameCount := 0, sustain := 0, gameActive := false, linger := 0, tokens := 0
    rate := 1073725, cap := 1048576, settled := 0, mark := false, estimates := [], dwell := 0, candidate := none
    steerTo := none, steerTimer := 0, failures := 0, backoff := 0, current := none, unmovable := false }

/-- A state with records. -/
def withTable (s : State) (rs : List Station) : State := { s with stu.stations := rs }

/-- A state with a request in hand: its kind, and w0 to w13. -/
def asked (s : State) (k : Word) (args : List Word) : State :=
  { s with cau.slot := .pending, cau.request := some { kind := k, args := args } }

/-- A state with a program or erase on the flash port. -/
def working (s : State) (o : FlashOp) : State := { s with imu.port := .busy o }

/-- A session program of page 0 of slot B. -/
def prog : FlashOp := FlashOp.issued (.program 0x830000 [0x0F]) .session

/-- The state after a command, from a state it stands for where the command stops. -/
def after (c : Instr) (s : State) : State :=
  match exec c s with
  | .next t => t
  | .fault _ => s
  | .refused _ => s

/-! ## Ill-formed commands (section 1.1, R116, R158) -/

theorem test_wf_refuses_address_beyond_bus : (Instr.busTransaction (rd 0x10000000)).wf = false := by decide
theorem test_wf_refuses_misaligned_enables : (Instr.busTransaction { rd 1 with form := .single 0b0001 }).wf = false := by decide
theorem test_wf_refuses_three_byte_access : (Instr.busTransaction { rd 0 with form := .single 0b0111 }).wf = false := by decide
theorem test_wf_refuses_halfword_across : (Instr.busTransaction { rd 3 with form := .single 0b1100 }).wf = false := by decide
theorem test_wf_refuses_burst_of_one : (Instr.busTransaction { rd 0 with form := .burst 1 }).wf = false := by decide
theorem test_wf_refuses_burst_of_nine : (Instr.busTransaction { rd 0 with form := .burst 9 }).wf = false := by decide
theorem test_wf_refuses_unaligned_burst : (Instr.busTransaction { rd 2 with form := .burst 2 }).wf = false := by decide
theorem test_wf_refuses_burst_across_block : (Instr.busTransaction { rd 0x1C with form := .burst 2 }).wf = false := by decide
theorem test_wf_refuses_read_with_data : (Instr.busTransaction { rd 0 with data := [0] }).wf = false := by decide
theorem test_wf_refuses_write_without_data : (Instr.busTransaction { wr 0 0 with data := [] }).wf = false := by decide
theorem test_wf_refuses_slot_128 : (Instr.steerTimeout 128).wf = false ∧ (Instr.holdCountdownExpiry 128).wf = false := by decide
theorem test_wf_refuses_node_8 : (Instr.estimateEntryExpiry 0 8).wf = false := by decide
theorem test_wf_refuses_33_flips : (Instr.verifyReadEnd (List.replicate 33 0)).wf = false := by decide
theorem test_wf_refuses_partial_order : (Instr.secondBoundary [.ptu]).wf = false := by decide
theorem test_wf_refuses_repeated_order :
    (Instr.minuteBoundary [.ptu, .ptu, .stu, .cgu, .scu, .rmu, .imu, .suc]).wf = false := by decide
theorem test_wf_takes_the_longest_burst : (Instr.busTransaction txRead).wf = true := by decide
theorem test_wf_takes_the_block_order : (Instr.secondBoundary allBoundaryUnits).wf = true := by decide

/-- The table gives no row any bits, so no word spells a command. -/
theorem test_no_word_spells_a_command : decodeTableWord 0 0 = none ∧ decodeTableWord 32 0xFFFFFFFF = none := by decide

/-! ## Values of the manual -/

/-- R168: the CRC of the nine bytes 0x31 to 0x39 is 0xCBF43926. -/
theorem test_crc_of_the_nine_digits :
    crcOf (crcBytes crcInit [0x31, 0x32, 0x33, 0x34, 0x35, 0x36, 0x37, 0x38, 0x39]) = 0xCBF43926 := by decide

/-- R100: bases of 1, 1,000, 2,000 and 65,535 KiB/s. -/
theorem test_bases : [1, 1000, 2000, 65535].map baseOf = [16, 16384, 32768, 1073725] := by decide

/-- R102: the table's rates. -/
theorem test_rates :
    rateOf 2048 32768 1024 = 4096 ∧ rateOf 4096 32768 0 = 1 ∧ rateOf 1 16 4096 = 1 ∧ rateOf 0 32768 4096 = 0
      ∧ rateOf 4096 1073725 4096 = 1073725 := by decide

/-- R103: the table's capacities. -/
theorem test_capacities :
    [0, 1, 768, 4096, 262144, 1073725].map capacityOf = [3072, 3072, 3072, 16384, 1048576, 1048576] := by decide

/-- R105: reserves at B = 16,384. -/
theorem test_reserves :
    [Machine.Class.game, .voice, .stream, .bulk, .background].map (fun c => reserveOf c 16384)
      = [-131072, -131072, 0, 65536, 131072] := by decide

/-- R106: the charge of a frame longer than 9,216 bytes. -/
theorem test_longest_charge : chargeOf 16383 = 147456 ∧ chargeOf 0 = 0 := by decide

/-- R104: a settlement over a wrap of the ms counter, at rate 4,096. -/
theorem test_settle_over_wrap :
    (settle 2 { sta 0 1 with settled := 0xFFFFFFFE, rate := 4096 }).tokens = 16384 := by decide

/-- R124: the table's steps. -/
theorem test_slope_steps : [1, 2, 3, 4, 5, 6, 7].map slopeStep = [69, 35, 14, 7, 5, 3, 2] := by decide

/-- R146: the table's backoffs. -/
theorem test_backoffs : [1, 2, 3, 4].map backoffFor = [30, 60, 120, 240] := by decide

/-- R136: one eighth of the way truncated toward zero, and the least step of one. -/
theorem test_smooth : smooth (-1120) (-60) = -1100 ∧ smooth (-964) (-60) = -963 ∧ smooth (-960) (-60) = -960 := by decide

/-- R7: the built-in map is valid; with a window doubled it is not. -/
theorem test_built_in_map_valid : mapValid builtInMap = true ∧ mapValid (builtInMap ++ [bootWin]) = false := by decide

/-- Section 1.2: under the built-in map the IMAGE window with slot B mapped begins at flash 0x830000 (R14, R157). -/
theorem test_image_window_address :
    ({ up with ptu.mapping := .b } : State).flashAddress { bootWin with kind := .image, base := 0x8800000 } 0x8800004 = 0x830004 := by
  decide

/-- R184: an entry's 16 bytes read back as the entry, and a flipped bit makes them no valid entry. -/
theorem test_selector_entry :
    entryOfBytes (Entry.bytes { seq := 7, slot := .b, boot := .trial, attempts := 2, fallback := true })
        = some { seq := 7, slot := .b, boot := .trial, attempts := 2, fallback := true }
      ∧ entryOfBytes ((Entry.bytes { seq := 7, slot := .b, boot := .trial, attempts := 2, fallback := true }).set 0 6) = none := by
  decide

/-- R28: SET_TIME answered with RANGE. -/
theorem test_result_word : resultWord 1 .range 0 = 0x00000301 := by decide

/-- Section 11.3: the header of a report stamped with the ms counter and carrying the gap flag. -/
theorem test_report_header :
    (Report.words { stamp := .counter 5, gap := true, body := .stationBack 0x060504030201 3 }).take 5
      = [0x00000308, 5, 0x04030201, 0x00000605, 3] := by decide

/-- R45: a returned DEFER LATE changes action and reason alone. -/
theorem test_defer_late :
    judgedWords [0x80000000, 100, 2, 3, 4, 5, 6, 7] (.plain .defer .late) = [0x80030000, 0x00050064, 2, 3, 4, 5, 6, 7] := by
  decide

/-- R55: no measurement, a positive signal, and −60 dBm. -/
theorem test_rx_signals : rxSignal 0x80 = none ∧ rxSignal 0x01 = some 0 ∧ rxSignal 0xC4 = some (-60) := by decide

/-- R24: a record of zeros is clamped to the lower ends, a record of ones to the upper. -/
theorem test_policy_clamped :
    (policyOfWords (List.replicate 16 0)).refRate = 1 ∧ (policyOfWords (List.replicate 16 0)).linger = 5
      ∧ (policyOfWords (List.replicate 16 0)).trigger = -40
      ∧ (policyOfWords (List.replicate 16 0xFFFFFFFF)).factor = 4096
      ∧ (policyOfWords (List.replicate 16 0xFFFFFFFF)).trigger = -40 := by decide

/-- R120: a window that runs over midnight on Sunday. -/
theorem test_minute_windows :
    minuteIn 10000 60 10079 = true ∧ minuteIn 10000 60 59 = true ∧ minuteIn 10000 60 60 = false ∧ minuteIn 5 5 5 = false := by
  decide

/-- R116: from second 59 of the week's last minute the clock wraps to minute 0. -/
theorem test_week_wraps :
    (after (.minuteBoundary allBoundaryUnits)
      { State.reset with time := { ms := 0, sub := 999, second := 59, minute := 10079, valid := true } }).time
      = { ms := 1, sub := 0, second := 0, minute := 0, valid := true } := by decide

/-- R4: a transaction arriving while READY is low is held. -/
theorem test_held_while_not_ready :
    (after (.busTransaction (rd 0)) State.reset).ptu.inHand.map (fun h => h.phase) = some .readyLow := by decide

/-- R29, R5: a closing write held while a result was pending waits for the SRAM port once taken up, and RESTART_IN ends it with ERR. -/
theorem test_restart_ends_held_request_write :
    let a : InternalAccess := { kind := .result, addr := 0x7FF0038, data := [1, 0, 0, 0], len := 0 }
    let s := after .resultWriteDone
      (hand { asked up 1 [] with ptu.port := .internal a false } (wr 0x7FF003C 2) (some ctlWin) .requestHeld)
    s.ptu.inHand.map (fun h => h.phase) = some (.sramWait .requestWrite)
      ∧ (after .nodeRestart s).ptu.reply = some { txn := wr 0x7FF003C 2, ending := .err } := by decide

/-- Section 3.5: at a defer limit of 3 the third DEFER of a descriptor becomes a DROP. -/
theorem test_defer_limit :
    (deferStep 3 0x1000 (some { addr := 0x1000, count := 2 }) (.plain .defer .shaped)).2.action = .drop := by decide

/-- R130: an extension from level 0 opens at 4096. -/
theorem test_extension_opens :
    ((after .extendStation (withTable (asked up 4 [1, 0, 10]) [{ sta 0 1 with level := 0 }])).stu.stations.map
      (fun r => (r.level, r.ext))) = [(4096, 600)] := by decide

/-- R71: an IDLE hold that runs out frees its record. -/
theorem test_hold_frees :
    (after (.holdCountdownExpiry 0) (withTable up [{ sta 0 1 with state := .idle, hold := some 1 }, sta 5 2])).stu.stations.map
      (fun r => r.slot) = [5] := by decide

/-! ## States that meet the statements' hypotheses -/

/-- A block at work: every memory holds something, a record in each state, a game on, reports and accesses waiting. -/
def rich : State :=
  { up with
    sram := [(5, 1), (0x7FFFFFF, 2)], flash := [(0x060000, 0)]
    cau.shadow := [(0x3C, 9)]
    cau.published := 2, cau.consumer := 1, cau.writeIdx := 2, lines.attn := true
    cau.pending := [{ stamp := .counter 0, gap := false, body := .stationBack 1 2 }], cau.path := .body
    ptu.port := .passThrough
    ptu.queue := [{ access := { kind := .reportBody, addr := 0x7FF8040, data := [], len := 0 }, wait := 8 }]
    stu.pins := some { addr := 9, profile := 1, cls := none } :: List.replicate 63 none
    stu.stations :=
      [{ sta 0 1 with state := .idle, hold := some 60, mark := true }, { sta 1 2 with state := .expected, hold := some 30 },
       { sta 2 3 with gameActive := true, linger := 1 }, { sta 3 4 with state := .steering, steerTo := some 1, steerTimer := 1 },
       { sta 127 5 with state := .away, hold := some 120, current := some 2 }]
    cgu.count := 1, cgu.contention := true
    pending := [.sweepVisit] }

theorem wit_MemoriesStayCanonical : MemoriesCanonical rich ∧ ∃ t, step rich = .next t :=
  ⟨by unfold MemoriesCanonical; decide, _, rfl⟩

theorem wit_LinesAndReportQueueStayProper :
    AttnFollowsIndices rich ∧ ReadyFollowsStartUp rich ∧ PendingBounded rich ∧ ∃ t, step rich = .next t :=
  ⟨by unfold AttnFollowsIndices; decide, by unfold ReadyFollowsStartUp; decide, by unfold PendingBounded; decide, _, rfl⟩

theorem wit_TableAndPinsStayProper : TableProper rich ∧ PinsDistinct rich ∧ ∃ t, step rich = .next t :=
  ⟨by unfold TableProper; decide, by unfold PinsDistinct; decide, _, rfl⟩

theorem wit_AllowancesStayBounded : AllTokensBounded rich ∧ RatesProper rich ∧ ∃ t, step rich = .next t :=
  ⟨by unfold AllTokensBounded Station.TokensBounded; decide,
   by unfold RatesProper State.RateProper Profile.LevelsBounded; decide, _, rfl⟩

theorem wit_GameCountStaysTrue : (TableProper rich ∧ GamesCounted rich) ∧ ∃ t, step rich = .next t :=
  ⟨⟨by unfold TableProper; decide, by unfold GamesCounted; decide⟩, _, rfl⟩

theorem wit_RecordStatesStayProper : AllStatesProper rich ∧ ∃ t, step rich = .next t :=
  ⟨by unfold AllStatesProper Station.StateProper; decide, _, rfl⟩

theorem wit_LevelsStayAboveTargets : LevelsProper rich ∧ ∃ t, step rich = .next t :=
  ⟨by unfold LevelsProper Profile.LevelsBounded; decide, _, rfl⟩

theorem wit_ArbiterStaysProper : ArbiterProper rich ∧ ∃ t, step rich = .next t :=
  ⟨by unfold ArbiterProper; decide, _, rfl⟩

/-- Both empty-queue clauses at their boundary, sub-second counts 998 and 999; and at 998 no program, one in each suspension state,
and LOADING that waits for the flash. -/
theorem wit_StepRunsTheQueue :
    let a : State := { up with time := { up.time with sub := 998 } }
    let b : State := { up with time := { up.time with sub := 999 } }
    let w := fun u : Suspension => working a { prog with suspension := u }
    (a.pending = [] ∧ a.time.sub < 999 ∧ ∀ o, a.imu.port ≠ .busy o) ∧ (b.pending = [] ∧ 999 ≤ b.time.sub)
      ∧ (∀ u ∈ [Suspension.running, .suspending true, .suspending false, .suspended],
          (w u).pending = [] ∧ (w u).time.sub < 999 ∧ (w u).imu.port = .busy { prog with suspension := u })
      ∧ (State.reset.suc.startUp = .loading ∧ State.reset.suc.load = .status ∧ State.reset.time.sub < 999) :=
  ⟨⟨rfl, by decide, nofun⟩, by decide, by decide, by decide⟩

/-! ### Who may change what -/

theorem wit_MemoriesChangeOnlyAtTheirPorts :
    (∃ t, exec .sweepVisit rich = .next t) ∧ (∀ b u f, Instr.sweepVisit ≠ .flashStatusPoll b u f)
      ∧ ∀ f, Instr.sweepVisit ≠ .selectorReadbackEnd f :=
  ⟨⟨_, rfl⟩, nofun, nofun⟩

theorem wit_ClockAndConfigurationAreKept :
    (∃ t, exec .sweepVisit rich = .next t) ∧ (∀ o, Instr.sweepVisit ≠ .secondBoundary o)
      ∧ (∀ o, Instr.sweepVisit ≠ .minuteBoundary o) ∧ rich.suc.startUp ≠ .loading
      ∧ (∃ t, exec (.busTransaction (rd 0)) State.reset = .next t) ∧ State.reset.suc.startUp = .loading
      ∧ (∀ f, Instr.busTransaction (rd 0) ≠ .configBlockReadEnd f) ∧ (∀ b, Instr.busTransaction (rd 0) ≠ .loadingReadStatus b) :=
  ⟨⟨_, rfl⟩, nofun, nofun, by decide, ⟨_, rfl⟩, rfl, nofun, nofun⟩

/-- A node restart with nothing in hand, and with a transaction that waits for the SRAM port. -/
theorem wit_AbsorbedTablesAreKept :
    (∃ t, exec .nodeRestart rich = .next t) ∧ Instr.nodeRestart ≠ .powerOn
      ∧ (∀ h, rich.ptu.inHand = some h → h.phase ≠ .routed)
      ∧ (∀ h, (hand rich (rd 0) none (.sramWait .plain)).ptu.inHand = some h → h.phase ≠ .routed)
      ∧ Instr.nodeRestart ≠ .setTime ∧ (∀ o, Instr.nodeRestart ≠ .secondBoundary o)
      ∧ (∀ o, Instr.nodeRestart ≠ .minuteBoundary o) ∧ Instr.nodeRestart ≠ .profileRecord :=
  ⟨⟨_, rfl⟩, nofun, nofun, by rintro h ⟨⟩; decide, nofun, nofun, nofun, nofun⟩

theorem wit_CountsLinesAndMappingAreKept :
    let s : State := { rich with lines.restartReq := true, suc.flashFault := true }
    (∃ t, exec .sweepVisit s = .next t) ∧ s.lines.restartReq = true ∧ s.suc.flashFault = true
      ∧ (∀ b u f, Instr.sweepVisit ≠ .flashStatusPoll b u f) ∧ (∀ f, Instr.sweepVisit ≠ .selectorReadbackEnd f)
      ∧ Instr.sweepVisit ≠ .txDescriptorFetch ∧ Instr.sweepVisit ≠ .txHoldExpiry :=
  ⟨⟨_, rfl⟩, rfl, rfl, nofun, nofun, nofun, nofun⟩

/-! ### The pass-through path -/

/-- Address 2^28; a misaligned burst below it; the last word of the lower half and the first of the upper, in no window. -/
theorem wit_TransactionOutsideEveryWindow :
    let s : State := { up with ptu.windows := [] }
    2 ^ 28 ≤ (rd 0x10000000).addr
      ∧ ((rd 0xFFFFFFF).addr < 2 ^ 28 ∧ (rd 0xFFFFFFF).wf = false)
      ∧ ((rd 0x7FFFFFC).wf = true ∧ s.lines.ready = true ∧ s.ptu.inHand = none ∧ s.windowAt 0x7FFFFFC = none
          ∧ (rd 0x7FFFFFC).addr < 0x8000000)
      ∧ ((rd 0x8000000).wf = true ∧ s.windowAt 0x8000000 = none ∧ 0x8000000 ≤ (rd 0x8000000).addr) := by decide

/-- Master 0 may not write the TX ring window; both quiet flags; and a second boundary answers. -/
theorem wit_DeniedAccessAndProtectLimit :
    ((wr 0x1FFC 0).wf = true ∧ up.lines.ready = true ∧ up.ptu.inHand = none ∧ up.windowAt 0x1FFC = some txWin
        ∧ permitted txWin (wr 0x1FFC 0) = false)
      ∧ up.ptu.quiet = false ∧ ({ up with ptu.quiet := true, ptu.further := 65535 } : State).ptu.quiet = true
      ∧ ∃ t, exec (.secondBoundary []) up = .next t :=
  ⟨by decide, rfl, rfl, _, rfl⟩

/-- A permitted transaction to each window kind, at the windows' first or last addresses. -/
theorem wit_PermittedTransactionIsRouted :
    ([(rd 0x7FFFFFC, WindowKind.report), (rd 0x7FF0000, .control), (wr 0x7FF3FFC 0, .control), (txRead, .txRing),
      ({ txRead with addr := 0x1200 }, .txRing), (rxWr 0x21FC 0, .rxRing), (rxWr 0x2200 0, .rxRing),
      (rd 0x8000000, .boot), (rd 0x804FFFC, .config), (rd 0x8800000, .image), (rd 0x97CFFFC, .staging)].all (fun p =>
        p.1.wf && up.lines.ready && up.ptu.inHand.isNone &&
          (match up.windowAt p.1.addr with
           | some w => permitted w p.1 && w.kind == p.2
           | none => false))) = true := by decide

theorem wit_HeldWhileReadyIsLow :
    ((rd 0xFFFFFFC).wf = true ∧ State.reset.lines.ready = false ∧ State.reset.ptu.inHand = none)
      ∧ (hand State.reset (rd 0) none .readyLow).ptu.inHand
          = some { txn := rd 0, window := none, phase := .readyLow, heldUs := 0 } := by decide

/-- Oldest wait count 7 with a pass-through access waiting, a fill read still to return among them; wait count 8; no pass-through
access; and an access joining beside one a restart has overtaken, of another path and of its own. -/
theorem wit_SramPortArbitration :
    let q := fun n : Nat => ({ access := { kind := .status, addr := 0, data := [], len := 0 }, wait := n } : Queued)
    let s := fun n : Nat => hand { up with ptu.queue := [q n] } (rd 0) none (.sramWait .plain)
    ((s 7).ptu.port = .free ∧ ((s 7).ptu.queue.head?.map (fun x => x.wait)) = some 7)
      ∧ ((hand (s 7) (rxWr 0x2000 0x80000001) (some rxWin) (.sramWait .closingFill)).ptu.inHand.map (fun h => h.phase)
          = some (.sramWait .closingFill))
      ∧ ((s 8).ptu.port = .free ∧ (s 8).ptu.queue = [q 8] ∧ 8 ≤ (q 8).wait)
      ∧ (({ up with ptu.port := .internal (q 0).access true } : State).ptu.port = .internal (q 0).access true
          ∧ (q 0).access.kind.path ≠ InternalKind.result.path ∧ (q 0).access.kind.path = InternalKind.status.path)
      ∧ ({ up with ptu.queue := [q 0] } : State).waitingPass = none := by decide

theorem wit_SramAccessCompletes :
    let s : State := { up with ptu.port := .passThrough }
    let d := rxWr 0x2000 0x80000001
    ((hand s (rd 0) none (.sramBusy .plain)).ptu.port = .passThrough ∧ (rd 0).dir = .read)
      ∧ ((hand s txRead (some txWin) (.sramBusy .inspected)).ptu.inHand.map (fun h => h.phase) = some (.sramBusy .inspected))
      ∧ ((hand s d (some rxWin) (.sramBusy .closingFill)).ptu.inHand.map (fun h => h.phase) = some (.sramBusy .closingFill))
      ∧ ((wr 0x7FFFFFC 1).wf = true ∧ (wr 0x7FFFFFC 1).dir = .write ∧ Memory.wf Config.sramUnwritten rich.sram = true
          ∧ (hand s (wr 0x7FFFFFC 1) none (.sramBusy .plain)).ptu.inHand.isSome = true
          ∧ (hand s (wr 0x7FF003C 2) (some ctlWin) (.sramBusy .requestWrite)).ptu.inHand.map (fun h => h.phase)
              = some (.sramBusy .requestWrite))
      ∧ (d.wf = true ∧ d.dir = .write
          ∧ (hand s d (some rxWin) (.sramBusy (.closingWrite true))).ptu.inHand.map (fun h => h.phase)
              = some (.sramBusy (.closingWrite true))) := by decide

/-! ### Descriptor inspection -/

/-- A TX descriptor with the ready flag and a destination. -/
def desc (ready : Bool) : List Word := [if ready then 0x80000100 else 0x100, 100, 0, 1, 0, 0, 0, 0]

/-- The first descriptor's read held for its decision. -/
def txHeld (s : State) : State := hand s txRead (some txWin) (.txHeld (desc true))

/-- Fetched words of both kinds, in time and late; held for the decision; and waiting for the port and on it. -/
theorem wit_TransmitReadHeldOrLate :
    txReady (desc false) = false ∧ txReady (desc true) = true
      ∧ (hand up txRead (some txWin) (.fetched (desc true))).ptu.inHand.map (fun h => h.phase) = some (.fetched (desc true))
      ∧ (({ up with ptu.inHand := some { txn := txRead, window := some txWin, phase := .fetched (desc true), heldUs := 8
                                         late := true } } : State).ptu.inHand.map (fun h => h.late) = some true)
      ∧ (hand up txRead (some txWin) (.fetched (desc true))).ptu.inHand.map (fun h => h.late) = some false
      ∧ (hand up txRead (some txWin) (.sramWait .inspected)).ptu.inHand.map (fun h => h.phase) = some (.sramWait .inspected)
      ∧ (hand up txRead (some txWin) (.sramBusy .inspected)).ptu.inHand.map (fun h => h.phase) = some (.sramBusy .inspected)
      ∧ (txHeld up).ptu.inHand.map (fun h => h.phase) = some (.txHeld (desc true)) := by decide

/-- Unrecorded at both targets, AWAY, level 0, and a PASS of each kind. -/
theorem wit_TransmitDecisionBeforeTokens :
    (txHeld up).recordOf (txDest (desc true)) = none
      ∧ 0 < ((txHeld up).profileOf 0).target
      ∧ (({ up with scu.profiles := [{ Profile.powerOn with target := 0 }] } : State).profileOf 0).target = 0
      ∧ (withTable (txHeld up) [{ sta 0 1 with state := .away, current := some 7 }]).recordOf (txDest (desc true))
          = some { sta 0 1 with state := .away, current := some 7 }
      ∧ (withTable (txHeld up) [{ sta 0 1 with level := 0 }]).recordOf (txDest (desc true)) = some { sta 0 1 with level := 0 }
      ∧ (up.judge (desc true)).1.action = .pass ∧ ((withTable up [{ sta 0 1 with level := 1 }]).judge (desc true)).1.action = .pass := by
  decide

/-- A GAME frame at tokens equal to the reserve, and one sixteenth below it. -/
theorem wit_TransmitDecisionByTokens :
    let r := { sta 0 1 with tokens := -8388608 }
    let r' := { sta 0 1 with tokens := -8388609 }
    (withTable (txHeld up) [r]).recordOf (txDest (desc true)) = some r ∧ r.state ≠ .away ∧ 0 < r.level
      ∧ up.resolveClass r.pinned (txClass (desc true)) 0 = .game
      ∧ reserveOf .game (settle up.time.ms r).cap ≤ (settle up.time.ms r).tokens
      ∧ (settle up.time.ms r').tokens < reserveOf .game (settle up.time.ms r').cap := by decide

/-- A DEFER below and at the limit, for the record's own address and for another; another action. -/
theorem wit_DeferRecordRule :
    (TxOutcome.plain .pass .none).action ≠ .defer ∧ (TxOutcome.plain .defer .shaped).action = .defer
      ∧ (∃ k, (some { addr := 32, count := 14 } : Option Defer) = some { addr := 32, count := k } ∧ 15 = k + 1 ∧ 15 < 16)
      ∧ (∃ k, (some { addr := 32, count := 15 } : Option Defer) = some { addr := 32, count := k } ∧ 16 = k + 1 ∧ 16 ≤ 16)
      ∧ (∀ q : Defer, some { addr := 32, count := 5 } = some q → q.addr ≠ 64) :=
  ⟨by decide, rfl, ⟨14, rfl, rfl, by decide⟩, ⟨15, rfl, rfl, by decide⟩, by rintro q ⟨⟩; decide⟩

theorem wit_ReturnedDescriptor :
    (desc true).length = 8
      ∧ ({ TxOutcome.plain .redirect .none with egress := some 15, node := some 7 } : TxOutcome).egress = some 15
      ∧ 15 < 16 ∧ 7 < 8 ∧ (TxOutcome.plain .drop .paused).egress = none ∧ (TxOutcome.plain .drop .paused).node = none := by decide

/-- A closing write of descriptor 0. -/
def closing (k : Word) : Transaction := rxWr 0x2000 (0x80000000 ||| k)

/-- A capture record of descriptor 0 that has words 1 to 5. -/
def seen : Capture := { addr := some 0x2000, words := [some 16, some 0x3000, some 1, some 0, some 0xC4, none, none] }

/-- Word 7 alone; a halfword; word 0 without the done flag, of the record's descriptor and of another; and each phase of the
expiry. -/
theorem wit_ReceiveCaptureAndExpiry :
    (closingWrite (rxWr 0x201C 5) = false ∧ (hand up (rxWr 0x201C 5) (some rxWin) .routed).rxInHand false
        = some ({ txn := rxWr 0x201C 5, window := some rxWin, phase := .routed, heldUs := 0 }, rxWin))
      ∧ (closingWrite (closing 1) = true ∧ rxWin.kind = .rxRing)
      ∧ ((hand up (closing 1) (some rxWin) (.sramWait .closingFill)).ptu.inHand.map (fun h => h.phase)
          = some (.sramWait .closingFill))
      ∧ ((hand up (closing 1) (some rxWin) (.sramBusy .closingFill)).ptu.inHand.map (fun h => h.phase)
          = some (.sramBusy .closingFill))
      ∧ ((rxWr 0x2000 1).wf = true ∧ onlyWordZero (rxWr 0x2000 1) = true ∧ closingWrite (rxWr 0x2000 1) = false)
      ∧ ((closing 1).wf = true ∧ (closing 1).dir = .write ∧ onlyWordZero (closing 1) = true
          ∧ ({ seen with addr := some 0x2020 } : Capture).addr ≠ some (descriptorOf (closing 1)))
      ∧ ((rxWr 0x2020 1).wf = true ∧ onlyWordZero (rxWr 0x2020 1) = true ∧ seen.addr ≠ some (descriptorOf (rxWr 0x2020 1)))
      ∧ ((rxWr 0x201C 5).wf = true ∧ onlyWordZero (rxWr 0x201C 5) = false ∧ seen.words.length = 7
          ∧ (0x2000 + 4 * 7, 5#32) ∈ (rxWr 0x201C 5).fullWords)
      ∧ (({ rxWr 0x2004 5 with form := .single 0b0011 } : Transaction).wf = true
          ∧ ({ rxWr 0x2004 5 with form := .single 0b0011 } : Transaction).partWord = some (0x2000 + 4 * 1)) := by decide

/-- With every needed word seen; with one missing; under the grant; gated, let through, and a peer report. -/
theorem wit_ReceiveDecision :
    let s : State := { up with diu.captures := [seen] }
    let c := captureWrite (s.captureOf 0) (closing 1)
    (c.addr = some (descriptorOf (closing 1)) ∧ c.complete (rxKind 0x80000001) = true ∧ (closing 1).dir = .write
        ∧ closingWrite (closing 1) = true)
      ∧ (captureWrite (up.captureOf 0) (closing 1)).complete (rxKind 0x80000001) = false
      ∧ ((hand up (closing 1) (some rxWin) (.sramWait .closingFill)).ptu.port = .free ∧ (∀ q ∈ up.ptu.queue.head?, q.wait < 8))
      ∧ ((∀ q ∈ ({ up with ptu.queue := [{ access := { kind := .status, addr := 0, data := [], len := 0 }, wait := 7 }] }
            : State).ptu.queue.head?, q.wait < 8)
          ∧ (hand up (closing 1) (some rxWin) (.sramBusy .closingFill)).ptu.inHand.map (fun h => h.phase)
              = some (.sramBusy .closingFill))
      ∧ ((withTable up [{ sta 0 1 with level := 0 }]).receive 0 0x80000001 (fun i => (seen.word i).getD 0)).1 = true
      ∧ (rxKind 0x80000001 ≠ .peerReport ∧ rxKind 0x80000005 = .peerReport)
      ∧ (let drop := fun i : Nat => ({ seen with words := seen.words.set (i - 1) none } : Capture)
        [3, 4, 5].all (fun i => !(drop i).complete (rxKind 0x80000001)) = true
          ∧ [1, 2].all (fun i => (drop i).complete (rxKind 0x80000001) && !(drop i).complete .peerReport) = true
          ∧ seen.complete .peerReport = true) := by decide

/-- A full table: an AWAY record in the last slot, every other ASSOCIATED. -/
def full : List Station :=
  (List.range 127).map (fun k => sta k (BitVec.ofNat 48 (k + 2)))
    ++ [{ sta 127 200 with state := .away, hold := some 1, current := some 2 }]

/-- A known address in IDLE and in AWAY; an unknown one with a FREE slot, in a full table with a victim and in one with none, with
a pin and without; signal fields of 127, 128 and 129; samples of no record, of one with an entry of the node and of one with
another's; estimates below, above and at the sample. -/
theorem wit_ObservationsLearnAndSample :
    ((withTable up [{ sta 0 1 with state := .idle, hold := some 1 }]).recordOf 1
        = some { sta 0 1 with state := .idle, hold := some 1 }
      ∧ (withTable up [{ sta 0 1 with state := .away, hold := some 1, current := some 7 }]).recordOf 1
          = some { sta 0 1 with state := .away, hold := some 1, current := some 7 }
      ∧ up.recordOf 1 = none ∧ up.freeSlot = some 0 ∧ (withTable up [sta 0 1]).freeSlot = some 1
      ∧ ((-2032 : Int) < 16 * 0) ∧ (16 * (-127) < (0 : Int)) ∧ ((-960 : Int) = 16 * (-60)))
      ∧ (({ up with stu.pins := List.replicate 63 none ++ [some { addr := 1, profile := 15, cls := some .game }] }
            : State).stu.pins.getD 63 none = some { addr := 1, profile := 15, cls := some .game }
          ∧ PinsDistinct { up with stu.pins := List.replicate 63 none ++ [some { addr := 1, profile := 15, cls := some .game }] }
          ∧ ∀ p, some p ∈ up.stu.pins → p.addr ≠ 1)
      ∧ ((withTable up full).recordOf 1 = none ∧ (withTable up full).freeSlot = none
          ∧ (withTable up full).victim = some { sta 127 200 with state := .away, hold := some 1, current := some 2 }
          ∧ TableProper (withTable up full)
          ∧ (sta 127 200).gameActive = false)
      ∧ (let v : Station := { sta 127 200 with state := .idle, hold := some 1, gameActive := true }
        (withTable up (full.dropLast ++ [v])).recordOf 1 = none ∧ (withTable up (full.dropLast ++ [v])).freeSlot = none
          ∧ (withTable up (full.dropLast ++ [v])).victim = some v ∧ TableProper (withTable up (full.dropLast ++ [v])))
      ∧ ((withTable up ((List.range 128).map (fun k => sta k (BitVec.ofNat 48 (k + 2))))).freeSlot = none
          ∧ (withTable up ((List.range 128).map (fun k => sta k (BitVec.ofNat 48 (k + 2))))).victim = none)
      ∧ (field 0x7F 0 8 < 128 ∧ field 0x80 0 8 = 128 ∧ 128 < field 0x81 0 8)
      ∧ (let r := fun n : Nat => { sta 0 1 with estimates := [{ node := n, value := -960, age := 60 }] }
        TableProper rich ∧ up.recordOf 1 = none ∧ (withTable up [r 0]).recordOf 1 = some (r 0)
          ∧ (withTable up [r 7]).recordOf 1 = some (r 7) ∧ up.suc.node = 0
          ∧ (r 0).entryOf up.suc.node = some { node := 0, value := -960, age := 60 } ∧ (r 7).entryOf up.suc.node = none)
      ∧ ({ sta 0 1 with state := .away, current := some 7 } : Station).current = some 7 :=
  ⟨by decide, ⟨by decide, by unfold PinsDistinct; decide,
    fun p hp => by cases List.eq_of_mem_replicate (show some p ∈ List.replicate 64 none from hp)⟩,
   ⟨by decide, by decide, by decide, by unfold TableProper; decide, rfl⟩,
   ⟨by decide, by decide, by decide, by unfold TableProper; decide⟩, ⟨by decide, by decide⟩, by decide,
   ⟨by unfold TableProper; decide, by decide⟩, rfl⟩

/-- Buffers at the boundaries of R57, a header read under each clause of R58, entries handed, wanting and all handed, claims in
each state, and an access waiting behind an overtaken read. -/
theorem wit_PeerReportFetch :
    let a : InternalAccess := { kind := .peerFetch, addr := 0x3000, data := [], len := 16 }
    let b : PeerBuffer := { addr := 0x3000, len := 28 }
    let s : State := { up with ptu.port := .internal a false, diu.peerQueue := [b] }
    let hdr := fun f n c : Byte => ({ s with sram := [(0x3000, f), (0x3001, n), (0x3002, c)] } : State).sramBytes 0x3000 16
    ((0x3002 % 4 ≠ 0) ∧ 0x8000000 < 0x7FFFFF0 + 17 ∧ 0x7FFFFF0 + 16 ≤ 0x8000000)
      ∧ (a.kind = .peerFetch ∧ a.data = [] ∧ s.ptu.port = .internal a false ∧ s.diu.peerQueue = [b]
          ∧ s.diu.fetch.taken = none)
      ∧ (16 ≤ (hdr 1 7 1).length ∧ (hdr 2 7 1).getD 0 0 ≠ 1#8 ∧ (hdr 1 0 1).getD 0 0 = 1#8
          ∧ ((hdr 1 0 1).getD 1 0).toNat = s.suc.node ∧ 7 < ((hdr 1 8 1).getD 1 0).toNat
          ∧ ((hdr 1 7 1).getD 1 0).toNat ≤ 7 ∧ ((hdr 1 7 1).getD 1 0).toNat ≠ s.suc.node
          ∧ min ((hdr 1 7 0).getD 2 0).toNat (min 32 ((b.len - 16) / 12)) = 0
          ∧ 0 < min ((hdr 1 7 255).getD 2 0).toNat (min 32 ((b.len - 16) / 12)))
      ∧ ({ s with diu.fetch := { bytes := hdr 1 7 1, taken := some (7, 1), handed := 0 } } : State).diu.fetch.taken
          = some (7, 1)
      ∧ (let f := fun k n : Nat => ({ bytes := List.replicate n 0, taken := some (7, 2), handed := k } : Fetch)
        let there := fun q : Fetch => min 2 ((q.bytes.length - 16) / 12)
        (f 0 28).handed < there (f 0 28) ∧ (f 1 39).handed = there (f 1 39) ∧ there (f 1 39) < 2
          ∧ (f 2 40).handed = there (f 2 40) ∧ there (f 2 40) = 2)
      ∧ (let c := fun st : StationState => { sta 0 1 with state := st, current := some 3 }
        (withTable up [c .away]).recordOf 1 = some (c .away) ∧ (c .away).current ≠ some 7 ∧ (c .away).current = some 3
          ∧ (withTable up [c .expected]).recordOf 1 = some (c .expected) ∧ (withTable up [c .idle]).recordOf 1 = some (c .idle)
          ∧ up.recordOf 1 = none)
      ∧ ({ up with ptu.port := .internal a true, ptu.behind := some a } : State).ptu.port = .internal a true
      ∧ (up.diu.peerQueue = [] ∧ s.diu.peerQueue = b :: [] ∧ s.diu.fetch.taken = none
          ∧ ({ s with diu.fetch := { bytes := List.replicate 39 0, taken := some (7, 2), handed := 1 } } : State).diu.fetch.taken
              = some (7, 2)) := by decide

/-! ### The control area, requests and reports -/

/-- A CONTROL write of the word at an offset, handed to the CAU. -/
def ctl (s : State) (o : Nat) (v : Word) : State := hand s (wr (0x7FF0000 + o) v) (some ctlWin) .routed

/-- The transaction in hand of such a state. -/
def ctlHand (o : Nat) (v : Word) : InHand := { txn := wr (0x7FF0000 + o) v, window := some ctlWin, phase := .routed, heldUs := 0 }

/-- An absorbed argument word, and an offset outside every absorbed region. -/
theorem wit_ControlWriteReachesShadow :
    (ctl up 0x38 7).routedTo .control .write = some (ctlHand 0x38 7, ctlWin)
      ∧ controlUse ctlWin.base (ctlHand 0x38 7).txn = .plain ∧ controlUse ctlWin.base (ctlHand 0x3FFC 7).txn = .plain
      ∧ (ctlHand 0x38 7).txn.wf = true ∧ ctlWin.base ≤ wordBase (ctlHand 0x38 7).txn.addr
      ∧ Memory.wf Config.shadowZero rich.cau.shadow = true
      ∧ (0x7FF0038, 7#8) ∈ (ctlHand 0x38 7).txn.cells ∧ absorbed 0x38 = true ∧ absorbed 0x3FFC = false := by decide

/-- N = 1,024, consumer 1,023, published 5: proposals of 5, of 6, of 1,023 and of 1,024. -/
theorem wit_ConsumerIndexProposal :
    let s : State := { up with cau.consumer := 1023, cau.published := 5 }
    let d := fun c => (c + 1024 - 1023) % 1024
    (ctl s 0x40 5).routedTo .control .write = some (ctlHand 0x40 5, ctlWin)
      ∧ controlUse ctlWin.base (ctlHand 0x40 5).txn = .consumerIndex ∧ s.ringSize = 1024
      ∧ (((ctl s 0x40 5).absorb (ctlHand 0x40 5) ctlWin).shadowWord 0x40).toNat = 5
      ∧ d 5 ≤ d 5 ∧ d 1023 ≤ d 5 ∧ d 5 < d 6
      ∧ 1024 ≤ (((ctl s 0x40 1024).absorb (ctlHand 0x40 1024) ctlWin).shadowWord 0x40).toNat := by decide

/-- The last four entries: bytes 5, 1, 0 and 6. -/
theorem wit_ClassMapEntriesStored :
    (ctl up 0x4FC 0x06000105).routedTo .control .write = some (ctlHand 0x4FC 0x06000105, ctlWin)
      ∧ controlUse ctlWin.base (ctlHand 0x4FC 0x06000105).txn = .classMap ∧ (ctlHand 0x4FC 0x06000105).txn.wf = true
      ∧ ctlWin.base ≤ wordBase (ctlHand 0x4FC 0x06000105).txn.addr ∧ up.cgu.classMap.length = 256
      ∧ (ctlWin.base + 0x0400 + 252, 5#8) ∈ (ctlHand 0x4FC 0x06000105).txn.cells
      ∧ (5#8).toNat = Machine.Class.background.code ∧ (∀ c : Machine.Class, (6#8).toNat ≠ c.code) :=
  ⟨by decide, by decide, by decide, by decide, by decide, by decide, by decide, by intro c; cases c <;> decide⟩

/-- A record of zeros over the power-on values changes factor, sustain and linger; over its own values it changes nothing. -/
theorem wit_NodePolicyTaken :
    let p := policyOfWords (((ctl up 0xBC 0).absorb (ctlHand 0xBC 0) ctlWin).shadowWords 0x80 16)
    (ctl up 0xBC 0).routedTo .control .write = some (ctlHand 0xBC 0, ctlWin)
      ∧ controlUse ctlWin.base (ctlHand 0xBC 0).txn = .policy
      ∧ p.factor ≠ up.policy.factor ∧ p.sustain < up.policy.sustain ∧ p.linger < up.policy.linger
      ∧ p.refRate ≠ up.policy.refRate ∧ (withTable up [sta 0 1]).stu.stations.map (fun r => (up.profileOf r.profile).ceiling) = [0]
      ∧ ({ up with policy := p } : State).policy.refRate = p.refRate
      ∧ (p.sustain = 1 ∧ p.linger = 5 ∧ (withTable up [{ sta 0 1 with sustain := 2, gameActive := true, linger := 6 },
            { sta 1 2 with sustain := 1, gameActive := true, linger := 5 }]).stu.stations.map
              (fun r => (r.gameActive, min p.sustain r.sustain, min p.linger r.linger)) = [(true, 1, 5), (true, 1, 5)]) := by
  decide

/-- Profile 15 with slope code 0 and with slope code 8, and each other field at its upper end and past it. -/
theorem wit_ProfileTakenOrRefused :
    let w31 := 0x0800 + 128 * 15 + 124
    (ctl up w31 0).routedTo .control .write = some (ctlHand w31 0, ctlWin)
      ∧ controlUse ctlWin.base (ctlHand w31 0).txn = .profile
      ∧ (fullWordOffsets ctlWin.base (ctlHand w31 0).txn).filter isProfileClosing = [w31]
      ∧ profileInRange (profileOfWords (((ctl up w31 0).absorb (ctlHand w31 0) ctlWin).shadowWords (0x0800 + 128 * 15) 32) 0)
          = true
      ∧ profileInRange (profileOfWords (((ctl up w31 8).absorb (ctlHand w31 8) ctlWin).shadowWords (0x0800 + 128 * 15) 32) 0)
          = false
      ∧ (let p : Profile := { (profileOfWords [] 0) with
          defaultLevel := 4096, slope := 7, count := 8, windows := List.replicate 8 { start := 10079, stop := 10079, level := 4096 } }
        profileInRange p = true ∧ profileInRange { p with defaultLevel := 4097 } = false
          ∧ profileInRange { p with count := 9 } = false
          ∧ [({ start := 10080, stop := 0, level := 0 } : ProfileWindow), { start := 0, stop := 10080, level := 0 },
              { start := 0, stop := 0, level := 4097 }].all (fun w => profileInRange { p with windows := [w] } == false) = true) := by
  decide

/-- Pin 63 made valid by its closing word, and pins 62 and 63 by one burst; pin 63 over a table where pin 0 holds its address and
the record's profile changes; words with the valid bit clear and set, and class codes 0, 1, 5 and 6. -/
theorem wit_PinTakenAndApplied :
    let w3 := 0x1000 + 16 * 63 + 12
    let burst : Transaction :=
      { addr := 0x7FF0000 + 0x1000 + 16 * 62, master := 0, dir := .write, form := .burst 8, data := [1, 0, 15, 1, 2, 0, 0, 1] }
    let s : State := { withTable up [sta 0 1] with stu.pins := some { addr := 1, profile := 3, cls := none } :: List.replicate 63 none }
    ((ctl up w3 1).routedTo .control .write = some (ctlHand w3 1, ctlWin)
      ∧ controlUse ctlWin.base (ctlHand w3 1).txn = .pin
      ∧ (fullWordOffsets ctlWin.base (ctlHand w3 1).txn).filter isPinClosing = [w3])
      ∧ ((hand up burst (some ctlWin) .routed).routedTo .control .write
          = some ({ txn := burst, window := some ctlWin, phase := .routed, heldUs := 0 }, ctlWin)
        ∧ controlUse ctlWin.base burst = .pin
        ∧ (fullWordOffsets ctlWin.base burst).filter isPinClosing = [0x1000 + 16 * 62 + 12, w3])
      ∧ (63 < 64 ∧ s.stu.pins.length = 64 ∧ PinsDistinct s)
      ∧ (bit 0 0 = false ∧ bit 1 0 = true ∧ Machine.Class.game.code = field 0x100 8 3
          ∧ Machine.Class.background.code = field 0x500 8 3 ∧ field 0 8 3 = 0 ∧ 5 < field 0x600 8 3) :=
  ⟨by decide, by decide, ⟨by decide, by decide, by unfold PinsDistinct; decide⟩, by decide⟩

/-- Kinds 1 and 12 by a closing write of a FREE slot, and kinds 0 and 13 in hand. -/
theorem wit_RequestTakenFromShadow :
    (ctl up 0x3C 12).routedTo .control .write = some (ctlHand 0x3C 12, ctlWin)
      ∧ controlUse ctlWin.base (ctlHand 0x3C 12).txn = .request ∧ up.cau.slot = .free
      ∧ (((ctl up 0x3C 12).absorb (ctlHand 0x3C 12) ctlWin).shadowWord 0x3C).toNat = 12 ∧ (12, Instr.bootConfirm) ∈ requestRows
      ∧ ((asked up 13 []).cau.slot = .pending ∧ 12 < (13 : Word).toNat ∧ (0 : Word).toNat = 0) := by decide

theorem wit_RequestClosingWriteHeld :
    let s := asked up 1 []
    (ctl s 0x3C 2).routedTo .control .write = some (ctlHand 0x3C 2, ctlWin)
      ∧ controlUse ctlWin.base (ctlHand 0x3C 2).txn = .request ∧ s.cau.slot = .pending
      ∧ (hand s (wr 0x7FF003C 2) (some ctlWin) .requestHeld).ptu.inHand.map (fun h => h.phase) = some .requestHeld := by decide

/-- Minutes 10,079 and 10,080, seconds 59 and 60; windows whose start lies below, above and at their stop; a profile at a minute in
two of its windows in use, at one in a window out of use alone, and at a time that is not valid. -/
theorem wit_SetTimeRequest :
    let q := fun m s : Word => ({ kind := 1, args := [m, s] } : Request)
    (asked up 1 [10079, 59]).HasRequest 1 (q 10079 59)
      ∧ ((q 10079 59).arg 0 ≤ 10079 ∧ (q 10079 59).arg 1 ≤ 59 ∧ 10079 < (q 10080 0).arg 0 ∧ 59 < (q 0 60).arg 1)
      ∧ (5 < 60 ∧ 0 < 10079 ∧ ¬5 < 5)
      ∧ (let win := fun a b l : Nat => ({ start := a, stop := b, level := l } : ProfileWindow)
        let p := { Profile.powerOn with count := 2, windows := [win 10000 60 3, win 5 10079 2, win 0 10079 1] }
        let holds := fun (m : Nat) (w : ProfileWindow) => minuteIn w.start w.stop m = true
        let c := fun m : Nat => ({ ms := 0, sub := 0, second := 0, minute := m, valid := true } : TimeBase)
        p.windows.take p.count = [win 10000 60 3, win 5 10079 2] ∧ State.reset.time.valid = false ∧ (c 59).valid = true
          ∧ [5, 59, 60, 10000, 10078, 10079, 0].all (fun m => (p.windows.take p.count).any (fun w => minuteIn w.start w.stop m))
              = true
          ∧ holds 59 (win 10000 60 3) ∧ holds 59 (win 5 10079 2) ∧ holds 4 (win 0 10079 1)
          ∧ ∀ w ∈ [win 5 10079 2], ¬holds 4 w) :=
  ⟨⟨rfl, rfl, rfl⟩, by decide, by decide, by decide⟩

/-- Pauses of 1,440 and 1,441 minutes, a paused record at level 0, extensions of 0, 1, 240 and 241 minutes. -/
theorem wit_PauseResumeExtendRequests :
    let q := fun (k n : Word) => ({ kind := k, args := [1, 0, n] } : Request)
    let p := { sta 0 1 with pause := .indefinite, level := 0 }
    (asked up 2 [1, 0, 1440]).HasRequest 2 (q 2 1440) ∧ (asked up 3 [1, 0, 0]).HasRequest 3 (q 3 0)
      ∧ (asked up 4 [1, 0, 240]).HasRequest 4 (q 4 240)
      ∧ ((q 2 1440).arg 2 ≤ 1440 ∧ 1440 < (q 2 1441).arg 2 ∧ (q 4 0).arg 2 = 0 ∧ 1 ≤ (q 4 1).arg 2 ∧ (q 4 240).arg 2 ≤ 240
          ∧ 240 < (q 4 241).arg 2)
      ∧ (up.recordOf (q 2 0).station = none ∧ (withTable up [sta 0 1]).recordOf (q 2 0).station = some (sta 0 1)
          ∧ (sta 0 1).pause.inForce = false ∧ (sta 0 1).level ≤ 4096)
      ∧ (p.pause.inForce = true ∧ ({ sta 0 1 with pause := .timed 1 } : Station).pause.inForce = true
          ∧ ({ sta 0 1 with pause := .timed 0 } : Station).pause.inForce = false
          ∧ 0 < ({ sta 0 1 with ext := 1 } : Station).ext ∧ (sta 0 1).ext = 0 ∧ (4095 ≤ 4095 ∧ 4095 < 4096 ∧ 7 ≠ 0))
      ∧ ((withTable up [p]).recordOf (q 3 0).station = some p ∧ p.pause.inForce = true ∧ p.level = 0 ∧ p.ext = 0)
      ∧ (let moves := fun t0 l0 t1 l1 : Nat => levelEdges 1 t0 l0 t1 l1
        moves 1 1 0 0 = [.levelEdge 1 .gated 0 0] ∧ moves 0 0 1 1 = [.levelEdge 1 .opened 1 1]
          ∧ moves 2 2 1 2 = [.levelEdge 1 .windDown 2 1] ∧ moves 1 2 1 2 = [] ∧ moves 2 2 2 2 = [] ∧ moves 0 0 0 0 = []) :=
  ⟨⟨rfl, rfl, rfl⟩, ⟨rfl, rfl, rfl⟩, ⟨rfl, rfl, rfl⟩, by decide, by decide, by decide, by decide, by decide⟩

/-- A record to forget; holds of 1 and 0 seconds in the three states; the table of `rich`. -/
theorem wit_FreesByRequestAndHold :
    (asked rich 5 [1, 0]).HasRequest 5 { kind := 5, args := [1, 0] }
      ∧ rich.recordOf ({ kind := 5, args := [1, 0] } : Request).station
          = some { sta 0 1 with state := .idle, hold := some 60, mark := true }
      ∧ up.recordOf 1 = none
      ∧ (∀ st ∈ [StationState.idle, .expected, .away], ∀ n ∈ [0, 1],
          (withTable up [{ sta 127 1 with state := st, hold := some n }]).recordAt 127
            = some { sta 127 1 with state := st, hold := some n })
      ∧ TableProper rich ∧ sta 0 1 ∈ (withTable up [sta 0 1]).stu.stations
      ∧ (let g := { sta 0 1 with gameActive := true }
        g ∈ (withTable up [g]).stu.stations ∧ TableProper (withTable up [g]) ∧ g.gameActive = true
          ∧ (sta 0 1).gameActive = false) :=
  ⟨⟨rfl, rfl, rfl⟩, by decide, by decide, by decide, by unfold TableProper; decide, by decide,
   by decide, by unfold TableProper; decide, rfl, rfl⟩

/-- A context at its upper ends, one out of range, a record found, a FREE slot, and a full table with a victim and with none. -/
theorem wit_ImportContextRequest :
    let q : Request := { kind := 6, args := [1, 0, 2, 86400, 0, 4096, 1, 300, 4] }
    let stuck := (List.range 128).map (fun k => sta k (BitVec.ofNat 48 (k + 2)))
    let found := withTable (asked up 6 q.args) [{ sta 0 1 with state := .away, current := some 7, hold := some 1 }, sta 5 3]
    (asked up 6 q.args).HasRequest 6 q
      ∧ (found.HasRequest 6 q
          ∧ found.recordOf q.station = some { sta 0 1 with state := .away, current := some 7, hold := some 1 } ∧ TableProper found)
      ∧ (contextOf q = some { pause := .timed 86400, ext := 0, level := 4096, active := true, linger := 300, failures := 4 }
          ∧ contextOf { q with args := [1, 0, 2, 86401, 0, 4096, 1, 300, 4] } = none
          ∧ (contextOf { q with args := [1, 0, 0, 0, 0, 0, 0, 0, 0] }).map (fun c => c.active) = some false
          ∧ contextOf { q with args := [1, 0, 1, 0, 1, 0, 0, 0, 0] } = none)
      ∧ ((withTable up [sta 0 1]).recordOf q.station = some (sta 0 1) ∧ up.recordOf q.station = none ∧ up.freeSlot = some 0)
      ∧ (withTable up stuck).recordOf q.station = none ∧ (withTable up stuck).makeRoom = none ∧ TableProper (asked up 6 q.args)
      ∧ ((withTable up full).recordOf q.station = none ∧ (withTable up full).freeSlot = none
          ∧ (withTable up full).victim = some { sta 127 200 with state := .away, hold := some 1, current := some 2 }
          ∧ TableProper (withTable up full)) :=
  ⟨⟨rfl, rfl, rfl⟩, ⟨⟨rfl, rfl, rfl⟩, by decide, by unfold TableProper; decide⟩, by decide, by decide, by decide, by decide,
   by unfold TableProper; decide, by decide, by decide, by decide, by unfold TableProper; decide⟩

/-- IMAGE_OPEN at the lengths 1, 8,192,000, 64 and 65,536 and beyond; a session to close and to abort. -/
theorem wit_SessionRequests :
    let q := fun k a b : Word => ({ kind := k, args := [a, b, 0, 0] } : Request)
    let recv : Session := { Session.idle with state := .receiving, length := 5, nextWord := 2, current := List.replicate 8 0 }
    (asked up 7 [1, 8192000, 0, 0]).HasRequest 7 (q 7 1 8192000) ∧ (asked up 8 [0, 0, 0, 0]).HasRequest 8 (q 8 0 0)
      ∧ (asked up 9 [0, 0, 0, 0]).HasRequest 9 (q 9 0 0)
      ∧ (up.imu.session.state = .idle ∧ up.suc.boot = .confirmed ∧ (q 7 1 1).arg 1 = 1 ∧ (q 7 1 8192000).arg 1 ≤ 8192000
          ∧ 8192000 < (q 7 1 8192001).arg 1 ∧ (q 7 2 64).arg 1 = 64 ∧ (q 7 2 63).arg 1 < 64 ∧ (q 7 2 65536).arg 1 ≤ 65536)
      ∧ (recv.state = .receiving ∧ recv.nextWord = (recv.length + 3) / 4 ∧ recv.current ≠ []
          ∧ recv.state ≠ .idle ∧ recv.state ≠ .committing ∧ recv.state ≠ .committed ∧ recv.state ≠ .draining
          ∧ ({ recv with state := .draining } : Session).state = .draining)
      ∧ (Session.idle.nextWord = (Session.idle.length + 3) / 4 ∧ Session.idle.current = [])
      ∧ (up.imu.port = .free ∧ (working up prog).imu.port = .busy prog ∧ prog.owner = .session
          ∧ ({ prog with owner := .startUp } : FlashOp).owner ≠ .session
          ∧ (∀ p ∈ [ReadFor.verify, .passThrough, .scan],
              ({ up with imu.port := .reading p true 0 4 } : State).imu.port = .reading p true 0 4)) :=
  ⟨⟨rfl, rfl, rfl⟩, ⟨rfl, rfl, rfl⟩, ⟨rfl, rfl, rfl⟩, by decide, by decide, by decide, by decide⟩

theorem wit_ActivationRequests :
    let q := fun k a : Word => ({ kind := k, args := [a] } : Request)
    let n : Session := { Session.idle with state := .verified, target := some (.image .b) }
    (asked up 10 [3]).HasRequest 10 (q 10 3) ∧ (asked up 11 [0]).HasRequest 11 (q 11 0)
      ∧ (n.state = .verified ∧ n.target = some (.image .b) ∧ (q 10 3).arg 0 ≤ 3 ∧ 3 < (q 10 4).arg 0)
      ∧ (({ n with state := .draining } : Session).state = .draining ∧ ({ n with state := .armed } : Session).state = .armed
          ∧ Session.idle.state ≠ .verified) :=
  ⟨⟨rfl, rfl, rfl⟩, ⟨rfl, rfl, rfl⟩, by decide, by decide⟩

/-- On trial with one second left, and with none. -/
theorem wit_ConfirmAndTrialExpiry :
    let s : State := { up with suc.boot := .trial, suc.trialLeft := 1, suc.trialRunning := true }
    (asked s 12 []).HasRequest 12 { kind := 12, args := [] }
      ∧ (s.suc.boot = .trial ∧ 0 < s.suc.trialLeft ∧ s.confirming = false ∧ s.suc.startUp = .ready
          ∧ s.suc.trialRunning = true ∧ s.suc.trialLeft = 1)
      ∧ ({ s with suc.trialLeft := 0 } : State).suc.trialLeft = 0 ∧ up.suc.boot = .confirmed :=
  ⟨⟨rfl, rfl, rfl⟩, by decide, rfl, rfl⟩

/-- Each kind of access on the port, overtaken or not, with and without a held closing write. -/
theorem wit_InternalWritesComplete :
    let a := fun k : InternalKind => ({ kind := k, addr := 0x7FF0038, data := [1, 0, 0, 0], len := 0 } : InternalAccess)
    let s := hand { asked up 1 [] with ptu.port := .internal (a .result) false } (wr 0x7FF003C 2) (some ctlWin) .requestHeld
    (s.ptu.port = .internal (a .result) false ∧ (s.ptu.inHand.map (fun h => (h.phase, h.window))) = some (.requestHeld, some ctlWin))
      ∧ (∀ k ∈ [InternalKind.result, .reportBody, .producerIndex, .status],
          ({ up with ptu.port := .internal (a k) true } : State).ptu.port = .internal (a k) true ∧ (a k).kind = k)
      ∧ up.ptu.inHand = none ∧ up.cau.statusLeft = []
      ∧ ((hand s (wr 0x7FF003C 2) (some ctlWin) .routed).routedTo .control .write = some (ctlHand 0x3C 2, ctlWin)
          ∧ controlUse ctlWin.base (ctlHand 0x3C 2).txn = .request ∧ s.routedTo .control .write = none)
      ∧ ({ up with cau.statusLeft := [(96, [])] } : State).cau.statusLeft = (96, []) :: []
      ∧ ({ up with ptu.port := .internal (a .result) true, ptu.behind := some (a .result) } : State).ptu.behind
          = some (a .result) := by decide

/-- A queue of 15 records, of 16, a ring with room and a full one. -/
theorem wit_RaisedReportsQueue :
    let r : Report := { stamp := .counter 0, gap := false, body := .stationBack 1 2 }
    let s := fun n : Nat => ({ up with cau.pending := List.replicate n r } : State)
    (s 15).cau.pending.length < 16 ∧ 16 ≤ (s 16).cau.pending.length ∧ (s 1).cau.path = .idle ∧ (s 1).cau.pending = r :: []
      ∧ ((s 1).cau.writeIdx + 1) % (s 1).ringSize ≠ (s 1).cau.consumer
      ∧ (∀ a, (s 1).ptu.port = .internal a true → a.kind.path ≠ 0)
      ∧ (1023 + 1) % up.ringSize = up.cau.consumer := by
  refine ⟨by decide, by decide, rfl, rfl, by decide, nofun, by decide⟩

/-! ### The flash windows, the staging session and the flash port -/

/-- Reads of the four flash windows with a program on the port; a write; a held read. -/
theorem wit_FlashWindowAccess :
    let s := working up prog
    let h := hand s (rd 0x803FFFC) (some bootWin) .routed
    (h.ptu.inHand.map (fun x => (x.phase, x.window)) = some (.routed, some bootWin) ∧ (rd 0x803FFFC).dir = .read
        ∧ bootWin.kind = .boot ∧ stgWin.kind = .staging ∧ h.imu.session.state = .idle ∧ h.imu.port = .busy prog)
      ∧ ((wr 0x8000000 0).dir = .write ∧ (∀ o, up.imu.port ≠ .busy o))
      ∧ (hand s (rd 0x8000000) (some bootWin) (.flashHeld 0 4)).ptu.inHand.map (fun x => x.phase) = some (.flashHeld 0 4)
      ∧ (∀ u ∈ [Suspension.running, .suspending true, .suspending false, .suspended],
          ({ prog with suspension := u } : FlashOp).suspension = u)
      ∧ (∀ p ∈ [ReadFor.config, .readback, .scan, .verify], p ≠ .passThrough
          ∧ ({ up with imu.port := .reading p true 0 4 } : State).imu.port = .reading p true 0 4) :=
  ⟨by decide, ⟨rfl, nofun⟩, by decide, by decide, by decide⟩

/-- A session of five bytes: its two words at offsets 0 and 1, one past its length, a full set of page buffers, and the last
word of a page. -/
theorem wit_StagingWindowAccess :
    let n : Session := { Session.idle with state := .receiving, length := 5, target := some (.image .b), needed := 1 }
    let s := fun m : Session => ({ up with imu.session := m } : State)
    let st := fun m x => hand (s m) x (some stgWin) .routed
    let h := fun x => ({ txn := x, window := some stgWin, phase := .routed, heldUs := 0 } : InHand)
    let fits := fun (m : Session) (x : Transaction) => 0 < x.fullWords.length
      ∧ (wordBase x.addr - stgWin.base) / 4 = m.nextWord ∧ 4 * (m.nextWord + x.fullWords.length - 1) < m.length
    let full : Session := { n with length := 8192000, nextWord := 512, queue := List.replicate 8 { page := 0, bytes := [] } }
    ((st n (wr 0x9000000 1)).routedTo .staging .write = some (h (wr 0x9000000 1), stgWin) ∧ n.state = .receiving
        ∧ fits n (wr 0x9000000 1) ∧ n.freeBuffers ≠ 0)
      ∧ fits { n with nextWord := 1 } (wr 0x9000004 1) ∧ ¬fits { n with nextWord := 2 } (wr 0x9000008 1)
      ∧ (fits full (wr 0x9000800 1) ∧ 4 * full.nextWord % 256 = 0 ∧ full.freeBuffers = 0)
      ∧ (let last : Session := { full with nextWord := 63, current := List.replicate 252 0, queue := [] }
        fits last (wr 0x90000FC 1) ∧ 4 * last.nextWord % 256 ≠ 0 ∧ ¬(last.current ++ bytesOfWords [1]).length < 256)
      ∧ ((hand (s full) (wr 0x9000800 1) (some stgWin) .stagingHeld).ptu.inHand.map (fun x => x.phase) = some .stagingHeld)
      ∧ ((st n (rd 0x9000000)).routedTo .staging .read = some (h (rd 0x9000000), stgWin) ∧ (s n).imu.session.state ≠ .idle)
      ∧ ((working (s n) prog).imu.port.sessionWork = true ∧ (wordBase (rd 0x9000000).addr - stgWin.base) / 4 % 2 = 0)
      ∧ up.imu.session.state = .idle := by decide

/-- A waiting read; each wish of the start-up controller, LOADING's and an append's in each phase, before a scan and after it; the
newest number none, one below the greatest and the greatest; verify, page, erase-ahead, and nothing. -/
theorem wit_FlashPortOrder :
    let j : AppendJob := { owner := .commit, slot := .a, boot := .trial, attempts := 0, fallback := false }
    let a : Append := { job := j, seq := 1, phase := .erase }
    let n : Session := { Session.idle with state := .receiving, target := some (.image .b), length := 65537, needed := 2, sectors := 1 }
    up.imu.port = .free
      ∧ (hand up (rd 0x8000000) (some bootWin) (.flashHeld 0 4)).ptu.inHand.map (fun x => x.phase) = some (.flashHeld 0 4)
      ∧ up.waitingRead = none ∧ up.sucWant = .nothing
      ∧ ({ State.reset with suc.load := .header } : State).sucWant = .read .config 0x040000 16
      ∧ ({ up with suc.append := some a } : State).sucWant = .work (.erase 0x050000)
      ∧ ({ up with suc.jobs := [j] } : State).sucWant = .begins j []
      ∧ ({ up with suc.jobs := [j] } : State).suc.appendPos = none
      ∧ (up.suc.startUp ≠ .loading ∧ State.reset.suc.startUp = .loading
          ∧ (∀ l ∈ [LoadPhase.status, .header, .body], ({ State.reset with suc.load := l } : State).suc.load = l)
          ∧ (∀ p ∈ [AppendPhase.erase, .program, .readback],
              ({ up with suc.append := some { a with phase := p } } : State).suc.append = some { a with phase := p })
          ∧ ({ up with suc.jobs := [j] } : State).suc.append = none ∧ ({ up with suc.jobs := [j] } : State).suc.jobs = j :: []
          ∧ ({ up with suc.jobs := [j], suc.stale := true } : State).sucWant = .read .scan 0x050000 32
          ∧ up.suc.append = none ∧ up.suc.jobs = [])
      ∧ (let e := fun n : Word => ({ seq := n, slot := .a, boot := .trial, attempts := 0, fallback := false } : Entry)
        up.suc.newest = none ∧ (e 0xFFFFFFFF).seq = 0xFFFFFFFF ∧ (e 0xFFFFFFFE).seq ≠ 0xFFFFFFFF
          ∧ ({ up with suc.newest := some (e 0xFFFFFFFF) } : State).suc.newest = some (e 0xFFFFFFFF)
          ∧ ({ up with suc.newest := some (e 0xFFFFFFFE) } : State).suc.newest = some (e 0xFFFFFFFE))
      ∧ (({ up with suc.appendPos := some 4095 } : State).suc.appendPos = some 4095 ∧ up.seqSpent = false)
      ∧ (({ n with state := .closing } : Session).verifying = true ∧ n.verifying = false)
      ∧ (255 * 256 / 65536 < n.sectors ∧ n.sectors ≤ 256 * 256 / 65536 ∧ n.sectors < n.needed)
      ∧ (Session.idle.verifying = false ∧ Session.idle.state ≠ .receiving ∧ Session.idle.state ≠ .closing
          ∧ ({ n with sectors := 2 } : Session).needed ≤ ({ n with sectors := 2 } : Session).sectors) := by decide

/-- Every suspension state; reads in the page at work, beside it, and in the sector at work and beside it. -/
theorem wit_SuspensionForReads :
    let o : FlashOp := { prog with inMinRun := true }
    let e : FlashOp := FlashOp.issued (.erase 0x830000) .session
    let s := hand (working up o) (rd 0x9000100) (some stgWin) (.flashHeld 0x830100 4)
    (s.imu.port = .busy o ∧ o.inMinRun = true ∧ o.suspension = .running ∧ o.answers = true
        ∧ s.ptu.inHand.map (fun x => x.phase) = some (.flashHeld 0x830100 4))
      ∧ (0x830100 / 256 ≠ 0x830000 / 256 ∧ ¬0x8300FF / 256 ≠ 0x830000 / 256 ∧ ¬0x83FFFF / 65536 ≠ 0x830000 / 65536
          ∧ 0x840000 / 65536 ≠ 0x830000 / 65536)
      ∧ (working up o).waitingRead = none
      ∧ ({ e with suspension := .suspending true } : FlashOp).suspension = .suspending true
      ∧ ({ e with suspension := .suspending false } : FlashOp).suspension = .suspending false
      ∧ (({ e with suspension := .suspended } : FlashOp).suspension = .suspended ∧ e.suspension ≠ .suspended
          ∧ ∀ w, e.suspension ≠ .suspending w)
      ∧ ({ up with imu.port := .reading .passThrough true 0 4 } : State).imu.port = .reading .passThrough true 0 4 := by decide

/-- A session's program and erase, a disowned one, an append's in both phases, a start's appends; a STAGING write held for the
eighth page buffer, in RECEIVING and after; busy and late times at, below and above the limits; a SELECTING that waits and
none. -/
theorem wit_FlashOperationEnds :
    let s : State := { working up prog with imu.session := { Session.idle with state := .receiving, target := some (.image .b) } }
    let late := fun us : Nat => ({ prog with timedOut := true, busyUs := 5001, lateUs := us } : FlashOp)
    let x : Append := { job := { owner := .commit, slot := .b, boot := .trial, attempts := 0, fallback := false }, seq := 1
                        phase := .erase }
    (s.imu.port = .busy prog ∧ prog.work = .program 0x830000 [0x0F] ∧ prog.owner = .session ∧ prog.timedOut = false
        ∧ s.imu.session.state = .receiving ∧ prog.busyUs ≤ 5000)
      ∧ (prog.suspension ≠ .suspended ∧ ({ late 4000000 with suspension := .suspended } : FlashOp).suspension = .suspended
          ∧ s.waitingRead = none
          ∧ (hand s (rd 0x8000000) (some bootWin) (.flashHeld 0 4)).ptu.inHand.map (fun h => h.phase) = some (.flashHeld 0 4))
      ∧ (prog.suspension = .running ∧ ∀ v, ({ prog with suspension := .suspending v } : FlashOp).suspension = .suspending v)
      ∧ (∀ i, i < 65536 → up.flashByte (0x050000 + i) = 0xFF)
      ∧ (logEntryAt up up.position = none ∧ 0x050000 = 0x050000 + up.position / 16 * 256
          ∧ (FlashOp.issued (.erase 0x050000) .startUp).work = .erase 0x050000
          ∧ (FlashOp.issued (.program 0x050000 (appendPage up.position { seq := 0, slot := .b, boot := .trial, attempts := 0
                                                                         fallback := false })) .startUp).owner = .startUp)
      ∧ ((FlashOp.issued (.erase 0x830000) .pastSession).owner = .pastSession
          ∧ (FlashOp.issued (.erase 0x830000) .pastSession).work = .erase 0x830000)
      ∧ (¬prog.work.covers 0x82FFFF ∧ prog.work.covers 0x8300FF ∧ ¬prog.work.covers 0x830100)
      ∧ (({ prog with busyUs := 5000 } : FlashOp).busyUs ≤ 5000 ∧ 5000 < ({ prog with busyUs := 5001 } : FlashOp).busyUs
          ∧ ({ prog with busyUs := 4999 } : FlashOp).busyUs < 5000)
      ∧ ((late 4000000).timedOut = true ∧ (late 4000000).lateUs ≤ 4000000 ∧ 4000000 ≤ (late 4000000).lateUs
          ∧ 4000000 < (late 4000001).lateUs ∧ (late 3999999).lateUs < 4000000)
      ∧ ((FlashOp.issued (.erase 0x050000) .startUp).owner = .startUp
          ∧ ({ up with suc.append := some x } : State).suc.append = some x ∧ x.phase = .erase ∧ x.job.owner = .commit
          ∧ ({ x with phase := .program } : Append).phase = .program
          ∧ ({ Session.idle with state := .committing } : Session).state = .committing)
      ∧ (up.suc.startUp ≠ .selecting ∧ ({ up with suc.startUp := .selecting } : State).suc.decided = false)
      ∧ (let n : Session := { Session.idle with
          state := .receiving, length := 8192000, target := some (.image .b), nextWord := 512
          queue := List.replicate 8 { page := 0, bytes := [] } }
        let h : InHand := { txn := wr 0x9000800 1, window := some stgWin, phase := .stagingHeld, heldUs := 3 }
        let u := fun m : Session => ({ working up prog with imu.session := m, ptu.inHand := some h } : State)
        (u n).ptu.inHand = some h ∧ h.phase = .stagingHeld ∧ h.window = some stgWin ∧ stgWin.kind = .staging
          ∧ h.txn.dir = .write ∧ n.state = .receiving ∧ 0 < h.txn.fullWords.length
          ∧ (wordBase h.txn.addr - stgWin.base) / 4 = n.nextWord ∧ 4 * (n.nextWord + h.txn.fullWords.length - 1) < n.length
          ∧ n.freeBuffers = 0 ∧ 0 < ({ n with pages := n.pages + 1, queue := n.queue.tail } : Session).freeBuffers
          ∧ ({ n with state := .closing } : Session).state ≠ .receiving ∧ s.ptu.inHand = none)
      ∧ ((FlashOp.issued (.erase 0x040000) .session).owner ≠ .startUp
          ∧ (FlashOp.issued (.erase 0x040000) .session).work = .erase 0x040000 ∧ 0x83FF00 / 65536 ≠ 4
          ∧ (FlashOp.issued (.program 0x040000 [0x0F]) .pastSession).work = .program 0x040000 [0x0F] ∧ 0x040000 / 65536 = 4)
      ∧ (∀ o ∈ [AppendOwner.trialStart, .fallbackStart 8, .fallbackStart 0, .confirm, .commit, .nobody],
          ({ x with job := { x.job with owner := o } } : Append).job.owner = o) :=
  ⟨by decide, by decide, by decide, fun _ _ => rfl, by decide, by decide, by simp [FlashWork.covers, prog, FlashOp.issued], by decide,
   by decide, by decide, by decide, by decide, by decide, by decide⟩

/-- Verify READs that leave a byte and that end the image with each outcome; read-backs of each owner; both ends of a scan. -/
theorem wit_OwnReadsEnd :
    let j : AppendJob := { owner := .confirm, slot := .a, boot := .confirmed, attempts := 0, fallback := false }
    let x : Append := { job := j, seq := 1, phase := .readback }
    let s : State := { up with
      imu.port := .reading .verify true 0x830000 1
      imu.session := { Session.idle with state := .closing, length := 1, target := some (.image .b) } }
    let rb := crcBytes s.imu.session.rbCrc (s.flashRead 0x830000 1 [])
    let log : State := { up with
      flash := Memory.writeBytes Config.flashErased [] 0x050000 x.entry.bytes
      suc.append := some x, imu.port := .reading .readback true 0x050000 16 }
    (s.imu.port = .reading .verify true 0x830000 1 ∧ s.imu.session.state = .closing
        ∧ s.imu.session.length ≤ s.imu.session.rbPos + 1 ∧ rb ≠ s.imu.session.crc
        ∧ ({ s.imu.session with crc := rb } : Session).crc = rb ∧ ~~~rb ≠ s.imu.session.expCrc
        ∧ ~~~rb = ({ s.imu.session with expCrc := ~~~rb } : Session).expCrc
        ∧ ({ s.imu.session with length := 2 } : Session).rbPos + 1 < ({ s.imu.session with length := 2 } : Session).length)
      ∧ (log.imu.port = .reading .readback true 0x050000 16 ∧ log.suc.append = some x
          ∧ log.flashRead 0x050000 16 [] = x.entry.bytes ∧ log.flashRead 0x050000 16 [1] ≠ x.entry.bytes
          ∧ x.job.owner = .confirm ∧ up.suc.append = none)
      ∧ (({ j with owner := .commit } : AppendJob).owner = .commit
          ∧ ({ Session.idle with state := .committing } : Session).state = .committing ∧ Session.idle.state ≠ .committing
          ∧ ({ j with owner := .nobody } : AppendJob).owner = .nobody
          ∧ ({ j with owner := .fallbackStart 4 } : AppendJob).owner = .fallbackStart 4
          ∧ log.ptu.inHand = none ∧ log.imu.session.state ≠ .committed)
      ∧ ((∀ bs ∈ ([] : List (List Byte)), bs.length = 32)
          ∧ ∀ bs ∈ [x.entry.bytes ++ List.replicate 16 0xFF, List.replicate 32 0], bs.length = 32)
      ∧ (entryOfBytes x.entry.bytes = some x.entry ∧ entryOfBytes (x.entry.bytes.set 0 2) = none
          ∧ entryOfBytes (List.replicate 16 0xFF) = none)
      ∧ ((takeScan { Scan.start with pos := 65504 } (List.replicate 32 0xFF)).pos = 65536
          ∧ (takeScan Scan.start (List.replicate 32 0xFF)).pos < 65536) := by decide

/-! ### Start-up -/

/-- Bytes of a block header: magic, format 1, a length, a CRC word. -/
def header (length : Word) : List Byte := bytesOfWords [0x53374C43, 1, length, 0]

/-- A whole block of 416 bytes over the built-in map, whose CRC word is 0: a word of node and port, limits and counts out of
range, and the kind code of the last entry; the CONTROL window's base is moved by a number of bytes. -/
def blockOf (ids : Word) (last : Word) (shift : Nat) : List Byte :=
  let masks := 0xFFFFFFFF#32
  header 416 ++ bytesOfWords
    ([ids, 0xFFFF0001, 0x0000FFFF, 0,
      0x8000000, 0x40000, 5, masks, 0x8040000, 0x10000, 6, masks, 0x8800000, 8192000, 7, masks, 0x9000000, 8192000, 8, masks,
      BitVec.ofNat 32 (0x7FF0000 + shift), 0x4000, 3, masks, 0x7FF8000, 0x8000, 4, masks] ++ List.replicate 70 0
      ++ [last, 0])

/-- Such a block of node 7 and port 15 whose last entry is unused. -/
def block (shift : Nat) : List Byte := blockOf 0x00000F07 0 shift

/-- The map that such a block's used entries spell. -/
def mapOf (bs : List Byte) : List Window := (windowsOfBlock bs).getD []

/-- A loading block before, at and after the 4 s; headers at the boundaries of length; bodies that fail their CRC, node 8 and port
16, kind code 9, a moved window, and a good one of node 7, port 15 and code 8. -/
theorem wit_LoadingTheConfiguration :
    (State.reset.suc.startUp = .loading ∧ State.reset.suc.load = .status ∧ State.reset.suc.loadUs < 4000000
        ∧ ({ State.reset with suc.loadUs := 4000000 } : State).suc.loadUs ≤ 4000000
        ∧ 4000000 ≤ ({ State.reset with suc.loadUs := 4000000 } : State).suc.loadUs
        ∧ 4000000 < ({ State.reset with suc.loadUs := 4000001 } : State).suc.loadUs)
      ∧ ({ State.reset with suc.load := .header, imu.port := .reading .config true 0x040000 16 } : State).imu.port
          = .reading .config true 0x040000 16
      ∧ (byteWord (header 416) 0 = 0x53374C43#32 ∧ field (byteWord (header 416) 1) 0 8 = 1
          ∧ blockLength (header 415) < 416 ∧ 416 ≤ blockLength (header 416) ∧ blockLength (header 65536) ≤ 65536
          ∧ 65536 < blockLength (header 65537) ∧ byteWord (List.replicate 16 0xFF) 0 ≠ 0x53374C43#32
          ∧ field (byteWord (bytesOfWords [0x53374C43, 2]) 1) 0 8 ≠ 1)
      ∧ (match judgeBlock (block 0) 0xFFFFFFFE with
         | .error r => r == .crc
         | .ok _ => false) = true
      ∧ (match judgeBlock (block 1) 0xFFFFFFFF with
         | .error r => r == .windows
         | .ok _ => false) = true
      ∧ (match judgeBlock (block 0) 0xFFFFFFFF with
         | .error _ => false
         | .ok c => c == { builtIn with node := 7, inspectLimit := 2, flashLimit := 500, trialWindow := 1800, maxAttempts := 1 })
          = true
      ∧ (let g := fun b i lo n => field (byteWord b i) lo n
        ~~~0xFFFFFFFE#32 ≠ byteWord (block 0) 3 ∧ ~~~0xFFFFFFFF#32 = byteWord (block 0) 3
          ∧ 7 < g (blockOf 0xF08 0 0) 4 0 8 ∧ g (block 0) 4 0 8 ≤ 7 ∧ 15 < g (blockOf 0x1007 0 0) 4 8 8
          ∧ g (block 0) 4 8 8 ≤ 15 ∧ 8 < g (blockOf 0xF07 9 0) (10 + 4 * 23) 0 4
          ∧ g (blockOf 0xF07 8 0) (10 + 4 * 23) 0 4 ≤ 8 ∧ (∀ e, e < 24 → g (block 0) (10 + 4 * e) 0 4 ≤ 8))
      ∧ MapRules (mapOf (block 0)) ∧ ¬MapRules (mapOf (block 1)) :=
  ⟨by decide, by decide, by decide, by decide, by decide, by decide, by decide,
   (mapValid_iff_mapRules _).1 (by decide), fun h => absurd ((mapValid_iff_mapRules _).2 h) (by decide)⟩

/-- A decision with no entry, of a CONFIRMED entry, of a TRIAL at two and at three attempts; a start's read-back; a COMMITTED
session; and a transaction held while READY was low: in no window, at its window's limit, past it, and none. -/
theorem wit_SelectingDecides :
    let s : State := { up with lines.ready := false, suc.startUp := .selecting }
    let e : Entry := { seq := 1, slot := .b, boot := .trial, attempts := 2, fallback := false }
    let x : Append := { job := { owner := .trialStart, slot := .b, boot := .trial, attempts := 3, fallback := false }
                        seq := 2, phase := .readback }
    (s.canDecide = true ∧ s.suc.noFlash = false ∧ s.suc.newest = none ∧ s.suc.maxAttempts = 3)
      ∧ (({ s with suc.newest := some e } : State).suc.newest = some e ∧ e.boot = .trial ∧ e.attempts + 1 ≤ 3
          ∧ 3 < ({ e with attempts := 3 } : Entry).attempts + 1 ∧ ({ e with boot := .confirmed } : Entry).boot = .confirmed)
      ∧ (({ s with suc.append := some x, imu.port := .reading .readback true 0x050000 16 } : State).suc.append = some x
          ∧ x.job.owner = .trialStart)
      ∧ ({ Session.idle with state := .committed } : Session).state = .committed
      ∧ (let u : State := { up with ptu.inspectLimit := 8, ptu.flashLimit := 100 }
        let held := fun (a us : Nat) => ({ txn := rd a, window := none, phase := .readyLow, heldUs := us } : InHand)
        u.lines.ready = true ∧ u.ptu.inHand = none ∧ (hand u (rd 0) none (.sramWait .plain)).ptu.inHand.isSome = true
          ∧ (held 0 0).phase = .readyLow ∧ (rd 0xFFFFFFC).addr < 2 ^ 28 ∧ (rd 0xFFFFFFC).wf = true
          ∧ u.windowAt (held 0 501).txn.addr = none
          ∧ (u.windowAt (held 0x1000 9).txn.addr = some txWin ∧ txWin.kind = .txRing ∧ u.ptu.inspectLimit < (held 0x1000 9).heldUs
              ∧ ¬u.ptu.inspectLimit < (held 0x1000 8).heldUs)
          ∧ (u.windowAt (held 0x8000000 101).txn.addr = some bootWin ∧ bootWin.kind = .boot
              ∧ u.ptu.flashLimit < (held 0x8000000 101).heldUs ∧ ¬u.ptu.flashLimit < (held 0x8000000 100).heldUs)) := by decide

/-! ### Time, allowances and resets -/

/-- Seconds 58 and 59 and the week's last minutes; a status refresh at rest, under way and parked behind an overtaken write; the trial's last second; the gates met
and not met; a drain at its last second; a record that a boundary ramps to 0 and one whose override ends. -/
theorem wit_SecondAndMinuteBoundaries :
    let t := fun s m : Nat => ({ up with time := { ms := 0, sub := 999, second := s, minute := m, valid := true } } : State)
    let n := fun st : SessionState => ({ Session.idle with state := st, target := some (.image .b) } : Session)
    (up.time.valid = false ∧ up.time.second < 59 ∧ (t 59 0).time.valid = true ∧ ¬(t 59 0).time.second < 59
        ∧ (t 58 0).time.valid = true ∧ (t 58 0).time.second < 59 ∧ 59 ≤ (t 59 10079).time.second
        ∧ 10079 ≤ (t 59 10079).time.minute ∧ ¬10079 ≤ (t 59 10078).time.minute ∧ orderWf allBoundaryUnits = true)
      ∧ (up.cau.path ≠ .notBegun ∧ State.reset.cau.path = .notBegun ∧ up.cau.statusOut = false
          ∧ ({ up with cau.statusOut := true } : State).cau.statusOut = true ∧ up.statusWrites.length = 4
          ∧ (let a : InternalAccess := { kind := .status, addr := 0x7FF2000, data := [], len := 0 }
            ({ up with ptu.port := .internal a true, ptu.behind := some a, cau.statusOut := true } : State).ptu.behind = some a
              ∧ a.kind = .status ∧ up.ptu.behind = none))
      ∧ (up.suc.startUp = .ready ∧ ({ up with suc.boot := .trial, suc.trialRunning := true, suc.trialLeft := 1 }
            : State).suc.trialLeft = 1 ∧ up.suc.boot ≠ .trial)
      ∧ ((n .armed).state = .armed ∧ ¬(up.scu.maintOpen = true ∨ (n .armed).now = true)
          ∧ ({ n .armed with now := true } : Session).now = true ∧ up.cgu.count = 0)
      ∧ ((n .draining).drainLeft ≤ 1 ∧ 1 < ({ n .draining with drainLeft := 2 } : Session).drainLeft
          ∧ Session.idle.state ≠ .armed ∧ Session.idle.state ≠ .draining)
      ∧ (0 < 2 ∧ rampLevel 7 0 2 = 0 ∧ ({ sta 0 1 with pause := .timed 1, level := 0 } : Station).pause = .timed 1) := by decide

/-- Each countdown of a record at its last second; a hold that runs out at the boundary in a proper table; and game seconds at and
below the threshold, in each case of R89 and R90. -/
theorem wit_RecordCountdownsEnd :
    let r := { sta 0 1 with gameActive := true, linger := 1, gameCount := 19, ext := 1, backoff := 1 }
    let p := { sta 0 1 with pause := .timed 1, level := 0 }
    let t := { sta 0 1 with state := .steering, steerTo := some 7, steerTimer := 1 }
    (withTable up [r]).recordAt 0 = some r
      ∧ (r.gameActive = true ∧ r.linger = 1 ∧ r.gameCount < up.policy.threshold ∧ r.ext = 1 ∧ r.pause = .none ∧ r.backoff = 1)
      ∧ ((withTable up [p]).recordAt 0 = some p ∧ p.pause = .timed 1
          ∧ (withTable up [{ p with ext := 1 }]).recordAt 0 = some { p with ext := 1 })
      ∧ ((withTable up [t]).recordAt 0 = some t ∧ t.state = .steering ∧ t.steerTo = some 7 ∧ t.steerTimer = 1)
      ∧ (TableProper (withTable up [{ sta 0 1 with state := .idle, hold := some 1 }])
          ∧ GamesCounted (withTable up [{ sta 0 1 with state := .idle, hold := some 1 }])
          ∧ ({ sta 0 1 with state := .idle, hold := some 1 } : Station).hold.map (fun n => n - 1) = some 0
          ∧ (sta 0 1).gameActive = false ∧ ({ sta 0 1 with gameActive := true } : Station).gameActive = true)
      ∧ (let p := up.policy
        p.threshold ≤ ({ sta 0 1 with gameCount := p.threshold } : Station).gameCount ∧ p.sustain = 3
          ∧ min p.sustain (2 + 1) = p.sustain ∧ min p.sustain (1 + 1) < p.sustain ∧ r.gameCount < p.threshold
          ∧ 1 < ({ r with linger := 2 } : Station).linger ∧ (sta 0 1).gameActive = false)
      ∧ (({ withTable up [r] with cgu.contention := true } : State).cgu.contention
          ≠ (({ withTable up [r] with cgu.contention := true } : State).unitBoundary .cgu).cgu.contention) :=
  ⟨by decide, by decide, by decide, by decide,
   ⟨by unfold TableProper; decide, by unfold GamesCounted; decide, by decide, rfl, rfl⟩, by decide, by decide⟩

/-- A drain's last second; a marked record; a summary with room; steer timers of 1 and 2; a record with a candidate at the floor,
one without, one without a local entry; and boundaries with the toggle either way, a drain that ends and one that does not. -/
theorem wit_NodeCountdownsAndSweep :
    let n : Session := { Session.idle with state := .draining, drainLeft := 1, target := some (.image .b) }
    let m := { sta 0 1 with mark := true, estimates := [{ node := 0, value := -800, age := 10 }] }
    let s : State := { withTable up [m] with rmu.summaries := [0] }
    (n.state = .draining ∧ n.drainLeft = 1 ∧ n.target = some (.image .b))
      ∧ (s.stu.stations.find? (fun q => q.mark) = some m ∧ (∀ r ∈ (withTable up [sta 0 1]).stu.stations, r.mark = false))
      ∧ (s.rmu.summaries = 0 :: [] ∧ s.summaryOf 0 = some (.signalSummary 1 (-800) true) ∧ s.cau.pending.length < 16)
      ∧ (let t := fun k : Nat => { sta 0 1 with state := .steering, steerTo := some 7, steerTimer := k }
        (t 1).state = .steering ∧ (t 1).steerTimer ≤ 1 ∧ (t 1).steerTo = some 7 ∧ 1 < (t 2).steerTimer ∧ (sta 0 1).state ≠ .steering)
      ∧ (let p := up.policy
        let e := fun k age : Nat => fun v : Int => ({ node := k, value := v, age := age } : Estimate)
        let c := { sta 0 1 with estimates := [e 0 10 (16 * p.floor - 16 * p.margin), e 3 10 (16 * p.floor)] }
        bestCandidate 0 c = some (e 3 10 (16 * p.floor)) ∧ freshLocal 0 c = some (e 0 10 (16 * p.floor - 16 * p.margin))
          ∧ 16 * p.floor ≤ 16 * p.floor ∧ 16 * p.floor - 16 * p.margin < 16 * p.trigger ∧ c.backoff = 0
          ∧ bestCandidate 0 m = none ∧ freshLocal 1 m = none ∧ c.unmovable = false)
      ∧ (({ s with rmu.toggle := true } : State).unitBoundary .rmu).rmu.toggle = false
      ∧ (s.unitBoundary .rmu).rmu.toggle = true
      ∧ (let d : State := { withTable up [sta 0 1] with rmu.drain := true, imu.session := n }
        d.rmu.drain = true ∧ d.imu.session.state = .draining
          ∧ d.stu.stations.all (fun r => (drainRecord d.policy 0 (roamCount true r).1).1.state != .steering) = true) := by decide

/-- Levels 1 and 4,096, full tokens, both ends of the slope codes. -/
theorem wit_AllowanceArithmetic :
    (0 < 1 ∧ 4096 ≤ 4096 ∧ 1 ≤ baseOf 1) ∧ ({ sta 0 1 with tokens := 16777216 } : Station).tokens ≤ 16 * (1048576 : Int)
      ∧ 1 ≤ 7 ∧ 7 ≤ 7 ∧ 0 < 1 := by decide

theorem wit_PowerOnResetsEveryUnit :
    let e := FlashOp.issued (.erase 0x040000) .pastSession
    ((∀ o, up.imu.port ≠ .busy o) ∧ (working up prog).imu.port = .busy prog)
      ∧ ((working up e).imu.port = .busy e ∧ e.owner = .pastSession ∧ e.work = .erase 0x040000)
      ∧ (let o : FlashOp := { FlashOp.issued (.program 0x04FF00 [0x0F]) .session with timedOut := true }
        o.owner = .session ∧ o.timedOut = true ∧ o.work = .program 0x04FF00 [0x0F] ∧ 0x04FF00 / 65536 = 4
          ∧ 0x050000 / 65536 ≠ 4)
      ∧ ConfigInvalid up :=
  ⟨⟨nofun, rfl⟩, by decide, by decide, .inl (by decide)⟩

/-- A held read, a read at the SRAM port, routed transactions that their owner holds, of each kind, and writes that it does not,
accesses on the port of the report path and of another, and an operation in each suspension state. -/
theorem wit_NodeRestartKeepsAndClears :
    (∀ h, rich.ptu.inHand = some h → h.phase ≠ .routed)
      ∧ (∃ u, exec .controlWrite (hand rich (wr 0x7FF0038 2) (some ctlWin) .routed) = .next u)
      ∧ (let s := hand rich (rd 0x8000000) (some bootWin) (.flashHeld 0 4)
      s.suc.startUp ≠ .loading ∧ s.cau.path ≠ .notBegun
      ∧ s.ptu.inHand = some { txn := rd 0x8000000, window := some bootWin, phase := .flashHeld 0 4, heldUs := 0 }
      ∧ (∀ w ∈ [SramWork.plain, .requestWrite, .closingFill, .inspected, .closingWrite true],
          (hand rich (rd 0) none (.sramWait w)).ptu.inHand.map (fun h => h.phase) = some (.sramWait w))
      ∧ (rxWin.kind = .rxRing ∧ closingWrite (closing 1) = true ∧ closingWrite (rxWr 0x201C 5) = false)
      ∧ (ctlWin.kind = .control ∧ controlUse ctlWin.base (ctlHand 0x3C 2).txn = .request ∧ (asked rich 1 []).cau.slot = .pending
          ∧ controlUse ctlWin.base (ctlHand 0x38 2).txn ≠ .request)
      ∧ (let held : Session := { Session.idle with
          state := .receiving, length := 8192000, nextWord := 512, queue := List.replicate 8 { page := 0, bytes := [] } }
        stgWin.kind = .staging ∧ held.judgeWrite stgWin.base (wr 0x9000800 1) = .hold)
      ∧ (stgWin.kind = .staging ∧ (rd 0x9000000).dir = .read ∧ rich.imu.session.state = .idle ∧ bootWin.kind = .boot)
      ∧ ((hand rich (wr 0x7FF003C 2) (some ctlWin) .routed).routedTo .control .write = some (ctlHand 0x3C 2, ctlWin)
          ∧ rich.cau.slot = .free)
      ∧ (∀ u ∈ [Suspension.running, .suspending true, .suspending false, .suspended],
          ({ prog with suspension := u } : FlashOp).suspension = u)
      ∧ (InternalKind.reportBody.path = 0 ∧ InternalKind.producerIndex.path = 0 ∧ InternalKind.status.path ≠ 0)
      ∧ (State.reset.suc.startUp = .loading ∧ State.reset.cau.path = .notBegun)
      ∧ ({ rich with ptu.port := .passThrough } : State).ptu.port = .passThrough
      ∧ (rich.imu.port = .free ∧ (working rich prog).imu.port = .busy prog ∧ prog.owner = .session
          ∧ ({ rich with imu.port := .reading .verify true 0x830000 32 } : State).imu.port = .reading .verify true 0x830000 32)) :=
  ⟨nofun, ⟨_, rfl⟩, by decide⟩

end Sys2Proof.Tests
end

/-! PROOFS. The rate limit of PROTECT reports (R11): what every unit's event at a second boundary leaves of it, that a boundary
runs the PTU's own event, and the reply and event of a denied access (R9). -/
namespace Sys2Proof.Machine

/-! ## What leaves the rate limit alone -/

/-- The rate limit of PROTECT reports: the quiet flag and the further count (R11). -/
def State.protectLimit (s : State) : Bool × Nat := (s.ptu.quiet, s.ptu.further)

theorem State.protectLimit_eq_iff (s t : State) :
    t.protectLimit = s.protectLimit ↔ t.ptu.quiet = s.ptu.quiet ∧ t.ptu.further = s.ptu.further := by
  simp [State.protectLimit]

/-- What is kept by every step of a fold over a list is kept by the fold. -/
theorem foldl_protectLimit {α : Type} (f : State → α → State) (hf : ∀ s a, (f s a).protectLimit = s.protectLimit)
    (l : List α) (s : State) : (l.foldl f s).protectLimit = s.protectLimit := by
  induction l generalizing s with
  | nil => rfl
  | cons a l ih => exact (ih (f s a)).trans (hf s a)

/-! ## Reports and the status block -/

@[simp] theorem State.pumpReports_protectLimit (s : State) : s.pumpReports.protectLimit = s.protectLimit := by
  rcases s.pumpReports_cases with h | ⟨_, _, _, _, _, h⟩ <;> exact (congrArg State.protectLimit h).trans rfl

@[simp] theorem State.joinQueue_protectLimit (s : State) (b : ReportBody) :
    (s.joinQueue b).protectLimit = s.protectLimit := by
  unfold State.joinQueue
  split <;> rfl

@[simp] theorem State.raise_protectLimit (s : State) (b : ReportBody) : (s.raise b).protectLimit = s.protectLimit :=
  (State.pumpReports_protectLimit _).trans (s.joinQueue_protectLimit b)

@[simp] theorem State.raiseAll_protectLimit (s : State) (bs : List ReportBody) :
    (s.raiseAll bs).protectLimit = s.protectLimit :=
  foldl_protectLimit _ State.raise_protectLimit bs s

@[simp] theorem State.raiseTogether_protectLimit (s : State) (groups : List (List ReportBody)) :
    (s.raiseTogether groups).protectLimit = s.protectLimit :=
  State.raiseAll_protectLimit _ _

@[simp] theorem State.dropParked_protectLimit (s : State) : s.dropParked.protectLimit = s.protectLimit := by
  rcases s.dropParked_cases with ⟨_, h⟩ | ⟨_, _, _, h⟩ <;> exact (congrArg State.protectLimit h).trans rfl

@[simp] theorem State.refreshStatus_protectLimit (s : State) : s.refreshStatus.protectLimit = s.protectLimit := by
  have hdrop := State.dropParked_protectLimit { s with cau.refreshCount := s.cau.refreshCount + 1 }
  rcases s.refreshStatus_cases with h | ⟨_, _, _, _, _, h⟩ <;> (rw [h]; exact hdrop)

/-! ## Records, sessions and summaries -/

@[simp] theorem State.setGameCount_protectLimit (s : State) (n : Nat) : (s.setGameCount n).protectLimit = s.protectLimit := by
  rcases s.setGameCount_cases n with ⟨_, h⟩ | ⟨_, h⟩ <;> exact (congrArg State.protectLimit h).trans rfl

@[simp] theorem State.freeRecord_protectLimit (s : State) (r : Station) (reason : FreeReason) :
    (s.freeRecord r reason).protectLimit = s.protectLimit :=
  (State.raiseTogether_protectLimit _ _).trans (State.setGameCount_protectLimit _ _)

@[simp] theorem State.freeExpired_protectLimit (s : State) (k : Nat) : (s.freeExpired k).protectLimit = s.protectLimit := by
  unfold State.freeExpired
  split
  · split
    · exact s.freeRecord_protectLimit _ _
    · rfl
  · rfl

@[simp] theorem State.enterSession_protectLimit (s : State) (st : SessionState) (reason : Reason) :
    (s.enterSession st reason).protectLimit = s.protectLimit :=
  State.raise_protectLimit _ _

@[simp] theorem State.enterDraining_protectLimit (s : State) : s.enterDraining.protectLimit = s.protectLimit :=
  State.enterSession_protectLimit _ _ _

@[simp] theorem State.enterCommitting_protectLimit (s : State) (reason : Reason) :
    (s.enterCommitting reason).protectLimit = s.protectLimit :=
  State.enterSession_protectLimit _ _ _

@[simp] theorem raiseSummaries_protectLimit (ks : List Nat) (s : State) : (raiseSummaries ks s).protectLimit = s.protectLimit := by
  induction ks generalizing s with
  | nil => rfl
  | cons k ks ih =>
    unfold raiseSummaries
    split
    · exact ih s
    · split
      · exact (ih _).trans (s.raise_protectLimit _)
      · rfl

@[simp] theorem State.summaryStep_protectLimit (s : State) : s.summaryStep.protectLimit = s.protectLimit := by
  have hflush : s.flushSummaries.protectLimit = s.protectLimit := s.raiseAll_protectLimit _
  unfold State.summaryStep
  dsimp only
  split
  · exact (raiseSummaries_protectLimit _ _).trans hflush
  · exact hflush

/-! ## The units' events at a second boundary -/

@[simp] theorem State.statusBoundary_protectLimit (s : State) : s.statusBoundary.protectLimit = s.protectLimit := by
  unfold State.statusBoundary
  split
  · rfl
  · exact s.refreshStatus_protectLimit

@[simp] theorem State.stationBoundary_protectLimit (s : State) : s.stationBoundary.protectLimit = s.protectLimit :=
  foldl_protectLimit _ State.freeExpired_protectLimit _ _

@[simp] theorem State.gameBoundary_protectLimit (s : State) : s.gameBoundary.protectLimit = s.protectLimit :=
  (State.raiseAll_protectLimit _ _).trans (State.setGameCount_protectLimit _ _)

@[simp] theorem State.scheduleBoundary_protectLimit (s : State) : s.scheduleBoundary.protectLimit = s.protectLimit := by
  unfold State.scheduleBoundary
  dsimp only
  rw [State.raiseAll_protectLimit, State.raiseAll_protectLimit]
  split <;> rfl

@[simp] theorem State.roamBoundary_protectLimit (s : State) : s.roamBoundary.protectLimit = s.protectLimit := by
  refine (State.summaryStep_protectLimit _).trans ?_
  rw [apply_ite State.protectLimit, State.enterCommitting_protectLimit, ite_self]
  exact (State.raiseAll_protectLimit _ _).trans (State.raiseAll_protectLimit _ _)

@[simp] theorem State.imageBoundary_protectLimit (s : State) : s.imageBoundary.protectLimit = s.protectLimit := by
  unfold State.imageBoundary
  split
  · split
    · exact s.enterDraining_protectLimit
    · rfl
  · split
    · exact State.enterCommitting_protectLimit _ _
    · rfl
  all_goals rfl

@[simp] theorem State.trialSecond_protectLimit (s : State) : s.trialSecond.protectLimit = s.protectLimit := by
  unfold State.trialSecond
  split <;> rfl

/-- Of the units' events only the PTU's touches the rate limit. -/
theorem State.unitBoundary_protectLimit (u : BoundaryUnit) (hu : u ≠ .ptu) (s : State) :
    (s.unitBoundary u).protectLimit = s.protectLimit := by
  cases u with
  | ptu => exact absurd rfl hu
  | cau => exact s.statusBoundary_protectLimit
  | stu => exact s.stationBoundary_protectLimit
  | cgu => exact s.gameBoundary_protectLimit
  | scu => exact s.scheduleBoundary_protectLimit
  | rmu => exact s.roamBoundary_protectLimit
  | imu => exact s.imageBoundary_protectLimit
  | suc => exact s.trialSecond_protectLimit

/-! ## The whole boundary -/

/-- Leaving out what stands already keeps every unit of both lists. -/
theorem mem_foldl_addNew (u : BoundaryUnit) (l acc : List BoundaryUnit) :
    u ∈ l.foldl (fun acc u => if acc.contains u then acc else acc ++ [u]) acc ↔ u ∈ acc ∨ u ∈ l := by
  induction l generalizing acc with
  | nil => simp
  | cons v l ih =>
    rw [List.foldl_cons, ih]
    split
    · next h =>
      have hv : v ∈ acc := by simpa using h
      simp only [List.mem_cons]
      constructor
      · exact Or.imp_right .inr
      · rintro (h | rfl | h)
        exacts [.inl h, .inl hv, .inr h]
    · simp [or_assoc]

/-- Whatever order the command gives, every unit has its event. -/
theorem mem_wholeOrder (u : BoundaryUnit) (order : List BoundaryUnit) : u ∈ wholeOrder order := by
  rw [wholeOrder, mem_foldl_addNew]
  cases u <;> simp [allBoundaryUnits]

/-- After the events of some units the further count is as before, and the quiet flag is clear where it was clear or the PTU is
one of them. -/
theorem State.foldl_unitBoundary_ptu (l : List BoundaryUnit) (s : State) :
    (l.foldl (fun s u => s.unitBoundary u) s).ptu.further = s.ptu.further
    ∧ (s.ptu.quiet = false ∨ .ptu ∈ l → (l.foldl (fun s u => s.unitBoundary u) s).ptu.quiet = false) := by
  induction l generalizing s with
  | nil => simp
  | cons u l ih =>
    obtain ⟨ihFurther, ihQuiet⟩ := ih (s.unitBoundary u)
    by_cases hu : u = .ptu
    · subst hu
      exact ⟨ihFurther, fun _ => ihQuiet (.inl rfl)⟩
    · obtain ⟨hquiet, hfurther⟩ := (State.protectLimit_eq_iff _ _).1 (s.unitBoundary_protectLimit u hu)
      refine ⟨ihFurther.trans hfurther, fun h => ihQuiet ?_⟩
      rcases h with h | h
      · exact .inl (hquiet.trans h)
      · exact .inr ((List.mem_cons.1 h).resolve_left (Ne.symm hu))

/-- A second boundary clears the quiet flag and keeps the further count (R11). -/
theorem State.boundary_ptu_quiet_further (order : List BoundaryUnit) (s : State) :
    (s.boundary order).ptu.quiet = false ∧ (s.boundary order).ptu.further = s.ptu.further := by
  obtain ⟨hfurther, hquiet⟩ := State.foldl_unitBoundary_ptu (wholeOrder order) s.toBoundary
  exact ⟨hquiet (.inr (mem_wholeOrder .ptu order)), hfurther⟩

/-! ## Denied accesses -/

theorem Transaction.addr_lt_of_wf {x : Transaction} (h : x.wf = true) : x.addr < 2 ^ 28 := by
  simp only [Transaction.wf, Bool.and_eq_true, decide_eq_true_eq] at h
  exact h.1.1

/-- A transaction the bus carries, with READY high and none in hand, is taken up at once. -/
theorem execBusTransaction_ready {x : Transaction} {s : State} (hx : x.wf = true) (hready : s.lines.ready = true)
    (hidle : s.ptu.inHand = none) :
    execBusTransaction x s = .next (s.takeUp { txn := x, window := none, phase := .readyLow, heldUs := 0 }) := by
  rw [execBusTransaction, if_neg (Nat.not_le.2 (Transaction.addr_lt_of_wf hx)), if_pos hx]
  simp [hidle, hready]

/-- A transaction that its window does not permit ends with the reply of R9 and is a PROTECT event. -/
theorem State.takeUp_denied {h : InHand} {w : Window} {s : State} (hw : s.windowAt h.txn.addr = some w)
    (hp : permitted w h.txn = false) :
    s.takeUp h = (s.endTxn h (deniedReply h.txn.dir)).protectEvent w h.txn := by
  simp [State.takeUp, hw, hp]

/-- With none in hand, the end of a transaction only sets the reply. -/
theorem State.endTxn_idle {s : State} (hidle : s.ptu.inHand = none) (h : InHand) (e : Ending) :
    s.endTxn h e = { s with ptu.reply := some { txn := h.txn, ending := e } } := by
  rw [State.endTxn, ← hidle]

theorem deniedReply_eq (d : Dir) : deniedReply d = if d = .read then .err else .ack := by
  cases d <;> rfl

theorem permitted_eq (w : Window) (x : Transaction) :
    permitted w x = (if x.dir = .read then w.readMask else w.writeMask).getLsbD x.master.val := by
  unfold permitted
  cases x.dir <;> rfl

/-! ## PROTECT events -/

theorem State.protectEvent_of_clear {s : State} (hq : s.ptu.quiet = false) (w : Window) (x : Transaction) :
    s.protectEvent w x = ({ s with ptu.further := 0, ptu.quiet := true } : State).raise
      (.protect w.entry w.kind x.master.val x.dir x.addr s.ptu.further) := by
  simp [State.protectEvent, hq]

/-- While the quiet flag is set an event only counts, and the count stops at 65,535. -/
theorem State.protectEvent_of_quiet {s : State} (hq : s.ptu.quiet = true) (w : Window) (x : Transaction) :
    s.protectEvent w x = { s with ptu.further := min 65535 (s.ptu.further + 1) } := by
  have hcount : (if s.ptu.further < 65535 then s.ptu.further + 1 else 65535) = min 65535 (s.ptu.further + 1) := by
    split <;> omega
  rw [← hcount]
  simp [State.protectEvent, hq]

/-- Settles O16: the reply and event of a denied access from `takeUp`, the two cases of the quiet flag, and the fold of the units'
events, of which only the PTU's touches the rate limit. -/
theorem deniedAccessAndProtectLimit : Obligations.DeniedAccessAndProtectLimit := by
  refine ⟨fun x w s hx hready hidle hw hp => ?_, fun x w => permitted_eq w x,
    fun x w s => ⟨fun hq => State.protectEvent_of_clear hq w x, fun hq => State.protectEvent_of_quiet hq w x⟩,
    fun order s t h => ?_⟩
  · calc exec (.busTransaction x) s
        = .next (s.takeUp { txn := x, window := none, phase := .readyLow, heldUs := 0 }) :=
          execBusTransaction_ready hx hready hidle
      _ = _ := by rw [State.takeUp_denied hw hp, State.endTxn_idle hidle, deniedReply_eq]
  · have hnext : Host.Outcome.next (s.boundary order) = .next t := h
    cases hnext
    exact s.boundary_ptu_quiet_further order

end Sys2Proof.Machine

/-! PROOFS. The consumer index (R32, R33): when a proposal is accepted, what the taking of one does in either case, and the row of
a control write that touches the index word. -/
namespace Sys2Proof.Machine

/-- A proposal is accepted when it is a slot of the ring, no farther forward than the published producer index (R32). -/
theorem State.accepts_eq_true_iff (s : State) (c : Nat) :
    s.accepts c = true ↔
      c < s.ringSize ∧ (c + s.ringSize - s.cau.consumer) % s.ringSize
        ≤ (s.cau.published + s.ringSize - s.cau.consumer) % s.ringSize := by
  rw [State.accepts, Bool.and_eq_true, decide_eq_true_eq, decide_eq_true_eq, distance, distance]

/-- A proposal is refused when it lies outside the ring, or past the published producer index (R32). -/
theorem State.accepts_eq_false_iff (s : State) (c : Nat) :
    s.accepts c = false ↔
      s.ringSize ≤ c ∨ (s.cau.published + s.ringSize - s.cau.consumer) % s.ringSize
        < (c + s.ringSize - s.cau.consumer) % s.ringSize := by
  rw [← Bool.not_eq_true, State.accepts_eq_true_iff, not_and_or, Nat.not_lt, Nat.not_le]

/-- ATTN is driven from the consumer index just set (R33). -/
theorem State.driveAttn_of_consumer (s : State) (c : Nat) :
    ({ s with cau.consumer := c } : State).driveAttn
      = { s with cau.consumer := c, lines.attn := s.cau.published != c } := rfl

/-- An accepted proposal becomes the consumer index, ATTN follows it, and the report path goes on (R32, R33). -/
theorem State.takeConsumer_of_accepted {s : State} (h : s.accepts (s.shadowWord 0x40).toNat = true) :
    s.takeConsumer = ({ s with
      cau.consumer := (s.shadowWord 0x40).toNat
      lines.attn := s.cau.published != (s.shadowWord 0x40).toNat } : State).pumpReports := by
  rw [State.takeConsumer, if_pos h, State.driveAttn_of_consumer]

/-- Any other proposal leaves the state (R32). -/
theorem State.takeConsumer_of_refused {s : State} (h : s.accepts (s.shadowWord 0x40).toNat = false) : s.takeConsumer = s := by
  rw [State.takeConsumer, if_neg (Bool.eq_false_iff.1 h)]

/-- The absorption of a write leaves the indices and the windows, so it does not change which proposals are accepted. -/
@[simp] theorem State.absorb_accepts (s : State) (h : InHand) (w : Window) (c : Nat) :
    (s.absorb h w).accepts c = s.accepts c := rfl

/-- A write that touches the consumer index word is absorbed, and then the shadow word is a proposal (R23, R32). -/
theorem exec_consumerIndexWrite {s : State} {h : InHand} {w : Window} (hc : s.controlFor .consumerIndex = some (h, w)) :
    exec .consumerIndexWrite s = .next (s.absorb h w).takeConsumer := by
  have hrow : exec .consumerIndexWrite s = execConsumerIndexWrite s := rfl
  rw [hrow, execConsumerIndexWrite, hc]

/-- Settles O31: the row absorbs the write and takes the proposal, and the two clauses are the two answers of the acceptance test,
which reads the same before and after the absorption. -/
theorem consumerIndexProposal : Obligations.ConsumerIndexProposal := by
  intro h w s hrouted huse s1 c n
  have hrun : exec .consumerIndexWrite s = .next s1.takeConsumer :=
    exec_consumerIndexWrite ((s.controlFor_eq_some_iff .consumerIndex h w).2 ⟨hrouted, huse⟩)
  have hsame : s1.accepts c = s.accepts c := s.absorb_accepts h w c
  constructor
  · intro hin
    have haccepted : s1.accepts c = true := hsame.trans ((s.accepts_eq_true_iff c).2 hin)
    exact hrun.trans (congrArg Host.Outcome.next (State.takeConsumer_of_accepted haccepted))
  · intro hout
    have hrefused : s1.accepts c = false := hsame.trans ((s.accepts_eq_false_iff c).2 hout)
    exact hrun.trans (congrArg Host.Outcome.next (State.takeConsumer_of_refused hrefused))

end Sys2Proof.Machine

/-! PROOFS. The class map (R23, R86, R87): what the CGU stores for a byte, what a run of entries leaves of the map, which bytes of a
control write are entries, and the row of a control write that touches the class map. -/
namespace Sys2Proof.Machine

/-! ## Classes and the bytes that name them -/

theorem classOfCode_eq_some_iff (n : Nat) (c : Class) : classOfCode n = some c ↔ n = c.code := by
  constructor
  · intro h
    unfold classOfCode at h
    split at h <;> cases h <;> rfl
  · rintro rfl
    cases c <;> rfl

/-- A byte that is a class code stores its class (R86). -/
theorem classOfByte_of_code {b : Byte} {c : Class} (h : b.toNat = c.code) : classOfByte b = c := by
  rw [classOfByte, (classOfCode_eq_some_iff _ c).2 h, Option.getD_some]

/-- A byte that is no class code stores BULK (R86). -/
theorem classOfByte_of_no_code {b : Byte} (h : ∀ c : Class, b.toNat ≠ c.code) : classOfByte b = .bulk := by
  have hnone : classOfCode b.toNat = none :=
    Option.eq_none_iff_forall_ne_some.2 fun c hc => h c ((classOfCode_eq_some_iff _ c).1 hc)
  rw [classOfByte, hnone, Option.getD_none]

/-! ## What the storing of entries leaves of the map -/

/-- Entries handed at one event are taken one after another. -/
theorem State.storeClasses_cons (c : Host.Cell) (es : List Host.Cell) (s : State) :
    s.storeClasses (c :: es) = (s.storeClasses [c]).storeClasses es := rfl

theorem State.storeClasses_classMap_length (es : List Host.Cell) (s : State) :
    (s.storeClasses es).cgu.classMap.length = s.cgu.classMap.length := by
  induction es generalizing s with
  | nil => rfl
  | cons c es ih => exact (ih (s.storeClasses [c])).trans List.length_set

/-- One entry byte sets the entry of its number, where the map has one. -/
theorem State.storeClasses_single_mapClass (s : State) (n e : Nat) (b : Byte) :
    (s.storeClasses [(n, b)]).mapClass e = if n = e ∧ e < s.cgu.classMap.length then classOfByte b else s.mapClass e := by
  simp only [State.mapClass, State.storeClasses_cgu, List.foldl_cons, List.foldl_nil, List.getD_eq_getElem?_getD,
    List.getElem?_set]
  by_cases hn : n = e
  · subst hn
    by_cases hlt : n < s.cgu.classMap.length <;> simp [hlt]
  · simp [hn]

/-- Where every byte handed for an entry stores the class the entry has, the entry stays. -/
theorem State.storeClasses_mapClass_of_agree {e : Nat} {k : Class} (es : List Host.Cell) (s : State)
    (hold : s.mapClass e = k) (hes : ∀ b, (e, b) ∈ es → classOfByte b = k) : (s.storeClasses es).mapClass e = k := by
  induction es generalizing s with
  | nil => exact hold
  | cons c es ih =>
    obtain ⟨n, b⟩ := c
    rw [State.storeClasses_cons]
    refine ih _ ?_ fun b' hb' => hes b' (List.mem_cons_of_mem _ hb')
    rw [State.storeClasses_single_mapClass]
    split
    · next hn => exact hes b (hn.1 ▸ List.mem_cons_self)
    · exact hold

/-- An entry that no byte is handed for stays (R23). -/
theorem State.storeClasses_mapClass_of_untouched {e : Nat} (es : List Host.Cell) (s : State) (hes : ∀ b, (e, b) ∉ es) :
    (s.storeClasses es).mapClass e = s.mapClass e :=
  State.storeClasses_mapClass_of_agree es s rfl fun b hb => absurd hb (hes b)

/-- An entry that one byte alone is handed for takes that byte's class (R86). -/
theorem State.storeClasses_mapClass_of_mem {e : Nat} {b : Byte} (es : List Host.Cell) (s : State)
    (he : e < s.cgu.classMap.length) (hmem : (e, b) ∈ es) (honly : ∀ b', (e, b') ∈ es → b' = b) :
    (s.storeClasses es).mapClass e = classOfByte b := by
  induction es generalizing s with
  | nil => cases hmem
  | cons c es ih =>
    rw [State.storeClasses_cons]
    have honly' : ∀ b', (e, b') ∈ es → b' = b := fun b' hb' => honly b' (List.mem_cons_of_mem _ hb')
    rcases List.mem_cons.1 hmem with rfl | hmem
    · have hset : (s.storeClasses [(e, b)]).mapClass e = classOfByte b := by
        rw [State.storeClasses_single_mapClass, if_pos ⟨rfl, he⟩]
      exact State.storeClasses_mapClass_of_agree es _ hset fun b' hb' => congrArg classOfByte (honly' b' hb')
    · exact ih _ (by rwa [State.storeClasses_classMap_length]) hmem honly'

/-! ## The bytes a write stores -/

/-- Bytes laid out from an address on: the byte at each address is the one of its place. -/
theorem mem_cellsAt_iff (p a : Nat) (b : Byte) (bytes : List Byte) :
    (a, b) ∈ cellsAt p bytes ↔ ∃ i, a = p + i ∧ bytes[i]? = some b := by
  rw [cellsAt, List.mem_iff_getElem?]
  refine exists_congr fun i => ?_
  rcases Nat.lt_or_ge i bytes.length with hi | hi
  · simp [hi, eq_comm]
  · simp [hi]

/-- A write's bytes are the lanes `f` fills, counted from a place `p` that is not below the word of the write's address. -/
theorem Transaction.exists_lanes (x : Transaction) :
    ∃ (p : Nat) (f : Nat → Option Byte), wordBase x.addr ≤ p ∧ ∀ a b, (a, b) ∈ x.cells ↔ ∃ i, a = p + i ∧ f i = some b := by
  unfold Transaction.cells
  split
  · exact ⟨wordBase x.addr, fun _ => none, le_rfl, by simp⟩
  · split
    · next en _ =>
      refine ⟨wordBase x.addr, fun i => if i < 4 ∧ en.getLsbD i then some (wordByte (x.data.getD 0 0) i) else none,
        le_rfl, fun a b => ?_⟩
      simp only [List.mem_filterMap, List.mem_range]
      refine exists_congr fun i => ?_
      by_cases hlane : i < 4 ∧ en.getLsbD i
      · rw [if_pos hlane, if_pos hlane.2, Option.some.injEq, Option.some.injEq, Prod.mk.injEq, eq_comm (a := a)]
        exact and_iff_right hlane.1
      · rw [if_neg hlane]
        simpa using fun hi hen => absurd ⟨hi, hen⟩ hlane
    · exact ⟨x.addr, fun i => (bytesOfWords x.data)[i]?, Nat.div_mul_le_self _ _, fun a b => mem_cellsAt_iff _ a b _⟩

/-- A byte a write stores lies at or above the word of its address. -/
theorem Transaction.wordBase_le_of_mem_cells {x : Transaction} {a : Nat} {b : Byte} (h : (a, b) ∈ x.cells) :
    wordBase x.addr ≤ a := by
  obtain ⟨p, f, hp, hcells⟩ := Transaction.exists_lanes x
  obtain ⟨i, rfl, -⟩ := (hcells a b).1 h
  exact hp.trans (Nat.le_add_right p i)

/-- A write stores one byte at an address. -/
theorem Transaction.cells_unique {x : Transaction} {a : Nat} {b b' : Byte} (h : (a, b) ∈ x.cells) (h' : (a, b') ∈ x.cells) :
    b' = b := by
  obtain ⟨p, f, -, hcells⟩ := Transaction.exists_lanes x
  obtain ⟨i, hi, hb⟩ := (hcells a b).1 h
  obtain ⟨j, hj, hb'⟩ := (hcells a b').1 h'
  obtain rfl : j = i := by omega
  exact Option.some.inj (hb'.symm.trans hb)

/-! ## The entries of a class map write -/

/-- The class map entries of a control write, by entry number: the bytes the shadow copies that lie in the class map (R86). -/
def classEntries (base : Nat) (x : Transaction) : List Host.Cell :=
  ((shadowCells base x).filter (fun c => isClassByte c.1)).map (fun c => (c.1 - 0x0400, c.2))

theorem isClassByte_iff (o : Nat) : isClassByte o = true ↔ 0x0400 ≤ o ∧ o < 0x0500 := by
  rw [isClassByte, Bool.and_eq_true, decide_eq_true_eq, decide_eq_true_eq]

/-- The class map is absorbed whole (section 2.1). -/
theorem absorbed_of_isClassByte {o : Nat} (h : isClassByte o = true) : absorbed o = true := by
  have hregion : (0x0400, 256) ∈ absorbedRegions := by decide
  exact List.any_eq_true.2 ⟨_, hregion, h⟩

/-- A write from the area's base on hands for an entry number below 256 the byte it stores there, and nothing else. -/
theorem mem_classEntries_iff {base : Nat} {x : Transaction} (hbase : base ≤ wordBase x.addr) (e : Nat) (b : Byte) :
    (e, b) ∈ classEntries base x ↔ e < 256 ∧ (base + 0x0400 + e, b) ∈ x.cells := by
  constructor
  · intro hmem
    simp only [classEntries, shadowCells, List.mem_map, List.mem_filter, Prod.mk.injEq] at hmem
    obtain ⟨c, ⟨⟨⟨⟨a, b'⟩, ha, rfl⟩, -⟩, ho⟩, rfl, rfl⟩ := hmem
    have hle : base ≤ a := hbase.trans (Transaction.wordBase_le_of_mem_cells ha)
    rw [isClassByte_iff] at ho
    refine ⟨by omega, ?_⟩
    have haddr : base + 0x0400 + (a - base - 0x0400) = a := by omega
    exact haddr.symm ▸ ha
  · rintro ⟨he, hb⟩
    have ho : isClassByte (0x0400 + e) = true := (isClassByte_iff _).2 (by omega)
    have hcopied : (0x0400 + e, b) ∈ shadowCells base x :=
      List.mem_filter.2 ⟨List.mem_map.2 ⟨_, hb, by simp [Nat.add_assoc]⟩, absorbed_of_isClassByte ho⟩
    exact List.mem_map.2 ⟨_, List.mem_filter.2 ⟨hcopied, ho⟩, by simp⟩

/-- A control write that touches the class map is absorbed, and its entry bytes are handed to the CGU (R23, R87). -/
theorem exec_classMapWrite {s : State} {h : InHand} {w : Window} (hc : s.controlFor .classMap = some (h, w)) :
    exec .classMapWrite s = .next ((s.absorb h w).storeClasses (classEntries w.base h.txn)) := by
  have hrow : exec .classMapWrite s = execClassMapWrite s := rfl
  rw [hrow, execClassMapWrite, hc, classEntries]

/-- Settles O32: the entries the row hands are the bytes the write stores in the class map, one byte for each entry. -/
theorem classMapEntriesStored : Obligations.ClassMapEntriesStored := by
  intro h w s hrouted huse _ hbase hlen
  have hrun := exec_classMapWrite ((s.controlFor_eq_some_iff .classMap h w).2 ⟨hrouted, huse⟩)
  refine ⟨_, hrun, rfl, ?_, ?_, ?_⟩
  · exact (State.storeClasses_classMap_length _ _).trans hlen
  · intro e b he hb
    have hstored : ((s.absorb h w).storeClasses (classEntries w.base h.txn)).mapClass e = classOfByte b :=
      State.storeClasses_mapClass_of_mem _ _ (hlen.symm ▸ he) ((mem_classEntries_iff hbase e b).2 ⟨he, hb⟩)
        fun b' hb' => Transaction.cells_unique hb ((mem_classEntries_iff hbase e b').1 hb').2
    exact ⟨fun c hc => hstored.trans (classOfByte_of_code hc), fun hno => hstored.trans (classOfByte_of_no_code hno)⟩
  · intro e hno
    exact State.storeClasses_mapClass_of_untouched _ (s.absorb h w)
      fun b hb => hno b ((mem_classEntries_iff hbase e b).1 hb).2

end Sys2Proof.Machine

/-! PROOFS. The allowance arithmetic (R100 to R106, R108, R124): the clamps as minimum and maximum, the rate and its bound by the
base, the capacity, the token bounds under recomputation, settlement and charge, the reserves and the ramp step. -/
namespace Sys2Proof.Machine

/-! ## Clamps and shares of 4,096 -/

theorem clamp_eq_min_max {lo hi : Nat} (h : lo ≤ hi) (v : Nat) : clamp lo hi v = min hi (max lo v) := by
  unfold clamp
  split
  · omega
  · split <;> omega

theorem clampInt_eq_max_min {lo hi : Int} (h : lo ≤ hi) (v : Int) : clampInt lo hi v = max lo (min hi v) := by
  unfold clampInt
  split
  · omega
  · split <;> omega

/-- A product with a level or a multiplier, in parts of 4,096, lies within what it multiplies (R102). -/
theorem mul_div_4096_le {x k : Nat} (h : k ≤ 4096) : x * k / 4096 ≤ x :=
  Nat.div_le_of_le_mul ((Nat.mul_le_mul_left x h).trans_eq (Nat.mul_comm x 4096))

/-! ## Ceiling, multiplier, rate and capacity -/

theorem State.workingCeiling_eq (s : State) (p : Nat) :
    s.workingCeiling p = if (s.profileOf p).ceiling = 0 then s.policy.refRate else (s.profileOf p).ceiling := rfl

theorem State.multiplier_eq (s : State) (g : Bool) :
    s.multiplier g = if s.cgu.contention = true ∧ g = false then s.policy.factor else 4096 := rfl

/-- The first step of R102: level 0 has rate 0. -/
theorem rateOf_zero (base k : Nat) : rateOf 0 base k = 0 := rfl

/-- The other steps of R102: above level 0 the rate is the second product, lifted to 1 where that is 0. -/
theorem rateOf_of_pos {level : Nat} (h : 0 < level) (base k : Nat) :
    rateOf level base k = max 1 (base * level / 4096 * k / 4096) := by
  simp only [rateOf, if_neg h.ne']
  split <;> omega

theorem rateOf_le_base {level base k : Nat} (hlevel : level ≤ 4096) (hk : k ≤ 4096) (hbase : 1 ≤ base) :
    rateOf level base k ≤ base := by
  rcases Nat.eq_zero_or_pos level with rfl | hpos
  · exact Nat.zero_le base
  · rw [rateOf_of_pos hpos]
    exact max_le hbase ((mul_div_4096_le hk).trans (mul_div_4096_le hlevel))

theorem capacityOf_eq (rate : Nat) : capacityOf rate = min 1048576 (max 3072 (4 * rate)) :=
  clamp_eq_min_max (by decide) _

/-! ## The token bounds -/

/-- A recomputation cuts the tokens into the bounds of the new capacity (R103, R108). -/
theorem State.recompute_tokens (s : State) (r : Station) :
    (s.recompute r).tokens = max (-16 * ((s.recompute r).cap : Int)) (min (16 * ((s.recompute r).cap : Int)) r.tokens) := by
  have hcut : (s.recompute r).tokens =
      clampInt (-(tokenBound (s.recompute r).cap)) (tokenBound (s.recompute r).cap) r.tokens := rfl
  rw [hcut, clampInt_eq_max_min (by unfold tokenBound; omega), tokenBound, Int.neg_mul]

/-- Settlement earns at most 1,024 ms of the rate, up to the upper bound (R104). -/
theorem settle_eq (now : BitVec 32) (r : Station) :
    settle now r = { r with
      tokens := min (16 * (r.cap : Int)) (r.tokens + (min 1024 (now - r.settled).toNat * r.rate : Nat))
      settled := now } := by
  rw [settle, ← min_def_lt, tokenBound]

/-- What a settlement adds is not negative, so tokens within the upper bound are never lowered (R104). -/
theorem le_settle_tokens (now : BitVec 32) {r : Station} (h : r.tokens ≤ 16 * (r.cap : Int)) :
    r.tokens ≤ (settle now r).tokens := by
  rw [settle_eq]
  exact le_min h (Int.le_add_of_nonneg_right (Int.natCast_nonneg _))

/-- A charge lowers the tokens by 16 times the length, counted up to 9,216, down to the lower bound (R106). -/
theorem charge_eq (len : Nat) (r : Station) :
    charge len r = { r with tokens := max (-16 * (r.cap : Int)) (r.tokens - 16 * (min len 9216 : Nat)) } := by
  rw [charge, ← max_def_lt, max_comm, tokenBound, chargeOf, Int.neg_mul]

/-- The two classes that may pass in debt have the same reserve, below 0 (the table of R105). -/
theorem reserveOf_of_game_or_voice {c : Class} (hc : c = .game ∨ c = .voice) (cap : Nat) :
    reserveOf c cap = -8 * (cap : Int) := by
  rcases hc with rfl | rfl <;> exact (Int.neg_mul 8 cap).symm

/-! ## The ramp step -/

/-- The steps of the slope codes that have one (the table of R124). -/
theorem slopeStep_eq {slope : Nat} (hlo : 1 ≤ slope) (hhi : slope ≤ 7) :
    slopeStep slope = [0, 69, 35, 14, 7, 5, 3, 2].getD slope 0 := by
  interval_cases slope <;> rfl

theorem rampLevel_of_lt {target level : Nat} (h : target < level) (slope : Nat) :
    rampLevel slope target level = max target (level - slopeStep slope) := if_pos h

/-- Settles O58, rule by rule: each clause is what the lemmas above say of the function it names. -/
theorem allowanceArithmetic : Obligations.AllowanceArithmetic := by
  refine ⟨?ceiling, ?rate, ?recompute, capacityOf_eq, ?reserve, charge_eq, ?settle, ?ramp⟩
  case ceiling => exact fun p s => ⟨s.workingCeiling_eq p, rfl, s.multiplier_eq⟩
  case rate =>
    exact fun level base k => ⟨fun h => h ▸ rateOf_zero base k, fun h => rateOf_of_pos h base k, rateOf_le_base⟩
  case recompute => exact fun r s => ⟨rfl, rfl, rfl, s.recompute_tokens r, rfl, rfl⟩
  case reserve =>
    intro cap
    exact ⟨reserveOf_of_game_or_voice (.inl rfl) cap, reserveOf_of_game_or_voice (.inr rfl) cap, rfl, rfl, rfl⟩
  case settle => exact fun now r h => ⟨settle_eq now r, le_settle_tokens now h⟩
  case ramp =>
    intro slope target level hlo hhi hlt
    rw [rampLevel_of_lt hlt, slopeStep_eq hlo hhi]

end Sys2Proof.Machine

/-! PROOFS. Frames: the pieces of the block's state, and that an operation touches certain pieces alone. -/
namespace Sys2Proof.Machine

/-! ## Pieces of the state -/

/-- The pieces that the operations touch or leave: fields of the state, and groups of fields that move together. -/
inductive Piece where
  | commands | clock | wall | attn | restartReq | ready
  | windows | mapping | protect | waiting | port | hand
  | shadow | request | indices | reports | status | policy
  | defers | captures | peers | txLate | rxLate
  | stations | pins | classMap | games | profiles | maint | rmu
  | session | toggle | flashPort
  | config | startUp | flashFault | startLog
  | sram | flash | free
deriving DecidableEq

/-- One of two values, by whether a piece is among those left out. -/
def Piece.pick {α : Type} (F : List Piece) (p : Piece) (x y : α) : α := if p ∈ F then x else y

theorem Piece.pick_of_not_mem {α : Type} {F : List Piece} {p : Piece} (h : p ∉ F) (x y : α) : p.pick F x y = y := if_neg h

/-- The state with some pieces left out: each of them at its power-on value. -/
def State.without (F : List Piece) (s : State) : State where
  pending := Piece.commands.pick F [] s.pending
  time := {
    ms := Piece.clock.pick F 0 s.time.ms, sub := Piece.clock.pick F 0 s.time.sub
    second := Piece.wall.pick F 0 s.time.second, minute := Piece.wall.pick F 0 s.time.minute
    valid := Piece.wall.pick F false s.time.valid }
  lines := {
    attn := Piece.attn.pick F false s.lines.attn, restartReq := Piece.restartReq.pick F false s.lines.restartReq
    ready := Piece.ready.pick F false s.lines.ready }
  ptu := {
    windows := Piece.windows.pick F [] s.ptu.windows, inspectLimit := Piece.windows.pick F 0 s.ptu.inspectLimit
    flashLimit := Piece.windows.pick F 0 s.ptu.flashLimit, mapping := Piece.mapping.pick F .a s.ptu.mapping
    quiet := Piece.protect.pick F false s.ptu.quiet, further := Piece.protect.pick F 0 s.ptu.further
    queue := Piece.waiting.pick F [] s.ptu.queue, behind := Piece.waiting.pick F none s.ptu.behind
    port := Piece.port.pick F .free s.ptu.port
    inHand := Piece.hand.pick F none s.ptu.inHand, reply := Piece.hand.pick F none s.ptu.reply }
  cau := {
    shadow := Piece.shadow.pick F [] s.cau.shadow
    slot := Piece.request.pick F .free s.cau.slot, request := Piece.request.pick F none s.cau.request
    writeIdx := Piece.indices.pick F 0 s.cau.writeIdx, published := Piece.indices.pick F 0 s.cau.published
    consumer := Piece.indices.pick F 0 s.cau.consumer
    pending := Piece.reports.pick F [] s.cau.pending, gap := Piece.reports.pick F false s.cau.gap
    path := Piece.reports.pick F .notBegun s.cau.path
    refreshCount := Piece.status.pick F 0 s.cau.refreshCount, statusLeft := Piece.status.pick F [] s.cau.statusLeft
    statusOut := Piece.status.pick F false s.cau.statusOut }
  policy := Piece.policy.pick F Policy.powerOn s.policy
  diu := {
    defers := Piece.defers.pick F [] s.diu.defers, captures := Piece.captures.pick F [] s.diu.captures
    peerQueue := Piece.peers.pick F [] s.diu.peerQueue, fetch := Piece.peers.pick F Fetch.none s.diu.fetch
    txLate := Piece.txLate.pick F 0 s.diu.txLate, rxLate := Piece.rxLate.pick F 0 s.diu.rxLate }
  stu := { stations := Piece.stations.pick F [] s.stu.stations, pins := Piece.pins.pick F [] s.stu.pins }
  cgu := {
    classMap := Piece.classMap.pick F [] s.cgu.classMap, count := Piece.games.pick F 0 s.cgu.count
    contention := Piece.games.pick F false s.cgu.contention }
  scu := { profiles := Piece.profiles.pick F [] s.scu.profiles, maintOpen := Piece.maint.pick F false s.scu.maintOpen }
  rmu := Piece.rmu.pick F State.reset.rmu s.rmu
  imu := {
    session := Piece.session.pick F Session.idle s.imu.session, lastFail := Piece.session.pick F .none s.imu.lastFail
    toggle := Piece.toggle.pick F false s.imu.toggle, port := Piece.flashPort.pick F .free s.imu.port }
  suc := {
    startUp := Piece.startUp.pick F .loading s.suc.startUp, load := Piece.startLog.pick F .status s.suc.load
    loadUs := Piece.startLog.pick F 0 s.suc.loadUs, cfgBytes := Piece.startLog.pick F [] s.suc.cfgBytes
    cfgPos := Piece.startLog.pick F 0 s.suc.cfgPos, cfgCrc := Piece.startLog.pick F 0 s.suc.cfgCrc
    node := Piece.config.pick F 0 s.suc.node, backhaul := Piece.config.pick F 0 s.suc.backhaul
    trialWindow := Piece.config.pick F 0 s.suc.trialWindow, maxAttempts := Piece.config.pick F 0 s.suc.maxAttempts
    defaulted := Piece.config.pick F false s.suc.defaulted, flashFault := Piece.flashFault.pick F false s.suc.flashFault
    newest := Piece.startLog.pick F none s.suc.newest, appendPos := Piece.startLog.pick F none s.suc.appendPos
    stale := Piece.startLog.pick F true s.suc.stale, scan := Piece.startLog.pick F none s.suc.scan
    decided := Piece.startLog.pick F false s.suc.decided, noFlash := Piece.startLog.pick F false s.suc.noFlash
    boot := Piece.startLog.pick F .confirmed s.suc.boot, trialLeft := Piece.startLog.pick F 0 s.suc.trialLeft
    trialRunning := Piece.startLog.pick F false s.suc.trialRunning, jobs := Piece.startLog.pick F [] s.suc.jobs
    append := Piece.startLog.pick F none s.suc.append }
  sram := Piece.sram.pick F [] s.sram
  flash := Piece.flash.pick F [] s.flash
  freeIdx := Piece.free.pick F 0 s.freeIdx

/-- `t` is `s` but for the pieces of `F`. -/
def Frame (F : List Piece) (s t : State) : Prop := t.without F = s.without F

theorem Piece.pick_pick {α : Type} {F G : List Piece} (h : F ⊆ G) (p : Piece) (x y : α) :
    p.pick G x (p.pick F x y) = p.pick G x y := by
  unfold Piece.pick
  by_cases hp : p ∈ F
  · simp [h hp]
  · simp [hp]

theorem State.without_without {F G : List Piece} (h : F ⊆ G) (s : State) : (s.without F).without G = s.without G := by
  simp only [State.without, Piece.pick_pick h]

theorem Frame.refl (F : List Piece) (s : State) : Frame F s s := rfl

theorem Frame.trans {F : List Piece} {s t u : State} (h : Frame F s t) (h' : Frame F t u) : Frame F s u :=
  Eq.trans h' h

/-- A first update that touches nothing else, mostly by `rfl`, goes before an operation. -/
theorem Frame.after {F : List Piece} {s t u : State} (h' : Frame F t u) (h : Frame F s t) : Frame F s u := h.trans h'

theorem Frame.mono {F G : List Piece} {s t : State} (h : Frame F s t) (hFG : F ⊆ G := by decide) : Frame G s t := by
  have := congrArg (State.without G) h
  rwa [State.without_without hFG, State.without_without hFG] at this

/-- One operation after another touches what either touches. -/
theorem Frame.andThen {F G H : List Piece} {s t u : State} (h : Frame F s t) (h' : Frame G t u) (hF : F ⊆ H := by decide)
    (hG : G ⊆ H := by decide) : Frame H s u :=
  (h.mono hF).trans (h'.mono hG)

theorem Frame.foldl {α : Type} {F : List Piece} (f : State → α → State) (hf : ∀ s a, Frame F s (f s a)) (l : List α)
    (s : State) : Frame F s (l.foldl f s) := by
  induction l generalizing s with
  | nil => exact Frame.refl F s
  | cons a l ih => exact (hf s a).trans (ih (f s a))

theorem Frame.ite {F : List Piece} {s t u : State} {c : Prop} [Decidable c] (h : Frame F s t) (h' : Frame F s u) :
    Frame F s (if c then t else u) := by
  split
  exacts [h, h']

/-! ## What a row answers -/

/-- Where a row answers a next state, it has a property. -/
def Answers (P : State → Prop) (o : Host.Outcome State Fault Refusal) : Prop := ∀ t, o = .next t → P t

theorem Answers.next {P : State → Prop} {t : State} (h : P t) : Answers P (.next t) := by
  rintro _ ⟨⟩
  exact h

theorem Answers.fault {P : State → Prop} {r : Fault} : Answers P (.fault r) := fun _ h => nomatch h

theorem Answers.refused {P : State → Prop} {r : Refusal} : Answers P (.refused r) := fun _ h => nomatch h

theorem Answers.imp {P Q : State → Prop} {o : Host.Outcome State Fault Refusal} (h : Answers P o) (hPQ : ∀ t, P t → Q t) :
    Answers Q o := fun t ht => hPQ t (h t ht)

theorem Answers.ite {P : State → Prop} {c : Prop} [Decidable c] {o o' : Host.Outcome State Fault Refusal}
    (h : c → Answers P o) (h' : ¬c → Answers P o') : Answers P (if c then o else o') := by
  split
  · exact h ‹_›
  · exact h' ‹_›

/-- What every answering row of a meaning that always answers has, the state after it has (R5; log 17). -/
theorem State.afterRow_of_answers {P : State → Prop} {row : State → Host.Outcome State Fault Refusal} {s : State}
    (h : Answers P (row s)) (hs : P s) : P (s.afterRow row) := by
  unfold State.afterRow
  split
  · exact h _ ‹_›
  · exact hs
  · exact hs

end Sys2Proof.Machine

/-! PROOFS. The frame of each operation that several rows share, in the order of the model's files: which pieces of the state it
touches. -/
namespace Sys2Proof.Machine

/-- The pieces that raising reports touches (R30, R31). -/
abbrev reportPieces : List Piece := [.reports, .waiting, .free]

/-! ## Reports and the status block -/

theorem State.issue_frame (a : InternalAccess) (s : State) : Frame [.waiting] s (s.issue a) := rfl

theorem State.joinBehind_frame (s : State) : Frame [.waiting] s s.joinBehind := rfl

theorem State.endTxn_frame (h : InHand) (e : Ending) (s : State) : Frame [.hand] s (s.endTxn h e) := rfl

theorem State.toPhase_frame (h : InHand) (p : Phase) (s : State) : Frame [.hand] s (s.toPhase h p) := rfl

theorem State.pumpReports_frame (s : State) : Frame [.reports, .waiting] s s.pumpReports := by
  rcases s.pumpReports_cases with h | ⟨_, _, _, _, _, h⟩ <;> rw [h] <;> rfl

theorem State.joinQueue_frame (b : ReportBody) (s : State) : Frame [.reports] s (s.joinQueue b) := by
  unfold State.joinQueue
  split <;> rfl

theorem State.raise_frame (b : ReportBody) (s : State) : Frame reportPieces s (s.raise b) :=
  (s.joinQueue_frame b).andThen (State.pumpReports_frame _)

theorem State.beginRing_frame (s : State) : Frame [.indices, .reports, .attn, .waiting] s s.beginRing := rfl

theorem State.pumpStatus_frame (s : State) : Frame [.status, .waiting] s s.pumpStatus := by
  rcases s.pumpStatus_cases with h | ⟨_, _, _, _, _, h⟩ <;> rw [h] <;> rfl

theorem State.dropParked_frame (s : State) : Frame [.status, .waiting] s s.dropParked := by
  rcases s.dropParked_cases with ⟨_, h⟩ | ⟨_, _, _, h⟩ <;> rw [h] <;> rfl

theorem State.refreshStatus_frame (s : State) : Frame [.status, .waiting] s s.refreshStatus := by
  have hdrop := State.dropParked_frame { s with cau.refreshCount := s.cau.refreshCount + 1 }
  rcases s.refreshStatus_cases with h | ⟨_, _, _, _, _, h⟩ <;> rw [h] <;> exact hdrop

theorem State.issueFetch_frame (s : State) : Frame [.waiting] s s.issueFetch := by
  unfold State.issueFetch
  split <;> rfl

theorem State.queuePeer_frame (b : PeerBuffer) (s : State) : Frame (.peers :: reportPieces) s (s.queuePeer b) := by
  unfold State.queuePeer
  refine Frame.ite (s.raise_frame _).mono (Frame.ite (s.raise_frame _).mono (Frame.ite (s.raise_frame _).mono ?_))
  exact Frame.ite (Frame.after (State.issueFetch_frame _).mono rfl) rfl

/-! ## Runs: what an operation comes to for the ports and paths -/

/-- The pieces that a plain update inside a run leaves: the report path, the arbiter's queue and port, the status path, the peer queue,
the request slot and the start-up state. -/
abbrev guardedPieces : List Piece := [.reports, .waiting, .status, .peers, .port, .request, .startUp, .ready]

/-- The pieces of a list that a plain update may touch. -/
abbrev unguarded (F : List Piece) : List Piece := F.filter (· ∉ guardedPieces)

/-- `t` comes from `s` by updates of unguarded pieces of `F`, raised reports, refreshes of the status block, peer buffers put to the
queue, and READY's rise, each within the pieces of `F`. -/
inductive Runs (F : List Piece) : State → State → Prop
  | update {s t : State} (h : Frame (unguarded F) s t) : Runs F s t
  | raise (b : ReportBody) (s : State) (h : reportPieces ⊆ F) : Runs F s (s.raise b)
  | refresh (s : State) (h : [.status, .waiting] ⊆ F) : Runs F s s.refreshStatus
  | queuePeer (b : PeerBuffer) (s : State) (h : .peers :: reportPieces ⊆ F) : Runs F s (s.queuePeer b)
  | ready (s : State) (h : [.startUp, .ready] ⊆ F) : Runs F s { s with suc.startUp := .ready, lines.ready := true }
  | trans {s t u : State} (h : Runs F s t) (h' : Runs F t u) : Runs F s u

/-- A run touches its pieces alone. -/
theorem Runs.frame {F : List Piece} {s t : State} (h : Runs F s t) : Frame F s t := by
  induction h with
  | update h => exact h.mono (List.filter_subset_self F)
  | raise b s h => exact (s.raise_frame b).mono h
  | refresh s h => exact s.refreshStatus_frame.mono h
  | queuePeer b s h => exact (s.queuePeer_frame b).mono h
  | ready s h => exact Frame.mono (F := [.startUp, .ready]) rfl h
  | trans _ _ ih ih' => exact ih.trans ih'

theorem Runs.mono {F G : List Piece} {s t : State} (h : Runs F s t) (hFG : F ⊆ G := by decide) : Runs G s t := by
  induction h with
  | update h => exact .update (h.mono (List.filter_subset _ hFG))
  | raise b s h => exact .raise b s (List.Subset.trans h hFG)
  | refresh s h => exact .refresh s (List.Subset.trans h hFG)
  | queuePeer b s h => exact .queuePeer b s (List.Subset.trans h hFG)
  | ready s h => exact .ready s (List.Subset.trans h hFG)
  | trans _ _ ih ih' => exact ih.trans ih'

/-- What plain updates and each of the other parts of a run keep, the run keeps. -/
theorem Runs.keeps {P : State → Prop} {F : List Piece} {s t : State} (h : Runs F s t) (hs : P s)
    (hupdate : ∀ s t, Frame (unguarded F) s t → P s → P t) (hraise : ∀ b s, P s → P (s.raise b))
    (hrefresh : ∀ s, P s → P s.refreshStatus) (hpeer : ∀ b s, P s → P (s.queuePeer b))
    (hready : ∀ s, P s → P { s with suc.startUp := .ready, lines.ready := true }) : P t := by
  induction h with
  | update h => exact hupdate _ _ h hs
  | raise b s _ => exact hraise b s hs
  | refresh s _ => exact hrefresh s hs
  | queuePeer b s _ => exact hpeer b s hs
  | ready s _ => exact hready s hs
  | trans _ _ ih ih' => exact ih' (ih hs)

theorem Runs.of_frame {F G : List Piece} {s t : State} (h : Frame F s t) (hFG : F ⊆ unguarded G := by decide) : Runs G s t :=
  .update (h.mono hFG)

theorem Runs.andThen {F G H : List Piece} {s t u : State} (h : Runs F s t) (h' : Runs G t u) (hF : F ⊆ H := by decide)
    (hG : G ⊆ H := by decide) : Runs H s u :=
  (h.mono hF).trans (h'.mono hG)

/-- A run after an operation that touches unguarded pieces. -/
theorem Frame.thenRuns {F G H : List Piece} {s t u : State} (h : Frame F s t) (h' : Runs G t u)
    (hF : F ⊆ unguarded H := by decide) (hG : G ⊆ H := by decide) : Runs H s u :=
  (Runs.of_frame h hF).trans (h'.mono hG)

/-- A first update, mostly by `rfl`, goes before a run. -/
theorem Runs.after {F : List Piece} {s t u : State} (h' : Runs F t u) (h : Frame (unguarded F) s t) : Runs F s u :=
  (Runs.update h).trans h'

theorem Runs.refl (F : List Piece) (s : State) : Runs F s s := .update (Frame.refl _ s)

theorem Runs.foldl {α : Type} {F : List Piece} (f : State → α → State) (hf : ∀ s a, Runs F s (f s a)) (l : List α)
    (s : State) : Runs F s (l.foldl f s) := by
  induction l generalizing s with
  | nil => exact Runs.refl F s
  | cons a l ih => exact (hf s a).trans (ih (f s a))

theorem Runs.ite {F : List Piece} {s t u : State} {c : Prop} [Decidable c] (h : Runs F s t) (h' : Runs F s u) :
    Runs F s (if c then t else u) := by
  split
  exacts [h, h']

theorem State.raise_runs (b : ReportBody) (s : State) : Runs reportPieces s (s.raise b) := .raise b s (List.Subset.refl _)

theorem State.refreshStatus_runs (s : State) : Runs [.status, .waiting] s s.refreshStatus := .refresh s (List.Subset.refl _)

theorem State.queuePeer_runs (b : PeerBuffer) (s : State) : Runs (.peers :: reportPieces) s (s.queuePeer b) :=
  .queuePeer b s (List.Subset.refl _)

theorem State.raiseAll_runs (bs : List ReportBody) (s : State) : Runs reportPieces s (s.raiseAll bs) :=
  Runs.foldl _ (fun s b => s.raise_runs b) bs s

theorem State.raiseTogether_runs (groups : List (List ReportBody)) (s : State) :
    Runs reportPieces s (s.raiseTogether groups) :=
  Runs.after (State.raiseAll_runs _ _) rfl

theorem State.protectEvent_runs (w : Window) (x : Transaction) (s : State) :
    Runs (.protect :: reportPieces) s (s.protectEvent w x) := by
  rcases s.protectEvent_cases w x with ⟨_, _, h⟩ | ⟨_, h⟩ <;> rw [h]
  · exact .update rfl
  · exact (State.raise_runs _ { s with ptu.further := 0, ptu.quiet := true }).mono.after rfl

/-! ## Records and the game count -/

theorem State.putRecord_frame (r : Station) (s : State) : Frame [.stations] s (s.putRecord r) := rfl

theorem State.setGameCount_frame (n : Nat) (s : State) : Frame [.stations, .games] s (s.setGameCount n) := by
  rcases s.setGameCount_cases n with ⟨_, h⟩ | ⟨_, h⟩ <;> rw [h] <;> rfl

theorem State.gameBoundary_runs (s : State) : Runs ([.stations, .games] ++ reportPieces) s s.gameBoundary :=
  Runs.after ((State.setGameCount_frame _ { s with stu.stations := s.stu.stations.map s.gameStep }).thenRuns
    (State.raiseAll_runs _ _)) rfl

theorem State.override_runs (r r1 : Station) (s : State) : Runs (.stations :: reportPieces) s (s.override r r1) :=
  (s.putRecord_frame _).thenRuns (State.raiseAll_runs _ _)

/-- The records move in the state given; the state before the event only tells their old targets. -/
theorem State.moveRecords_runs (s s1 : State) (concerned handed : Station → Bool) :
    Runs (.stations :: reportPieces) s1 (s.moveRecords s1 concerned handed) :=
  Runs.after ((State.raiseAll_runs _ _).mono) rfl

/-- The state in which the SCU's records meet their targets at a second boundary: the clock one second on, and at a minute boundary the
profiles' targets and the maintenance-open flag on it (steps 3 and 4 of R126). -/
def State.clockAdvanced (s : State) : State :=
  if (advanceClock s.time).2 then
    (State.retargetProfiles { s with time := (advanceClock s.time).1 }).evaluateMaintenance
  else { s with time := (advanceClock s.time).1 }

theorem State.scheduleBoundary_eq (s : State) :
    s.scheduleBoundary =
      (({ s.clockAdvanced with stu.stations := (s.stu.stations.map (s.scuRecord s.clockAdvanced)).map Prod.fst } : State).raiseAll
        ((s.stu.stations.map (s.scuRecord s.clockAdvanced)).flatMap (fun d => d.2.1))).raiseAll
        ((s.stu.stations.map (s.scuRecord s.clockAdvanced)).flatMap (fun d => d.2.2)) := rfl

theorem advanceClock_ms_sub (t : TimeBase) : (advanceClock t).1.ms = t.ms ∧ (advanceClock t).1.sub = t.sub := by
  unfold advanceClock
  split
  · split <;> exact ⟨rfl, rfl⟩
  · exact ⟨rfl, rfl⟩

theorem Frame.of_time {s : State} {t : TimeBase} (hms : t.ms = s.time.ms) (hsub : t.sub = s.time.sub) :
    Frame [.wall] s { s with time := t } := by
  obtain ⟨ms, sub, _, _, _⟩ := t
  obtain rfl : ms = s.time.ms := hms
  obtain rfl : sub = s.time.sub := hsub
  rfl

theorem State.clockAdvanced_frame (s : State) : Frame [.wall, .profiles, .maint] s s.clockAdvanced := by
  have hclock : Frame [.wall] s { s with time := (advanceClock s.time).1 } :=
    Frame.of_time (advanceClock_ms_sub s.time).1 (advanceClock_ms_sub s.time).2
  unfold State.clockAdvanced
  split
  · exact hclock.mono.trans rfl
  · exact hclock.mono

theorem State.scheduleBoundary_runs (s : State) :
    Runs ([.wall, .profiles, .maint, .stations] ++ reportPieces) s s.scheduleBoundary := by
  rw [State.scheduleBoundary_eq]
  refine Runs.andThen ?_ ((State.raiseAll_runs _ _).trans (State.raiseAll_runs _ _))
    (F := [.wall, .profiles, .maint, .stations])
  exact (Runs.of_frame s.clockAdvanced_frame).trans (.update rfl)

theorem State.takeProfile_runs (i : Nat) (words : List Word) (s : State) :
    Runs ([.profiles, .stations] ++ reportPieces) s (s.takeProfile i words) := by
  unfold State.takeProfile
  dsimp only
  split
  · exact Runs.after ((State.moveRecords_runs _ _ _ _).mono) rfl
  · exact (s.raise_runs _).mono

/-! ## The station table -/

theorem State.removeRecord_frame (r : Station) (s : State) : Frame [.stations, .games, .rmu] s (s.removeRecord r) :=
  Frame.after ((State.setGameCount_frame _ _).mono) rfl

/-- The pieces that a free or a creation touches (R65, R74). -/
abbrev tablePieces : List Piece := [.stations, .games, .rmu] ++ reportPieces

theorem State.freeRecord_runs (r : Station) (reason : FreeReason) (s : State) : Runs tablePieces s (s.freeRecord r reason) :=
  (s.removeRecord_frame r).thenRuns (State.raiseTogether_runs _ _)

/-- The state in which room has been made, where it has. -/
theorem State.makeRoom_frame {s s1 : State} {k : Nat} {freed edges : List ReportBody}
    (h : s.makeRoom = some (k, s1, freed, edges)) : Frame [.stations, .games, .rmu] s s1 := by
  rcases s.makeRoom_cases with ⟨_, _, h'⟩ | ⟨v, _, _, h'⟩ | ⟨_, _, h'⟩ <;> rw [h'] at h <;> cases h
  · rfl
  · exact s.removeRecord_frame v

theorem State.addRecord_frame (r : Station) (s : State) : Frame [.stations] s (s.addRecord r) := rfl

theorem State.learn_runs (m : Mac) (st : StationState) (s : State) : Runs tablePieces s (s.learn m st) := by
  unfold State.learn
  split
  · next h =>
    exact ((State.makeRoom_frame h).andThen (State.addRecord_frame _ _) (H := [.stations, .games, .rmu])).thenRuns
      (State.raiseTogether_runs _ _)
  · exact .update rfl

theorem State.observe_runs (m : Mac) (k : RxKind) (s : State) : Runs tablePieces s (s.observe m k) := by
  unfold State.observe
  split
  · exact (s.putRecord_frame _).thenRuns (State.raiseAll_runs _ _)
  · split
    · exact s.learn_runs m _
    · exact s.learn_runs m _
    · exact s.learn_runs m _
    all_goals exact .update rfl

theorem State.takePin_runs (j : Nat) (words : List Word) (s : State) :
    Runs ([.stations, .pins] ++ reportPieces) s (s.takePin j words) :=
  Runs.after (State.raiseTogether_runs _ _).mono rfl

theorem State.freeExpired_runs (k : Nat) (s : State) : Runs tablePieces s (s.freeExpired k) := by
  unfold State.freeExpired
  split
  · split
    · exact s.freeRecord_runs _ _
    · exact .update rfl
  · exact .update rfl

theorem State.stationBoundary_runs (s : State) : Runs tablePieces s s.stationBoundary :=
  Runs.after (Runs.foldl _ (fun s k => s.freeExpired_runs k) _ _) rfl

/-! ## Sessions and drain mode -/

theorem State.enterSession_runs (st : SessionState) (reason : Reason) (s : State) :
    Runs (.session :: reportPieces) s (s.enterSession st reason) :=
  Runs.after (State.raise_runs _ _).mono rfl

theorem State.failSession_runs (reason : Reason) (s : State) : Runs (.session :: reportPieces) s (s.failSession reason) :=
  Runs.after (State.enterSession_runs _ _ _) rfl

theorem State.enterDraining_runs (s : State) : Runs ([.session, .stations, .rmu] ++ reportPieces) s s.enterDraining :=
  Runs.after (State.enterSession_runs _ _ _).mono rfl

theorem State.enterCommitting_runs (reason : Reason) (s : State) :
    Runs ([.session, .stations, .rmu, .startLog] ++ reportPieces) s (s.enterCommitting reason) := by
  have hentered : Runs ([.session, .stations, .rmu] ++ reportPieces) s
      ((({ s with imu.session := { s.imu.session with now := false, force := false } } : State).setDrain false).enterSession
        .committing reason) :=
    Runs.after (State.enterSession_runs _ _ _).mono rfl
  exact hentered.mono.trans (.update rfl)

theorem State.imageBoundary_runs (s : State) :
    Runs ([.session, .stations, .rmu, .startLog] ++ reportPieces) s s.imageBoundary := by
  unfold State.imageBoundary
  split
  · exact Runs.ite s.enterDraining_runs.mono (Runs.refl _ s)
  · refine Runs.ite (Runs.trans ?_ (State.enterCommitting_runs _ _)) ?_ <;> exact .update rfl
  all_goals exact .update rfl

theorem State.leaveDraining_frame (s : State) : Frame [.stations, .rmu] s s.leaveDraining := by
  unfold State.leaveDraining
  split <;> rfl

/-! ## Roaming -/

theorem State.sample_frame (m : Mac) (sig : Option Int) (s : State) : Frame [.stations] s (s.sample m sig) := by
  unfold State.sample
  split <;> rfl

theorem State.peerEstimate_runs (n : Nat) (e : PeerEntry) (s : State) :
    Runs (.stations :: reportPieces) s (s.peerEstimate n e) := by
  unfold State.peerEstimate
  split
  · exact .update rfl
  · dsimp only
    exact Runs.ite ((s.putRecord_frame _).thenRuns (State.raiseTogether_runs _ _)) (.update rfl)

theorem raiseSummaries_runs (ks : List Nat) (s : State) : Runs (.rmu :: reportPieces) s (raiseSummaries ks s) := by
  induction ks generalizing s with
  | nil => exact .update rfl
  | cons k ks ih =>
    unfold raiseSummaries
    split
    · exact ih s
    · split
      · exact (s.raise_runs _).mono.trans (ih _)
      · exact .update rfl

theorem State.summaryStep_runs (s : State) : Runs (.rmu :: reportPieces) s s.summaryStep := by
  have hflush : Runs (.rmu :: reportPieces) s { s.flushSummaries with rmu.toggle := !s.flushSummaries.rmu.toggle } :=
    (State.raiseAll_runs _ s).mono.trans (.update rfl)
  exact Runs.ite (hflush.trans (raiseSummaries_runs _ _)) hflush

/-- Every record is replaced by what `f` makes of it, and the reports of all are raised in slot order. -/
def State.eachRecord (f : Station → Station × List ReportBody) (s : State) : State :=
  State.raiseAll ((s.stu.stations.map f).flatMap Prod.snd) { s with stu.stations := (s.stu.stations.map f).map Prod.fst }

theorem State.eachRecord_runs (f : Station → Station × List ReportBody) (s : State) :
    Runs (.stations :: reportPieces) s (s.eachRecord f) :=
  Runs.after (State.raiseAll_runs _ _).mono rfl

/-- Step 4 of the RMU's event for one record: the drain step in drain mode, else the evaluation (R142, R151). -/
def State.roamStep (s : State) : Station → Station × List ReportBody :=
  if s.rmu.drain then drainRecord s.policy s.suc.node else evaluateRecord s.policy s.suc.node

/-- The state after steps 1 to 4 of the RMU's event (R142). -/
def State.roamMoved (s : State) : State := (s.eachRecord (roamCount s.rmu.drain)).eachRecord s.roamStep

/-- Step 5: a complete drain ends in COMMITTING (R154, R180). -/
def State.roamJudged (s : State) : State :=
  if s.rmu.drain ∧ s.drainComplete = true ∧ s.imu.session.state = .draining then s.enterCommitting .drainComplete else s

theorem State.roamBoundary_eq (s : State) : s.roamBoundary = s.roamMoved.roamJudged.summaryStep := rfl

theorem State.roamMoved_runs (s : State) : Runs (.stations :: reportPieces) s s.roamMoved :=
  (State.eachRecord_runs _ s).trans (State.eachRecord_runs _ _)

theorem State.roamJudged_runs (s : State) : Runs ([.session, .stations, .rmu, .startLog] ++ reportPieces) s s.roamJudged :=
  Runs.ite (s.enterCommitting_runs _) (.update rfl)

theorem State.roamBoundary_runs (s : State) :
    Runs ([.session, .stations, .rmu, .startLog] ++ reportPieces) s s.roamBoundary := by
  rw [State.roamBoundary_eq]
  exact s.roamMoved_runs.mono.trans ((State.roamJudged_runs _).trans (State.summaryStep_runs _).mono)

/-! ## The whole boundary -/

theorem State.statusBoundary_runs (s : State) : Runs [.status, .waiting] s s.statusBoundary := by
  unfold State.statusBoundary
  split
  · exact .update rfl
  · exact s.refreshStatus_runs

theorem State.trialSecond_frame (s : State) : Frame [.startLog, .restartReq] s s.trialSecond := by
  unfold State.trialSecond
  split <;> rfl

/-- The pieces that the units' events at a second boundary touch. -/
abbrev boundaryPieces : List Piece :=
  [.protect, .status, .stations, .games, .rmu, .wall, .profiles, .maint, .session, .startLog, .restartReq] ++ reportPieces

theorem State.unitBoundary_runs (u : BoundaryUnit) (s : State) : Runs boundaryPieces s (s.unitBoundary u) := by
  cases u with
  | ptu => exact .update rfl
  | cau => exact s.statusBoundary_runs.mono
  | stu => exact s.stationBoundary_runs.mono
  | cgu => exact s.gameBoundary_runs.mono
  | scu => exact s.scheduleBoundary_runs.mono
  | rmu => exact s.roamBoundary_runs.mono
  | imu => exact s.imageBoundary_runs.mono
  | suc => exact .of_frame s.trialSecond_frame

theorem State.boundary_runs (order : List BoundaryUnit) (s : State) :
    Runs ([.clock, .hand, .flashPort] ++ boundaryPieces) s (s.boundary order) :=
  Runs.after (Runs.foldl _ (fun s u => s.unitBoundary_runs u) _ _).mono rfl

/-! ## Transactions and requests -/

theorem State.takeUp_runs (h : InHand) (s : State) : Runs ([.hand, .protect] ++ reportPieces) s (s.takeUp h) := by
  rcases s.takeUp_cases h with ⟨_, _, h'⟩ | ⟨_, _, h'⟩ | ⟨_, _, _, h'⟩ | ⟨w, _, _, h'⟩ <;> rw [h']
  · exact .update rfl
  · exact .update rfl
  · exact .update rfl
  · exact (s.endTxn_frame h _).thenRuns (State.protectEvent_runs _ _ _)

theorem State.takeUpHeld_runs (s : State) : Runs ([.hand, .protect] ++ reportPieces) s s.takeUpHeld := by
  unfold State.takeUpHeld
  split
  · refine Runs.ite ?_ (.update rfl)
    split
    · exact Runs.ite (.update rfl) (s.takeUp_runs _)
    · exact s.takeUp_runs _
  · exact .update rfl

theorem State.absorb_frame (h : InHand) (w : Window) (s : State) : Frame [.shadow, .hand] s (s.absorb h w) := rfl

theorem State.takeClosing_frame (s : State) : Frame [.shadow, .request, .hand] s s.takeClosing := by
  rcases s.takeClosing_cases with h | ⟨_, _, _, _, _, h⟩ <;> rw [h] <;> rfl

theorem State.answer_frame (q : Request) (c : ResultCode) (d : Nat) (s : State) : Frame [.request, .waiting] s (s.answer q c d) :=
  rfl

/-- The pieces that taking a request and answering it touches (R27, R28). -/
abbrev requestPieces : List Piece := [.shadow, .request, .hand, .waiting]

/-- A request row leaves the state, or takes the closing write in hand, does its owner's work within certain pieces, and answers. -/
def Requested (F : List Piece) (s t : State) : Prop :=
  t = s ∨ ∃ q u c d, s.takeClosing.cau.request = some q ∧ Runs F s.takeClosing u ∧ t = u.answer q c d

theorem Requested.frame {F G : List Piece} {s t : State} (h : Requested F s t)
    (hG : requestPieces ++ F ⊆ G := by decide) : Frame G s t := by
  obtain ⟨hrequest, hF⟩ := List.append_subset.1 hG
  rcases h with rfl | ⟨q, u, c, d, _, hrun, rfl⟩
  · exact Frame.refl _ _
  · exact (s.takeClosing_frame.mono (List.Subset.trans (by decide) hrequest)).trans
      ((hrun.frame.mono hF).trans ((u.answer_frame q c d).mono (List.Subset.trans (by decide) hrequest)))

/-- What an owner does with a request: its work within certain pieces, and the answer. -/
def Owned (F : List Piece) (q : Request) (s t : State) : Prop := ∃ u c d, Runs F s u ∧ t = u.answer q c d

theorem Owned.answer {F : List Piece} {q : Request} {s u : State} (h : Runs F s u) (c : ResultCode) (d : Nat) :
    Owned F q s (u.answer q c d) := ⟨u, c, d, h, rfl⟩

/-- An owner that answers at once. -/
theorem Owned.refuse (F : List Piece) (q : Request) (s : State) (c : ResultCode) (d : Nat) : Owned F q s (s.answer q c d) :=
  .answer (.refl F s) c d

theorem Owned.ite {F : List Piece} {q : Request} {s t u : State} {p : Prop} [Decidable p] (h : Owned F q s t)
    (h' : Owned F q s u) : Owned F q s (if p then t else u) := by
  split
  exacts [h, h']

theorem State.onRequest_requested {F : List Piece} (accepts : Word → Bool) (owner : Request → State → State) (s : State)
    (h : ∀ q s, Owned F q s (owner q s)) : Answers (Requested F s) (.next (s.onRequest accepts owner)) := by
  refine .next ?_
  rcases s.onRequest_cases accepts owner with h' | ⟨q, hq, _, h'⟩ <;> rw [h']
  · exact .inl rfl
  · obtain ⟨u, c, d, hrun, hanswer⟩ := h q s.takeClosing
    exact .inr ⟨q, u, c, d, hq, hrun, hanswer⟩

/-! ## Inspection -/

theorem State.judge_frame (d : List Word) (s : State) : Frame [.stations] s (s.judge d).2 := by
  unfold State.judge
  split
  · split <;> rfl
  · split
    · rfl
    · split
      · rfl
      · dsimp only
        split <;> rfl

theorem State.transmit_frame (ring addr : Nat) (d : List Word) (s : State) :
    Frame [.stations, .defers] s (s.transmit ring addr d).2 :=
  (s.judge_frame d).mono.trans rfl

theorem State.endFetch_frame (s : State) : Frame [.peers, .waiting] s s.endFetch :=
  Frame.after (State.issueFetch_frame _).mono rfl

theorem State.receive_runs (ring : Nat) (w0 : Word) (word : Nat → Word) (s : State) :
    Runs ([.captures, .peers] ++ tablePieces) s (s.receive ring w0 word).2 := by
  have hcleared : Frame [.captures] s (s.putCapture ring Capture.empty) := rfl
  refine Runs.ite (hcleared.thenRuns (State.queuePeer_runs _ _)) ?_
  exact hcleared.thenRuns ((State.observe_runs _ _ _).trans (.of_frame (State.sample_frame _ _ _)))

theorem State.endFill_runs (s : State) : Runs ([.hand, .captures, .peers] ++ tablePieces) s s.endFill := by
  unfold State.endFill
  split
  · split
    · exact (s.receive_runs _ _ _).mono.trans (.update rfl)
    · exact .update rfl
  · exact .update rfl

theorem State.finishAccess_frame (a : InternalAccess) (s : State) : Frame [.sram, .port] s (s.finishAccess a) := rfl

theorem State.takeHeader_frame (b : PeerBuffer) (s : State) : Frame (.peers :: reportPieces) s (s.takeHeader b) := by
  have hignored : ∀ r, Frame (.peers :: reportPieces) s ((s.raise r).endFetch) := fun r =>
    (s.raise_frame r).andThen (State.endFetch_frame _)
  unfold State.takeHeader
  refine Frame.ite (hignored _) (Frame.ite (hignored _) (Frame.ite (hignored _) ?_))
  exact Frame.ite s.endFetch_frame.mono (Frame.after (State.issueFetch_frame _).mono rfl)

theorem State.handEntries_frame (node used : Nat) (s : State) :
    Frame ([.peers, .stations] ++ reportPieces) s (s.handEntries node used) := by
  unfold State.handEntries
  dsimp only
  have hhanded : ∀ (f : Nat → PeerEntry) n, Frame (.stations :: reportPieces) s
      ((List.range n).foldl (fun s i => s.peerEstimate node (f i)) s) := fun f n =>
    Frame.foldl _ (fun s i => (s.peerEstimate_runs node _).frame) _ _
  refine Frame.ite ((hhanded _ _).andThen (State.endFetch_frame _)) ?_
  exact (hhanded _ _).mono.trans (Frame.after (State.issueFetch_frame _).mono rfl)

/-! ## The control area -/

theorem State.setConsumer_frame (c : Nat) (s : State) :
    Frame [.indices, .attn, .reports, .waiting] s (State.driveAttn { s with cau.consumer := c }).pumpReports :=
  Frame.after (State.pumpReports_frame _).mono rfl

theorem State.takeConsumer_frame (s : State) : Frame [.indices, .attn, .reports, .waiting] s s.takeConsumer := by
  unfold State.takeConsumer
  exact Frame.ite (s.setConsumer_frame _) (Frame.refl _ s)

theorem State.takePolicy_frame (p : Policy) (s : State) : Frame [.policy, .stations] s (s.takePolicy p) := by
  rcases s.takePolicy_cases p with ⟨_, h⟩ | ⟨_, h⟩ <;> rw [h] <;> rfl

theorem State.takeUpRequest_frame (s : State) : Frame [.shadow, .request, .hand] s s.takeUpRequest := by
  unfold State.takeUpRequest
  split <;> rfl

/-! ## Staging and the session's operations -/

theorem State.releaseStaging_frame (s : State) : Frame [.session, .hand] s s.releaseStaging := by
  unfold State.releaseStaging
  split
  · split
    · split <;> rfl
    · rfl
  · rfl

theorem State.sessionOutcome_runs (work : FlashWork) (fail : Bool) (s : State) :
    Runs ([.session, .hand] ++ reportPieces) s (s.sessionOutcome work fail) := by
  unfold State.sessionOutcome
  refine Runs.ite (Runs.ite (s.failSession_runs _).mono ?_) (.update rfl)
  split
  · exact Runs.after (.of_frame (State.releaseStaging_frame _)) rfl
  · exact .update rfl

theorem State.judgeReadback_runs (s : State) : Runs (.session :: reportPieces) s s.judgeReadback :=
  .ite (s.failSession_runs _) (.ite (s.failSession_runs _) (s.enterSession_runs _ _))

theorem State.takeReadback_runs (bytes : List Byte) (s : State) :
    Runs (.session :: reportPieces) s (s.takeReadback bytes) :=
  .ite (.after (State.judgeReadback_runs _) rfl) (.update rfl)

/-! ## Start-up -/

theorem State.install_frame (c : Install) (s : State) :
    Frame [.windows, .config, .startUp, .indices, .reports, .attn, .waiting] s (s.install c) := rfl

/-- The pieces that the end of LOADING touches (R187). -/
abbrev installPieces : List Piece := [.windows, .config, .startUp, .indices, .attn, .flashFault, .startLog] ++ reportPieces

theorem State.installDefaults_frame (r : DefaultedReason) (s : State) : Frame installPieces s (s.installDefaults r) :=
  Frame.trans ((s.install_frame builtIn).mono.trans rfl) (State.raise_frame _ _).mono

theorem State.noResponse_frame (s : State) : Frame installPieces s s.noResponse :=
  Frame.after (State.installDefaults_frame _ _) rfl

theorem State.judgeConfig_frame (s : State) : Frame installPieces s s.judgeConfig := by
  unfold State.judgeConfig
  split
  · rfl
  · refine Frame.ite rfl ?_
    split
    · exact s.installDefaults_frame _
    · rfl
  · refine Frame.ite rfl ?_
    split
    · exact s.installDefaults_frame _
    · exact (s.install_frame _).mono

/-- The pieces that the end of SELECTING touches (R188). -/
abbrev readyPieces : List Piece :=
  [.mapping, .startLog, .startUp, .ready, .session, .status, .hand, .protect] ++ reportPieces

theorem State.riseReady_runs (sl : Slot) (boot : BootState) (fallback : List ReportBody) (s : State) :
    Runs readyPieces s (s.riseReady sl boot fallback) := by
  let s0 : State := { s with
    ptu.mapping := sl
    suc.boot := boot
    suc.trialLeft := if boot = .trial then s.suc.trialWindow else 0
    suc.trialRunning := boot == .trial
    suc.decided := true
    imu.session := if s.imu.session.state = .committed then s.imu.session.ended else s.imu.session }
  have hrise : Runs readyPieces s { s0 with suc.startUp := .ready, lines.ready := true } :=
    (Runs.ready s0 (by decide)).after rfl
  exact hrise.trans ((State.raiseTogether_runs _ _).mono.trans
    ((State.refreshStatus_runs _).mono.trans (State.takeUpHeld_runs _).mono))

theorem State.decideStart_runs (s : State) : Runs readyPieces s s.decideStart := by
  unfold State.decideStart
  split
  · exact s.riseReady_runs _ _ _
  · exact .update rfl

theorem State.toOwner_runs (job : AppendJob) (failure : Option Reason) (s : State) :
    Runs (.restartReq :: readyPieces) s (s.toOwner job failure) := by
  unfold State.toOwner
  split
  · exact .ite (.after (State.enterSession_runs _ _ _).mono rfl) (.update rfl)
  · exact Runs.ite (s.failSession_runs _).mono (.update rfl)
  · exact .update rfl
  · exact .update rfl
  · exact (s.riseReady_runs _ _ _).mono
  · exact (s.riseReady_runs _ _ _).mono
  · exact (s.riseReady_runs _ _ _).mono
  · exact .update rfl

/-- The pieces that the outcome of an append touches (R182, R185, R188, R191). -/
abbrev appendPieces : List Piece := [.restartReq, .flashFault] ++ readyPieces

theorem State.failAppend_runs (a : Append) (r : Reason) (s : State) : Runs appendPieces s (s.failAppend a r) :=
  Runs.after (State.toOwner_runs _ _ _).mono rfl

theorem State.finishAppend_runs (a : Append) (s : State) : Runs (.restartReq :: readyPieces) s (s.finishAppend a) :=
  Runs.after (State.toOwner_runs _ _ _) rfl

theorem State.appendOutcome_runs (fail : Bool) (s : State) : Runs appendPieces s (s.appendOutcome fail) := by
  unfold State.appendOutcome
  split
  · exact .update rfl
  · refine Runs.ite (s.failAppend_runs _ _) ?_
    split <;> exact .update rfl

theorem State.voidPlace_frame (s : State) : Frame [.flash, .free] s s.voidPlace := by
  rcases s.voidPlace_cases with ⟨_, h⟩ | ⟨_, h, _⟩ <;> rw [h] <;> rfl

/-! ## The flash port -/

theorem State.workDone_frame (w : FlashWork) (s : State) : Frame [.flash] s (s.workDone w) := by
  cases w <;> rfl

theorem State.workPartway_frame (w : FlashWork) (s : State) : Frame [.flash, .free] s (s.workPartway w) := by
  cases w <;> rfl

theorem State.workLost_frame (w : FlashWork) (o : OpOwner) (s : State) : Frame [.flash, .free] s (s.workLost w o) := by
  rcases s.workLost_cases w o with ⟨h, _⟩ | ⟨_, _, h⟩ | ⟨_, _, h⟩ <;> rw [h]
  · exact s.workPartway_frame w
  · rfl
  · cases w <;> rfl

theorem State.workEnded_frame (o : FlashOp) (fail : Bool) (s : State) : Frame [.flash, .free] s (s.workEnded o fail) := by
  rcases s.workEnded_cases o fail with ⟨h, _⟩ | ⟨h, _⟩ <;> rw [h]
  · exact s.workLost_frame _ _
  · exact (s.workDone_frame _).mono

theorem State.grantSession_frame (s : State) : Frame [.flashPort] s s.grantSession := by
  unfold State.grantSession
  refine Frame.ite rfl (Frame.ite ?_ rfl)
  split
  · rfl
  · split <;> rfl

theorem State.grantSuc_frame (s : State) : Frame [.flashPort, .startLog] s s.grantSuc := by
  rcases s.grantSuc_cases with ⟨_, h⟩ | ⟨_, _, _, _, h⟩ | ⟨_, _, h⟩ | ⟨_, _, _, h | ⟨_, h⟩⟩ <;> rw [h]
  · exact s.grantSession_frame.mono
  all_goals rfl

theorem State.trySuspend_frame (s : State) : Frame [.flashPort] s s.trySuspend := by
  unfold State.trySuspend
  split
  · split <;> rfl
  · rfl

theorem State.answerRead_frame (flips : List Byte) (s : State) : Frame [.hand] s (s.answerRead flips) := by
  unfold State.answerRead
  split <;> rfl

theorem State.operationTimedOut_runs (o : FlashOp) (s : State) : Runs appendPieces s (s.operationTimedOut o) := by
  unfold State.operationTimedOut
  split
  · exact Runs.ite (s.failSession_runs _).mono (.update rfl)
  · exact .update rfl
  · split
    · exact s.failAppend_runs _ _
    · exact .update rfl

theorem State.operationEnded_runs (o : FlashOp) (fail : Bool) (s : State) : Runs appendPieces s (s.operationEnded o fail) := by
  rcases s.operationEnded_cases o fail with ⟨_, h⟩ | ⟨_, h⟩ | ⟨_, _, ⟨_, h⟩ | ⟨_, h⟩ | ⟨_, h⟩⟩ <;> rw [h]
  · exact .update rfl
  · exact s.operationTimedOut_runs o
  · exact (s.sessionOutcome_runs _ _).mono
  · exact .update rfl
  · exact s.appendOutcome_runs fail

theorem State.giveUpSelecting_runs (s : State) : Runs readyPieces s s.giveUpSelecting := by
  unfold State.giveUpSelecting
  exact .ite (.after (State.decideStart_runs _) rfl) (.update rfl)

theorem State.giveUp_runs (o : FlashOp) (s : State) :
    Runs ([.flash, .flashPort, .flashFault] ++ readyPieces) s (s.giveUp o) := by
  have hlost : Runs [.flash, .flashPort, .flashFault, .free] s
      (({ s with imu.port := s.portGivenUp o, suc.flashFault := true } : State).workLost o.work o.owner) :=
    Runs.after (.of_frame (State.workLost_frame _ _ _)) rfl
  exact hlost.mono.trans (State.giveUpSelecting_runs _).mono

end Sys2Proof.Machine

/-! PROOFS. The frame of every command: the pieces that its row may touch, of the whole table. -/
namespace Sys2Proof.Machine

/-! ## Rows of the pass-through path and of inspection -/

theorem execBusTransaction_runs (x : Transaction) (s : State) :
    Answers (Runs ([.hand, .protect] ++ reportPieces) s) (execBusTransaction x s) := by
  unfold execBusTransaction
  refine .ite (fun _ => .fault) fun _ => .ite (fun _ => ?_) fun _ => .refused
  split
  · exact .next (.update rfl)
  · exact .ite (fun _ => .next (s.takeUp_runs _)) fun _ => .next (.update rfl)

theorem execReadyLowHoldExpiry_frame (s : State) : Answers (Frame [.hand] s) (execReadyLowHoldExpiry s) := by
  unfold execReadyLowHoldExpiry
  split
  · exact .ite (fun _ => .next rfl) fun _ => .next rfl
  · exact .next rfl

theorem execSramPortGrant_frame (s : State) : Answers (Frame [.waiting, .port, .hand] s) (execSramPortGrant s) := by
  unfold execSramPortGrant
  split
  · split
    · exact .next rfl
    · exact .next rfl
    · exact .ite (fun _ => .next rfl) fun _ => .next rfl
    · exact .next rfl
  · exact .next rfl
  · exact .next rfl

theorem State.completePlain_frame (h : InHand) (s : State) : Frame [.sram, .hand] s (s.completePlain h) := by
  unfold State.completePlain
  split <;> rfl

theorem execPassThroughSramDone_frame (s : State) : Answers (Frame [.sram, .port, .hand] s) (execPassThroughSramDone s) := by
  unfold execPassThroughSramDone
  split
  · split
    · exact .next (Frame.after (State.completePlain_frame _ _).mono rfl)
    · exact .next (Frame.after (State.completePlain_frame _ _).mono rfl)
    all_goals exact .next rfl
  · exact .next rfl

theorem execTxDescriptorFetch_frame (s : State) : Answers (Frame [.hand, .txLate] s) (execTxDescriptorFetch s) := by
  unfold execTxDescriptorFetch
  split
  · split
    · exact .ite (fun _ => .ite (fun _ => .next rfl) fun _ => .next rfl) fun _ => .next rfl
    all_goals exact .next rfl
  · exact .next rfl

theorem execTransmitDecision_frame (s : State) : Answers (Frame [.stations, .defers, .hand] s) (execTransmitDecision s) := by
  unfold execTransmitDecision
  split
  · split
    · exact .next ((s.transmit_frame _ _ _).mono.trans rfl)
    · exact .next rfl
  · exact .next rfl

theorem execTxHoldExpiry_frame (s : State) : Answers (Frame [.hand, .txLate] s) (execTxHoldExpiry s) := by
  unfold execTxHoldExpiry
  split
  · split
    · exact .next rfl
    · exact .ite (fun _ => .next rfl) fun _ => .next rfl
    all_goals exact .next rfl
  · exact .next rfl

theorem execRxRingWrite_frame (s : State) : Answers (Frame [.captures, .hand] s) (execRxRingWrite s) := by
  unfold execRxRingWrite
  split <;> exact .next rfl

/-- The pieces that a receive decision touches (R53 to R55). -/
abbrev receivePieces : List Piece := [.hand, .captures, .peers] ++ tablePieces

theorem execRxClosingWrite_runs (s : State) : Answers (Runs receivePieces s) (execRxClosingWrite s) := by
  unfold execRxClosingWrite
  split
  · next h w _ =>
    dsimp only
    have hcaptured : ∀ c, Runs [.captures] s (s.putCapture w.ringId c) := fun _ => .update rfl
    exact .ite (fun _ => .next ((hcaptured _).mono.trans
      ((State.receive_runs _ _ _ _).mono.trans (.of_frame (State.toPhase_frame _ _ _))))) fun _ => .next (.update rfl)
  · exact .next s.endFill_runs

theorem execRxHoldExpiry_frame (s : State) : Answers (Frame [.captures, .hand, .rxLate] s) (execRxHoldExpiry s) := by
  unfold execRxHoldExpiry
  split
  · split
    · exact .ite (fun _ => .next rfl) fun _ => .next rfl
    · exact .next rfl
  · exact .next rfl

theorem execPeerFetchReadDone_frame (s : State) :
    Answers (Frame ([.sram, .port, .peers, .stations] ++ reportPieces) s) (execPeerFetchReadDone s) := by
  unfold execPeerFetchReadDone
  split
  · dsimp only
    split
    · exact .next rfl
    · exact .next rfl
    · split
      · exact .next (Frame.after (State.handEntries_frame _ _ _).mono rfl)
      · exact .ite (fun _ => .next (Frame.after (State.issueFetch_frame _).mono rfl))
          fun _ => .next (Frame.after (State.takeHeader_frame _ _).mono rfl)
  · exact .next rfl

/-! ## Rows of the control area -/

theorem execControlWrite_frame (s : State) : Answers (Frame [.shadow, .hand] s) (execControlWrite s) := by
  unfold execControlWrite
  split <;> exact .next rfl

theorem execConsumerIndexWrite_frame (s : State) :
    Answers (Frame [.shadow, .hand, .indices, .attn, .reports, .waiting] s) (execConsumerIndexWrite s) := by
  unfold execConsumerIndexWrite
  split
  · exact .next ((s.absorb_frame _ _).andThen (State.takeConsumer_frame _))
  · exact .next rfl

theorem execClassMapWrite_frame (s : State) : Answers (Frame [.shadow, .hand, .classMap] s) (execClassMapWrite s) := by
  unfold execClassMapWrite
  split <;> exact .next rfl

theorem execNodePolicyRecord_frame (s : State) :
    Answers (Frame [.shadow, .hand, .policy, .stations] s) (execNodePolicyRecord s) := by
  unfold execNodePolicyRecord
  split
  · exact .next ((s.absorb_frame _ _).andThen (State.takePolicy_frame _ _))
  · exact .next rfl

theorem execProfileRecord_runs (s : State) :
    Answers (Runs ([.shadow, .hand, .profiles, .stations] ++ reportPieces) s) (execProfileRecord s) := by
  unfold execProfileRecord
  split
  · exact .next ((s.absorb_frame _ _).thenRuns (Runs.foldl _ (fun s o => s.takeProfile_runs _ _) _ _))
  · exact .next (.update rfl)

theorem execPinRecord_runs (s : State) :
    Answers (Runs ([.shadow, .hand, .stations, .pins] ++ reportPieces) s) (execPinRecord s) := by
  unfold execPinRecord
  split
  · exact .next ((s.absorb_frame _ _).thenRuns (Runs.foldl _ (fun s o => s.takePin_runs _ _) _ _))
  · exact .next (.update rfl)

theorem execRequestClosingHeld_frame (s : State) : Answers (Frame [.hand] s) (execRequestClosingHeld s) := by
  unfold execRequestClosingHeld
  split
  · exact .ite (fun _ => .next rfl) fun _ => .next rfl
  · exact .next rfl

theorem execRequestHoldExpiry_frame (s : State) : Answers (Frame [.hand] s) (execRequestHoldExpiry s) := by
  unfold execRequestHoldExpiry
  split
  · exact .ite (fun _ => .next rfl) fun _ => .next rfl
  · exact .next rfl

theorem execResultWriteDone_frame (s : State) :
    Answers (Frame [.sram, .port, .waiting, .shadow, .request, .hand] s) (execResultWriteDone s) := by
  unfold execResultWriteDone
  split
  · exact .ite (fun _ => .next rfl) fun _ => .next (Frame.after (State.takeUpRequest_frame _).mono rfl)
  · exact .next rfl

theorem execReportBodyWriteDone_frame (s : State) :
    Answers (Frame [.sram, .port, .waiting, .reports, .indices] s) (execReportBodyWriteDone s) := by
  unfold execReportBodyWriteDone
  split
  · exact .ite (fun _ => .next rfl) fun _ => .next rfl
  · exact .next rfl

theorem execProducerIndexWriteDone_frame (s : State) :
    Answers (Frame [.sram, .port, .waiting, .reports, .indices, .attn] s) (execProducerIndexWriteDone s) := by
  unfold execProducerIndexWriteDone
  split
  · exact .ite (fun _ => .next rfl) fun _ => .next (Frame.after (State.pumpReports_frame _).mono rfl)
  · exact .next rfl

theorem execStatusWriteDone_frame (s : State) : Answers (Frame [.sram, .port, .waiting, .status] s) (execStatusWriteDone s) := by
  unfold execStatusWriteDone
  split
  · exact .ite (fun _ => .next rfl) fun _ => .next (Frame.after (State.pumpStatus_frame _).mono rfl)
  · exact .next rfl

/-! ## The owners of the requests -/

theorem execBadKindRequest_requested (s : State) : Answers (Requested [] s) (execBadKindRequest s) :=
  s.onRequest_requested _ _ fun q s => .refuse _ q s _ _

/-- The clock set by SET_TIME, with the targets and the maintenance-open flag on it (R117). -/
def State.clockSet (minute second : Nat) (s : State) : State :=
  (State.retargetProfiles
    { s with time := { s.time with minute := minute, second := second, valid := true } }).evaluateMaintenance

theorem State.clockSet_frame (minute second : Nat) (s : State) :
    Frame [.wall, .profiles, .maint] s (s.clockSet minute second) := rfl

theorem execSetTime_requested (s : State) :
    Answers (Requested ([.wall, .profiles, .maint, .stations] ++ reportPieces) s) (execSetTime s) :=
  s.onRequest_requested _ _ fun q s => .ite (.refuse _ q s _ _)
    (.answer ((s.clockSet_frame _ _).thenRuns (State.moveRecords_runs s _ _ _)) _ _)

/-- The pieces that a request on one record's overrides touches (R128 to R130). -/
abbrev overridePieces : List Piece := .stations :: reportPieces

theorem execPauseStation_requested (s : State) : Answers (Requested overridePieces s) (execPauseStation s) := by
  refine s.onRequest_requested _ _ fun q s => .ite (.refuse _ q s _ _) ?_
  split
  · exact .refuse _ q s _ _
  · exact .answer (s.override_runs _ _) _ _

theorem execResumeStation_requested (s : State) : Answers (Requested overridePieces s) (execResumeStation s) := by
  refine s.onRequest_requested _ _ fun q s => ?_
  split
  · exact .refuse _ q s _ _
  · exact .ite (.answer (s.override_runs _ _) _ _) (.refuse _ q s _ _)

theorem execExtendStation_requested (s : State) : Answers (Requested overridePieces s) (execExtendStation s) := by
  refine s.onRequest_requested _ _ fun q s => .ite (.refuse _ q s _ _) ?_
  split
  · exact .refuse _ q s _ _
  · exact .ite (.refuse _ q s _ _) (.answer (s.override_runs _ _) _ _)

theorem execForgetStation_requested (s : State) : Answers (Requested tablePieces s) (execForgetStation s) := by
  refine s.onRequest_requested _ _ fun q s => ?_
  split
  · exact .refuse _ q s _ _
  · exact .answer (s.freeRecord_runs _ _) _ _

theorem execImportContext_requested (s : State) : Answers (Requested tablePieces s) (execImportContext s) := by
  refine s.onRequest_requested _ _ fun q s => ?_
  have hanswered : ∀ (u : State) (n : Nat) groups c d, Frame [.stations, .games, .rmu] s u →
      Owned tablePieces q s (((u.setGameCount n).raiseTogether groups).answer q c d) := fun u n groups c d hu =>
    .answer ((hu.mono.trans (u.setGameCount_frame n).mono : Frame [.stations, .games, .rmu] s _).thenRuns
      (State.raiseTogether_runs _ _)) c d
  split
  · exact .refuse _ q s _ _
  · split
    · exact hanswered _ _ _ _ _ rfl
    · split
      · exact .refuse _ q s _ _
      · next h => exact hanswered _ _ _ _ _ ((State.makeRoom_frame h).andThen (State.addRecord_frame _ _))

/-- The pieces that a request on the session touches. -/
abbrev sessionPieces : List Piece := .session :: reportPieces

/-- The session changed and then entered in a state, as the session's requests do it. -/
theorem State.sessionEntered_runs (n : Session) (st : SessionState) (reason : Reason) (s : State) :
    Runs sessionPieces s (({ s with imu.session := n } : State).enterSession st reason) :=
  .after (State.enterSession_runs _ _ _) rfl

theorem execImageOpen_requested (s : State) : Answers (Requested sessionPieces s) (execImageOpen s) := by
  refine s.onRequest_requested _ _ fun q s => ?_
  split
  · exact .refuse _ q s _ _
  · split
    · exact .answer (s.sessionEntered_runs _ _ _) _ _
    · exact .refuse _ q s _ _

theorem execImageClose_requested (s : State) : Answers (Requested sessionPieces s) (execImageClose s) := by
  refine s.onRequest_requested _ _ fun q s => ?_
  split
  · exact .answer (s.sessionEntered_runs _ _ _) _ _
  · exact .refuse _ q s _ _

theorem State.dropSession_frame (s : State) : Frame [.session, .flashPort] s s.dropSession := rfl

theorem execImageAbort_requested (s : State) :
    Answers (Requested ([.stations, .rmu, .flashPort] ++ sessionPieces) s) (execImageAbort s) := by
  refine s.onRequest_requested _ _ fun q s => ?_
  split
  · exact .answer ((Runs.of_frame s.leaveDraining_frame).trans ((State.enterSession_runs _ _ _).mono.trans
      (.of_frame (State.dropSession_frame _)))) _ _
  · exact .refuse _ q s _ _

theorem execActivate_requested (s : State) : Answers (Requested sessionPieces s) (execActivate s) := by
  refine s.onRequest_requested _ _ fun q s => ?_
  split
  · exact .refuse _ q s _ _
  · split
    · exact .refuse _ q s _ _
    · exact .answer (s.sessionEntered_runs _ _ _) _ _

theorem execActivateCancel_requested (s : State) :
    Answers (Requested ([.stations, .rmu] ++ sessionPieces) s) (execActivateCancel s) := by
  refine s.onRequest_requested _ _ fun q s => ?_
  split
  · exact .answer ((Runs.of_frame s.leaveDraining_frame).trans (State.sessionEntered_runs _ _ _ _).mono) _ _
  · exact .refuse _ q s _ _

theorem execBootConfirm_requested (s : State) : Answers (Requested [.startLog] s) (execBootConfirm s) := by
  refine s.onRequest_requested _ _ fun q s => ?_
  split
  · have hasked : ∀ (jobs : List AppendJob), Runs [.startLog] s
        { s with suc.trialRunning := false, suc.jobs := jobs } := fun _ => .update rfl
    exact .answer (hasked _) _ _
  · exact .refuse _ q s _ _

/-! ## Rows of the flash windows and the session -/

theorem execFlashWindowRead_frame (s : State) : Answers (Frame [.hand, .flashPort] s) (execFlashWindowRead s) := by
  unfold execFlashWindowRead
  split
  · exact .next ((s.toPhase_frame _ _).andThen (State.trySuspend_frame _))
  · exact .next rfl

theorem execFlashHoldExpiry_frame (s : State) : Answers (Frame [.hand, .flashPort] s) (execFlashHoldExpiry s) := by
  unfold execFlashHoldExpiry
  split <;> exact .next rfl

theorem execFlashWindowWrite_runs (s : State) :
    Answers (Runs ([.hand, .protect] ++ reportPieces) s) (execFlashWindowWrite s) := by
  unfold execFlashWindowWrite
  split
  · exact .next ((s.endTxn_frame _ _).thenRuns (State.protectEvent_runs _ _ _))
  · exact .next (.update rfl)

theorem execStagingRead_frame (s : State) : Answers (Frame [.hand, .toggle] s) (execStagingRead s) := by
  unfold execStagingRead
  split
  · exact .ite (fun _ => .next rfl) fun _ => .next rfl
  · exact .next rfl

theorem execStagingWrite_runs (s : State) :
    Answers (Runs ([.hand, .protect, .session] ++ reportPieces) s) (execStagingWrite s) := by
  unfold execStagingWrite
  split
  · split
    · exact .next ((s.endTxn_frame _ _).thenRuns (State.protectEvent_runs _ _ _))
    all_goals exact .next (.update rfl)
  · exact .next (.update rfl)

theorem execStagingWriteHoldExpiry_frame (s : State) : Answers (Frame [.hand, .session] s) (execStagingWriteHoldExpiry s) := by
  unfold execStagingWriteHoldExpiry
  split
  · exact .ite (fun _ => .next rfl) fun _ => .next rfl
  · exact .next rfl

theorem execFlashPortGrant_frame (s : State) : Answers (Frame [.flashPort, .startLog] s) (execFlashPortGrant s) := by
  unfold execFlashPortGrant
  split
  · split
    · exact .next rfl
    · exact .next s.grantSuc_frame
  · exact .next rfl
  · exact .next rfl

/-- The pieces that the end of an operation or its giving up touches (R159, R172, R185, R188). -/
abbrev operationPieces : List Piece := [.flash, .flashPort] ++ appendPieces

theorem execFlashStatusPoll_runs (busy suspended fail : Bool) (s : State) :
    Answers (Runs operationPieces s) (execFlashStatusPoll busy suspended fail s) := by
  have hfree : Runs operationPieces s { s with imu.port := .free } := .update rfl
  have hpoll : ∀ o, Answers (Runs operationPieces s)
      (if busy = false ∧ suspended = false then
        if o.timedOut = true ∧ giveUpUs < o.lateUs then .next (s.giveUp o)
        else .next ((({ s with imu.port := .free } : State).workEnded o fail).operationEnded o fail)
      else if suspended then .next { s with imu.port := .busy o.paused } else .next s) := fun o =>
    .ite (fun _ => .ite (fun _ => .next (s.giveUp_runs o).mono)
      fun _ => .next (hfree.trans ((Runs.of_frame (State.workEnded_frame _ _ _)).trans (State.operationEnded_runs _ _ _).mono)))
      fun _ => .ite (fun _ => .next (.update rfl)) fun _ => .next (.update rfl)
  unfold execFlashStatusPoll
  split
  · split
    · exact .next (.update rfl)
    · exact hpoll _
    · exact hpoll _
  · exact .next (.update rfl)
  · exact .next (.update rfl)

theorem execFlashPassThroughReadEnd_frame (flips : List Byte) (s : State) :
    Answers (Frame [.hand, .flashPort] s) (execFlashPassThroughReadEnd flips s) := by
  unfold execFlashPassThroughReadEnd
  split
  · exact .next (Frame.ite (Frame.after (State.answerRead_frame _ _).mono rfl) rfl)
  · split
    · exact .next (Frame.after (State.answerRead_frame _ _).mono rfl)
    · exact .next rfl
    · exact .next rfl
  all_goals exact .next rfl

theorem execFlashSuspended_frame (s : State) : Answers (Frame [.flashPort] s) (execFlashSuspended s) := by
  unfold execFlashSuspended
  split <;> exact .next rfl

theorem execSuspendTimeout_frame (s : State) : Answers (Frame [.flashPort] s) (execSuspendTimeout s) := by
  unfold execSuspendTimeout
  split
  · split <;> exact .next rfl
  all_goals exact .next rfl

theorem execMinimumRunEnd_frame (s : State) : Answers (Frame [.flashPort] s) (execMinimumRunEnd s) := by
  unfold execMinimumRunEnd
  split
  · exact .ite (fun _ => .next (Frame.after (State.trySuspend_frame _) rfl)) fun _ => .next rfl
  all_goals exact .next rfl

theorem execFlashOperationTimeout_runs (s : State) :
    Answers (Runs (.flashPort :: appendPieces) s) (execFlashOperationTimeout s) := by
  unfold execFlashOperationTimeout
  split
  · exact .ite (fun _ => .next (Runs.after (State.operationTimedOut_runs _ _).mono rfl)) fun _ => .next (.update rfl)
  all_goals exact .next (.update rfl)

theorem execFlashOperationGiveUp_runs (s : State) : Answers (Runs operationPieces s) (execFlashOperationGiveUp s) := by
  unfold execFlashOperationGiveUp
  split
  · exact .ite (fun _ => .next (s.giveUp_runs _).mono) fun _ => .next (.update rfl)
  all_goals exact .next (.update rfl)

theorem execVerifyReadEnd_runs (flips : List Byte) (s : State) :
    Answers (Runs ([.flashPort, .session] ++ reportPieces) s) (execVerifyReadEnd flips s) := by
  unfold execVerifyReadEnd
  split
  · exact .ite (fun _ => .next (Runs.after (State.takeReadback_runs _ _).mono rfl)) fun _ => .next (.update rfl)
  all_goals exact .next (.update rfl)

/-! ## Rows of the start-up controller -/

theorem execFlashNoResponse_frame (s : State) : Answers (Frame installPieces s) (execFlashNoResponse s) :=
  .ite (fun _ => .next s.noResponse_frame) fun _ => .next rfl

theorem execLoadingReadStatus_frame (busy : Bool) (s : State) : Answers (Frame installPieces s) (execLoadingReadStatus busy s) :=
  .ite (fun _ => .ite (fun _ => .next s.noResponse_frame) fun _ => .next rfl) fun _ => .next rfl

theorem execConfigBlockReadEnd_frame (flips : List Byte) (s : State) :
    Answers (Frame (.flashPort :: installPieces) s) (execConfigBlockReadEnd flips s) := by
  unfold execConfigBlockReadEnd
  split
  · exact .ite (fun _ => .next (Frame.after (State.judgeConfig_frame _).mono rfl)) fun _ => .next rfl
  all_goals exact .next rfl

theorem execSelectorScanReadEnd_frame (flips : List Byte) (s : State) :
    Answers (Frame [.flashPort, .startLog] s) (execSelectorScanReadEnd flips s) := by
  unfold execSelectorScanReadEnd
  split
  · exact .ite (fun _ => .ite (fun _ => .next rfl) fun _ => .next rfl) fun _ => .next rfl
  all_goals exact .next rfl

theorem execSelectorReadbackEnd_runs (flips : List Byte) (s : State) :
    Answers (Runs operationPieces s) (execSelectorReadbackEnd flips s) := by
  have hfree : Runs operationPieces s { s with imu.port := .free } := .update rfl
  unfold execSelectorReadbackEnd
  split
  · dsimp only
    split
    · exact .ite (fun _ => .next (hfree.trans (State.finishAppend_runs _ _).mono))
        fun _ => .next (hfree.trans ((Runs.of_frame (State.voidPlace_frame _)).trans (State.failAppend_runs _ _ _).mono))
    · exact .next (.update rfl)
  all_goals exact .next (.update rfl)

theorem execSelectingDecision_runs (s : State) : Answers (Runs readyPieces s) (execSelectingDecision s) :=
  .ite (fun _ => .next s.decideStart_runs) fun _ => .next (.update rfl)

theorem execTrialExpiry_frame (s : State) : Answers (Frame [.startLog, .restartReq] s) (execTrialExpiry s) :=
  .ite (fun _ => .next s.trialSecond_frame) fun _ => .next rfl

/-! ## Rows of time and of single records -/

theorem execMinuteBoundary_runs (order : List BoundaryUnit) (s : State) :
    Answers (Runs ([.clock, .hand, .flashPort] ++ boundaryPieces) s) (execMinuteBoundary order s) :=
  .ite (fun _ => .next (s.boundary_runs order)) fun _ => .next (.update rfl)

theorem execHoldCountdownExpiry_runs (slot : Nat) (s : State) : Answers (Runs tablePieces s) (execHoldCountdownExpiry slot s) := by
  unfold execHoldCountdownExpiry
  split
  · split
    · exact .ite (fun _ => .next (s.freeRecord_runs _ _)) fun _ => .next (.update rfl)
    · exact .next (.update rfl)
  · exact .next (.update rfl)

theorem execGameLingerEnd_runs (slot : Nat) (s : State) :
    Answers (Runs ([.stations, .games] ++ reportPieces) s) (execGameLingerEnd slot s) := by
  unfold execGameLingerEnd
  split
  · exact .ite (fun _ => .next ((Runs.of_frame (s.putRecord_frame _)).trans
      ((State.setGameCount_frame _ _).thenRuns (State.raiseAll_runs _ _))))
      fun _ => .next (.update rfl)
  · exact .next (.update rfl)

theorem execSweepVisit_frame (s : State) : Answers (Frame [.stations] s) (execSweepVisit s) := by
  unfold execSweepVisit
  split <;> exact .next rfl

theorem execPauseExpiry_runs (slot : Nat) (s : State) : Answers (Runs (.stations :: reportPieces) s) (execPauseExpiry slot s) := by
  unfold execPauseExpiry
  split
  · split
    · exact .ite (fun _ => .next (s.override_runs _ _)) fun _ => .next (.update rfl)
    all_goals exact .next (.update rfl)
  · exact .next (.update rfl)

theorem execExtensionExpiry_runs (slot : Nat) (s : State) :
    Answers (Runs (.stations :: reportPieces) s) (execExtensionExpiry slot s) := by
  unfold execExtensionExpiry
  split
  · exact .ite (fun _ => .next (s.override_runs _ _)) fun _ => .next (.update rfl)
  · exact .next (.update rfl)

theorem execEstimateEntryExpiry_frame (slot node : Nat) (s : State) :
    Answers (Frame [.stations] s) (execEstimateEntryExpiry slot node s) := by
  unfold execEstimateEntryExpiry
  split <;> exact .next rfl

theorem execBackoffExpiry_frame (slot : Nat) (s : State) : Answers (Frame [.stations] s) (execBackoffExpiry slot s) := by
  unfold execBackoffExpiry
  split
  · exact .ite (fun _ => .next rfl) fun _ => .next rfl
  · exact .next rfl

theorem execSteerTimeout_runs (slot : Nat) (s : State) :
    Answers (Runs (.stations :: reportPieces) s) (execSteerTimeout slot s) := by
  unfold execSteerTimeout
  split
  · exact .ite (fun _ => .next ((s.putRecord_frame _).thenRuns (State.raiseAll_runs _ _))) fun _ => .next (.update rfl)
  · exact .next (.update rfl)

theorem execSignalSummary_runs (s : State) : Answers (Runs (.rmu :: reportPieces) s) (execSignalSummary s) := by
  unfold execSignalSummary
  split
  · exact .next (.update rfl)
  · split
    · exact .next (.update rfl)
    · exact .ite (fun _ => .next (Runs.after (State.raise_runs _ _).mono rfl)) fun _ => .next (.update rfl)

theorem execDrainDeadline_runs (s : State) :
    Answers (Runs ([.session, .stations, .rmu, .startLog] ++ reportPieces) s) (execDrainDeadline s) :=
  .ite (fun _ => .next (Runs.after (State.enterCommitting_runs _ _) rfl)) fun _ => .next (.update rfl)

/-! ## The node restart -/

/-- The pieces that a row taken before a node restart touches (R5; log 17). -/
abbrev takenPieces : List Piece :=
  [.captures, .hand, .shadow, .request, .indices, .attn, .classMap, .policy, .profiles, .stations, .pins, .session, .toggle,
   .protect] ++ reportPieces

theorem State.takeControl_frame (u : ControlUse) (s : State) : Frame takenPieces s (s.takeControl u) := by
  cases u with
  | plain => exact State.afterRow_of_answers ((execControlWrite_frame s).imp fun _ h => h.mono) rfl
  | consumerIndex => exact State.afterRow_of_answers ((execConsumerIndexWrite_frame s).imp fun _ h => h.mono) rfl
  | classMap => exact State.afterRow_of_answers ((execClassMapWrite_frame s).imp fun _ h => h.mono) rfl
  | policy => exact State.afterRow_of_answers ((execNodePolicyRecord_frame s).imp fun _ h => h.mono) rfl
  | profile => exact State.afterRow_of_answers ((execProfileRecord_runs s).imp fun _ h => h.frame.mono) rfl
  | pin => exact State.afterRow_of_answers ((execPinRecord_runs s).imp fun _ h => h.frame.mono) rfl
  | request => exact s.takeClosing_frame.mono

theorem State.takeRouted_frame (h : InHand) (s : State) : Frame takenPieces s (s.takeRouted h) := by
  have hflash : Frame takenPieces s (s.afterRow execFlashWindowWrite) :=
    State.afterRow_of_answers ((execFlashWindowWrite_runs s).imp fun _ h => h.frame.mono) rfl
  unfold State.takeRouted
  split
  · split
    · exact State.afterRow_of_answers ((execRxRingWrite_frame s).imp fun _ h => h.mono) rfl
    · exact s.takeControl_frame _
    · exact State.afterRow_of_answers ((execStagingWrite_runs s).imp fun _ h => h.frame.mono) rfl
    · exact State.afterRow_of_answers ((execStagingRead_frame s).imp fun _ h => h.mono) rfl
    · exact hflash
    · exact hflash
    · exact hflash
    all_goals rfl
  · rfl

theorem State.restartTransaction_frame (s : State) : Frame (.port :: takenPieces) s s.restartTransaction := by
  rcases s.restartTransaction_cases with h | ⟨_, _, _, _, _, _, h⟩ | ⟨_, _, _, h, _⟩ <;> rw [h]
  · exact Frame.refl _ s
  · exact (s.takeRouted_frame _).mono
  · rfl

/-- Where the transaction in hand is not one to be taken first, its end touches the hand and the port alone. -/
theorem State.restartTransaction_frame_of_not_routed {s : State} (hn : ∀ h, s.ptu.inHand = some h → h.phase ≠ .routed) :
    Frame [.hand, .port] s s.restartTransaction := by
  rcases s.restartTransaction_cases with h | ⟨_, _, hh, hp, _⟩ | ⟨_, _, _, h, _⟩
  · rw [h]
    exact Frame.refl _ s
  · exact absurd hp (hn _ hh)
  · rw [h]
    rfl

/-- What the node restart does after the end of the transaction in hand. -/
def State.restartRest (s : State) : State :=
  (State.restartCau
    { s with
      ptu.queue := []
      ptu.behind := none
      ptu.quiet := false
      ptu.further := 0
      ptu.port := match s.ptu.port with
        | .internal a _ => .internal a true
        | .free => .free
        | .passThrough => .passThrough
      diu := Diu.powerOn }).restartTable.restartImu.restartSuc

/-- The pieces that a node restart clears or sets (R20, R38, R62, R84, R98, R115, R134, R156, R177, R193). -/
abbrev restartPieces : List Piece :=
  [.waiting, .protect, .port, .defers, .captures, .peers, .txLate, .rxLate, .shadow, .request, .reports, .indices, .status,
   .attn, .stations, .games, .rmu, .session, .flashPort, .startUp, .startLog, .ready, .restartReq]

theorem State.restartCau_frame (s : State) :
    Frame [.shadow, .request, .reports, .indices, .status, .attn, .waiting] s s.restartCau := by
  unfold State.restartCau
  exact Frame.ite rfl rfl

theorem State.restartTable_frame (s : State) : Frame [.stations, .games, .rmu] s s.restartTable := rfl

theorem State.restartImu_frame (s : State) : Frame [.session, .flashPort] s s.restartImu := rfl

theorem State.restartSuc_frame (s : State) : Frame [.startUp, .startLog, .ready, .restartReq] s s.restartSuc := rfl

theorem State.restartRest_frame (s : State) : Frame restartPieces s s.restartRest := by
  refine Frame.trans ?_ ((State.restartTable_frame _).mono.trans ((State.restartImu_frame _).andThen (State.restartSuc_frame _)))
  exact Frame.after (State.restartCau_frame _).mono rfl

/-! ## The whole table -/

/-- The pieces that a command may touch. Power-on sets every unit and leaves the queue and the SRAM (log 15). -/
def touchedBy : Instr → List Piece
  | .powerOn =>
    [.clock, .wall, .attn, .restartReq, .ready, .windows, .mapping, .protect, .waiting, .port, .hand, .shadow, .request, .indices,
     .reports, .status, .policy, .defers, .captures, .peers, .txLate, .rxLate, .stations, .pins, .classMap, .games, .profiles,
     .maint, .rmu, .session, .toggle, .flashPort, .config, .startUp, .flashFault, .startLog, .flash, .free]
  | .nodeRestart => .port :: takenPieces ++ restartPieces
  | .flashNoResponse | .loadingReadStatus _ => installPieces
  | .configBlockReadEnd _ => .flashPort :: installPieces
  | .selectorScanReadEnd _ | .flashPortGrant => [.flashPort, .startLog]
  | .selectingDecision => readyPieces
  | .readyLowHoldExpiry | .requestClosingHeld | .requestHoldExpiry => [.hand]
  | .busTransaction _ | .flashWindowWrite => [.hand, .protect] ++ reportPieces
  | .sramPortGrant => [.waiting, .port, .hand]
  | .passThroughSramDone => [.sram, .port, .hand]
  | .txDescriptorFetch | .txHoldExpiry => [.hand, .txLate]
  | .transmitDecision => [.stations, .defers, .hand]
  | .rxRingWrite => [.captures, .hand]
  | .rxClosingWrite => receivePieces
  | .rxHoldExpiry => [.captures, .hand, .rxLate]
  | .peerFetchReadDone => [.sram, .port, .peers, .stations] ++ reportPieces
  | .controlWrite => [.shadow, .hand]
  | .consumerIndexWrite => [.shadow, .hand, .indices, .attn, .reports, .waiting]
  | .classMapWrite => [.shadow, .hand, .classMap]
  | .nodePolicyRecord => [.shadow, .hand, .policy, .stations]
  | .profileRecord => [.shadow, .hand, .profiles, .stations] ++ reportPieces
  | .pinRecord => [.shadow, .hand, .stations, .pins] ++ reportPieces
  | .badKindRequest => requestPieces
  | .setTime => requestPieces ++ [.wall, .profiles, .maint, .stations] ++ reportPieces
  | .pauseStation | .resumeStation | .extendStation => requestPieces ++ overridePieces
  | .forgetStation | .importContext => requestPieces ++ .request :: tablePieces
  | .imageOpen | .imageClose | .activate => requestPieces ++ sessionPieces
  | .imageAbort => requestPieces ++ [.stations, .rmu, .flashPort] ++ sessionPieces
  | .activateCancel => requestPieces ++ [.stations, .rmu] ++ sessionPieces
  | .bootConfirm => requestPieces ++ [.startLog]
  | .resultWriteDone => [.sram, .port, .waiting, .shadow, .request, .hand]
  | .reportBodyWriteDone => [.sram, .port, .waiting, .reports, .indices]
  | .producerIndexWriteDone => [.sram, .port, .waiting, .reports, .indices, .attn]
  | .statusWriteDone => [.sram, .port, .waiting, .status]
  | .flashWindowRead | .flashHoldExpiry | .flashPassThroughReadEnd _ => [.hand, .flashPort]
  | .stagingRead => [.hand, .toggle]
  | .stagingWrite => [.hand, .protect, .session] ++ reportPieces
  | .stagingWriteHoldExpiry => [.hand, .session]
  | .flashStatusPoll _ _ _ | .flashOperationGiveUp | .selectorReadbackEnd _ => operationPieces
  | .flashSuspended | .suspendTimeout | .minimumRunEnd => [.flashPort]
  | .flashOperationTimeout => .flashPort :: appendPieces
  | .verifyReadEnd _ => [.flashPort, .session] ++ reportPieces
  | .secondBoundary _ | .minuteBoundary _ => [.clock, .hand, .flashPort] ++ boundaryPieces
  | .holdCountdownExpiry _ => tablePieces
  | .gameLingerEnd _ => [.stations, .games] ++ reportPieces
  | .sweepVisit | .estimateEntryExpiry _ _ | .backoffExpiry _ => [.stations]
  | .pauseExpiry _ | .extensionExpiry _ | .steerTimeout _ => .stations :: reportPieces
  | .signalSummary => .rmu :: reportPieces
  | .drainDeadline => [.session, .stations, .rmu, .startLog] ++ reportPieces
  | .trialExpiry => [.startLog, .restartReq]

theorem exec_frame (c : Instr) (s : State) : Answers (Frame (touchedBy c) s) (exec c s) := by
  cases c with
  | powerOn => exact .next rfl
  | nodeRestart =>
    exact .next (s.restartTransaction_frame.andThen (State.restartRest_frame _)
      (by decide) (by decide))
  | flashNoResponse => exact execFlashNoResponse_frame s
  | configBlockReadEnd f => exact execConfigBlockReadEnd_frame f s
  | selectorScanReadEnd f => exact execSelectorScanReadEnd_frame f s
  | selectingDecision => exact (execSelectingDecision_runs s).imp fun _ h => h.frame
  | readyLowHoldExpiry => exact execReadyLowHoldExpiry_frame s
  | busTransaction x => exact (execBusTransaction_runs x s).imp fun _ h => h.frame
  | sramPortGrant => exact execSramPortGrant_frame s
  | passThroughSramDone => exact execPassThroughSramDone_frame s
  | txDescriptorFetch => exact execTxDescriptorFetch_frame s
  | transmitDecision => exact execTransmitDecision_frame s
  | txHoldExpiry => exact execTxHoldExpiry_frame s
  | rxRingWrite => exact execRxRingWrite_frame s
  | rxClosingWrite => exact (execRxClosingWrite_runs s).imp fun _ h => h.frame
  | rxHoldExpiry => exact execRxHoldExpiry_frame s
  | peerFetchReadDone => exact execPeerFetchReadDone_frame s
  | controlWrite => exact execControlWrite_frame s
  | consumerIndexWrite => exact execConsumerIndexWrite_frame s
  | classMapWrite => exact execClassMapWrite_frame s
  | nodePolicyRecord => exact execNodePolicyRecord_frame s
  | profileRecord => exact (execProfileRecord_runs s).imp fun _ h => h.frame
  | pinRecord => exact (execPinRecord_runs s).imp fun _ h => h.frame
  | badKindRequest => exact (execBadKindRequest_requested s).imp fun _ h => h.frame
  | requestClosingHeld => exact execRequestClosingHeld_frame s
  | requestHoldExpiry => exact execRequestHoldExpiry_frame s
  | setTime => exact (execSetTime_requested s).imp fun _ h => h.frame
  | pauseStation => exact (execPauseStation_requested s).imp fun _ h => h.frame
  | resumeStation => exact (execResumeStation_requested s).imp fun _ h => h.frame
  | extendStation => exact (execExtendStation_requested s).imp fun _ h => h.frame
  | forgetStation => exact (execForgetStation_requested s).imp fun _ h => h.frame
  | importContext => exact (execImportContext_requested s).imp fun _ h => h.frame
  | imageOpen => exact (execImageOpen_requested s).imp fun _ h => h.frame
  | imageClose => exact (execImageClose_requested s).imp fun _ h => h.frame
  | imageAbort => exact (execImageAbort_requested s).imp fun _ h => h.frame
  | activate => exact (execActivate_requested s).imp fun _ h => h.frame
  | activateCancel => exact (execActivateCancel_requested s).imp fun _ h => h.frame
  | bootConfirm => exact (execBootConfirm_requested s).imp fun _ h => h.frame
  | resultWriteDone => exact execResultWriteDone_frame s
  | reportBodyWriteDone => exact execReportBodyWriteDone_frame s
  | producerIndexWriteDone => exact execProducerIndexWriteDone_frame s
  | statusWriteDone => exact execStatusWriteDone_frame s
  | flashWindowRead => exact execFlashWindowRead_frame s
  | flashHoldExpiry => exact execFlashHoldExpiry_frame s
  | flashWindowWrite => exact (execFlashWindowWrite_runs s).imp fun _ h => h.frame
  | stagingRead => exact execStagingRead_frame s
  | stagingWrite => exact (execStagingWrite_runs s).imp fun _ h => h.frame
  | stagingWriteHoldExpiry => exact execStagingWriteHoldExpiry_frame s
  | flashPortGrant => exact execFlashPortGrant_frame s
  | flashStatusPoll b u f => exact (execFlashStatusPoll_runs b u f s).imp fun _ h => h.frame
  | flashPassThroughReadEnd f => exact execFlashPassThroughReadEnd_frame f s
  | flashSuspended => exact execFlashSuspended_frame s
  | suspendTimeout => exact execSuspendTimeout_frame s
  | minimumRunEnd => exact execMinimumRunEnd_frame s
  | flashOperationTimeout => exact (execFlashOperationTimeout_runs s).imp fun _ h => h.frame
  | flashOperationGiveUp => exact (execFlashOperationGiveUp_runs s).imp fun _ h => h.frame
  | verifyReadEnd f => exact (execVerifyReadEnd_runs f s).imp fun _ h => h.frame
  | selectorReadbackEnd f => exact (execSelectorReadbackEnd_runs f s).imp fun _ h => h.frame
  | secondBoundary o => exact .next (s.boundary_runs o).frame
  | minuteBoundary o => exact (execMinuteBoundary_runs o s).imp fun _ h => h.frame
  | holdCountdownExpiry k => exact (execHoldCountdownExpiry_runs k s).imp fun _ h => h.frame
  | gameLingerEnd k => exact (execGameLingerEnd_runs k s).imp fun _ h => h.frame
  | sweepVisit => exact execSweepVisit_frame s
  | pauseExpiry k => exact (execPauseExpiry_runs k s).imp fun _ h => h.frame
  | extensionExpiry k => exact (execExtensionExpiry_runs k s).imp fun _ h => h.frame
  | estimateEntryExpiry k n => exact execEstimateEntryExpiry_frame k n s
  | backoffExpiry k => exact execBackoffExpiry_frame k s
  | steerTimeout k => exact (execSteerTimeout_runs k s).imp fun _ h => h.frame
  | signalSummary => exact (execSignalSummary_runs s).imp fun _ h => h.frame
  | drainDeadline => exact (execDrainDeadline_runs s).imp fun _ h => h.frame
  | trialExpiry => exact execTrialExpiry_frame s
  | loadingReadStatus b => exact execLoadingReadStatus_frame b s

end Sys2Proof.Machine

/-! PROOFS. Who may change what: the memories, the clock and the configuration, the absorbed tables, and the late counts, RESTART_REQ,
the flash-fault flag and the mapping, read off the frame of every command. -/
namespace Sys2Proof.Machine

/-! ## Pieces out of a frame -/

section
variable {F : List Piece} {s t : State}

theorem Frame.sram (h : Frame F s t) (hp : .sram ∉ F) : t.sram = s.sram := by
  simpa only [State.without, Piece.pick_of_not_mem hp] using congrArg State.sram h

theorem Frame.flash (h : Frame F s t) (hp : .flash ∉ F) : t.flash = s.flash := by
  simpa only [State.without, Piece.pick_of_not_mem hp] using congrArg State.flash h

theorem Frame.clock (h : Frame F s t) (hp : .clock ∉ F) : t.time.ms = s.time.ms ∧ t.time.sub = s.time.sub := by
  simpa only [State.without, Piece.pick_of_not_mem hp, Prod.mk.injEq] using congrArg (fun u => (u.time.ms, u.time.sub)) h

theorem Frame.time (h : Frame F s t) (hp : .clock ∉ F) (hw : .wall ∉ F) : t.time = s.time := by
  simpa only [State.without, Piece.pick_of_not_mem hp, Piece.pick_of_not_mem hw] using congrArg State.time h

theorem Frame.windows (h : Frame F s t) (hp : .windows ∉ F) :
    t.ptu.windows = s.ptu.windows ∧ t.ptu.inspectLimit = s.ptu.inspectLimit ∧ t.ptu.flashLimit = s.ptu.flashLimit := by
  simpa only [State.without, Piece.pick_of_not_mem hp, Prod.mk.injEq] using
    congrArg (fun u => (u.ptu.windows, u.ptu.inspectLimit, u.ptu.flashLimit)) h

theorem Frame.config (h : Frame F s t) (hp : .config ∉ F) :
    t.suc.node = s.suc.node ∧ t.suc.backhaul = s.suc.backhaul ∧ t.suc.trialWindow = s.suc.trialWindow
      ∧ t.suc.maxAttempts = s.suc.maxAttempts ∧ t.suc.defaulted = s.suc.defaulted := by
  simpa only [State.without, Piece.pick_of_not_mem hp, Prod.mk.injEq] using
    congrArg (fun u => (u.suc.node, u.suc.backhaul, u.suc.trialWindow, u.suc.maxAttempts, u.suc.defaulted)) h

theorem Frame.policy (h : Frame F s t) (hp : .policy ∉ F) : t.policy = s.policy := by
  simpa only [State.without, Piece.pick_of_not_mem hp] using congrArg State.policy h

theorem Frame.classMap (h : Frame F s t) (hp : .classMap ∉ F) : t.cgu.classMap = s.cgu.classMap := by
  simpa only [State.without, Piece.pick_of_not_mem hp] using congrArg (fun u => u.cgu.classMap) h

theorem Frame.pins (h : Frame F s t) (hp : .pins ∉ F) : t.stu.pins = s.stu.pins := by
  simpa only [State.without, Piece.pick_of_not_mem hp] using congrArg (fun u => u.stu.pins) h

theorem Frame.profiles (h : Frame F s t) (hp : .profiles ∉ F) : t.scu.profiles = s.scu.profiles := by
  simpa only [State.without, Piece.pick_of_not_mem hp] using congrArg (fun u => u.scu.profiles) h

theorem Frame.maint (h : Frame F s t) (hp : .maint ∉ F) : t.scu.maintOpen = s.scu.maintOpen := by
  simpa only [State.without, Piece.pick_of_not_mem hp] using congrArg (fun u => u.scu.maintOpen) h

theorem Frame.txLate (h : Frame F s t) (hp : .txLate ∉ F) : t.diu.txLate = s.diu.txLate := by
  simpa only [State.without, Piece.pick_of_not_mem hp] using congrArg (fun u => u.diu.txLate) h

theorem Frame.rxLate (h : Frame F s t) (hp : .rxLate ∉ F) : t.diu.rxLate = s.diu.rxLate := by
  simpa only [State.without, Piece.pick_of_not_mem hp] using congrArg (fun u => u.diu.rxLate) h

theorem Frame.restartReq (h : Frame F s t) (hp : .restartReq ∉ F) : t.lines.restartReq = s.lines.restartReq := by
  simpa only [State.without, Piece.pick_of_not_mem hp] using congrArg (fun u => u.lines.restartReq) h

theorem Frame.flashFault (h : Frame F s t) (hp : .flashFault ∉ F) : t.suc.flashFault = s.suc.flashFault := by
  simpa only [State.without, Piece.pick_of_not_mem hp] using congrArg (fun u => u.suc.flashFault) h

theorem Frame.mapping (h : Frame F s t) (hp : .mapping ∉ F) : t.ptu.mapping = s.ptu.mapping := by
  simpa only [State.without, Piece.pick_of_not_mem hp] using congrArg (fun u => u.ptu.mapping) h

end

/-! ## The memories -/

/-- The commands that may touch the SRAM: the completions at its port. -/
theorem sram_mem_touchedBy {c : Instr} (h : .sram ∈ touchedBy c) :
    c = .passThroughSramDone ∨ c = .peerFetchReadDone ∨ c = .resultWriteDone ∨ c = .reportBodyWriteDone
      ∨ c = .producerIndexWriteDone ∨ c = .statusWriteDone := by
  revert h
  cases c <;> simp [touchedBy]

/-- The commands that may touch the flash array: power-on, and the ends of programs, erases and appends. -/
theorem flash_mem_touchedBy {c : Instr} (h : .flash ∈ touchedBy c) :
    c = .powerOn ∨ c = .flashOperationGiveUp ∨ (∃ b u f, c = .flashStatusPoll b u f) ∨ ∃ f, c = .selectorReadbackEnd f := by
  revert h
  cases c <;> simp [touchedBy]

/-- Settles O11: a command that touches neither memory in its frame leaves both. -/
theorem memoriesChangeOnlyAtTheirPorts : Obligations.MemoriesChangeOnlyAtTheirPorts := by
  intro c s t h
  have hframe := exec_frame c s t h
  refine ⟨fun h1 h2 h3 h4 h5 h6 => hframe.sram fun hmem => ?_, fun h1 h2 h3 h4 => hframe.flash fun hmem => ?_⟩
  · have := sram_mem_touchedBy hmem
    tauto
  · rcases flash_mem_touchedBy hmem with rfl | rfl | ⟨b, u, f, rfl⟩ | ⟨f, rfl⟩
    exacts [h1 rfl, h2 rfl, h3 b u f rfl, h4 f rfl]

/-! ## The clock and the configuration -/

theorem clock_mem_touchedBy {c : Instr} (h : .clock ∈ touchedBy c) :
    c = .powerOn ∨ (∃ o, c = .secondBoundary o) ∨ ∃ o, c = .minuteBoundary o := by
  revert h
  cases c <;> simp [touchedBy]

theorem wall_mem_touchedBy {c : Instr} (h : .wall ∈ touchedBy c) :
    c = .powerOn ∨ (∃ o, c = .secondBoundary o) ∨ (∃ o, c = .minuteBoundary o) ∨ c = .setTime := by
  revert h
  cases c <;> simp [touchedBy]

/-- The commands that may touch the loaded configuration: power-on and the three of LOADING. -/
theorem config_mem_touchedBy {c : Instr} (h : .windows ∈ touchedBy c ∨ .config ∈ touchedBy c) :
    c = .powerOn ∨ c = .flashNoResponse ∨ (∃ b, c = .loadingReadStatus b) ∨ ∃ f, c = .configBlockReadEnd f := by
  revert h
  cases c <;> simp [touchedBy]

/-- Past LOADING the commands of LOADING touch the flash port alone (R186). -/
theorem exec_loading_frame {c : Instr} {s : State} (hs : s.suc.startUp ≠ .loading)
    (hc : c = .flashNoResponse ∨ (∃ b, c = .loadingReadStatus b) ∨ ∃ f, c = .configBlockReadEnd f) :
    Answers (Frame [.flashPort] s) (exec c s) := by
  rcases hc with rfl | ⟨b, rfl⟩ | ⟨f, rfl⟩
  · exact .ite (fun h => absurd h.1 hs) fun _ => .next rfl
  · exact .ite (fun h => absurd h.1 hs) fun _ => .next rfl
  · change Answers _ (execConfigBlockReadEnd f s)
    unfold execConfigBlockReadEnd
    split
    · exact .ite (fun h => absurd h hs) fun _ => .next rfl
    all_goals exact .next rfl

/-- Settles O12: clock and configuration are left by every frame without them, and the commands of LOADING do nothing past it. -/
theorem clockAndConfigurationAreKept : Obligations.ClockAndConfigurationAreKept := by
  intro c s t h hpower
  have hframe := exec_frame c s t h
  refine ⟨fun hsecond hminute => ?_, fun hload => ?_⟩
  · have hclock : .clock ∉ touchedBy c := fun hmem => by
      rcases clock_mem_touchedBy hmem with hc | ⟨o, hc⟩ | ⟨o, hc⟩
      exacts [hpower hc, hsecond o hc, hminute o hc]
    refine ⟨fun hset => hframe.time hclock fun hmem => ?_, hframe.clock hclock⟩
    rcases wall_mem_touchedBy hmem with hc | ⟨o, hc⟩ | ⟨o, hc⟩ | hc
    exacts [hpower hc, hsecond o hc, hminute o hc, hset hc]
  · have hkept : ∃ F, Frame F s t ∧ .windows ∉ F ∧ .config ∉ F := by
      by_cases hmem : .windows ∈ touchedBy c ∨ .config ∈ touchedBy c
      · have hc := (config_mem_touchedBy hmem).resolve_left hpower
        rcases hload with hs | ⟨h1, h2, h3⟩
        · exact ⟨_, exec_loading_frame hs hc t h, by decide, by decide⟩
        · rcases hc with hc | ⟨b, hc⟩ | ⟨f, hc⟩
          exacts [absurd hc h1, absurd hc (h2 b), absurd hc (h3 f)]
      · rw [not_or] at hmem
        exact ⟨_, hframe, hmem.1, hmem.2⟩
    obtain ⟨F, hF, hwindows, hconfig⟩ := hkept
    obtain ⟨h1, h2, h3⟩ := hF.windows hwindows
    exact ⟨h1, h2, h3, hF.config hconfig⟩

/-! ## The absorbed tables -/

/-- The pieces that a command touches where a node restart finds no transaction that its owner must take first. -/
def touchedUnrouted (c : Instr) : List Piece :=
  match c with
  | .nodeRestart => [.hand, .port] ++ restartPieces
  | c => touchedBy c

theorem exec_frame_unrouted {c : Instr} {s : State} (hn : c = .nodeRestart → ∀ h, s.ptu.inHand = some h → h.phase ≠ .routed) :
    Answers (Frame (touchedUnrouted c) s) (exec c s) := by
  by_cases hc : c = .nodeRestart
  · subst hc
    exact .next ((State.restartTransaction_frame_of_not_routed (hn rfl)).andThen (State.restartRest_frame _))
  · have htouched : touchedUnrouted c = touchedBy c := by
      unfold touchedUnrouted
      split
      · exact absurd rfl hc
      · rfl
    rw [htouched]
    exact exec_frame c s

theorem policy_mem_touchedUnrouted {c : Instr} (h : .policy ∈ touchedUnrouted c) : c = .powerOn ∨ c = .nodePolicyRecord := by
  revert h
  cases c <;> simp [touchedUnrouted, touchedBy]

theorem classMap_mem_touchedUnrouted {c : Instr} (h : .classMap ∈ touchedUnrouted c) : c = .powerOn ∨ c = .classMapWrite := by
  revert h
  cases c <;> simp [touchedUnrouted, touchedBy]

theorem pins_mem_touchedUnrouted {c : Instr} (h : .pins ∈ touchedUnrouted c) : c = .powerOn ∨ c = .pinRecord := by
  revert h
  cases c <;> simp [touchedUnrouted, touchedBy]

theorem profiles_mem_touchedUnrouted {c : Instr} (h : .profiles ∈ touchedUnrouted c) :
    c = .powerOn ∨ c = .profileRecord ∨ c = .setTime ∨ (∃ o, c = .secondBoundary o) ∨ ∃ o, c = .minuteBoundary o := by
  revert h
  cases c <;> simp [touchedUnrouted, touchedBy]

theorem maint_mem_touchedUnrouted {c : Instr} (h : .maint ∈ touchedUnrouted c) :
    c = .powerOn ∨ c = .setTime ∨ (∃ o, c = .secondBoundary o) ∨ ∃ o, c = .minuteBoundary o := by
  revert h
  cases c <;> simp [touchedUnrouted, touchedBy]

/-- The profiles' records, their targets left out of account (R118). -/
def State.profileRecords (s : State) : List Profile := s.scu.profiles.map (fun p => { p with target := 0 })

theorem Frame.profileRecords {F : List Piece} {s t : State} (h : Frame F s t) (hp : .profiles ∉ F) :
    t.profileRecords = s.profileRecords :=
  congrArg (List.map _) (h.profiles hp)

theorem State.retargetProfiles_profileRecords (s : State) : s.retargetProfiles.profileRecords = s.profileRecords := by
  simp [State.profileRecords, State.retargetProfiles]

theorem State.clockAdvanced_profileRecords (s : State) : s.clockAdvanced.profileRecords = s.profileRecords := by
  unfold State.clockAdvanced
  split
  · exact State.retargetProfiles_profileRecords _
  · rfl

theorem State.scheduleBoundary_profileRecords (s : State) : s.scheduleBoundary.profileRecords = s.profileRecords := by
  rw [State.scheduleBoundary_eq]
  refine (Frame.profileRecords ((State.raiseAll_runs _ _).trans (State.raiseAll_runs _ _)).frame (by decide)).trans ?_
  exact s.clockAdvanced_profileRecords

theorem State.unitBoundary_profileRecords (u : BoundaryUnit) (s : State) :
    (s.unitBoundary u).profileRecords = s.profileRecords := by
  cases u with
  | ptu => rfl
  | cau => exact s.statusBoundary_runs.frame.profileRecords (by decide)
  | stu => exact s.stationBoundary_runs.frame.profileRecords (by decide)
  | cgu => exact s.gameBoundary_runs.frame.profileRecords (by decide)
  | scu => exact s.scheduleBoundary_profileRecords
  | rmu => exact s.roamBoundary_runs.frame.profileRecords (by decide)
  | imu => exact s.imageBoundary_runs.frame.profileRecords (by decide)
  | suc => exact s.trialSecond_frame.profileRecords (by decide)

/-- What every step of a fold over a list keeps, the fold keeps. -/
theorem foldl_keeps {α β : Type} (v : State → β) (f : State → α → State) (hf : ∀ s a, v (f s a) = v s) (l : List α) (s : State) :
    v (l.foldl f s) = v s := by
  induction l generalizing s with
  | nil => rfl
  | cons a l ih => exact (ih (f s a)).trans (hf s a)

theorem State.boundary_profileRecords (order : List BoundaryUnit) (s : State) :
    (s.boundary order).profileRecords = s.profileRecords :=
  foldl_keeps State.profileRecords _ (fun s u => s.unitBoundary_profileRecords u) _ _

theorem execSetTime_profileRecords (s : State) : Answers (fun t => t.profileRecords = s.profileRecords) (execSetTime s) := by
  refine .next ?_
  rcases s.onRequest_cases _ _ with h | ⟨q, _, _, h⟩ <;> rw [h]
  have htaken : s.takeClosing.profileRecords = s.profileRecords := s.takeClosing_frame.profileRecords (by decide)
  dsimp only
  split
  · exact htaken
  · refine Eq.trans ?_ htaken
    refine (((State.moveRecords_runs _ _ _ _).frame.andThen (State.answer_frame _ _ _ _)
      (H := [.stations, .request] ++ reportPieces)).profileRecords (by decide)).trans ?_
    exact State.retargetProfiles_profileRecords _

/-- Settles O13: each table is left by every frame without it, and of the profiles a boundary and SET_TIME move the targets alone. -/
theorem absorbedTablesAreKept : Obligations.AbsorbedTablesAreKept := by
  intro c s t h hpower hrestart
  have hframe := exec_frame_unrouted hrestart t h
  refine ⟨fun hc => hframe.policy fun hmem => ?_, fun hc => hframe.classMap fun hmem => ?_,
    fun hc => hframe.pins fun hmem => ?_, fun hc => ?_, fun hset hsecond hminute => ?_⟩
  · exact hc ((policy_mem_touchedUnrouted hmem).resolve_left hpower)
  · exact hc ((classMap_mem_touchedUnrouted hmem).resolve_left hpower)
  · exact hc ((pins_mem_touchedUnrouted hmem).resolve_left hpower)
  · by_cases hmem : .profiles ∈ touchedUnrouted c
    · rcases profiles_mem_touchedUnrouted hmem with rfl | rfl | rfl | ⟨o, rfl⟩ | ⟨o, rfl⟩
      · exact absurd rfl hpower
      · exact absurd rfl hc
      · exact execSetTime_profileRecords s t h
      · exact Answers.next (P := fun t => t.profileRecords = s.profileRecords) (s.boundary_profileRecords o) t h
      · exact Answers.ite (P := fun t => t.profileRecords = s.profileRecords)
          (fun _ => .next (s.boundary_profileRecords o)) (fun _ => .next rfl) t h
    · exact hframe.profileRecords hmem
  · have hmaint : t.scu.maintOpen = s.scu.maintOpen := hframe.maint fun hmem => by
      rcases maint_mem_touchedUnrouted hmem with hc | hc | ⟨o, hc⟩ | ⟨o, hc⟩
      exacts [hpower hc, hset hc, hsecond o hc, hminute o hc]
    refine ⟨hmaint, fun hprofile => ?_⟩
    have hprofiles : t.scu.profiles = s.scu.profiles := hframe.profiles fun hmem => by
      rcases profiles_mem_touchedUnrouted hmem with hc | hc | hc | ⟨o, hc⟩ | ⟨o, hc⟩
      exacts [hpower hc, hprofile hc, hset hc, hsecond o hc, hminute o hc]
    rw [Scu.mk.injEq]
    exact ⟨hprofiles, hmaint⟩

/-! ## Late counts, RESTART_REQ, the flash-fault flag and the mapping -/

theorem txLate_mem_touchedBy {c : Instr} (h : .txLate ∈ touchedBy c) :
    c = .powerOn ∨ c = .nodeRestart ∨ c = .txHoldExpiry ∨ c = .txDescriptorFetch := by
  revert h
  cases c <;> simp [touchedBy]

theorem rxLate_mem_touchedBy {c : Instr} (h : .rxLate ∈ touchedBy c) : c = .powerOn ∨ c = .nodeRestart ∨ c = .rxHoldExpiry := by
  revert h
  cases c <;> simp [touchedBy]

theorem mapping_mem_touchedBy {c : Instr} (h : .mapping ∈ touchedBy c) :
    c = .powerOn ∨ c = .selectingDecision ∨ c = .flashOperationTimeout ∨ c = .flashOperationGiveUp
      ∨ (∃ b u f, c = .flashStatusPoll b u f) ∨ ∃ f, c = .selectorReadbackEnd f := by
  revert h
  cases c <;> simp [touchedBy]

/-- RESTART_REQ and the flash-fault flag, where set, stay set (R183, R193). -/
def StaysRaised (s t : State) : Prop :=
  (s.lines.restartReq = true → t.lines.restartReq = true) ∧ (s.suc.flashFault = true → t.suc.flashFault = true)

theorem StaysRaised.refl (s : State) : StaysRaised s s := ⟨id, id⟩

theorem StaysRaised.trans {s t u : State} (h : StaysRaised s t) (h' : StaysRaised t u) : StaysRaised s u :=
  ⟨fun hs => h'.1 (h.1 hs), fun hs => h'.2 (h.2 hs)⟩

theorem StaysRaised.after {s t u : State} (h' : StaysRaised t u) (h : StaysRaised s t) : StaysRaised s u := h.trans h'

theorem Frame.staysRaised {F : List Piece} {s t : State} (h : Frame F s t) (hr : .restartReq ∉ F := by decide)
    (hf : .flashFault ∉ F := by decide) : StaysRaised s t :=
  ⟨(h.restartReq hr).trans, (h.flashFault hf).trans⟩

theorem State.toOwner_staysRaised (job : AppendJob) (failure : Option Reason) (s : State) :
    StaysRaised s (s.toOwner job failure) := by
  unfold State.toOwner
  split
  · split
    · have hset : StaysRaised s { s with lines.restartReq := true } := ⟨fun _ => rfl, id⟩
      exact hset.trans (State.enterSession_runs _ _ _).frame.staysRaised
    · exact .refl s
  · split
    · exact (s.failSession_runs _).frame.staysRaised
    · exact .refl s
  · exact ⟨id, id⟩
  · exact ⟨id, id⟩
  · exact (s.riseReady_runs _ _ _).frame.staysRaised
  · exact (s.riseReady_runs _ _ _).frame.staysRaised
  · exact (s.riseReady_runs _ _ _).frame.staysRaised
  · exact .refl s

theorem State.failAppend_staysRaised (a : Append) (r : Reason) (s : State) : StaysRaised s (s.failAppend a r) :=
  StaysRaised.trans (t := { s with suc.append := none, suc.stale := true, suc.flashFault := true }) ⟨id, fun _ => rfl⟩
    (State.toOwner_staysRaised _ _ _)

theorem State.finishAppend_staysRaised (a : Append) (s : State) : StaysRaised s (s.finishAppend a) := by
  unfold State.finishAppend
  exact (State.toOwner_staysRaised _ _ _).after ⟨id, id⟩

theorem State.appendOutcome_staysRaised (fail : Bool) (s : State) : StaysRaised s (s.appendOutcome fail) := by
  unfold State.appendOutcome
  split
  · exact .refl s
  · split
    · exact s.failAppend_staysRaised _ _
    · split <;> exact ⟨id, id⟩

theorem State.operationTimedOut_staysRaised (o : FlashOp) (s : State) : StaysRaised s (s.operationTimedOut o) := by
  unfold State.operationTimedOut
  split
  · split
    · exact (s.failSession_runs _).frame.staysRaised
    · exact .refl s
  · exact .refl s
  · split
    · exact s.failAppend_staysRaised _ _
    · exact .refl s

theorem State.operationEnded_staysRaised (o : FlashOp) (fail : Bool) (s : State) : StaysRaised s (s.operationEnded o fail) := by
  rcases s.operationEnded_cases o fail with ⟨_, h⟩ | ⟨_, h⟩ | ⟨_, _, ⟨_, h⟩ | ⟨_, h⟩ | ⟨_, h⟩⟩ <;> rw [h]
  · exact .refl s
  · exact s.operationTimedOut_staysRaised o
  · exact (s.sessionOutcome_runs _ _).frame.staysRaised
  · exact .refl s
  · exact s.appendOutcome_staysRaised fail

theorem State.giveUp_staysRaised (o : FlashOp) (s : State) : StaysRaised s (s.giveUp o) :=
  StaysRaised.trans (t := { s with imu.port := s.portGivenUp o, suc.flashFault := true }) ⟨id, fun _ => rfl⟩
    ((State.workLost_frame _ _ _).staysRaised.trans (State.giveUpSelecting_runs _).frame.staysRaised)

theorem State.installDefaults_staysRaised (r : DefaultedReason) (s : State) : StaysRaised s (s.installDefaults r) := by
  unfold State.installDefaults
  refine StaysRaised.trans ?_ (State.raise_frame _ _).staysRaised
  exact ⟨id, fun h => Bool.or_eq_true_iff.2 (.inl h)⟩

theorem State.noResponse_staysRaised (s : State) : StaysRaised s s.noResponse :=
  State.installDefaults_staysRaised .noFlash { s with suc.loadUs := max s.suc.loadUs noResponseUs }

theorem State.judgeConfig_staysRaised (s : State) : StaysRaised s s.judgeConfig := by
  unfold State.judgeConfig
  split
  · exact .refl s
  · split
    · exact .refl s
    · split
      · exact s.installDefaults_staysRaised _
      · exact ⟨id, id⟩
  · split
    · exact .refl s
    · split
      · exact s.installDefaults_staysRaised _
      · exact (s.install_frame _).staysRaised

theorem State.trialSecond_staysRaised (s : State) : StaysRaised s s.trialSecond := by
  unfold State.trialSecond
  split
  · exact ⟨fun h => Bool.or_eq_true_iff.2 (.inl h), id⟩
  · exact .refl s

theorem State.unitBoundary_staysRaised (u : BoundaryUnit) (s : State) : StaysRaised s (s.unitBoundary u) := by
  cases u with
  | ptu => exact ⟨id, id⟩
  | cau => exact s.statusBoundary_runs.frame.staysRaised
  | stu => exact s.stationBoundary_runs.frame.staysRaised
  | cgu => exact s.gameBoundary_runs.frame.staysRaised
  | scu => exact s.scheduleBoundary_runs.frame.staysRaised
  | rmu => exact s.roamBoundary_runs.frame.staysRaised
  | imu => exact s.imageBoundary_runs.frame.staysRaised
  | suc => exact s.trialSecond_staysRaised

theorem State.boundary_staysRaised (order : List BoundaryUnit) (s : State) : StaysRaised s (s.boundary order) := by
  have hfold : ∀ (l : List BoundaryUnit) (u : State), StaysRaised u (l.foldl (fun s u => s.unitBoundary u) u) := by
    intro l
    induction l with
    | nil => exact StaysRaised.refl
    | cons b l ih => exact fun u => (u.unitBoundary_staysRaised b).trans (ih _)
  exact StaysRaised.trans (t := s.toBoundary) ⟨id, id⟩ (hfold _ _)

/-- No command but the two resets takes either back. -/
theorem exec_staysRaised {c : Instr} (hpower : c ≠ .powerOn) (hrestart : c ≠ .nodeRestart) (s : State) :
    Answers (StaysRaised s) (exec c s) := by
  by_cases hmem : .restartReq ∈ touchedBy c ∨ .flashFault ∈ touchedBy c
  · cases c with
    | powerOn => exact absurd rfl hpower
    | nodeRestart => exact absurd rfl hrestart
    | flashNoResponse => exact .ite (fun _ => .next s.noResponse_staysRaised) fun _ => .next (.refl s)
    | loadingReadStatus b =>
      exact .ite (fun _ => .ite (fun _ => .next s.noResponse_staysRaised) fun _ => .next ⟨id, id⟩) fun _ => .next (.refl s)
    | configBlockReadEnd f =>
      change Answers _ (execConfigBlockReadEnd f s)
      unfold execConfigBlockReadEnd
      split
      · refine .ite (fun _ => .next ?_) fun _ => .next ⟨id, id⟩
        exact (State.judgeConfig_staysRaised _).after ⟨id, id⟩
      all_goals exact .next (.refl s)
    | flashStatusPoll b u f =>
      have hpoll : ∀ o, Answers (StaysRaised s)
          (if b = false ∧ u = false then
            if o.timedOut = true ∧ giveUpUs < o.lateUs then .next (s.giveUp o)
            else .next ((({ s with imu.port := .free } : State).workEnded o f).operationEnded o f)
          else if u then .next { s with imu.port := .busy o.paused } else .next s) := fun o =>
        .ite (fun _ => .ite (fun _ => .next (s.giveUp_staysRaised o)) fun _ => .next (StaysRaised.trans
            (t := { s with imu.port := .free }) ⟨id, id⟩
            ((State.workEnded_frame _ _ _).staysRaised.trans (State.operationEnded_staysRaised _ _ _))))
          fun _ => .ite (fun _ => .next ⟨id, id⟩) fun _ => .next (.refl s)
      change Answers _ (execFlashStatusPoll b u f s)
      unfold execFlashStatusPoll
      split
      · split
        exacts [.next (.refl s), hpoll _, hpoll _]
      all_goals exact .next (.refl s)
    | flashOperationGiveUp =>
      change Answers _ (execFlashOperationGiveUp s)
      unfold execFlashOperationGiveUp
      split
      · exact .ite (fun _ => .next (s.giveUp_staysRaised _)) fun _ => .next (.refl s)
      all_goals exact .next (.refl s)
    | flashOperationTimeout =>
      change Answers _ (execFlashOperationTimeout s)
      unfold execFlashOperationTimeout
      split
      · refine .ite (fun _ => .next ?_) fun _ => .next (.refl s)
        exact (State.operationTimedOut_staysRaised _ _).after ⟨id, id⟩
      all_goals exact .next (.refl s)
    | selectorReadbackEnd f =>
      change Answers _ (execSelectorReadbackEnd f s)
      unfold execSelectorReadbackEnd
      split
      · dsimp only
        split
        · refine .ite (fun _ => .next ?_) fun _ => .next ?_
          · exact StaysRaised.trans (t := { s with imu.port := .free }) ⟨id, id⟩ (State.finishAppend_staysRaised _ _)
          · exact StaysRaised.trans (t := { s with imu.port := .free }) ⟨id, id⟩
              ((State.voidPlace_frame _).staysRaised.trans (State.failAppend_staysRaised _ _ _))
        · exact .next ⟨id, id⟩
      all_goals exact .next (.refl s)
    | secondBoundary o => exact .next (s.boundary_staysRaised o)
    | minuteBoundary o => exact .ite (fun _ => .next (s.boundary_staysRaised o)) fun _ => .next (.refl s)
    | trialExpiry => exact .ite (fun _ => .next s.trialSecond_staysRaised) fun _ => .next (.refl s)
    | _ => exact absurd hmem (by simp [touchedBy])
  · rw [not_or] at hmem
    exact (exec_frame c s).imp fun t ht => ht.staysRaised hmem.1 hmem.2

/-- Settles O14: counts and mapping from the frames, RESTART_REQ and the flash-fault flag from what never takes them back. -/
theorem countsLinesAndMappingAreKept : Obligations.CountsLinesAndMappingAreKept := by
  intro c s t h hpower
  have hframe := exec_frame c s t h
  refine ⟨fun h1 h2 h3 => hframe.txLate fun hmem => ?_, fun h1 h2 => hframe.rxLate fun hmem => ?_,
    fun h1 => (exec_staysRaised hpower h1 s t h).1, fun hfault => ?_,
    fun h1 h2 h3 h4 h5 => hframe.mapping fun hmem => ?_⟩
  · have := txLate_mem_touchedBy hmem
    tauto
  · have := rxLate_mem_touchedBy hmem
    tauto
  · by_cases hrestart : c = .nodeRestart
    · subst hrestart
      exact (hframe.flashFault (by decide)).trans hfault
    · exact (exec_staysRaised hpower hrestart s t h).2 hfault
  · rcases mapping_mem_touchedBy hmem with hc | hc | hc | hc | ⟨b, u, f, hc⟩ | ⟨f, hc⟩
    exacts [hpower hc, h1 hc, h2 hc, h3 hc, h4 b u f hc, h5 f hc]

end Sys2Proof.Machine

/-! PROOFS. The step itself, and the pass-through path: what a transaction's taking does with READY low, outside every window and
with permission, the arbiter of the SRAM port, and the end of a pass-through access (sections 1.1 to 1.5). -/
namespace Sys2Proof.Machine

/-! ## The step -/

theorem step_cons (c : Instr) (rest : List Instr) (s : State) :
    step { s with pending := c :: rest } = exec c { s with pending := rest } := rfl

theorem step_of_idle {s : State} (h : s.pending = []) : step s = .next s.tick := by
  rw [step, h]

theorem State.tick_of_lt {s : State} (h : s.time.sub < 999) :
    s.tick = { s.elapse 1000 with time := { s.time with ms := s.time.ms + 1, sub := s.time.sub + 1 } } := if_pos h

theorem State.tick_of_le {s : State} (h : 999 ≤ s.time.sub) : s.tick = s := if_neg (Nat.not_lt.2 h)

/-- Only an operation on the flash port has counts. -/
theorem FlashPort.elapse_of_not_busy {p : FlashPort} (h : ∀ o, p ≠ .busy o) (us : Nat) : p.elapse us = p := by
  cases p with
  | free => rfl
  | reading => rfl
  | busy o => exact absurd rfl (h o)

/-- Settles O1: the queue's front command is what the step runs, and on an empty queue the tick is `elapse` with the ms counter. -/
theorem stepRunsTheQueue : Obligations.StepRunsTheQueue := by
  refine ⟨step_cons, fun s hidle => ⟨fun hsub => ?_, fun hsub => ?_⟩⟩
  · refine ⟨s.tick, step_of_idle hidle, ?_, fun hfree => ?_, fun o ho => ?_⟩ <;> rw [State.tick_of_lt hsub]
    · rfl
    · exact FlashPort.elapse_of_not_busy hfree 1000
    · have hport : ({ s.elapse 1000 with time := { s.time with ms := s.time.ms + 1, sub := s.time.sub + 1 } } : State).imu.port
          = .busy (o.elapse 1000) := congrArg (FlashPort.elapse 1000) ho
      refine ⟨fun h => ?_, fun w h => ?_, fun h => ?_⟩ <;> rw [hport, FlashOp.elapse, h]
  · rw [step_of_idle hidle, State.tick_of_le hsub]

theorem Profile.powerOn_levelsBounded : Profile.powerOn.LevelsBounded := by
  unfold Profile.LevelsBounded
  decide

theorem State.reset_profiles_levelsBounded : ∀ p ∈ State.reset.scu.profiles, p.LevelsBounded := by
  have hsame : ∀ p ∈ State.reset.scu.profiles, p = Profile.powerOn := by decide
  exact fun p hp => hsame p hp ▸ Profile.powerOn_levelsBounded

/-- With no access issued and every path idle the arbiter's queue is proper. -/
theorem State.reset_arbiterProper : ArbiterProper State.reset := by
  have hqueue : State.reset.ptu.queue = [] := rfl
  have hissued : State.reset.issued = [] := rfl
  have houtstanding : State.reset.outstanding = [] := rfl
  unfold ArbiterProper
  rw [hqueue, hissued, houtstanding]
  exact ⟨.nil, nofun, .nil, nofun, .nil, by decide, by decide, by decide, by decide, by decide, by decide⟩

theorem State.reset_stations : State.reset.stu.stations = [] := rfl

theorem State.reset_forall_stations (p : Station → Prop) : ∀ r ∈ State.reset.stu.stations, p r := by
  intro r hr
  rw [State.reset_stations] at hr
  exact absurd hr List.not_mem_nil

theorem State.reset_pins : State.reset.stu.pins = List.replicate 64 none := rfl

/-- Settles O2: at reset the table is empty, and what else the invariants speak of is a closed value. -/
theorem resetMeetsTheInvariants : Obligations.ResetMeetsTheInvariants := by
  refine ⟨⟨rfl, rfl, rfl⟩, rfl, rfl, Nat.zero_le 16, ?table, ?pins, State.reset_forall_stations _,
    ⟨State.reset_forall_stations _, State.reset_profiles_levelsBounded, by decide, by decide⟩, ⟨rfl, rfl⟩,
    State.reset_forall_stations _, ⟨State.reset_forall_stations _, State.reset_profiles_levelsBounded⟩,
    State.reset_arbiterProper⟩
  case table =>
    unfold TableProper
    rw [State.reset_stations]
    exact ⟨.nil, fun r hr => absurd hr List.not_mem_nil, .nil⟩
  case pins =>
    unfold PinsDistinct
    rw [State.reset_pins, List.filterMap_replicate_of_none rfl]
    exact .nil

/-! ## The taking of a transaction -/

/-- Outside every window a transaction goes to the SRAM port in the lower half and ends with ERR in the upper (R8). -/
theorem State.takeUp_outside {h : InHand} {s : State} (hw : s.windowAt h.txn.addr = none) :
    s.takeUp h =
      if h.txn.addr < 0x8000000 then s.toPhase { h with window := none } (.sramWait .plain) else s.endTxn h .err := by
  rw [State.takeUp, hw]

/-- A permitted transaction is routed by its window's kind (R12 to R15). -/
theorem State.takeUp_permitted {h : InHand} {w : Window} {s : State} (hw : s.windowAt h.txn.addr = some w)
    (hp : permitted w h.txn = true) : s.takeUp h = s.toPhase { h with window := some w } (routeOf w h.txn) := by
  simp [State.takeUp, hw, hp]

theorem execBusTransaction_beyond {x : Transaction} (h : 2 ^ 28 ≤ x.addr) (s : State) :
    execBusTransaction x s = .fault .addressBeyondBus := if_pos h

theorem execBusTransaction_malformed {x : Transaction} (h : x.addr < 2 ^ 28) (hx : x.wf = false) (s : State) :
    execBusTransaction x s = .refused .notABusTransaction := by
  rw [execBusTransaction, if_neg (Nat.not_le.2 h), hx]
  rfl

/-- With READY low a transaction is held whatever its address (R4). -/
theorem execBusTransaction_readyLow {x : Transaction} {s : State} (hx : x.wf = true) (hready : s.lines.ready = false)
    (hidle : s.ptu.inHand = none) :
    execBusTransaction x s = .next (s.toPhase { txn := x, window := none, phase := .readyLow, heldUs := 0 } .readyLow) := by
  rw [execBusTransaction, if_neg (Nat.not_le.2 (Transaction.addr_lt_of_wf hx)), if_pos hx]
  simp [hidle, hready]

/-- Settles O15: the two faults of the form, and `takeUp` where no window holds the address. -/
theorem transactionOutsideEveryWindow : Obligations.TransactionOutsideEveryWindow := by
  refine fun x s => ⟨fun h => execBusTransaction_beyond h s, fun h hx => execBusTransaction_malformed h hx s,
    fun hx hready hidle hw => ?_⟩
  have htaken : exec (.busTransaction x) s =
      .next (s.takeUp { txn := x, window := none, phase := .readyLow, heldUs := 0 }) :=
    execBusTransaction_ready hx hready hidle
  refine ⟨fun hlow => ?_, fun hhigh => ?_⟩ <;> rw [htaken, State.takeUp_outside hw]
  · rw [if_pos hlow]
    rfl
  · rw [if_neg (Nat.not_lt.2 hhigh), State.endTxn_idle hidle]

theorem inspectedRead_iff {w : Window} {x : Transaction} (h : w.contains x.addr = true) :
    inspectedRead w x = true ↔ x.dir = .read ∧ x.form = .burst 8 ∧ x.master.val = w.ringMaster
      ∧ x.addr < w.base + 32 * w.descCount ∧ (x.addr - w.base) % 32 = 0 := by
  simp only [inspectedRead, Window.inRing, h, Bool.and_eq_true, beq_iff_eq, decide_eq_true_eq, Bool.true_and, and_assoc]

theorem observedWrite_iff {w : Window} {x : Transaction} (h : w.contains x.addr = true) :
    observedWrite w x = true ↔ x.dir = .write ∧ x.master.val = w.ringMaster ∧ x.addr < w.base + 32 * w.descCount := by
  simp only [observedWrite, Window.inRing, h, Bool.and_eq_true, beq_iff_eq, decide_eq_true_eq, Bool.true_and, and_assoc]

theorem State.contains_of_windowAt {s : State} {a : Nat} {w : Window} (h : s.windowAt a = some w) : w.contains a = true := by
  have hfound : s.ptu.windows.find? (fun w => w.contains a) = some w := h
  have := List.find?_some hfound
  exact this

/-- Settles O17: the phase is the route of the window's kind, read off kind by kind. -/
theorem permittedTransactionIsRouted : Obligations.PermittedTransactionIsRouted := by
  intro x w s hx hready hidle hw hp
  have hin := State.contains_of_windowAt hw
  refine ⟨routeOf w x, ?_, fun hk => ?_, fun hk hd => ?_, fun hk hd => ?_, fun hk => ?_, fun hk => ?_, fun hk => ?_⟩
  · calc exec (.busTransaction x) s
        = .next (s.takeUp { txn := x, window := none, phase := .readyLow, heldUs := 0 }) :=
          execBusTransaction_ready hx hready hidle
      _ = _ := by rw [State.takeUp_permitted hw hp]; rfl
  · rw [routeOf, hk]
  · rw [routeOf, hk, hd]
  · rw [routeOf, hk, hd]
  · rw [routeOf, hk]
    simp only [inspectedRead_iff hin]
  · rw [routeOf, hk]
    simp only [observedWrite_iff hin]
  · rcases hk with hk | hk | hk | hk <;> rw [routeOf, hk]

/-- Settles O18: the hold while READY is low, and its end. -/
theorem heldWhileReadyIsLow : Obligations.HeldWhileReadyIsLow := by
  refine ⟨fun x s hx hready hidle => execBusTransaction_readyLow hx hready hidle, fun h s hh hphase => ?_⟩
  have hrow : exec .readyLowHoldExpiry s = execReadyLowHoldExpiry s := rfl
  rw [hrow, execReadyLowHoldExpiry, hh]
  exact if_pos hphase

/-! ## The arbiter of the SRAM port -/

theorem State.waitingPass_of_sramWait {s : State} {h : InHand} {work : SramWork} (hh : s.ptu.inHand = some h)
    (hp : h.phase = .sramWait work) : s.waitingPass = some (h, work) :=
  (s.waitingPass_eq_some_iff h work).2 ⟨hh, hp⟩

/-- The free port goes to the access of the master, but for an oldest queued one at wait count 8 (R18). -/
theorem exec_sramPortGrant_pass {s : State} {h : InHand} {work : SramWork} (hport : s.ptu.port = .free)
    (hwait : s.waitingPass = some (h, work)) (hq : ∀ q ∈ s.ptu.queue.head?, q.wait < 8) :
    exec .sramPortGrant s = .next (s.grantPass h work) := by
  have hrow : exec .sramPortGrant s = execSramPortGrant s := rfl
  rw [hrow, execSramPortGrant, hport, hwait]
  cases hqueue : s.ptu.queue with
  | nil => rfl
  | cons q rest =>
    have hlt : q.wait < 8 := hq q (by simp [hqueue])
    exact if_neg (Nat.not_le.2 hlt)

/-- The free port goes to the oldest queued access at wait count 8, or where the master waits for nothing (R18). -/
theorem exec_sramPortGrant_internal {s : State} {q : Queued} {rest : List Queued} (hport : s.ptu.port = .free)
    (hqueue : s.ptu.queue = q :: rest) (h : 8 ≤ q.wait ∨ s.waitingPass = none) :
    exec .sramPortGrant s = .next (s.grantInternal q rest) := by
  have hrow : exec .sramPortGrant s = execSramPortGrant s := rfl
  rw [hrow, execSramPortGrant, hport, hqueue]
  cases hwait : s.waitingPass with
  | none => rfl
  | some p => exact if_pos (h.resolve_right (by simp [hwait]))

theorem State.issue_of_blocked {s : State} {a : InternalAccess} (h : s.pathBlocked a.kind.path = true) :
    s.issue a = { s with ptu.behind := some a } := by
  simp [State.issue, h]

theorem State.issue_of_not_blocked {s : State} {a : InternalAccess} (h : s.pathBlocked a.kind.path = false) :
    s.issue a = { s with ptu.queue := s.ptu.queue ++ [{ access := a, wait := 0 }] } := by
  simp [State.issue, h]

/-- Settles O19: the two grants, and where an access joins. -/
theorem sramPortArbitration : Obligations.SramPortArbitration := by
  refine ⟨fun h work s hport hh hp hq => exec_sramPortGrant_pass hport (State.waitingPass_of_sramWait hh hp) hq,
    fun q rest s hport hqueue h => exec_sramPortGrant_internal hport hqueue h, fun a s => ⟨fun hfree => ?_, fun b hb hpath => ?_⟩⟩
  · refine State.issue_of_not_blocked (Bool.eq_false_iff.2 fun hblocked => ?_)
    obtain ⟨b, hb, hpath⟩ := (s.pathBlocked_eq_true_iff _).1 hblocked
    exact hfree b hb hpath
  · exact State.issue_of_blocked ((s.pathBlocked_eq_true_iff _).2 ⟨b, hb, hpath⟩)

/-! ## The end of a pass-through access -/

/-- Stored cells read back, where no address is written twice with different bytes. -/
theorem Memory.read_writeCells_mem (d : Byte) (m : Memory) (cs : List Host.Cell) (hm : Memory.wf d m = true) {c : Host.Cell}
    (hc : c ∈ cs) (hunique : ∀ b, (c.1, b) ∈ cs → b = c.2) : Memory.read d (Memory.writeCells d m cs) c.1 = c.2 := by
  induction cs using List.reverseRecOn with
  | nil => cases hc
  | append_singleton cs e ih =>
    have hlast : Memory.writeCells d m (cs ++ [e]) = Memory.write d (Memory.writeCells d m cs) e.1 e.2 := by
      simp [Memory.writeCells]
    rw [hlast]
    by_cases he : c.1 = e.1
    · have hbyte : e.2 = c.2 := hunique e.2 (by simp [he])
      rw [he, Memory.read_write_same d _ _ _ (Memory.writeCells_wf d m cs hm), hbyte]
    · rw [Memory.read_write_other d _ _ _ _ he]
      refine ih ?_ fun b hb => hunique b (List.mem_append_left _ hb)
      rcases List.mem_append.1 hc with hc | hc
      · exact hc
      · exact absurd (congrArg Prod.fst (List.mem_singleton.1 hc)) he

/-- What a write's cells leave of the SRAM: its own bytes, and every other as it was. -/
theorem State.storeSram_cells {s : State} (hs : Memory.wf Config.sramUnwritten s.sram = true) (x : Transaction) :
    (∀ c ∈ x.cells, (s.storeSram x.cells).sramByte c.1 = c.2)
      ∧ ∀ a, (∀ c ∈ x.cells, c.1 ≠ a) → (s.storeSram x.cells).sramByte a = s.sramByte a :=
  ⟨fun _ hc => Memory.read_writeCells_mem _ _ _ hs hc fun _ hb => Transaction.cells_unique hc hb,
    fun a ha => State.sramByte_storeSram_other s _ a ha⟩

/-- The end of a pass-through access, by the work it has had the port for (R17). -/
theorem exec_passThroughSramDone {s : State} {h : InHand} (hport : s.ptu.port = .passThrough) (hh : s.ptu.inHand = some h) :
    (h.phase = .sramBusy .plain ∨ h.phase = .sramBusy .requestWrite →
        exec .passThroughSramDone s = .next (({ s with ptu.port := .free } : State).completePlain h))
      ∧ (h.phase = .sramBusy .inspected → exec .passThroughSramDone s =
          .next (({ s with ptu.port := .free } : State).toPhase h (.fetched (s.sramRead h.txn))))
      ∧ (h.phase = .sramBusy .closingFill → exec .passThroughSramDone s = .next s)
      ∧ (h.phase = .sramBusy (.closingWrite true) → exec .passThroughSramDone s =
          .next ((({ s with ptu.port := .free } : State).storeSram (discardWrite h.txn).cells).endTxn h .ack))
      ∧ (h.phase = .sramBusy (.closingWrite false) → exec .passThroughSramDone s =
          .next ((({ s with ptu.port := .free } : State).storeSram h.txn.cells).endTxn h .ack)) := by
  have hrow : exec .passThroughSramDone s = execPassThroughSramDone s := rfl
  rw [hrow, execPassThroughSramDone, hport, hh]
  refine ⟨fun hp => ?_, fun hp => ?_, fun hp => ?_, fun hp => ?_, fun hp => ?_⟩
  · rcases hp with hp | hp <;> simp only [hp]
  all_goals simp only [hp]

/-- Settles O20: each kind of work ends as its row has it, and the stored bytes read back. -/
theorem sramAccessCompletes : Obligations.SramAccessCompletes := by
  intro h s hport hh
  obtain ⟨hplain, hinspected, hfill, hdiscard, hwrite⟩ := exec_passThroughSramDone hport hh
  refine ⟨fun hp hd => ?_, hinspected, hfill, fun x hx _ hdir hsram => ?_⟩
  · rw [hplain (.inl hp), State.completePlain, hd]
    rfl
  · refine ⟨(({ s with ptu.port := .free } : State).storeSram x.cells).endTxn h .ack, ?_, rfl, State.storeSram_cells hsram x⟩
    rcases hx with ⟨hp | hp | hp, rfl⟩ | ⟨hp, rfl⟩
    · rw [hplain (.inl hp), State.completePlain, hdir]
    · rw [hplain (.inr hp), State.completePlain, hdir]
    · exact hwrite hp
    · exact hdiscard hp

end Sys2Proof.Machine

/-! PROOFS. The transmit decision (sections 3.1 to 3.4): bits and fields of words, the held read and its late end, the decision
before and by the tokens, the defer record, and the words returned. -/
namespace Sys2Proof.Machine

/-! ## Bits and fields of words -/

theorem bit_eq_getLsbD (w : Word) (i : Nat) : bit w i = w.getLsbD i := (BitVec.testBit_toNat w).symm ▸ rfl

theorem bit_of_ge (w : Word) {i : Nat} (h : 32 ≤ i) : bit w i = false := by
  rw [bit_eq_getLsbD]
  exact BitVec.getLsbD_of_ge w i h

/-- The bits of a field are the word's, shifted down. -/
theorem field_testBit (w : Word) (lo width j : Nat) : (field w lo width).testBit j = (decide (j < width) && bit w (lo + j)) := by
  rw [field, Nat.testBit_mod_two_pow, Nat.testBit_div_two_pow, bit, Nat.add_comm]

theorem field_lt (w : Word) (lo width : Nat) : field w lo width < 2 ^ width := Nat.mod_lt _ (Nat.two_pow_pos width)

/-- Two words with the same bits in a field have the same field. -/
theorem field_congr {v w : Word} {lo width : Nat} (h : ∀ j, j < width → bit v (lo + j) = bit w (lo + j)) :
    field v lo width = field w lo width := by
  refine Nat.eq_of_testBit_eq fun j => ?_
  rw [field_testBit, field_testBit]
  by_cases hj : j < width
  · rw [h j hj]
  · simp [hj]

/-- A replaced field has the bits of its number, and every other bit is the word's. -/
theorem bit_setField (w : Word) {lo width : Nat} (hw : lo + width ≤ 32) (v i : Nat) :
    bit (setField w lo width v) i = if lo ≤ i ∧ i < lo + width then v.testBit (i - lo) else bit w i := by
  rcases Nat.lt_or_ge i 32 with hi | hi
  · simp only [bit_eq_getLsbD, setField, BitVec.getLsbD_or, BitVec.getLsbD_and, BitVec.getLsbD_not, BitVec.getLsbD_ofNat,
      Nat.testBit_mul_two_pow, Nat.testBit_two_pow_sub_one, Nat.testBit_mod_two_pow, hi, decide_true, Bool.true_and]
    by_cases hlo : lo ≤ i
    · by_cases hup : i < lo + width
      · have hin : i - lo < width := by omega
        simp [hlo, hup, hin]
      · have hout : ¬i - lo < width := by omega
        simp [hlo, hup, hout]
    · simp [hlo]
  · rw [bit_of_ge _ hi, bit_of_ge _ hi, if_neg (by omega)]

theorem field_setField_same (w : Word) {lo width v : Nat} (hw : lo + width ≤ 32) (hv : v < 2 ^ width) :
    field (setField w lo width v) lo width = v := by
  refine Nat.eq_of_testBit_eq fun j => ?_
  rw [field_testBit, bit_setField w hw]
  by_cases hj : j < width
  · simp [hj]
  · have hhigh : v.testBit j = false :=
      Nat.testBit_lt_two_pow (hv.trans_le (Nat.pow_le_pow_right (by decide) (Nat.not_lt.1 hj)))
    simp [hj, hhigh]

/-- A replaced field leaves the fields beside it. -/
theorem field_setField_other (w : Word) {lo width lo' width' : Nat} (hw : lo + width ≤ 32) (v : Nat)
    (h : lo' + width' ≤ lo ∨ lo + width ≤ lo') : field (setField w lo width v) lo' width' = field w lo' width' := by
  refine field_congr fun j hj => ?_
  rw [bit_setField w hw, if_neg (by omega)]

theorem bit_setField? (w : Word) {lo width : Nat} (hw : lo + width ≤ 32) (v : Option Nat) {i : Nat}
    (h : i < lo ∨ lo + width ≤ i) : bit (setField? w lo width v) i = bit w i := by
  cases v with
  | none => rfl
  | some v => exact (bit_setField w hw v i).trans (if_neg (by omega))

theorem field_setField?_other (w : Word) {lo width lo' width' : Nat} (hw : lo + width ≤ 32) (v : Option Nat)
    (h : lo' + width' ≤ lo ∨ lo + width ≤ lo') : field (setField? w lo width v) lo' width' = field w lo' width' := by
  cases v with
  | none => rfl
  | some v => exact field_setField_other w hw v h

/-! ## The words returned (R45) -/

/-- Word 0 of the words returned. -/
def judgedWord0 (w : Word) (o : TxOutcome) : Word :=
  setField? (setField? (setField w 16 2 o.action.code) 8 3 (o.cls.map Class.code)) 12 4 o.egress

theorem TxAction.code_lt (a : TxAction) : a.code < 2 ^ 2 := by cases a <;> decide

theorem TxReason.code_lt (r : TxReason) : r.code < 2 ^ 4 := by cases r <;> decide

theorem Class.code_lt (c : Class) : c.code < 2 ^ 3 := by cases c <;> decide

theorem judgedWord0_action (w : Word) (o : TxOutcome) : field (judgedWord0 w o) 16 2 = o.action.code := by
  rw [judgedWord0, field_setField?_other _ (by decide) _ (by decide), field_setField?_other _ (by decide) _ (by decide),
    field_setField_same w (by decide) o.action.code_lt]

theorem judgedWord0_class (w : Word) (o : TxOutcome) :
    field (judgedWord0 w o) 8 3 = (match o.cls with | some c => c.code | none => field w 8 3) := by
  rw [judgedWord0, field_setField?_other _ (by decide) _ (by decide)]
  cases o.cls with
  | none => exact field_setField_other w (by decide) _ (by decide)
  | some c => exact field_setField_same _ (by decide) c.code_lt

theorem judgedWord0_egress (w : Word) (o : TxOutcome) :
    (∀ n, n < 16 → o.egress = some n → field (judgedWord0 w o) 12 4 = n)
      ∧ (o.egress = none → field (judgedWord0 w o) 12 4 = field w 12 4) := by
  constructor
  · intro n hn he
    rw [judgedWord0, he]
    exact field_setField_same _ (by decide) hn
  · intro he
    rw [judgedWord0, he]
    exact (field_setField?_other (lo := 8) (width := 3) _ (by decide) _ (by decide)).trans
      (field_setField_other w (by decide) _ (by decide))

/-- Outside the class, the egress port and the action, word 0 is as read. -/
theorem judgedWord0_bit (w : Word) (o : TxOutcome) {i : Nat} (h : i < 8 ∨ i = 11 ∨ 18 ≤ i) :
    bit (judgedWord0 w o) i = bit w i := by
  rw [judgedWord0, bit_setField? _ (by decide) _ (by omega), bit_setField? _ (by decide) _ (by omega),
    bit_setField w (by decide), if_neg (by omega)]

theorem judgedWords_eq (d : List Word) (o : TxOutcome) :
    judgedWords d o = ((d.set 0 (judgedWord0 (d.getD 0 0) o)).set 1 (setField (d.getD 1 0) 16 4 o.reason.code)).set 4
      (setField? (d.getD 4 0) 16 3 o.node) := rfl

theorem judgedWords_length (d : List Word) (o : TxOutcome) : (judgedWords d o).length = d.length := by
  simp [judgedWords_eq]

/-- The words returned, one by one: words 0, 1 and 4 carry the outcome, the others are as read. -/
theorem judgedWords_getD {d : List Word} (hd : d.length = 8) (o : TxOutcome) :
    (judgedWords d o).getD 0 0 = judgedWord0 (d.getD 0 0) o
      ∧ (judgedWords d o).getD 1 0 = setField (d.getD 1 0) 16 4 o.reason.code
      ∧ (judgedWords d o).getD 4 0 = setField? (d.getD 4 0) 16 3 o.node
      ∧ ∀ i, i ≠ 0 → i ≠ 1 → i ≠ 4 → (judgedWords d o).getD i 0 = d.getD i 0 := by
  have h0 : 0 < d.length := by omega
  have h1 : 1 < d.length := by omega
  have h4 : 4 < d.length := by omega
  simp only [judgedWords_eq, List.getD_eq_getElem?_getD]
  refine ⟨by simp [h0], by simp [h1], by simp [h4], fun i hi0 hi1 hi4 => ?_⟩
  rw [List.getElem?_set_ne (Ne.symm hi4), List.getElem?_set_ne (Ne.symm hi1), List.getElem?_set_ne (Ne.symm hi0)]

/-- Settles O25: word by word, each replaced field reads back and every bit beside it is as read. -/
theorem returnedDescriptor : Obligations.ReturnedDescriptor := by
  intro d o hd
  obtain ⟨hw0, hw1, hw4, hother⟩ := judgedWords_getD hd o
  dsimp only
  have htag : field (judgedWord0 (d.getD 0 0) o) 0 8 = field (d.getD 0 0) 0 8 :=
    field_congr fun j hj => judgedWord0_bit _ o (.inl (by omega))
  have hreadyBit : bit (judgedWord0 (d.getD 0 0) o) 31 = bit (d.getD 0 0) 31 := judgedWord0_bit _ o (by decide)
  have hlength : field (setField (d.getD 1 0) 16 4 o.reason.code) 0 14 = field (d.getD 1 0) 0 14 :=
    field_setField_other _ (by decide) _ (by decide)
  have hhigh : field (setField? (d.getD 4 0) 16 3 o.node) 0 16 = field (d.getD 4 0) 0 16 :=
    field_setField?_other _ (by decide) _ (by decide)
  have hdest : txDest (judgedWords d o) = txDest d := by
    rw [txDest, txDest, macOfWords, macOfWords, hw4, hhigh, hother 3 (by decide) (by decide) (by decide)]
  refine ⟨(judgedWords_length d o).trans hd, ?_, ?_, ?_, ?_, ?_, ?_, ?_, ?_, ?_, ?_, hdest, ?_, ?_, ?_, hother⟩
  · rw [hw0, judgedWord0_action]
  · rw [hw1, field_setField_same _ (by decide) o.reason.code_lt]
  · rw [hw0, judgedWord0_class]
    rfl
  · rw [hw0]
    exact (judgedWord0_egress _ o).1
  · rw [hw0]
    exact (judgedWord0_egress _ o).2
  · intro n hn he
    rw [hw4, he]
    exact field_setField_same _ (by decide) hn
  · intro he
    rw [hw4, he]
    rfl
  · rw [txTag, hw0, htag, txTag]
  · rw [txReady, hw0, hreadyBit, txReady]
  · rw [txLength, hw1, hlength, txLength]
  · intro i hi
    rw [hw0, judgedWord0_bit _ o hi]
  · intro i hi
    rw [hw1, bit_setField _ (by decide), if_neg (by omega)]
  · intro i hi
    rw [hw4, bit_setField? _ (by decide) _ (by omega)]

/-! ## The defer record (R47, R48) -/

theorem deferStep_of_ne (limit addr : Nat) {o : TxOutcome} (h : o.action ≠ .defer) (rec : Option Defer) :
    deferStep limit addr rec o =
      (match rec with
        | some q => if q.addr = addr then none else some q
        | none => none, o) := by
  unfold deferStep
  dsimp only
  rw [if_neg h]
  cases rec with
  | none => rfl
  | some q => by_cases hq : q.addr = addr <;> simp [hq]

/-- The number of DEFERs in a row that this one makes. -/
def deferCount (addr : Nat) (rec : Option Defer) : Nat :=
  match rec with
  | some q => if q.addr = addr then q.count + 1 else 1
  | none => 1

theorem deferStep_of_defer (limit addr : Nat) {o : TxOutcome} (h : o.action = .defer) (rec : Option Defer) :
    deferStep limit addr rec o =
      if limit ≤ deferCount addr rec then (none, { o with action := .drop })
      else (some { addr := addr, count := deferCount addr rec }, o) := if_pos h

theorem deferCount_of_same (addr k : Nat) : deferCount addr (some { addr := addr, count := k }) = k + 1 := if_pos rfl

theorem deferCount_of_other {addr : Nat} {rec : Option Defer} (h : ∀ q, rec = some q → q.addr ≠ addr) :
    deferCount addr rec = 1 := by
  cases rec with
  | none => rfl
  | some q => exact if_neg (h q rfl)

/-- One descriptor deferred alone, fewer times than the limit: the record counts the DEFERs. -/
theorem deferStep_iterate {limit addr : Nat} {o : TxOutcome} (h : o.action = .defer) (k : Nat) (hk : k + 1 < limit) :
    ((fun rec => (deferStep limit addr rec o).1)^[k + 1]) none = some { addr := addr, count := k + 1 } := by
  induction k with
  | zero =>
    have hcount : deferCount addr none = 1 := rfl
    rw [Function.iterate_one, deferStep_of_defer limit addr h, hcount, if_neg (by omega)]
  | succ k ih =>
    rw [Function.iterate_succ_apply', ih (by omega), deferStep_of_defer limit addr h, deferCount_of_same, if_neg (by omega)]

/-- Settles O24: the two branches of the step, and the run of DEFERs by induction on their number. -/
theorem deferRecordRule : Obligations.DeferRecordRule := by
  refine ⟨fun limit addr o ho => ?_, fun limit addr n rec o ho hn => ?_, fun limit addr k o ho hk => ?_⟩
  · exact ⟨deferStep_of_ne limit addr ho none, fun q => deferStep_of_ne limit addr ho (some q)⟩
  · have hcount : deferCount addr rec = n := by
      rcases hn with ⟨k, rfl, rfl⟩ | ⟨hother, rfl⟩
      exacts [deferCount_of_same addr k, deferCount_of_other hother]
    rw [deferStep_of_defer limit addr ho, hcount]
    exact ⟨fun hlt => if_neg (Nat.not_le.2 hlt), fun hle => if_pos hle⟩
  · obtain ⟨l, rfl⟩ : ∃ l, limit = l + 2 := ⟨limit - 2, by omega⟩
    refine ⟨deferStep_iterate ho k hk, ?_⟩
    have hrun := deferStep_iterate (addr := addr) ho l (Nat.lt_succ_self (l + 1))
    have hlast : l + 2 - 1 = l + 1 := rfl
    rw [hlast, hrun, deferStep_of_defer _ addr ho,
      deferCount_of_same, if_pos le_rfl]

/-! ## The held read and its late end (R39, R49) -/

/-- Settles O21: the two rows, phase by phase. -/
theorem transmitReadHeldOrLate : Obligations.TransmitReadHeldOrLate := by
  intro h d s hh
  have hfetch : exec .txDescriptorFetch s = execTxDescriptorFetch s := rfl
  have hexpiry : exec .txHoldExpiry s = execTxHoldExpiry s := rfl
  dsimp only
  rw [hfetch, hexpiry, execTxDescriptorFetch, execTxHoldExpiry, hh]
  refine ⟨fun hp hready => ?_, fun hp hready hlate => ?_, fun hp hready hlate => ?_, fun hp => ?_, fun hp => ?_⟩
  · simp only [hp]
    rw [if_neg (by simp [hready])]
    rfl
  · simp only [hp]
    rw [if_pos hready, if_neg (by simp [hlate])]
    rfl
  · simp only [hp]
    rw [if_pos hready, if_pos hlate]
    rfl
  · rcases hp with hp | ⟨hp, hready⟩ <;> simp only [hp]
    · rfl
    · rw [if_pos hready]
      rfl
  · exact ⟨max h.heldUs s.ptu.inspectLimit, by rcases hp with hp | hp <;> simp only [hp]⟩

/-! ## The decision (R41 to R46) -/

/-- The row of the decision: the tests' outcome on the state they leave ends the read. -/
theorem exec_transmitDecision {h : InHand} {w : Window} {d : List Word} {s : State} (hh : s.ptu.inHand = some h)
    (hp : h.phase = .txHeld d) (hw : h.window = some w) :
    exec .transmitDecision s = .next ((s.judge d).2.decided h w d (s.judge d).1) := by
  have hrow : exec .transmitDecision s = execTransmitDecision s := rfl
  have hframe : Frame [.stations] s (s.judge d).2 := s.judge_frame d
  have hpolicy : (s.judge d).2.policy = s.policy := hframe.policy (by decide)
  have hdefers : (s.judge d).2.diu.defers = s.diu.defers := congrArg (fun u => u.diu.defers) hframe
  rw [hrow, execTransmitDecision, hh]
  simp only [hp, hw, State.transmit, State.decided, hdefers]
  rw [← hpolicy]

theorem State.judge_unrecorded {s : State} {d : List Word} (hr : s.recordOf (txDest d) = none) :
    s.judge d = if (s.profileOf 0).target = 0 then (.plain .drop .unrecordedBlock, s)
      else ({ TxOutcome.plain .pass .none with cls := some (s.resolveClass none (txClass d) (txTag d)) }, s) := by
  rw [State.judge, hr]

theorem State.judge_away {s : State} {d : List Word} {r : Station} (hr : s.recordOf (txDest d) = some r)
    (hs : r.state = .away) :
    s.judge d =
      ({ TxOutcome.plain .redirect .none with egress := some s.suc.backhaul, node := some (r.current.getD 0) },
        s.putRecord { r with hold := some 120 }) := by
  rw [State.judge, hr]
  exact if_pos hs

theorem State.judge_gated {s : State} {d : List Word} {r : Station} (hr : s.recordOf (txDest d) = some r)
    (hs : r.state ≠ .away) (hl : r.level = 0) :
    s.judge d = (.plain .drop (if r.pause.inForce then .paused else .schedule), s) := by
  rw [State.judge, hr]
  exact (if_neg hs).trans (if_pos hl)

/-- The token test of a recorded station that neither is away nor gated (R44). -/
theorem State.judge_tested {s : State} {d : List Word} {r : Station} (hr : s.recordOf (txDest d) = some r)
    (hs : r.state ≠ .away) (hl : 0 < r.level) :
    let c := s.resolveClass r.pinned (txClass d) (txTag d)
    let t := tokenTest s.time.ms c (txLength d) r
    s.judge d = if t.1 then
        ({ TxOutcome.plain .pass .none with cls := some c }, s.putRecord (if c = .game then countGame t.2 else t.2))
      else ({ TxOutcome.plain .defer .shaped with cls := some c }, s.putRecord t.2) := by
  dsimp only
  rw [State.judge, hr]
  exact (if_neg hs).trans (if_neg hl.ne')

/-- Settles O22: each test of the decision in its order, and which of them let a frame pass. -/
theorem transmitDecisionBeforeTokens : Obligations.TransmitDecisionBeforeTokens := by
  refine ⟨fun h w d s hh hp hw => ?_, fun d s hpass => ?_⟩
  · have hrun := exec_transmitDecision hh hp hw
    refine ⟨fun hr => ⟨fun ht => ?_, fun ht => ?_⟩, fun r hr => ⟨fun n hs hn => ?_, fun hs hl => ?_⟩⟩
    · rw [hrun, State.judge_unrecorded hr, if_pos ht]
    · rw [hrun, State.judge_unrecorded hr, if_neg ht.ne']
    · rw [hrun, State.judge_away hr hs, hn]
      rfl
    · rw [hrun, State.judge_gated hr hs hl]
  · cases hr : s.recordOf (txDest d) with
    | none =>
      rw [State.judge_unrecorded hr] at hpass
      split at hpass
      · exact absurd hpass TxAction.noConfusion
      · next ht => exact .inl ⟨rfl, Nat.pos_of_ne_zero ht⟩
    | some r =>
      by_cases hs : r.state = .away
      · rw [State.judge_away hr hs] at hpass
        exact absurd hpass TxAction.noConfusion
      · rcases Nat.eq_zero_or_pos r.level with hl | hl
        · rw [State.judge_gated hr hs hl] at hpass
          exact absurd hpass TxAction.noConfusion
        · exact .inr ⟨r, rfl, hs, hl⟩

theorem State.resolveClass_of_code (s : State) (c : Class) (tag : Nat) : s.resolveClass none c.code tag = c := by
  rw [State.resolveClass, (classOfCode_eq_some_iff _ c).2 rfl]

theorem State.resolveClass_of_no_code (s : State) {code : Nat} (h : code = 0 ∨ 6 ≤ code) (tag : Nat) :
    s.resolveClass none code tag = s.mapClass tag := by
  have hnone : classOfCode code = none := by
    refine Option.eq_none_iff_forall_ne_some.2 fun c hc => ?_
    have hcode := (classOfCode_eq_some_iff _ c).1 hc
    cases c <;> simp only [Class.code] at hcode <;> omega
  rw [State.resolveClass, hnone]

/-- Settles O23: the token test by its two cases, the count of GAME passes, and the resolution of the class. -/
theorem transmitDecisionByTokens : Obligations.TransmitDecisionByTokens := by
  refine ⟨fun h w d r s hh hp hw hr hs hl => ?_, fun r => ?_, fun code tag s =>
    ⟨fun _ => rfl, fun c => s.resolveClass_of_code c tag, fun hcode => s.resolveClass_of_no_code hcode tag⟩⟩
  · have hjudge := State.judge_tested (d := d) hr hs hl
    dsimp only at hjudge ⊢
    rw [exec_transmitDecision hh hp hw, hjudge]
    rcases tokenTest_cases s.time.ms (s.resolveClass r.pinned (txClass d) (txTag d)) (txLength d) r with ⟨hle, ht⟩ | ⟨hlt, ht⟩
    · exact ⟨fun _ => by rw [ht]; rfl, fun h => absurd h (not_lt.2 hle)⟩
    · exact ⟨fun h => absurd hlt (not_lt.2 h), fun _ => by rw [ht]; rfl⟩
  · have hcount : (if r.gameCount < 255 then r.gameCount + 1 else 255) = min 255 (r.gameCount + 1) := by
      split <;> omega
    rw [countGame, hcount]

end Sys2Proof.Machine

/-! PROOFS. The receive side (sections 3.5 and 3.6): the capture record after an observed write, its expiry, and the receive
decision; and the control area's own writes and request slot (sections 2.1 and 2.4). -/
namespace Sys2Proof.Machine

/-! ## The words of a write -/

theorem Transaction.form_wf {x : Transaction} (h : x.wf = true) :
    (∀ en, x.form = .single en → singleFormWf x.addr en = true)
      ∧ ∀ n, x.form = .burst n → burstFormWf x.addr n = true := by
  simp only [Transaction.wf, Bool.and_eq_true] at h
  exact ⟨fun en hf => by simpa [hf] using h.1.2, fun n hf => by simpa [hf] using h.1.2⟩

theorem wordBase_of_aligned {a : Nat} (h : a % 4 = 0) : wordBase a = a := by
  unfold wordBase
  omega

/-- Each full word that a write writes is one of its data words, at its place from the write's word on. -/
theorem Transaction.mem_fullWords {x : Transaction} (hx : x.wf = true) {a : Nat} {v : Word} (h : (a, v) ∈ x.fullWords) :
    ∃ j, a = wordBase x.addr + 4 * j ∧ x.data.getD j 0 = v := by
  unfold Transaction.fullWords at h
  split at h
  · cases h
  · split at h
    · split at h
      · obtain ⟨rfl, rfl⟩ := Prod.mk.inj (List.mem_singleton.1 h)
        exact ⟨0, rfl, rfl⟩
      · cases h
    · next n hf =>
      have halign : x.addr % 4 = 0 := by
        have := (Transaction.form_wf hx).2 n hf
        simp only [burstFormWf, Bool.and_eq_true, decide_eq_true_eq] at this
        exact this.1.2
      obtain ⟨j, hj, heq⟩ := List.mem_iff_getElem.1 h
      simp only [List.getElem_zipWith, List.getElem_range, Prod.mk.injEq] at heq
      obtain ⟨rfl, rfl⟩ := heq
      refine ⟨j, by rw [wordBase_of_aligned halign], ?_⟩
      simp at hj
      simp [hj]

/-- A write has one full word at an address. -/
theorem Transaction.fullWords_unique {x : Transaction} (hx : x.wf = true) {a : Nat} {v v' : Word} (h : (a, v) ∈ x.fullWords)
    (h' : (a, v') ∈ x.fullWords) : v' = v := by
  obtain ⟨j, hj, rfl⟩ := Transaction.mem_fullWords hx h
  obtain ⟨k, hk, rfl⟩ := Transaction.mem_fullWords hx h'
  obtain rfl : k = j := by omega
  rfl

/-- A sub-word write touches the word it lies in, and has no full word. -/
theorem Transaction.partWord_eq_some {x : Transaction} {a : Nat} (h : x.partWord = some a) :
    a = wordBase x.addr ∧ x.fullWords = [] := by
  unfold Transaction.partWord at h
  split at h
  · next en hd hf =>
    split at h
    · cases h
    · next hen =>
      refine ⟨(Option.some.inj h).symm, ?_⟩
      simp [Transaction.fullWords, hd, hf, hen]
  · cases h

/-- The word of an address is numbered from its descriptor on. -/
theorem descriptorOf_add_word (x : Transaction) (j : Nat) :
    ∃ k, wordBase x.addr + 4 * j = descriptorOf x + 4 * k := by
  refine ⟨(wordBase x.addr - descriptorOf x) / 4 + j, ?_⟩
  unfold wordBase descriptorOf
  omega

/-- A full word of a write is word `i` of its descriptor exactly when it stands at that word's address. -/
theorem Transaction.fullWord_index {x : Transaction} (hx : x.wf = true) {a : Nat} {v : Word} (h : (a, v) ∈ x.fullWords)
    (i : Nat) : (a - descriptorOf x) / 4 = i ↔ a = descriptorOf x + 4 * i := by
  obtain ⟨j, rfl, -⟩ := Transaction.mem_fullWords hx h
  obtain ⟨k, hk⟩ := descriptorOf_add_word x j
  omega

theorem Transaction.partWord_index {x : Transaction} {a : Nat} (h : x.partWord = some a) (i : Nat) :
    (a - descriptorOf x) / 4 = i ↔ a = descriptorOf x + 4 * i := by
  obtain ⟨rfl, -⟩ := Transaction.partWord_eq_some h
  obtain ⟨k, hk⟩ := descriptorOf_add_word x 0
  omega

/-! ## Capture (R51, R52) -/

theorem setSeen_length (i : Nat) (v : Option Word) (ws : List (Option Word)) : (setSeen i v ws).length = ws.length := by
  unfold setSeen
  split
  · rfl
  · exact List.length_set

/-- Of the seven words kept, a write of one sets that one. -/
theorem setSeen_getD {ws : List (Option Word)} (hws : ws.length = 7) (k : Nat) (v : Option Word) {i : Nat} (hlo : 1 ≤ i)
    (hhi : i ≤ 7) : (setSeen k v ws).getD (i - 1) none = if k = i then v else ws.getD (i - 1) none := by
  unfold setSeen
  by_cases hk : k = 0
  · rw [if_pos hk, if_neg (by omega)]
  · rw [if_neg hk]
    by_cases hki : k = i
    · subst hki
      have hlt : k - 1 < ws.length := by omega
      simp [hlt]
    · rw [if_neg hki]
      simp only [List.getD_eq_getElem?_getD]
      rw [List.getElem?_set_ne (by omega)]

/-- The words after some full words: one that none of them names is as before, one that they all give one value has it. -/
theorem foldl_setSeen_getD (f : Nat × Word → Nat) (l : List (Nat × Word)) {ws : List (Option Word)} (hws : ws.length = 7)
    {i : Nat} (hlo : 1 ≤ i) (hhi : i ≤ 7) :
    ((∀ p ∈ l, f p ≠ i) →
        (l.foldl (fun ws p => setSeen (f p) (some p.2) ws) ws).getD (i - 1) none = ws.getD (i - 1) none)
      ∧ ∀ v, (∀ p ∈ l, f p = i → p.2 = v) → ((∃ p ∈ l, f p = i) ∨ ws.getD (i - 1) none = some v) →
          (l.foldl (fun ws p => setSeen (f p) (some p.2) ws) ws).getD (i - 1) none = some v := by
  induction l generalizing ws with
  | nil => exact ⟨fun _ => rfl, fun v _ h => h.resolve_left (by simp)⟩
  | cons p l ih =>
    obtain ⟨ihNone, ihSome⟩ := ih ((setSeen_length (f p) (some p.2) ws).trans hws)
    have hset := setSeen_getD hws (f p) (some p.2) hlo hhi
    refine ⟨fun h => ?_, fun v hv h => ?_⟩
    · rw [List.foldl_cons, ihNone fun q hq => h q (List.mem_cons_of_mem _ hq), hset, if_neg (h p List.mem_cons_self)]
    · rw [List.foldl_cons]
      refine ihSome v (fun q hq => hv q (List.mem_cons_of_mem _ hq)) ?_
      rw [hset]
      by_cases hp : f p = i
      · exact .inr (by rw [if_pos hp, hv p List.mem_cons_self hp])
      · rw [if_neg hp]
        refine h.imp_left ?_
        rintro ⟨q, hq, hqi⟩
        rcases List.mem_cons.1 hq with rfl | hq
        exacts [absurd hqi hp, ⟨q, hq, hqi⟩]

/-- The record that a write of a descriptor begins from: the ring's where it is of that descriptor, else an empty one (R51). -/
def captureBase (c : Capture) (x : Transaction) : Capture :=
  if c.addr = some (descriptorOf x) then c else { Capture.empty with addr := some (descriptorOf x) }

theorem captureBase_addr (c : Capture) (x : Transaction) : (captureBase c x).addr = some (descriptorOf x) := by
  unfold captureBase
  split
  · assumption
  · rfl

theorem captureBase_length {c : Capture} (h : c.words.length = 7) (x : Transaction) : (captureBase c x).words.length = 7 := by
  unfold captureBase
  split
  exacts [h, rfl]

theorem captureBase_word (c : Capture) (x : Transaction) {i : Nat} (hlo : 1 ≤ i) (hhi : i ≤ 7) :
    (captureBase c x).word i = if c.addr = some (descriptorOf x) then c.word i else none := by
  unfold captureBase
  split
  · rfl
  · interval_cases i <;> rfl

theorem captureWrite_of_ignored {c : Capture} {x : Transaction} (h0 : onlyWordZero x = true) (hc : closingWrite x = false) :
    captureWrite c x = c := if_pos ⟨h0, hc⟩

/-- The words that a taken write leaves: its full words seen, the word of a sub-word write not (R51). -/
def writtenWords (c : Capture) (x : Transaction) : List (Option Word) :=
  let ws := x.fullWords.foldl (fun ws p => setSeen ((p.1 - descriptorOf x) / 4) (some p.2) ws) (captureBase c x).words
  match x.partWord with
  | some a => setSeen ((a - descriptorOf x) / 4) none ws
  | none => ws

theorem captureWrite_of_taken {c : Capture} {x : Transaction} (h : onlyWordZero x = false ∨ closingWrite x = true) :
    captureWrite c x = { captureBase c x with words := writtenWords c x } := by
  refine if_neg ?_
  rintro ⟨h0, hc⟩
  rcases h with h | h
  · exact absurd (h0.symm.trans h) (by decide)
  · exact absurd (hc.symm.trans h) (by decide)

theorem captureWrite_addr {c : Capture} {x : Transaction} (h : onlyWordZero x = false ∨ closingWrite x = true) :
    (captureWrite c x).addr = some (descriptorOf x) := by
  rw [captureWrite_of_taken h]
  exact captureBase_addr c x

/-- Word by word: a full word is seen with its value, the word of a sub-word write is not seen, every other is as it was. -/
theorem writtenWords_getD {c : Capture} {x : Transaction} (hx : x.wf = true) (hc : c.words.length = 7) {i : Nat} (hlo : 1 ≤ i)
    (hhi : i ≤ 7) :
    (∀ v, (descriptorOf x + 4 * i, v) ∈ x.fullWords → (writtenWords c x).getD (i - 1) none = some v)
      ∧ (x.partWord = some (descriptorOf x + 4 * i) → (writtenWords c x).getD (i - 1) none = none)
      ∧ ((∀ v, (descriptorOf x + 4 * i, v) ∉ x.fullWords) → x.partWord ≠ some (descriptorOf x + 4 * i) →
          (writtenWords c x).getD (i - 1) none = (captureBase c x).words.getD (i - 1) none) := by
  obtain ⟨hnone, hsome⟩ := foldl_setSeen_getD (fun p => (p.1 - descriptorOf x) / 4) x.fullWords
    (captureBase_length hc x) hlo hhi
  cases hpart : x.partWord with
  | none =>
    have hwords : writtenWords c x = x.fullWords.foldl (fun ws p => setSeen ((p.1 - descriptorOf x) / 4) (some p.2) ws)
        (captureBase c x).words := by
      simp [writtenWords, hpart]
    rw [hwords]
    refine ⟨fun v hv => hsome v (fun p hp hi => ?_) (.inl ⟨_, hv, (Transaction.fullWord_index hx hv i).2 rfl⟩),
      nofun, fun hno _ => hnone fun p hp hi => ?_⟩
    · have ha := (Transaction.fullWord_index hx hp i).1 hi
      exact Transaction.fullWords_unique hx hv (ha ▸ hp)
    · have ha := (Transaction.fullWord_index hx hp i).1 hi
      exact hno p.2 (ha ▸ hp)
  | some a =>
    obtain ⟨-, hfull⟩ := Transaction.partWord_eq_some hpart
    have hwords : writtenWords c x = setSeen ((a - descriptorOf x) / 4) none (captureBase c x).words := by
      simp [writtenWords, hpart, hfull]
    have hindex := Transaction.partWord_index hpart i
    rw [hwords, setSeen_getD (captureBase_length hc x) _ _ hlo hhi, hfull]
    refine ⟨nofun, fun ha => if_pos (hindex.2 (Option.some.inj ha)), fun _ ha => if_neg fun h => ha ?_⟩
    rw [hindex.1 h]

theorem State.rxInHand_eq {s : State} {h : InHand} {w : Window} (hr : s.routedTo .rxRing .write = some (h, w)) (closing : Bool) :
    s.rxInHand closing = if closingWrite h.txn = closing then some (h, w) else none := by
  rw [State.rxInHand, hr]

/-- Settles O26: the three rows, and the capture record word by word. -/
theorem receiveCaptureAndExpiry : Obligations.ReceiveCaptureAndExpiry := by
  refine ⟨fun h w s hh hw hk => ⟨fun hp hd hc => ?_, fun hp hc => ?_, fun hp hc => ?_⟩,
    fun c x hx _ hlen => ⟨captureWrite_of_ignored, fun htaken => ⟨captureWrite_addr htaken, fun i hlo hhi => ?_⟩⟩⟩
  · have hrow : exec .rxRingWrite s = execRxRingWrite s := rfl
    have hrouted : s.routedTo .rxRing .write = some (h, w) := (s.routedTo_eq_some_iff _ _ h w).2 ⟨hh, hw, hp, hk, hd⟩
    rw [hrow, execRxRingWrite, State.rxInHand_eq hrouted, if_pos hc]
    rfl
  · have hrow : exec .rxHoldExpiry s = execRxHoldExpiry s := rfl
    have hphase : h.phase.unmodified = some (.sramWait (.closingWrite false)) := by
      rcases hp with hp | hp <;> rw [hp] <;> rfl
    refine ⟨max h.heldUs s.ptu.inspectLimit, ?_⟩
    rw [hrow, execRxHoldExpiry, hh]
    simp only [hw, hphase]
    exact if_pos ⟨hk, hc⟩
  · have hrow : exec .rxHoldExpiry s = execRxHoldExpiry s := rfl
    have hphase : h.phase.unmodified = some (.sramBusy (.closingWrite false)) := by
      rw [hp]
      rfl
    refine ⟨max h.heldUs s.ptu.inspectLimit, ?_⟩
    rw [hrow, execRxHoldExpiry, hh]
    simp only [hw, hphase]
    exact if_pos ⟨hk, hc⟩
  · rw [captureWrite_of_taken htaken, ← captureBase_word c x hlo hhi]
    exact writtenWords_getD hx hlen hlo hhi

/-! ## The receive decision (R53 to R55) -/

/-- The capture record of a ring that has one reads back. -/
theorem State.gated_eq_true_iff (s : State) (k : RxKind) (m : Mac) :
    s.gated k m = true ↔ k = .data ∧ ∃ r, s.recordOf m = some r ∧ r.level = 0 := by
  unfold State.gated
  rw [Bool.and_eq_true, beq_iff_eq]
  cases hr : s.recordOf m <;> simp

theorem Capture.complete_iff (c : Capture) (k : RxKind) :
    c.complete k = true ↔ (c.word 3).isSome = true ∧ (c.word 4).isSome = true ∧ (c.word 5).isSome = true
      ∧ (k = .peerReport → (c.word 1).isSome = true ∧ (c.word 2).isSome = true) := by
  unfold Capture.complete neededWords
  by_cases hk : k = .peerReport
  · rw [if_pos hk]
    simp [hk]
    tauto
  · rw [if_neg hk]
    simp [hk]

/-- Settles O27: the row's three ways, the gate check, the needed words, and the kind field of DISCARD. -/
theorem receiveDecision : Obligations.ReceiveDecision := by
  refine ⟨fun h w s hh hw hk hd hc => ?_, fun ring w0 word s => ⟨?_, fun hno => if_neg hno, fun hpeer => if_pos hpeer⟩,
    Capture.complete_iff, fun w0 => ⟨field_setField_same w0 (by decide) (by decide), fun i hi => ?_⟩⟩
  · have hrow : exec .rxClosingWrite s = execRxClosingWrite s := rfl
    have hrouted : h.phase = .routed → s.rxInHand true = some (h, w) := fun hp => by
      rw [State.rxInHand_eq ((s.routedTo_eq_some_iff _ _ h w).2 ⟨hh, hw, hp, hk, hd⟩), if_pos hc]
    have hfill : h.phase = .sramBusy .closingFill → s.rxInHand true = none := fun hp => by
      have hnone : s.routedTo .rxRing .write = none := by
        refine Option.eq_none_iff_forall_ne_some.2 fun g hg => ?_
        obtain ⟨hg1, -, hg2, -⟩ := (s.routedTo_eq_some_iff _ _ g.1 g.2).1 hg
        obtain rfl : h = g.1 := Option.some.inj (hh.symm.trans hg1)
        exact absurd (hp.symm.trans hg2) Phase.noConfusion
      rw [State.rxInHand, hnone]
    refine ⟨captureWrite_addr (.inr hc), fun hp hcomplete => ?_, fun hp hcomplete => ?_, fun hp hport hq => ?_, fun hp => ?_,
      fun _ => rfl⟩
    · rw [hrow, execRxClosingWrite, hrouted hp]
      exact if_pos hcomplete
    · rw [hrow, execRxClosingWrite, hrouted hp]
      exact if_neg (Bool.eq_false_iff.1 hcomplete)
    · exact exec_sramPortGrant_pass hport (State.waitingPass_of_sramWait hh hp) hq
    · rw [hrow, execRxClosingWrite, hfill hp]
      simp only [State.endFill, hh, hp, hw]
  · exact s.gated_eq_true_iff _ _
  · rw [discardWord, bit_setField w0 (by decide), if_neg (by omega)]

/-! ## Control writes and the request slot -/

/-- From the area's base on, the bytes the shadow copies are the write's bytes at absorbed offsets (R21). -/
theorem mem_shadowCells_iff {base : Nat} {x : Transaction} (hbase : base ≤ wordBase x.addr) (o : Nat) (b : Byte) :
    (o, b) ∈ shadowCells base x ↔ (base + o, b) ∈ x.cells ∧ absorbed o = true := by
  simp only [shadowCells, List.mem_filter, List.mem_map, Prod.mk.injEq]
  constructor
  · rintro ⟨⟨⟨a, b'⟩, ha, rfl, rfl⟩, ho⟩
    have hle : base ≤ a := hbase.trans (Transaction.wordBase_le_of_mem_cells ha)
    refine ⟨?_, ho⟩
    have haddr : base + (a - base) = a := by omega
    exact haddr.symm ▸ ha
  · rintro ⟨ha, ho⟩
    exact ⟨⟨_, ha, by simp⟩, ho⟩

/-- Settles O30: the row, and the shadow byte by byte. -/
theorem controlWriteReachesShadow : Obligations.ControlWriteReachesShadow := by
  refine fun h w s hr => ⟨fun huse => ?_, rfl, fun hx hbase hshadow => ⟨fun a b hab hin => ?_, fun o ho => ?_⟩⟩
  · have hrow : exec .controlWrite s = execControlWrite s := rfl
    rw [hrow, execControlWrite, (s.controlFor_eq_some_iff .plain h w).2 ⟨hr, huse⟩]
  · have hle : w.base ≤ a := hbase.trans (Transaction.wordBase_le_of_mem_cells hab)
    have haddr : w.base + (a - w.base) = a := by omega
    refine Memory.read_writeCells_mem _ _ (shadowCells w.base h.txn) hshadow (c := (a - w.base, b)) ?_ fun b' hb' => ?_
    · exact (mem_shadowCells_iff hbase _ _).2 ⟨haddr.symm ▸ hab, hin⟩
    · exact Transaction.cells_unique hab (haddr ▸ ((mem_shadowCells_iff hbase _ _).1 hb').1)
  · refine Memory.read_writeCells_other _ _ (shadowCells w.base h.txn) o fun c hc heq => ?_
    subst heq
    obtain ⟨hmem, hin⟩ := (mem_shadowCells_iff hbase c.1 c.2).1 hc
    rcases ho with ho | ho
    · exact absurd (hin.symm.trans ho) (by decide)
    · exact ho c.2 hmem

/-- A closing write of the request slot in hand with the slot FREE is taken (R27). -/
theorem State.takeClosing_of_free {s : State} {h : InHand} {w : Window} (hr : s.routedTo .control .write = some (h, w))
    (huse : controlUse w.base h.txn = .request) (hfree : s.cau.slot = .free) :
    s.takeClosing = (s.absorb h w).takeRequest := by
  rw [State.takeClosing, (s.controlFor_eq_some_iff .request h w).2 ⟨hr, huse⟩]
  exact if_pos hfree

/-- A request row acts on the request as it does once the closing write is taken. -/
theorem State.onRequest_of_taken {s s1 : State} {q : Request} (ht : s.takeClosing = s1) (hslot : s1.cau.slot = .pending)
    (hq : s1.cau.request = some q) {accepts : Word → Bool} (ha : accepts q.kind = true) (owner : Request → State → State) :
    s.onRequest accepts owner = owner q s1 ∧ s.onRequest accepts owner = s1.onRequest accepts owner := by
  have howner : s.onRequest accepts owner = owner q s1 := by
    simp [State.onRequest, ht, hq, ha]
  exact ⟨howner, howner.trans (State.onRequest_pending owner hslot hq ha).symm⟩

theorem beq_of_toNat {k : Word} {n : Nat} (h : k.toNat = n) (hn : n < 2 ^ 32 := by decide) : (k == BitVec.ofNat 32 n) = true := by
  rw [beq_iff_eq]
  refine BitVec.eq_of_toNat_eq ?_
  rw [BitVec.toNat_ofNat, Nat.mod_eq_of_lt hn, h]

theorem badKind_of_toNat {k : Word} (h : k.toNat = 0 ∨ 12 < k.toNat) :
    (decide (k.toNat < 1) || decide (12 < k.toNat)) = true := by
  rw [Bool.or_eq_true, decide_eq_true_eq, decide_eq_true_eq]
  omega

/-- Settles O36: each row runs on the state in which the closing write has been taken. -/
theorem requestTakenFromShadow : Obligations.RequestTakenFromShadow := by
  refine ⟨fun h w s hr huse hfree => ?_, fun k q s hq hk => ?_⟩
  · have ht := State.takeClosing_of_free hr huse hfree
    refine ⟨fun k row hrow hkind => ?_, fun hkind => ?_⟩
    · have hrun : ∀ (owner : Request → State → State), s.onRequest (fun j => j == BitVec.ofNat 32 k) owner =
          ((s.absorb h w).takeRequest).onRequest (fun j => j == BitVec.ofNat 32 k) owner := fun owner =>
        (State.onRequest_of_taken ht rfl rfl (accepts := fun j => j == BitVec.ofNat 32 k)
          (beq_of_toNat hkind (hkind ▸ BitVec.isLt _)) owner).2
      simp only [requestRows, List.mem_cons, Prod.mk.injEq, List.not_mem_nil, or_false] at hrow
      rcases hrow with ⟨rfl, rfl⟩ | ⟨rfl, rfl⟩ | ⟨rfl, rfl⟩ | ⟨rfl, rfl⟩ | ⟨rfl, rfl⟩ | ⟨rfl, rfl⟩ | ⟨rfl, rfl⟩ | ⟨rfl, rfl⟩
        | ⟨rfl, rfl⟩ | ⟨rfl, rfl⟩ | ⟨rfl, rfl⟩ | ⟨rfl, rfl⟩
      all_goals exact congrArg Host.Outcome.next (hrun _)
    · exact congrArg Host.Outcome.next
        (State.onRequest_of_taken ht rfl rfl (badKind_of_toNat hkind) (fun r s => s.answer r .badKind 0)).1
  · obtain ⟨hslot, hreq, rfl⟩ := hq
    exact congrArg Host.Outcome.next
      (State.onRequest_pending (fun r s => s.answer r .badKind 0) hslot hreq (badKind_of_toNat hk))

/-- Settles O37: the hold and its end. -/
theorem requestClosingWriteHeld : Obligations.RequestClosingWriteHeld := by
  refine fun h w s => ⟨fun hr huse hslot => ?_, fun hh hp => ?_⟩
  · have hrow : exec .requestClosingHeld s = execRequestClosingHeld s := rfl
    rw [hrow, execRequestClosingHeld, (s.controlFor_eq_some_iff .request h w).2 ⟨hr, huse⟩]
    exact if_pos hslot
  · have hrow : exec .requestHoldExpiry s = execRequestHoldExpiry s := rfl
    rw [hrow, execRequestHoldExpiry, hh]
    exact if_pos hp

end Sys2Proof.Machine

/-! PROOFS. The node policy record (sections 2.2, 5.6 and 6.5): its fields clamped, and what it does to the table. -/
namespace Sys2Proof.Machine

/-! ## Clamped fields (R24) -/

theorem clamp_eq_max_min {lo hi : Nat} (h : lo ≤ hi) (v : Nat) : clamp lo hi v = max lo (min hi v) := by
  rw [clamp_eq_min_max h]
  omega

theorem clamp_zero_eq_min (hi v : Nat) : clamp 0 hi v = min hi v := by
  rw [clamp_eq_max_min (Nat.zero_le hi), Nat.zero_max]

theorem clamp_mem {lo hi : Nat} (h : lo ≤ hi) (v : Nat) : lo ≤ clamp lo hi v ∧ clamp lo hi v ≤ hi := by
  rw [clamp_eq_max_min h]
  omega

theorem clampInt_mem {lo hi : Int} (h : lo ≤ hi) (v : Int) : lo ≤ clampInt lo hi v ∧ clampInt lo hi v ≤ hi := by
  rw [clampInt_eq_max_min h]
  omega

/-- Every field of a policy taken lies in its range. -/
theorem policyOfWords_ranges (ws : List Word) :
    let p := policyOfWords ws
    1 ≤ p.refRate ∧ p.refRate ≤ 65535 ∧ p.factor ≤ 4096 ∧ 1 ≤ p.threshold ∧ p.threshold ≤ 255
      ∧ 1 ≤ p.sustain ∧ p.sustain ≤ 10 ∧ 5 ≤ p.linger ∧ p.linger ≤ 300 ∧ 1 ≤ p.deferLimit ∧ p.deferLimit ≤ 64
      ∧ -90 ≤ p.trigger ∧ p.trigger ≤ -40 ∧ 2 ≤ p.margin ∧ p.margin ≤ 20 ∧ 2 ≤ p.gameMargin ∧ p.gameMargin ≤ 30
      ∧ -95 ≤ p.floor ∧ p.floor ≤ -50 ∧ 1 ≤ p.dwell ∧ p.dwell ≤ 30 ∧ 1 ≤ p.gameDwell ∧ p.gameDwell ≤ 60
      ∧ 2 ≤ p.steerTimeout ∧ p.steerTimeout ≤ 60 ∧ 10 ≤ p.drainDeadline ∧ p.drainDeadline ≤ 600 ∧ p.maintCount ≤ 4
      ∧ ∀ m ∈ p.maintWindows, m.1 ≤ 10079 ∧ m.2 ≤ 10079 := by
  have h := fun lo hi (hle : lo ≤ hi) v => clamp_mem (lo := lo) (hi := hi) hle v
  have hint := fun lo hi (hle : lo ≤ hi) v => clampInt_mem (lo := lo) (hi := hi) hle v
  refine ⟨(h 1 65535 (by decide) _).1, (h 1 65535 (by decide) _).2, (h 0 4096 (by decide) _).2, (h 1 255 (by decide) _).1,
    (h 1 255 (by decide) _).2, (h 1 10 (by decide) _).1, (h 1 10 (by decide) _).2, (h 5 300 (by decide) _).1,
    (h 5 300 (by decide) _).2, (h 1 64 (by decide) _).1, (h 1 64 (by decide) _).2, (hint (-90) (-40) (by decide) _).1,
    (hint (-90) (-40) (by decide) _).2, (h 2 20 (by decide) _).1, (h 2 20 (by decide) _).2, (h 2 30 (by decide) _).1,
    (h 2 30 (by decide) _).2, (hint (-95) (-50) (by decide) _).1, (hint (-95) (-50) (by decide) _).2,
    (h 1 30 (by decide) _).1, (h 1 30 (by decide) _).2, (h 1 60 (by decide) _).1, (h 1 60 (by decide) _).2,
    (h 2 60 (by decide) _).1, (h 2 60 (by decide) _).2, (h 10 600 (by decide) _).1, (h 10 600 (by decide) _).2,
    (h 0 4 (by decide) _).2, ?_⟩
  have hwindow := fun v => (h 0 10079 (by decide) v).2
  simp only [policyOfWords, List.forall_mem_cons]
  exact ⟨⟨hwindow _, hwindow _⟩, ⟨hwindow _, hwindow _⟩, ⟨hwindow _, hwindow _⟩, ⟨hwindow _, hwindow _⟩,
    fun _ hm => absurd hm List.not_mem_nil⟩

/-- Every field of a policy is its word's, as written or at the nearer end of its range. -/
theorem policyOfWords_fields (ws : List Word) :
    let p := policyOfWords ws
    let g := fun i lo n => field (ws.getD i 0) lo n
    p.refRate = max 1 (min 65535 (g 0 0 16)) ∧ p.factor = min 4096 (g 0 16 16)
      ∧ p.threshold = max 1 (min 255 (g 1 0 8)) ∧ p.sustain = max 1 (min 10 (g 1 8 8))
      ∧ p.linger = max 5 (min 300 (g 1 16 16)) ∧ p.deferLimit = max 1 (min 64 (g 2 0 8))
      ∧ p.trigger = max (-90) (min (-40) (signed 8 (g 2 8 8))) ∧ p.margin = max 2 (min 20 (g 2 16 8))
      ∧ p.gameMargin = max 2 (min 30 (g 2 24 8)) ∧ p.floor = max (-95) (min (-50) (signed 8 (g 3 0 8)))
      ∧ p.dwell = max 1 (min 30 (g 3 8 8)) ∧ p.gameDwell = max 1 (min 60 (g 3 16 8))
      ∧ p.steerTimeout = max 2 (min 60 (g 3 24 8)) ∧ p.drainDeadline = max 10 (min 600 (g 15 0 16))
      ∧ p.maintCount = min 4 (g 15 16 8)
      ∧ p.maintWindows = [4, 5, 6, 7].map (fun i => (min 10079 (g i 0 16), min 10079 (g i 16 16))) := by
  have h := fun lo hi (hle : lo ≤ hi) v => clamp_eq_max_min (lo := lo) (hi := hi) hle v
  have hint := fun lo hi (hle : lo ≤ hi) v => clampInt_eq_max_min (lo := lo) (hi := hi) hle v
  refine ⟨h 1 65535 (by decide) _, clamp_zero_eq_min 4096 _, h 1 255 (by decide) _, h 1 10 (by decide) _,
    h 5 300 (by decide) _, h 1 64 (by decide) _, hint (-90) (-40) (by decide) _, h 2 20 (by decide) _, h 2 30 (by decide) _,
    hint (-95) (-50) (by decide) _, h 1 30 (by decide) _, h 1 60 (by decide) _, h 2 60 (by decide) _, h 10 600 (by decide) _,
    clamp_zero_eq_min 4 _, ?_⟩
  simp only [policyOfWords, clamp_zero_eq_min, List.map_cons, List.map_nil]

/-! ## What a policy does to the table (R96, R109, R110) -/

/-- A record after a policy, its sweep mark included. -/
def State.policyTaken (p : Policy) (s : State) (r : Station) : Station :=
  let q := if p.refRate ≠ s.policy.refRate ∧ (s.profileOf r.profile).ceiling = 0 then
    ({ s with policy := p } : State).rateChange r else r
  { q with
    mark := if p.factor ≠ s.policy.factor then true else q.mark
    sustain := if p.sustain < s.policy.sustain then min p.sustain r.sustain else r.sustain
    linger := if p.linger < s.policy.linger ∧ r.gameActive = true then min p.linger r.linger else r.linger }

theorem State.takePolicy_eq (p : Policy) (s : State) :
    s.takePolicy p = { s with policy := p, stu.stations := s.stu.stations.map (s.policyTaken p) } := by
  rcases s.takePolicy_cases p with ⟨hf, h⟩ | ⟨hf, h⟩
  · have hrecord : s.policyRecord { s with policy := p } = s.policyTaken p := by
      funext r
      obtain ⟨q, hq, heq⟩ := s.policyRecord_shape { s with policy := p } r
      rw [heq, State.policyTaken, ← hq, if_neg (not_not.2 hf)]
    rw [h, hrecord]
  · have hrecord : s.policyTaken p = (fun r => { r with mark := true }) ∘ s.policyRecord { s with policy := p } := by
      funext r
      obtain ⟨q, hq, heq⟩ := s.policyRecord_shape { s with policy := p } r
      rw [Function.comp_apply, heq, State.policyTaken, ← hq, if_pos hf]
    rw [h, hrecord, ← List.map_map]
    rfl

/-- A policy with these fields as they were, or not lowered, changes no record. -/
theorem State.policyTaken_of_same {p : Policy} {s : State} (hf : p.factor = s.policy.factor)
    (hr : p.refRate = s.policy.refRate) (hs : s.policy.sustain ≤ p.sustain) (hl : s.policy.linger ≤ p.linger) (r : Station) :
    s.policyTaken p r = r := by
  rw [State.policyTaken, if_neg (fun h => h.1 hr), if_neg (not_not.2 hf), if_neg (Nat.not_lt.2 hs),
    if_neg fun h => Nat.not_lt.2 hl h.1]

/-- Settles O33: the row is `takePolicy` on the clamped record, said record by record. -/
theorem nodePolicyTaken : Obligations.NodePolicyTaken := by
  refine ⟨fun h w s hr huse => ?_, fun ws => ?_⟩
  · have hrow : exec .nodePolicyRecord s =
        .next ((s.absorb h w).takePolicy (policyOfWords ((s.absorb h w).shadowWords 0x80 16))) := by
      have hexec : exec .nodePolicyRecord s = execNodePolicyRecord s := rfl
      rw [hexec, execNodePolicyRecord, (s.controlFor_eq_some_iff .policy h w).2 ⟨hr, huse⟩]
    rw [State.takePolicy_eq] at hrow
    refine ⟨_, hrow, rfl, rfl, fun hf href hs hl => ?_⟩
    have hid : (s.absorb h w).policyTaken (policyOfWords ((s.absorb h w).shadowWords 0x80 16)) = id :=
      funext fun r => State.policyTaken_of_same hf href hs hl r
    exact (congrArg (fun f => s.stu.stations.map f) hid).trans (List.map_id _)
  · obtain ⟨h1, h2, h3, h4, h5, h6, h7, h8, h9, h10, h11, h12, h13, h14, h15, h16, h17, h18, h19, h20, h21, h22, h23, h24,
      h25, h26, h27, h28, h29⟩ := policyOfWords_ranges ws
    exact ⟨h1, h2, h3, h4, h5, h6, h7, h8, h9, h10, h11, h12, h13, h14, h15, h16, h17, h18, h19, h20, h21, h22, h23, h24,
      h25, h26, h27, h28, h29, policyOfWords_fields ws⟩

end Sys2Proof.Machine

/-! PROOFS. Reports (section 2.5): the words of a record, how a raised report joins the pending queue, and what raising reports
leaves of the state. -/
namespace Sys2Proof.Machine

/-! ## Packed words -/

theorem packWord_one (v lo width : Nat) : packWord [(v, lo, width)] = BitVec.ofNat 32 (v % 2 ^ width * 2 ^ lo) := rfl

theorem packWord_two (v lo n v' lo' n' : Nat) :
    packWord [(v, lo, n), (v', lo', n')] = BitVec.ofNat 32 (v % 2 ^ n * 2 ^ lo + v' % 2 ^ n' * 2 ^ lo') := by
  simp [packWord]

theorem packWord_three (v lo n v' lo' n' v'' lo'' n'' : Nat) :
    packWord [(v, lo, n), (v', lo', n'), (v'', lo'', n'')] =
      BitVec.ofNat 32 (v % 2 ^ n * 2 ^ lo + v' % 2 ^ n' * 2 ^ lo' + v'' % 2 ^ n'' * 2 ^ lo'') := by
  simp [packWord, Nat.add_assoc]

theorem packWord_four (v lo n v' lo' n' v'' lo'' n'' u l k : Nat) :
    packWord [(v, lo, n), (v', lo', n'), (v'', lo'', n''), (u, l, k)] =
      BitVec.ofNat 32 (v % 2 ^ n * 2 ^ lo + v' % 2 ^ n' * 2 ^ lo' + v'' % 2 ^ n'' * 2 ^ lo'' + u % 2 ^ k * 2 ^ l) := by
  simp [packWord, Nat.add_assoc]

theorem ofNat_mod_word (v : Nat) : BitVec.ofNat 32 (v % 2 ^ 32) = BitVec.ofNat 32 v := BitVec.eq_of_toNat_eq (by simp)

theorem bitOf_mod_mul (x : Bool) (lo : Nat) : bitOf x % 2 ^ 1 * 2 ^ lo = if x = true then 2 ^ lo else 0 := by
  cases x <;> simp [bitOf]

theorem signed16_mod (v : Int) : signed16 v % 2 ^ 16 = (v % 2 ^ 16).toNat := by
  unfold signed16
  omega

/-! ## Codes that fit their fields -/

theorem StationState.code_mod (x : StationState) : x.code % 2 ^ 8 = x.code := by cases x <;> rfl
theorem SessionState.code_mod (x : SessionState) : x.code % 2 ^ 8 = x.code := by cases x <;> rfl
theorem Reason.code_mod (x : Reason) : x.code % 2 ^ 8 = x.code := by cases x <;> rfl
theorem FreeReason.code_mod (x : FreeReason) : x.code % 2 ^ 8 = x.code := by cases x <;> rfl
theorem LevelEdge.code_mod (x : LevelEdge) : x.code % 2 ^ 8 = x.code := by cases x <;> rfl
theorem GameCause.code_mod (x : GameCause) : x.code % 2 ^ 8 = x.code := by cases x <;> rfl
theorem SteerCause.code_mod (x : SteerCause) : x.code % 2 ^ 8 = x.code := by cases x <;> rfl
theorem WindowKind.code_mod (x : WindowKind) : x.code % 2 ^ 4 = x.code := by cases x <;> rfl
theorem RefusedArea.code_mod (x : RefusedArea) : x.code % 2 ^ 8 = x.code := by cases x <;> rfl
theorem RefusedReason.code_mod (x : RefusedReason) : x.code % 2 ^ 8 = x.code := by cases x <;> rfl
theorem IgnoredReason.code_mod (x : IgnoredReason) : x.code % 2 ^ 8 = x.code := by cases x <;> rfl
theorem DefaultedReason.code_mod (x : DefaultedReason) : x.code % 2 ^ 8 = x.code := by cases x <;> rfl
theorem ReportBody.kindCode_mod (b : ReportBody) : b.kindCode % 2 ^ 8 = b.kindCode := by cases b <;> rfl

theorem Slot.code_mod (x : Slot) : x.code % 2 ^ 1 = if x = .a then 0 else 1 := by cases x <;> rfl

theorem Pause.form_mod (p : Pause) :
    p.form % 2 ^ 2 = match p with | .none => 0 | .indefinite => 1 | .timed _ => 2 := by cases p <;> rfl

theorem Pause.seconds_eq (p : Pause) : p.seconds = match p with | .none => 0 | .indefinite => 0 | .timed n => n := by
  cases p <;> rfl

theorem dirCode_mod_mul (d : Dir) : dirCode d % 2 ^ 1 * 2 ^ 24 = if d = .write then 2 ^ 24 else 0 := by cases d <;> rfl

theorem linger_mod_mul (a : Bool) (g : Nat) :
    (if a = true then g else 0) % 2 ^ 9 * 2 ^ 16 = if a = true then g % 2 ^ 9 * 2 ^ 16 else 0 := by
  cases a <;> simp

/-! ## The words of a record (section 11.3) -/

/-- The words after the header's first two: the station and the kind's fields. -/
def ReportBody.tail (b : ReportBody) : List Word :=
  BitVec.ofNat 32 b.station.toNat :: BitVec.ofNat 32 (b.station.toNat / 2 ^ 32) :: b.fields

theorem Report.words_wall (m sec : Nat) (gap : Bool) (b : ReportBody) :
    ({ stamp := .wall m sec, gap := gap, body := b } : Report).words =
      BitVec.ofNat 32 (b.kindCode + (if gap = true then 2 ^ 9 else 0))
        :: BitVec.ofNat 32 (sec % 2 ^ 8 + m % 2 ^ 16 * 2 ^ 16) :: b.tail := by
  simp only [Report.words, packWord_three, packWord_two, ReportBody.kindCode_mod, bitOf_mod_mul, Nat.zero_mod, Nat.zero_mul,
    Nat.pow_zero, Nat.mul_one, Nat.add_zero]
  rfl

theorem Report.words_counter (ms : BitVec 32) (gap : Bool) (b : ReportBody) :
    ({ stamp := .counter ms, gap := gap, body := b } : Report).words =
      BitVec.ofNat 32 (b.kindCode + (if gap = true then 2 ^ 9 else 0) + 2 ^ 8) :: ms :: b.tail := by
  have hhead : b.kindCode + 2 ^ 8 + (if gap = true then 2 ^ 9 else 0) = b.kindCode + (if gap = true then 2 ^ 9 else 0) + 2 ^ 8 :=
    Nat.add_right_comm _ _ _
  simp only [Report.words, packWord_three, ReportBody.kindCode_mod, bitOf_mod_mul, Nat.pow_zero, Nat.mul_one, ← hhead]
  rfl

/-! ## The pending queue (R30) -/

theorem State.joinQueue_of_room {s : State} (h : s.cau.pending.length < 16) (b : ReportBody) :
    s.joinQueue b = { s with
      cau.pending := s.cau.pending ++ [{ stamp := s.stamp, gap := s.cau.gap, body := b }], cau.gap := false } := if_pos h

theorem State.joinQueue_of_full {s : State} (h : 16 ≤ s.cau.pending.length) (b : ReportBody) :
    s.joinQueue b = { s with cau.gap := true } := if_neg (Nat.not_lt.2 h)

theorem State.raise_pending_gap (b : ReportBody) (s : State) :
    (s.raise b).cau.pending = (s.joinQueue b).cau.pending ∧ (s.raise b).cau.gap = (s.joinQueue b).cau.gap :=
  ⟨State.pumpReports_pending _, State.pumpReports_gap _⟩

/-- The pending queue and the gap flag that raised reports leave depend on the time base and on both before alone. -/
theorem State.raiseAll_pending_congr (bs : List ReportBody) {s t : State} (htime : t.time = s.time)
    (hpending : t.cau.pending = s.cau.pending) (hgap : t.cau.gap = s.cau.gap) :
    (t.raiseAll bs).cau.pending = (s.raiseAll bs).cau.pending := by
  induction bs generalizing s t with
  | nil => exact hpending
  | cons b bs ih =>
    have htimeKept : ∀ u : State, (u.raise b).time = u.time := fun u => (u.raise_frame b).time (by decide) (by decide)
    have hstamp : t.stamp = s.stamp := by rw [State.stamp, State.stamp, htime]
    obtain ⟨htp, htg⟩ := State.raise_pending_gap b t
    obtain ⟨hsp, hsg⟩ := State.raise_pending_gap b s
    refine ih (s := s.raise b) (t := t.raise b) ((htimeKept t).trans (htime.trans (htimeKept s).symm)) ?_ ?_
    · rw [htp, hsp]
      rcases Nat.lt_or_ge s.cau.pending.length 16 with h | h
      · rw [State.joinQueue_of_room h, State.joinQueue_of_room (hpending ▸ h), hpending, hgap, hstamp]
      · rw [State.joinQueue_of_full h, State.joinQueue_of_full (hpending ▸ h)]
        exact hpending
    · rw [htg, hsg]
      rcases Nat.lt_or_ge s.cau.pending.length 16 with h | h
      · rw [State.joinQueue_of_room h, State.joinQueue_of_room (hpending ▸ h)]
      · rw [State.joinQueue_of_full h, State.joinQueue_of_full (hpending ▸ h)]

theorem State.raiseTogether_pending_congr (groups : List (List ReportBody)) {s t : State} (htime : t.time = s.time)
    (hpending : t.cau.pending = s.cau.pending) (hgap : t.cau.gap = s.cau.gap) (hfree : t.freeIdx = s.freeIdx) :
    (t.raiseTogether groups).cau.pending = (s.raiseTogether groups).cau.pending := by
  unfold State.raiseTogether
  rw [hfree]
  exact State.raiseAll_pending_congr _ htime hpending hgap

/-! ## What raising reports leaves -/

/-- A state with the report pieces of another. -/
def State.withReports (s t : State) : State :=
  { s with
    cau.pending := t.cau.pending
    cau.gap := t.cau.gap
    cau.path := t.cau.path
    ptu.queue := t.ptu.queue
    ptu.behind := t.ptu.behind
    freeIdx := t.freeIdx }

/-- What touches the report pieces alone changes what raising reports can change. -/
theorem Frame.onlyReports {s t : State} (h : Frame reportPieces s t) : OnlyReports s t := by
  have hrebuilt : ∀ u : State, (u.without reportPieces).withReports t = u.withReports t := fun _ => rfl
  calc t = t.withReports t := rfl
    _ = (t.without reportPieces).withReports t := (hrebuilt t).symm
    _ = (s.without reportPieces).withReports t := by rw [h]
    _ = s.withReports t := hrebuilt s

theorem Runs.onlyReports {s t : State} (h : Runs reportPieces s t) : OnlyReports s t := h.frame.onlyReports

theorem State.pumpReports_of_room {s : State} {r : Report} {rest : List Report} (hpath : s.cau.path = .idle)
    (hpending : s.cau.pending = r :: rest) (hroom : (s.cau.writeIdx + 1) % s.ringSize ≠ s.cau.consumer) :
    s.pumpReports = ({ s with cau.path := .body } : State).issue
      { kind := .reportBody, addr := s.reportBase + 32 * s.cau.writeIdx, data := bytesOfWords r.words, len := 0 } := by
  have hring : s.ringRoom = true := by
    rw [State.ringRoom, bne_iff_ne]
    exact hroom
  simp [State.pumpReports, hpath, hpending, hring]

theorem State.pumpReports_of_none {s : State}
    (h : s.cau.path ≠ .idle ∨ s.cau.pending = [] ∨ (s.cau.writeIdx + 1) % s.ringSize = s.cau.consumer) :
    s.pumpReports = s := by
  rcases s.pumpReports_cases with hp | ⟨r, rest, hpath, hpending, hroom, -⟩
  · exact hp
  · rw [State.ringRoom, bne_iff_ne] at hroom
    rcases h with h | h | h
    exacts [absurd hpath h, absurd (hpending.symm.trans h) (List.cons_ne_nil _ _), absurd h hroom]

/-- Settles O46: the words kind by kind, the codes, and how raised reports join the queue and start the body write. -/
theorem raisedReportsQueue : Obligations.RaisedReportsQueue := by
  refine ⟨fun b gap => ⟨fun m sec => ?_, fun ms => ?_⟩, ?fields, ?codes, fun b s =>
    ⟨fun h => ?_, fun h => ?_, (s.raise_runs b).onlyReports, fun r rest hpath hpending hroom hport => ?_,
      State.pumpReports_of_none, fun bs => (s.raiseAll_runs bs).onlyReports, fun gs => (s.raiseTogether_runs gs).onlyReports⟩⟩
  case fields =>
    refine ⟨?_, ?_, ?_, ?_, ?_, ?_, ?_, ?_, ?_, ?_, ?_, ?_, ?_, ?_, ?_, ?_⟩
    all_goals
      intros
      simp only [ReportBody.kindCode, ReportBody.station, ReportBody.fields, packWord_one, packWord_two,
        packWord_three, packWord_four, StationState.code_mod, SessionState.code_mod, Reason.code_mod, FreeReason.code_mod,
        LevelEdge.code_mod, GameCause.code_mod, SteerCause.code_mod, WindowKind.code_mod, RefusedArea.code_mod,
        RefusedReason.code_mod, IgnoredReason.code_mod, DefaultedReason.code_mod, Slot.code_mod, Pause.form_mod,
        Pause.seconds_eq, ↓bitOf_mod_mul, ↓dirCode_mod_mul, ↓linger_mod_mul, signed16_mod, ofNat_mod_word, Nat.pow_zero,
        Nat.mul_one] <;> rfl
  case codes => decide
  · exact Report.words_wall m sec gap b
  · exact Report.words_counter ms gap b
  · obtain ⟨hp, hg⟩ := State.raise_pending_gap b s
    rw [hp, hg, State.joinQueue_of_room h]
    exact ⟨rfl, rfl⟩
  · obtain ⟨hp, hg⟩ := State.raise_pending_gap b s
    rw [hp, hg, State.joinQueue_of_full h]
    exact ⟨rfl, rfl⟩
  · rw [State.pumpReports_of_room hpath hpending hroom]
    refine State.issue_of_not_blocked (Bool.eq_false_iff.2 fun hblocked => ?_)
    obtain ⟨a, ha, hpath⟩ := (State.pathBlocked_eq_true_iff _ _).1 hblocked
    exact hport a ha hpath

end Sys2Proof.Machine

/-! PROOFS. Schedules, overrides, profiles and pins (chapter 7, sections 2.3 and 4.7): targets and levels, how records meet their
targets, and the rows that move them. -/
namespace Sys2Proof.Machine

/-! ## What stands through raised reports -/

section
variable {s t : State}

theorem OnlyReports.eq (h : OnlyReports s t) : t = s.withReports t := h

theorem OnlyReports.time (h : OnlyReports s t) : t.time = s.time :=
  (congrArg State.time h.eq).trans rfl
theorem OnlyReports.policy (h : OnlyReports s t) : t.policy = s.policy :=
  (congrArg State.policy h.eq).trans rfl
theorem OnlyReports.scu (h : OnlyReports s t) : t.scu = s.scu :=
  (congrArg State.scu h.eq).trans rfl
theorem OnlyReports.stu (h : OnlyReports s t) : t.stu = s.stu :=
  (congrArg State.stu h.eq).trans rfl
theorem OnlyReports.cgu (h : OnlyReports s t) : t.cgu = s.cgu :=
  (congrArg State.cgu h.eq).trans rfl
theorem OnlyReports.rmu (h : OnlyReports s t) : t.rmu = s.rmu :=
  (congrArg State.rmu h.eq).trans rfl
theorem OnlyReports.imu (h : OnlyReports s t) : t.imu = s.imu :=
  (congrArg State.imu h.eq).trans rfl
theorem OnlyReports.suc (h : OnlyReports s t) : t.suc = s.suc :=
  (congrArg State.suc h.eq).trans rfl

theorem OnlyReports.stationTarget (h : OnlyReports s t) (r : Station) : t.stationTarget r = s.stationTarget r :=
  (congrArg (fun u => u.stationTarget r) h.eq).trans rfl

theorem OnlyReports.slopeOf (h : OnlyReports s t) (r : Station) : t.slopeOf r = s.slopeOf r :=
  (congrArg (fun u => u.slopeOf r) h.eq).trans rfl

theorem OnlyReports.rateChange (h : OnlyReports s t) (r : Station) : t.rateChange r = s.rateChange r :=
  (congrArg (fun u => u.rateChange r) h.eq).trans rfl

theorem OnlyReports.workingCeiling (h : OnlyReports s t) (p : Nat) : t.workingCeiling p = s.workingCeiling p :=
  (congrArg (fun u => u.workingCeiling p) h.eq).trans rfl

end

/-! ## Targets (R120 to R122) -/

theorem minuteIn_of_lt {start stop : Nat} (h : start < stop) (m : Nat) : minuteIn start stop m = true ↔ start ≤ m ∧ m < stop := by
  rw [minuteIn, if_pos h, Bool.and_eq_true, decide_eq_true_eq, decide_eq_true_eq]

theorem minuteIn_of_gt {start stop : Nat} (h : stop < start) (m : Nat) : minuteIn start stop m = true ↔ start ≤ m ∨ m < stop := by
  rw [minuteIn, if_neg (by omega), if_pos h, Bool.or_eq_true, decide_eq_true_eq, decide_eq_true_eq]

theorem minuteIn_of_eq {start stop : Nat} (h : start = stop) (m : Nat) : minuteIn start stop m = false := by
  rw [minuteIn, if_neg (by omega), if_neg (by omega)]

theorem foldl_min_spec (l : Nat) (ls : List Nat) :
    (ls.foldl min l = l ∨ ls.foldl min l ∈ ls) ∧ ls.foldl min l ≤ l ∧ ∀ x ∈ ls, ls.foldl min l ≤ x := by
  induction ls generalizing l with
  | nil => exact ⟨.inl rfl, le_rfl, fun _ hx => absurd hx List.not_mem_nil⟩
  | cons a ls ih =>
    obtain ⟨hmem, hle, hall⟩ := ih (min l a)
    rw [List.foldl_cons]
    refine ⟨?_, hle.trans (min_le_left l a), fun x hx => ?_⟩
    · rcases hmem with hmem | hmem
      · rcases min_choice l a with hl | hl <;> rw [hmem, hl]
        exacts [.inl rfl, .inr List.mem_cons_self]
      · exact .inr (List.mem_cons_of_mem a hmem)
    · rcases List.mem_cons.1 hx with rfl | hx
      exacts [hle.trans (min_le_right l x), hall x hx]

/-- The lowest of some levels is one of them and none is below it. -/
theorem lowestOr_spec (d : Nat) {ls : List Nat} (h : ls ≠ []) : lowestOr d ls ∈ ls ∧ ∀ x ∈ ls, lowestOr d ls ≤ x := by
  cases ls with
  | nil => exact absurd rfl h
  | cons l ls =>
    obtain ⟨hmem, hle, hall⟩ := foldl_min_spec l ls
    refine ⟨List.mem_cons.2 hmem, fun x hx => ?_⟩
    rcases List.mem_cons.1 hx with rfl | hx
    exacts [hle, hall x hx]

/-- The levels of the windows in use that hold the minute. -/
def openLevels (c : TimeBase) (p : Profile) : List Nat :=
  ((p.windows.take p.count).filter (fun w => minuteIn w.start w.stop c.minute)).map (fun w => w.level)

theorem mem_openLevels_iff (c : TimeBase) (p : Profile) (l : Nat) :
    l ∈ openLevels c p ↔ ∃ w ∈ p.windows.take p.count, minuteIn w.start w.stop c.minute = true ∧ w.level = l := by
  simp only [openLevels, List.mem_map, List.mem_filter, and_assoc]

theorem targetAt_of_valid {c : TimeBase} (h : c.valid = true) (p : Profile) :
    targetAt c p = lowestOr p.defaultLevel (openLevels c p) := if_pos h

theorem targetAt_default {c : TimeBase} {p : Profile}
    (h : c.valid = false ∨ ∀ w ∈ p.windows.take p.count, ¬minuteIn w.start w.stop c.minute = true) :
    targetAt c p = p.defaultLevel := by
  by_cases hv : c.valid = true
  · have hnone : openLevels c p = [] := by
      refine List.eq_nil_iff_forall_not_mem.2 fun l hl => ?_
      obtain ⟨w, hw, hin, -⟩ := (mem_openLevels_iff c p l).1 hl
      exact h.resolve_left (by simp [hv]) w hw hin
    rw [targetAt_of_valid hv, hnone]
    rfl
  · exact if_neg hv

theorem targetAt_least {c : TimeBase} {p : Profile} (hv : c.valid = true)
    (h : ∃ w ∈ p.windows.take p.count, minuteIn w.start w.stop c.minute = true) :
    (∃ w ∈ p.windows.take p.count, minuteIn w.start w.stop c.minute = true ∧ targetAt c p = w.level)
      ∧ ∀ w ∈ p.windows.take p.count, minuteIn w.start w.stop c.minute = true → targetAt c p ≤ w.level := by
  obtain ⟨w, hw, hin⟩ := h
  have hne : openLevels c p ≠ [] := List.ne_nil_of_mem ((mem_openLevels_iff c p _).2 ⟨w, hw, hin, rfl⟩)
  obtain ⟨hmem, hle⟩ := lowestOr_spec p.defaultLevel hne
  rw [targetAt_of_valid hv]
  refine ⟨?_, fun v hv hvin => hle _ ((mem_openLevels_iff c p _).2 ⟨v, hv, hvin, rfl⟩)⟩
  obtain ⟨v, hv, hvin, heq⟩ := (mem_openLevels_iff c p _).1 hmem
  exact ⟨v, hv, hvin, heq.symm⟩

theorem State.stationTarget_of_pause {r : Station} (h : r.pause.inForce = true) (s : State) : s.stationTarget r = 0 := if_pos h

theorem State.stationTarget_of_ext {r : Station} (h : r.pause.inForce = false) (hx : 0 < r.ext) (s : State) :
    s.stationTarget r = 4096 := (if_neg (Bool.eq_false_iff.1 h)).trans (if_pos hx)

theorem State.stationTarget_of_profile {r : Station} (h : r.pause.inForce = false) (hx : r.ext = 0) (s : State) :
    s.stationTarget r = (s.profileOf r.profile).target :=
  (if_neg (Bool.eq_false_iff.1 h)).trans (if_neg (by omega))

theorem Pause.inForce_iff (p : Pause) : p.inForce = true ↔ p = .indefinite ∨ ∃ n, 0 < n ∧ p = .timed n := by
  cases p <;> simp [Pause.inForce]

/-! ## Levels and edges (R123, R125) -/

theorem moveLevel_of_le {target level : Nat} (h : level ≤ target) (slope : Nat) (paused : Bool) :
    moveLevel slope paused target level = target := if_pos h

theorem moveLevel_of_drop {slope target level : Nat} {paused : Bool} (h : target < level) (hd : paused = true ∨ slope = 0) :
    moveLevel slope paused target level = target := (if_neg (Nat.not_le.2 h)).trans (if_pos hd)

theorem moveLevel_of_ramp {slope target level : Nat} {paused : Bool} (h : target < level) (hp : paused = false)
    (hs : slope ≠ 0) : moveLevel slope paused target level = level :=
  (if_neg (Nat.not_le.2 h)).trans (if_neg (by simp [hp, hs]))

theorem moveLevel_paused (slope target level : Nat) : moveLevel slope true target level = target := by
  rcases Nat.lt_or_ge target level with h | h
  exacts [moveLevel_of_drop h (.inl rfl), moveLevel_of_le h slope true]

theorem levelEdges_gated {l0 l1 : Nat} (h0 : 0 < l0) (h1 : l1 = 0) (m : Mac) (t0 t1 : Nat) :
    levelEdges m t0 l0 t1 l1 = [.levelEdge m .gated l1 t1] := if_pos ⟨h0, h1⟩

theorem levelEdges_opened {l0 l1 : Nat} (h0 : l0 = 0) (h1 : 0 < l1) (m : Mac) (t0 t1 : Nat) :
    levelEdges m t0 l0 t1 l1 = [.levelEdge m .opened l1 t1] := (if_neg (by omega)).trans (if_pos ⟨h0, h1⟩)

theorem levelEdges_windDown {l0 l1 t0 t1 : Nat} (h0 : 0 < l0) (h1 : 0 < l1) (ht : l0 = t0) (hl : t1 < l1) (m : Mac) :
    levelEdges m t0 l0 t1 l1 = [.levelEdge m .windDown l1 t1] :=
  (if_neg (by omega)).trans ((if_neg (by omega)).trans (if_pos ⟨hl, ht⟩))

theorem levelEdges_none {l0 l1 t0 t1 : Nat} (h : l0 = 0 ∧ l1 = 0 ∨ 0 < l0 ∧ 0 < l1 ∧ (l0 ≠ t0 ∨ l1 ≤ t1)) (m : Mac) :
    levelEdges m t0 l0 t1 l1 = [] :=
  (if_neg (by omega)).trans ((if_neg (by omega)).trans (if_neg (by omega)))

/-! ## Records that meet their targets -/

/-- The level a record moves to in a state (R123). -/
def State.metLevel (s : State) (r : Station) : Nat := moveLevel (s.slopeOf r) r.pause.inForce (s.stationTarget r) r.level

theorem State.moveRecord_eq (s : State) (t0 : Nat) (handed : Bool) (r : Station) :
    s.moveRecord t0 handed r =
      (if handed = true ∨ s.metLevel r ≠ r.level then s.rateChange { r with level := s.metLevel r }
        else r, levelEdges r.addr t0 r.level (s.stationTarget r) (s.metLevel r)) := by
  by_cases h : handed = true ∨ s.metLevel r ≠ r.level
  · rw [if_pos h]
    exact congrArg (fun x => (x, levelEdges r.addr t0 r.level (s.stationTarget r) (s.metLevel r))) (if_pos h)
  · have hlevel : s.metLevel r = r.level := not_not.1 (not_or.1 h).2
    have hkept : { r with level := s.metLevel r } = r := by rw [hlevel]
    rw [if_neg h]
    exact congrArg (fun x => (x, levelEdges r.addr t0 r.level (s.stationTarget r) (s.metLevel r)))
      ((if_neg h).trans hkept)

/-- An event on one record's overrides, by the target and the level it comes to. -/
theorem State.override_eq {r r1 : Station} {s : State} {t l : Nat} (ht : s.stationTarget r1 = t)
    (hl : moveLevel (s.slopeOf r1) r1.pause.inForce t r1.level = l) :
    s.override r r1 = (s.putRecord (if l = r1.level then { r1 with level := l } else s.rateChange { r1 with level := l })).raiseAll
      (levelEdges r1.addr (s.stationTarget r) r1.level t l) := by
  have hmet : s.metLevel r1 = l := by rw [State.metLevel, ht, hl]
  rw [State.override, State.moveRecord_eq, hmet, ht]
  by_cases h : l = r1.level
  · have hkept : { r1 with level := l } = r1 := by rw [h]
    rw [if_pos h, if_neg (by simp [h]), hkept]
  · rw [if_neg h, if_pos (.inr h)]

/-- The target, edges and record of one station of a table that meets its targets. -/
def State.meets (s s1 : State) (concerned handed : Station → Bool) (r : Station) : Station × List ReportBody :=
  if concerned r then s1.moveRecord (s.stationTarget r) (handed r) r else (r, [])

theorem State.moveRecords_eq (s s1 : State) (concerned handed : Station → Bool) :
    s.moveRecords s1 concerned handed =
      State.raiseAll (s.stu.stations.flatMap (fun r => (s.meets s1 concerned handed r).2))
        { s1 with stu.stations := s.stu.stations.map (fun r => (s.meets s1 concerned handed r).1) } := by
  have hreports : (s.stu.stations.map (s.meets s1 concerned handed)).flatMap Prod.snd
      = s.stu.stations.flatMap (fun r => (s.meets s1 concerned handed r).2) := List.flatMap_map _ _ _
  have hrecords : (s.stu.stations.map (s.meets s1 concerned handed)).map Prod.fst
      = s.stu.stations.map (fun r => (s.meets s1 concerned handed r).1) := List.map_map
  rw [← hreports, ← hrecords]
  rfl

theorem State.moveRecords_onlyReports (s s1 : State) (concerned handed : Station → Bool) :
    OnlyReports { s1 with stu.stations := s.stu.stations.map (fun r => (s.meets s1 concerned handed r).1) }
      (s.moveRecords s1 concerned handed) := by
  rw [State.moveRecords_eq]
  exact (State.raiseAll_runs _ _).onlyReports

/-- Settles O39: each row by its tests in order, then targets, levels and edges case by case. -/
theorem pauseResumeExtendRequests : Obligations.PauseResumeExtendRequests := by
  refine fun q s => ⟨fun hq => ?pause, fun hq => ?resume, fun hq => ?extend, fun r =>
    ⟨fun h => s.stationTarget_of_pause h, fun h hx => s.stationTarget_of_ext h hx, fun h hx => s.stationTarget_of_profile h hx,
      r.pause.inForce_iff⟩,
    fun slope target level paused => ⟨fun h => moveLevel_of_le h slope paused, moveLevel_of_drop, moveLevel_of_ramp⟩,
    fun m t0 l0 t1 l1 => ⟨fun h0 h1 => ?_, fun h0 h1 => levelEdges_opened h0 h1 m t0 t1,
      fun h0 h1 ht hl => levelEdges_windDown h0 h1 ht hl m, fun h => levelEdges_none h m⟩⟩
  case pause =>
    obtain ⟨hslot, hreq, hkind⟩ := hq
    have hrun := fun owner => State.onRequest_pending (accepts := fun k => k == 2#32) owner hslot hreq (by simp [hkind])
    have hrow : exec .pauseStation s = execPauseStation s := rfl
    rw [hrow, execPauseStation, hrun]
    refine ⟨fun h => by rw [if_pos h], fun h hr => by rw [if_neg (Nat.not_lt.2 h), hr], fun r h hr => ?_⟩
    rw [if_neg (Nat.not_lt.2 h), hr]
    have hforce : (if q.arg 2 = 0 then Pause.indefinite else Pause.timed (60 * q.arg 2)).inForce = true := by
      split
      · rfl
      · next h0 => exact decide_eq_true (by omega)
    dsimp only
    rw [State.override_eq (State.stationTarget_of_pause hforce s) (hforce ▸ moveLevel_paused _ _ _)]
    by_cases h0 : r.level = 0
    · simp only [h0, levelEdges_none (.inl ⟨rfl, rfl⟩), lt_irrefl, if_true, if_false]
    · have hpos : 0 < r.level := Nat.pos_of_ne_zero h0
      simp only [levelEdges_gated hpos rfl, if_neg h0, if_neg (Ne.symm h0), if_pos hpos]
  case resume =>
    obtain ⟨hslot, hreq, hkind⟩ := hq
    have hrun := fun owner => State.onRequest_pending (accepts := fun k => k == 3#32) owner hslot hreq (by simp [hkind])
    have hrow : exec .resumeStation s = execResumeStation s := rfl
    rw [hrow, execResumeStation, hrun]
    refine ⟨fun hr => by rw [hr], fun r hr => ⟨fun hp => ?_, fun hp h0 hx => ?_⟩⟩ <;> rw [hr]
    · exact congrArg Host.Outcome.next (if_neg (by simp [hp]))
    · have htarget : s.stationTarget { r with pause := .none } = (s.profileOf r.profile).target :=
        State.stationTarget_of_profile (r := { r with pause := .none }) rfl hx s
      dsimp only
      rw [if_pos hp, State.override_eq htarget (moveLevel_of_le (h0 ▸ Nat.zero_le _) _ _)]
      by_cases hl : (s.profileOf r.profile).target = 0
      · simp only [h0, hl, levelEdges_none (.inl ⟨rfl, rfl⟩), lt_irrefl, if_true, if_false]
      · have hpos : 0 < (s.profileOf r.profile).target := Nat.pos_of_ne_zero hl
        simp only [h0, levelEdges_opened rfl hpos, if_neg hl, if_pos hpos]
  case extend =>
    obtain ⟨hslot, hreq, hkind⟩ := hq
    have hrun := fun owner => State.onRequest_pending (accepts := fun k => k == 4#32) owner hslot hreq (by simp [hkind])
    have hrow : exec .extendStation s = execExtendStation s := rfl
    rw [hrow, execExtendStation, hrun]
    refine ⟨fun h => by rw [if_pos h], fun hlo hhi => ⟨fun hr => ?_, fun r hr => ⟨fun hp => ?_, fun hp hle => ?_⟩⟩⟩ <;>
      rw [if_neg (by omega), hr]
    · exact congrArg Host.Outcome.next (if_pos hp)
    · have htarget : s.stationTarget { r with ext := 60 * q.arg 2 } = 4096 :=
        State.stationTarget_of_ext (r := { r with ext := 60 * q.arg 2 }) hp (by simp only; omega) s
      dsimp only
      rw [if_neg (by simp [hp]), State.override_eq htarget (moveLevel_of_le hle _ _)]
      have hmoved : (4096 = r.level) = (r.level = 4096) := propext eq_comm
      by_cases h0 : r.level = 0
      · simp only [hmoved, levelEdges_opened h0 (by decide : 0 < 4096), if_pos h0]
      · have hedges : ∀ t0, levelEdges r.addr t0 r.level 4096 4096 = [] := fun t0 =>
          levelEdges_none (.inr ⟨Nat.pos_of_ne_zero h0, by decide, .inr le_rfl⟩) _
        simp only [hmoved, hedges, if_neg h0]
  · rw [levelEdges_gated h0 h1 m t0 t1, h1]

end Sys2Proof.Machine

/-! PROOFS. SET_TIME, profiles and pins (sections 7.1, 7.2, 2.3 and 4.7): every concerned record meets its target, with its edges in
slot order. -/
namespace Sys2Proof.Machine

/-! ## SET_TIME (R117) -/

/-- Records that no other rate input concerns are recomputed exactly where their level moves. -/
theorem State.meets_all (s s1 : State) (r : Station) :
    s.meets s1 (fun _ => true) (fun _ => false) r =
      (if s1.metLevel r = r.level then r else s1.rateChange { r with level := s1.metLevel r },
        levelEdges r.addr (s.stationTarget r) r.level (s1.stationTarget r) (s1.metLevel r)) := by
  have hmeets : s.meets s1 (fun _ => true) (fun _ => false) r = s1.moveRecord (s.stationTarget r) false r := rfl
  rw [hmeets, State.moveRecord_eq]
  by_cases h : s1.metLevel r = r.level
  · rw [if_neg (by simp [h]), if_pos h]
  · rw [if_pos (.inr h), if_neg h]

/-- After the event a record meets the same target as while the table moves. -/
theorem OnlyReports.meets {s s1 t : State} {rs : List Station} (h : OnlyReports { s1 with stu.stations := rs } t)
    (concerned handed : Station → Bool) (r : Station) : s.meets t concerned handed r = s.meets s1 concerned handed r :=
  (congrArg (fun u => s.meets u concerned handed r) h.eq).trans rfl

/-- The table and the pending queue that an event of `moveRecords` leaves, said by the state it leaves. -/
theorem State.moveRecords_records (s s1 : State) (concerned handed : Station → Bool) :
    let t := s.moveRecords s1 concerned handed
    t.stu.stations = s.stu.stations.map (fun r => (s.meets t concerned handed r).1)
      ∧ ∀ u : State, s1.time = u.time → s1.cau.pending = u.cau.pending → s1.cau.gap = u.cau.gap →
        t.cau.pending = (u.raiseAll (s.stu.stations.flatMap (fun r => (s.meets t concerned handed r).2))).cau.pending := by
  have honly := s.moveRecords_onlyReports s1 concerned handed
  have hmeets : ∀ r, s.meets (s.moveRecords s1 concerned handed) concerned handed r = s.meets s1 concerned handed r :=
    honly.meets concerned handed
  dsimp only
  simp only [hmeets]
  refine ⟨congrArg Stu.stations honly.stu, fun u htime hpending hgap => ?_⟩
  rw [State.moveRecords_eq]
  exact State.raiseAll_pending_congr _ htime hpending hgap

/-- Settles O38: the row, and the windows and targets of R120 and R121. -/
theorem setTimeRequest : Obligations.SetTimeRequest := by
  refine fun q s hq => ⟨fun h => ?_, fun hm hs => ?_, fun start stop m =>
    ⟨fun h => minuteIn_of_lt h m, fun h => minuteIn_of_gt h m, fun h => minuteIn_of_eq h m⟩,
    fun c p => ⟨targetAt_default, targetAt_least⟩⟩
  all_goals
    obtain ⟨hslot, hreq, hkind⟩ := hq
    have hrun := fun owner => State.onRequest_pending (accepts := fun k => k == 1#32) owner hslot hreq (by simp [hkind])
    have hrow : exec .setTime s = execSetTime s := rfl
    rw [hrow, execSetTime, hrun]
  · rw [if_pos h]
  · rw [if_neg (by omega)]
    have honly := s.moveRecords_onlyReports (s.clockSet (q.arg 0) (q.arg 1)) (fun _ => true) (fun _ => false)
    obtain ⟨hrecords, hpending⟩ := s.moveRecords_records (s.clockSet (q.arg 0) (q.arg 1)) (fun _ => true) (fun _ => false)
    refine ⟨s.moveRecords (s.clockSet (q.arg 0) (q.arg 1)) (fun _ => true) (fun _ => false), rfl, ?_⟩
    generalize s.moveRecords (s.clockSet (q.arg 0) (q.arg 1)) (fun _ => true) (fun _ => false) = t at *
    have htime : t.time = { s.time with minute := q.arg 0, second := q.arg 1, valid := true } := honly.time
    simp only [State.meets_all] at hrecords hpending
    refine ⟨htime, ?_, ?_, ⟨hrecords, hpending _ honly.time.symm rfl rfl⟩, ?_⟩
    · rw [honly.scu, htime]
      rfl
    · rw [honly.scu]
      exact Bool.true_and _
    · have hparts : OnlyReports
          { s with time := t.time, scu := t.scu, stu := { stations := t.stu.stations, pins := s.stu.pins } } t := by
        rw [honly.time, honly.scu, honly.stu]
        exact honly
      exact hparts

/-! ## Profiles (R119) -/

theorem profileInRange_iff (p : Profile) :
    profileInRange p = true ↔ p.defaultLevel ≤ 4096 ∧ p.slope ≤ 7 ∧ p.count ≤ 8
      ∧ ∀ w ∈ p.windows.take p.count, w.start ≤ 10079 ∧ w.stop ≤ 10079 ∧ w.level ≤ 4096 := by
  simp only [profileInRange, Bool.and_eq_true, decide_eq_true_eq, List.all_eq_true, and_assoc]

theorem State.shadowWords_getD (s : State) (o : Nat) {n k : Nat} (h : k < n) :
    (s.shadowWords o n).getD k 0 = s.shadowWord (o + 4 * k) := by
  simp [State.shadowWords, h]

/-- A profile as section 11.2 lays it out, from its words in the shadow. -/
theorem State.profileOfWords_shadow (s : State) (o : Nat) :
    let g := fun k lo n => field (s.shadowWord (o + 4 * k)) lo n
    profileOfWords (s.shadowWords o 32) 0 =
      { ceiling := g 0 0 16, defaultLevel := g 0 16 16, slope := g 31 0 8, count := g 31 8 8, target := 0
        windows := [1, 3, 5, 7, 9, 11, 13, 15].map (fun k =>
          { start := g k 0 16, stop := g k 16 16, level := g (k + 1) 0 16 }) } := by
  have hword := fun k (h : k < 32) => s.shadowWords_getD o h
  have hrange : List.range 8 = [0, 1, 2, 3, 4, 5, 6, 7] := rfl
  simp only [profileOfWords, hrange, List.map_cons, List.map_nil, hword, Nat.reduceMul, Nat.reduceAdd, Nat.reduceLT]

theorem State.takeProfile_refused {i : Nat} {ws : List Word} (h : profileInRange (profileOfWords ws 0) = false) (s : State) :
    s.takeProfile i ws = s.raise (.recordRefused .profile i .range) := if_neg (by simp [h])

/-- The state in which a profile's records meet their targets: the profile replaced, its target on the clock (R121). -/
def State.profileSet (i : Nat) (p : Profile) (s : State) : State :=
  { s with scu.profiles := s.scu.profiles.set i { p with target := targetAt s.time p } }

theorem State.takeProfile_taken {i : Nat} {ws : List Word} (h : profileInRange (profileOfWords ws 0) = true) (s : State) :
    s.takeProfile i ws = s.moveRecords (s.profileSet i (profileOfWords ws 0)) (fun r => r.profile == i)
      (fun _ => s.workingCeiling i != (s.profileSet i (profileOfWords ws 0)).workingCeiling i) := if_pos h

/-- A record of a profile that is replaced is recomputed where its level or the working ceiling moves (R108, R109). -/
theorem State.meets_profile (s t : State) (i : Nat) (c c' : Nat) (r : Station) :
    s.meets t (fun r => r.profile == i) (fun _ => c != c') r =
      (if r.profile = i then
          if c ≠ c' ∨ t.metLevel r ≠ r.level then t.rateChange { r with level := t.metLevel r } else r
        else r,
        if r.profile = i then levelEdges r.addr (s.stationTarget r) r.level (t.stationTarget r) (t.metLevel r) else []) := by
  unfold State.meets
  by_cases h : r.profile = i
  · rw [if_pos (by simp [h]), State.moveRecord_eq, if_pos h, if_pos h]
    by_cases hc : c = c' <;> simp [hc]
  · rw [if_neg (by simp [h]), if_neg h, if_neg h]

/-- The closing word at an offset is acted on: the profile whose word it is, is taken from the shadow. -/
def State.profileWord (s : State) (o : Nat) : State :=
  s.takeProfile ((o - 0x0800) / 128) (s.shadowWords (0x0800 + 128 * ((o - 0x0800) / 128)) 32)

theorem State.profileWord_of_index {o i : Nat} (h : (o - 0x0800) / 128 = i) (s : State) :
    s.profileWord o = s.takeProfile i (s.shadowWords (0x0800 + 128 * i) 32) := by
  rw [State.profileWord, h]

theorem exec_profileRecord {s : State} {h : InHand} {w : Window} (hr : s.routedTo .control .write = some (h, w))
    (huse : controlUse w.base h.txn = .profile) :
    exec .profileRecord s =
      .next (((fullWordOffsets w.base h.txn).filter isProfileClosing).foldl State.profileWord (s.absorb h w)) := by
  have hrow : exec .profileRecord s = execProfileRecord s := rfl
  rw [hrow, execProfileRecord, (s.controlFor_eq_some_iff .profile h w).2 ⟨hr, huse⟩]
  rfl

/-- The number of a profile from the offset of its closing word. -/
theorem profile_index (i : Nat) : (0x0800 + 128 * i + 124 - 0x0800) / 128 = i := by omega

/-- Settles O34: the refusal, and the table through `moveRecords` on the state with the profile replaced. -/
theorem profileTakenOrRefused : Obligations.ProfileTakenOrRefused := by
  intro h w i s hr huse hclosing _
  have hrun := exec_profileRecord hr huse
  rw [hclosing, List.foldl_cons, List.foldl_nil, State.profileWord_of_index (profile_index i)] at hrun
  dsimp only
  refine ⟨fun hno => ?_, fun hyes => ?_, profileInRange_iff _, State.profileOfWords_shadow _ _⟩
  · rw [hrun, State.takeProfile_refused hno]
  · rw [State.takeProfile_taken hyes] at hrun
    refine ⟨_, hrun, ?_⟩
    generalize profileOfWords ((s.absorb h w).shadowWords (0x0800 + 128 * i) 32) 0 = p
    have honly := (s.absorb h w).moveRecords_onlyReports ((s.absorb h w).profileSet i p) (fun r => r.profile == i)
      (fun _ => (s.absorb h w).workingCeiling i != ((s.absorb h w).profileSet i p).workingCeiling i)
    obtain ⟨hrecords, hpending⟩ := (s.absorb h w).moveRecords_records ((s.absorb h w).profileSet i p)
      (fun r => r.profile == i)
      (fun _ => (s.absorb h w).workingCeiling i != ((s.absorb h w).profileSet i p).workingCeiling i)
    generalize (s.absorb h w).moveRecords ((s.absorb h w).profileSet i p) (fun r => r.profile == i)
      (fun _ => (s.absorb h w).workingCeiling i != ((s.absorb h w).profileSet i p).workingCeiling i) = t at *
    simp only [State.meets_profile] at hrecords hpending
    refine ⟨congrArg Scu.profiles honly.scu, ⟨?_, hpending s rfl rfl rfl⟩, ?_⟩
    · rw [honly.workingCeiling]
      exact hrecords
    · have hparts : OnlyReports { s.absorb h w with
          scu := { profiles := t.scu.profiles, maintOpen := s.scu.maintOpen }
          stu := { stations := t.stu.stations, pins := s.stu.pins } } t := by
        rw [honly.scu, honly.stu]
        exact honly
      exact hparts

/-! ## Pins (R77 to R79) -/

/-- A value that a list with distinct values holds stands at one place. -/
theorem index_unique_of_nodup {α β : Type} (f : α → Option β) {l : List α} (h : (l.filterMap f).Nodup) {i j : Nat} {b : β}
    (hi : l[i]?.bind f = some b) (hj : l[j]?.bind f = some b) : i = j := by
  induction l generalizing i j with
  | nil => simp at hi
  | cons a l ih =>
    have hmem : ∀ k, l[k]?.bind f = some b → b ∈ l.filterMap f := fun k hk => by
      obtain ⟨c, hc, hfc⟩ := Option.bind_eq_some_iff.1 hk
      exact List.mem_filterMap.2 ⟨c, List.mem_of_getElem? hc, hfc⟩
    have hrest : (l.filterMap f).Nodup := by
      cases hf : f a with
      | none => simpa [hf] using h
      | some c => exact (List.nodup_cons.1 (by simpa [hf] using h)).2
    have hhead : ∀ k, f a = some b → l[k]?.bind f ≠ some b := fun k ha hk => by
      rw [List.filterMap_cons_some ha] at h
      exact (List.nodup_cons.1 h).1 (hmem k hk)
    cases i with
    | zero =>
      cases j with
      | zero => rfl
      | succ j => exact absurd (by simpa using hj) (hhead j (by simpa using hi))
    | succ i =>
      cases j with
      | zero => exact absurd (by simpa using hi) (hhead i (by simpa using hj))
      | succ j => exact congrArg Nat.succ (ih hrest (by simpa using hi) (by simpa using hj))

theorem filterMap_range_single {α : Type} (n a : Nat) (f : Nat → α) :
    (List.range n).filterMap (fun k => if k = a then some (f k) else none) = if a < n then [f a] else [] := by
  induction n with
  | zero => rfl
  | succ n ih =>
    rw [List.range_succ, List.filterMap_append, ih]
    rcases Nat.lt_trichotomy n a with h | rfl | h
    · simp [show ¬a < n by omega, show ¬a < n + 1 by omega, show ¬n = a by omega]
    · simp
    · simp [h, show a < n + 1 by omega, show ¬n = a by omega]

/-- Entry `k` is another valid pin of an address. -/
def DoubledPin (pins : List (Option Pin)) (j k : Nat) (m : Mac) : Prop :=
  k ≠ j ∧ ∃ q, pins.getD k none = some q ∧ q.addr = m

theorem duplicatePin_test (pins : List (Option Pin)) (j k : Nat) (m : Mac) :
    (k != j && (match pins.getD k none with | some q => q.addr == m | none => false)) = true ↔ DoubledPin pins j k m := by
  unfold DoubledPin
  rw [Bool.and_eq_true, bne_iff_ne]
  cases pins.getD k none <;> simp

theorem getD_eq_some_lt {α : Type} {l : List (Option α)} {k : Nat} {a : α} (h : l.getD k none = some a) :
    k < l.length ∧ l[k]? = some (some a) := by
  rw [List.getD_eq_getElem?_getD] at h
  cases hk : l[k]? with
  | none => simp [hk] at h
  | some b =>
    refine ⟨(List.getElem?_eq_some_iff.1 hk).1, ?_⟩
    simpa [hk] using h

theorem DoubledPin.lt {pins : List (Option Pin)} {j k : Nat} {m : Mac} (h : DoubledPin pins j k m) : k < pins.length := by
  obtain ⟨-, q, hq, -⟩ := h
  exact (getD_eq_some_lt hq).1

/-- Of pins with distinct addresses at most one other holds an address (R78). -/
theorem DoubledPin.unique {s : State} (hs : PinsDistinct s) {j k k' : Nat} {m : Mac} (h : DoubledPin s.stu.pins j k m)
    (h' : DoubledPin s.stu.pins j k' m) : k' = k := by
  have hbind : ∀ i, DoubledPin s.stu.pins j i m → s.stu.pins[i]?.bind (fun p => p.map (fun q => q.addr)) = some m := by
    rintro i ⟨-, q, hq, rfl⟩
    simp [(getD_eq_some_lt hq).2]
  exact index_unique_of_nodup _ hs (hbind k' h') (hbind k h)

theorem duplicatePin_eq_some {pins : List (Option Pin)} {j k : Nat} {m : Mac} (h : duplicatePin pins j m = some k) :
    DoubledPin pins j k m := by
  have hfound := List.find?_some (p := fun k => k != j && (match pins.getD k none with | some q => q.addr == m | none => false)) h
  exact (duplicatePin_test pins j k m).1 hfound

theorem duplicatePin_eq_none {pins : List (Option Pin)} {j : Nat} {m : Mac} (h : duplicatePin pins j m = none) (k : Nat) :
    ¬DoubledPin pins j k m := fun hk =>
  List.find?_eq_none.1 h k (List.mem_range.2 hk.lt) ((duplicatePin_test pins j k m).2 hk)

/-- The duplicate of a pin taken: none of an invalid one. -/
def pinDuplicate (pins : List (Option Pin)) (j : Nat) (new : Option Pin) : Option Nat :=
  match new with
  | some p => duplicatePin pins j p.addr
  | none => none

/-- The pins after one is taken: stored, its duplicate invalidated (R78). -/
def pinsTaken (pins : List (Option Pin)) (j : Nat) (new : Option Pin) : List (Option Pin) :=
  (match pinDuplicate pins j new with
    | some k => pins.set k none
    | none => pins).set j new

/-- Another valid pin holds the address of the pin taken, as the obligation says it. -/
abbrev Doubled (pins : List (Option Pin)) (j : Nat) (new : Option Pin) (k : Nat) : Prop :=
  k ≠ j ∧ (pins.getD k none).isSome = true ∧ (pins.getD k none).map (fun q => q.addr) = new.map (fun q => q.addr)

theorem doubled_iff (pins : List (Option Pin)) (j k : Nat) (new : Option Pin) :
    Doubled pins j new k ↔ ∃ p, new = some p ∧ DoubledPin pins j k p.addr := by
  unfold Doubled DoubledPin
  cases pins.getD k none <;> cases new <;> simp

/-- The duplicate of a pin taken is the one other valid pin of its address. -/
theorem doubled_iff_pinDuplicate {s : State} (hs : PinsDistinct s) (j k : Nat) (new : Option Pin) :
    Doubled s.stu.pins j new k ↔ pinDuplicate s.stu.pins j new = some k := by
  rw [doubled_iff]
  cases new with
  | none => simp [pinDuplicate]
  | some p =>
    simp only [Option.some.injEq, exists_eq_left', pinDuplicate]
    refine ⟨fun hk => ?_, duplicatePin_eq_some⟩
    cases hdup : duplicatePin s.stu.pins j p.addr with
    | none => exact absurd hk (duplicatePin_eq_none hdup k)
    | some k' => rw [DoubledPin.unique hs hk (duplicatePin_eq_some hdup)]

theorem pinsTaken_length (pins : List (Option Pin)) (j : Nat) (new : Option Pin) :
    (pinsTaken pins j new).length = pins.length := by
  unfold pinsTaken
  split <;> simp

theorem pinsTaken_getD_same {pins : List (Option Pin)} {j : Nat} (hj : j < pins.length) (new : Option Pin) :
    (pinsTaken pins j new).getD j none = new := by
  unfold pinsTaken
  split <;> simp [hj]

theorem pinsTaken_getD_other {pins : List (Option Pin)} {j k : Nat} (hk : k ≠ j) (new : Option Pin) :
    (pinsTaken pins j new).getD k none = if pinDuplicate pins j new = some k then none else pins.getD k none := by
  unfold pinsTaken
  simp only [List.getD_eq_getElem?_getD]
  rw [List.getElem?_set_ne (Ne.symm hk)]
  cases hdup : pinDuplicate pins j new with
  | none => simp
  | some k' =>
    by_cases hkk : k' = k
    · subst hkk
      by_cases hlt : k' < pins.length <;> simp [hlt]
    · simp [hkk]

/-- A record after a pin of its address is taken, or after its old pin has fallen away (R79). -/
theorem pinRecordTo_eq (old new : Option Pin) (r : Station) :
    pinRecordTo old new r =
      if new.map (fun q => q.addr) = some r.addr then
        { r with profile := (new.map (fun q => q.profile)).getD 0, pinned := new.bind (fun q => q.cls) }
      else if old.map (fun q => q.addr) = some r.addr then { r with profile := 0, pinned := none } else r := by
  unfold pinRecordTo
  cases new <;> cases old <;> simp [eq_comm]

/-- A record's part of the taking of a pin. -/
def State.pinMeets (s : State) (old new : Option Pin) (r : Station) : Station × List ReportBody :=
  if (pinRecordTo old new r).profile = r.profile then (pinRecordTo old new r, [])
  else s.moveRecord (s.stationTarget r) true (pinRecordTo old new r)

theorem pinRecordTo_kept (old new : Option Pin) (r : Station) :
    (pinRecordTo old new r).addr = r.addr ∧ (pinRecordTo old new r).level = r.level := by
  rw [pinRecordTo_eq]
  split
  · exact ⟨rfl, rfl⟩
  · split <;> exact ⟨rfl, rfl⟩

theorem State.pinMeets_eq (s : State) (old new : Option Pin) (r : Station) :
    s.pinMeets old new r =
      (if (pinRecordTo old new r).profile = r.profile then pinRecordTo old new r
        else s.rateChange { pinRecordTo old new r with level := s.metLevel (pinRecordTo old new r) },
        if (pinRecordTo old new r).profile = r.profile then []
        else levelEdges r.addr (s.stationTarget r) r.level (s.stationTarget (pinRecordTo old new r))
          (s.metLevel (pinRecordTo old new r))) := by
  obtain ⟨haddr, hlevel⟩ := pinRecordTo_kept old new r
  unfold State.pinMeets
  split
  · rfl
  · rw [State.moveRecord_eq, if_pos (.inl rfl)]
    simp only [haddr, hlevel]

/-- The reports of the duplicate. -/
def refusedPin (dup : Option Nat) : List ReportBody :=
  match dup with
  | some k => [.recordRefused .pin k .duplicate]
  | none => []

theorem State.takePin_eq (j : Nat) (ws : List Word) (s : State) :
    s.takePin j ws =
      State.raiseTogether
        [refusedPin (pinDuplicate s.stu.pins j (pinOfWords ws)),
          s.stu.stations.flatMap (fun r => (s.pinMeets (s.stu.pins.getD j none) (pinOfWords ws) r).2)]
        { s with stu := { stations := s.stu.stations.map (fun r => (s.pinMeets (s.stu.pins.getD j none) (pinOfWords ws) r).1)
                          pins := pinsTaken s.stu.pins j (pinOfWords ws) } } := by
  have hreports : (s.stu.stations.map (s.pinMeets (s.stu.pins.getD j none) (pinOfWords ws))).flatMap Prod.snd
      = s.stu.stations.flatMap (fun r => (s.pinMeets (s.stu.pins.getD j none) (pinOfWords ws) r).2) :=
    List.flatMap_map _ _ _
  have hrecords : (s.stu.stations.map (s.pinMeets (s.stu.pins.getD j none) (pinOfWords ws))).map Prod.fst
      = s.stu.stations.map (fun r => (s.pinMeets (s.stu.pins.getD j none) (pinOfWords ws) r).1) := List.map_map
  rw [← hreports, ← hrecords]
  rfl

theorem refusedPin_eq {s : State} (hs : PinsDistinct s) (hlen : s.stu.pins.length = 64) (j : Nat) (new : Option Pin) :
    (List.range 64).filterMap (fun k =>
        if Doubled s.stu.pins j new k then some (ReportBody.recordRefused .pin k .duplicate) else none) =
      refusedPin (pinDuplicate s.stu.pins j new) := by
  simp only [doubled_iff_pinDuplicate hs]
  cases hdup : pinDuplicate s.stu.pins j new with
  | none => simp [refusedPin]
  | some a =>
    have hlt : a < 64 := by
      obtain ⟨p, -, hp⟩ := (doubled_iff _ j a new).1 ((doubled_iff_pinDuplicate hs j a new).2 hdup)
      exact hlen ▸ hp.lt
    have hsame : ∀ k, (some a = some k) = (k = a) := fun k => propext ⟨fun h => (Option.some.inj h).symm, fun h => by rw [h]⟩
    simp only [hsame]
    rw [filterMap_range_single, if_pos hlt]
    rfl

/-- The words of the shadow stand while a pin is taken. -/
theorem State.takePin_shadowWords (j : Nat) (ws : List Word) (s : State) (o n : Nat) :
    (s.takePin j ws).shadowWords o n = s.shadowWords o n := by
  have hframe := (s.takePin_runs j ws).frame
  exact (congrArg (fun u => u.shadowWords o n) hframe : _)

/-- The closing word at an offset is acted on: the pin whose word it is, is taken from the shadow. -/
def State.pinWord (s : State) (o : Nat) : State :=
  s.takePin ((o - 0x1000) / 16) (s.shadowWords (0x1000 + 16 * ((o - 0x1000) / 16)) 4)

theorem State.pinWord_of_index {o j : Nat} (h : (o - 0x1000) / 16 = j) (s : State) :
    s.pinWord o = s.takePin j (s.shadowWords (0x1000 + 16 * j) 4) := by
  rw [State.pinWord, h]

theorem exec_pinRecord {s : State} {h : InHand} {w : Window} (hr : s.routedTo .control .write = some (h, w))
    (huse : controlUse w.base h.txn = .pin) :
    exec .pinRecord s = .next (((fullWordOffsets w.base h.txn).filter isPinClosing).foldl State.pinWord (s.absorb h w)) := by
  have hrow : exec .pinRecord s = execPinRecord s := rfl
  rw [hrow, execPinRecord, (s.controlFor_eq_some_iff .pin h w).2 ⟨hr, huse⟩]
  rfl

/-- The number of a pin from the offset of its closing word. -/
theorem pin_index (j : Nat) : (0x1000 + 16 * j + 12 - 0x1000) / 16 = j := by omega

/-- Settles O35: the row, the pins entry by entry, and the table record by record. -/
theorem pinTakenAndApplied : Obligations.PinTakenAndApplied := by
  refine ⟨fun h w j k s hr huse => ?row, fun j ws s hj hlen hdistinct => ?taken, fun ws => ⟨fun hv => ?_, fun hv => ?_⟩⟩
  case row =>
    refine ⟨fun hc => ?_, fun hc => ?_⟩ <;> rw [exec_pinRecord hr huse, hc]
    · rw [List.foldl_cons, List.foldl_nil, State.pinWord_of_index (pin_index j)]
    · rw [List.foldl_cons, List.foldl_cons, List.foldl_nil, State.pinWord_of_index (pin_index j),
        State.pinWord_of_index (pin_index k), State.takePin_shadowWords]
  case taken =>
    have honly := (State.raiseTogether_runs
      [refusedPin (pinDuplicate s.stu.pins j (pinOfWords ws)),
        s.stu.stations.flatMap (fun r => (s.pinMeets (s.stu.pins.getD j none) (pinOfWords ws) r).2)]
      { s with stu := { stations := s.stu.stations.map (fun r => (s.pinMeets (s.stu.pins.getD j none) (pinOfWords ws) r).1)
                        pins := pinsTaken s.stu.pins j (pinOfWords ws) } }).onlyReports
    rw [← State.takePin_eq] at honly
    have hpins : (s.takePin j ws).stu.pins = pinsTaken s.stu.pins j (pinOfWords ws) := congrArg Stu.pins honly.stu
    have hrecords := congrArg Stu.stations honly.stu
    have hpending := congrArg (fun u : State => u.cau.pending) (State.takePin_eq j ws s)
    dsimp only at hrecords hpending ⊢
    simp only [← pinRecordTo_eq]
    refine ⟨?_, ?_, fun k hk => ?_, ?_, ?_, ?_⟩
    · rw [hpins, pinsTaken_length, hlen]
    · rw [hpins, pinsTaken_getD_same (hlen ▸ hj)]
    · rw [hpins, pinsTaken_getD_other hk]
      exact if_congr (doubled_iff_pinDuplicate hdistinct j k _).symm rfl rfl
    · rw [hrecords]
      exact List.map_congr_left fun r _ => by rw [State.pinMeets_eq]; rfl
    · have hrefused := refusedPin_eq hdistinct hlen j (pinOfWords ws)
      rw [hpending, ← hrefused]
      simp only [State.pinMeets_eq]
      exact State.raiseTogether_pending_congr _ rfl rfl rfl rfl
    · rw [honly.stu]
      exact honly
  · exact if_neg (Bool.eq_false_iff.1 hv)
  · refine ⟨_, if_pos hv, rfl, rfl, fun c hc => (classOfCode_eq_some_iff _ c).2 hc.symm, fun hno => ?_⟩
    refine Option.eq_none_iff_forall_ne_some.2 fun c hc => ?_
    have hcode := (classOfCode_eq_some_iff _ c).1 hc
    cases c <;> simp only [Class.code] at hcode <;> omega

end Sys2Proof.Machine

/-! PROOFS. The station table (chapter 4): lookups, places and the marks of the sweep; how a record leaves the table, joins it or takes
a victim's slot; frees by request and by hold. -/
namespace Sys2Proof.Machine

/-! ## Proper tables (R64) -/

/-- A table as R64 has it: slots rising and below 128, no address twice. -/
def TableOf (rs : List Station) : Prop :=
  (rs.map (fun r => r.slot)).Pairwise (· < ·) ∧ (∀ r ∈ rs, r.slot < 128) ∧ (rs.map (fun r => r.addr)).Nodup

theorem tableProper_iff (s : State) : TableProper s ↔ TableOf s.stu.stations := Iff.rfl

/-- Only slots and addresses matter. -/
theorem TableOf.congr {rs qs : List Station} (h : TableOf rs) (hslot : qs.map (fun r => r.slot) = rs.map (fun r => r.slot))
    (haddr : qs.map (fun r => r.addr) = rs.map (fun r => r.addr)) : TableOf qs := by
  obtain ⟨hsorted, hlt, hnodup⟩ := h
  refine ⟨hslot ▸ hsorted, fun q hq => ?_, haddr ▸ hnodup⟩
  have hmem : q.slot ∈ rs.map (fun r => r.slot) := hslot ▸ List.mem_map_of_mem hq
  obtain ⟨r, hr, heq⟩ := List.mem_map.1 hmem
  exact heq ▸ hlt r hr

theorem TableOf.map {rs : List Station} (h : TableOf rs) {f : Station → Station}
    (hf : ∀ r ∈ rs, (f r).slot = r.slot ∧ (f r).addr = r.addr) : TableOf (rs.map f) := by
  refine h.congr ?_ ?_ <;> rw [List.map_map]
  exacts [List.map_congr_left fun r hr => (hf r hr).1, List.map_congr_left fun r hr => (hf r hr).2]

theorem TableOf.filter {rs : List Station} (h : TableOf rs) (p : Station → Bool) : TableOf (rs.filter p) := by
  obtain ⟨hsorted, hlt, hnodup⟩ := h
  exact ⟨hsorted.sublist (List.filter_sublist.map _), fun r hr => hlt r (List.mem_filter.1 hr).1,
    hnodup.sublist (List.filter_sublist.map _)⟩

theorem TableOf.eq_of_slot {rs : List Station} (h : TableOf rs) {r q : Station} (hr : r ∈ rs) (hq : q ∈ rs)
    (hs : r.slot = q.slot) : r = q :=
  List.inj_on_of_nodup_map (h.1.imp (fun hlt => ne_of_lt hlt)) hr hq hs

theorem TableOf.eq_of_addr {rs : List Station} (h : TableOf rs) {r q : Station} (hr : r ∈ rs) (hq : q ∈ rs)
    (hs : r.addr = q.addr) : r = q :=
  List.inj_on_of_nodup_map h.2.2 hr hq hs

/-! ## Lookups -/

theorem State.recordOf_eq_none_iff (s : State) (m : Mac) : s.recordOf m = none ↔ ∀ r ∈ s.stu.stations, r.addr ≠ m := by
  simp [State.recordOf]

theorem State.recordOf_of_mem {s : State} (h : TableProper s) {r : Station} (hr : r ∈ s.stu.stations) :
    s.recordOf r.addr = some r := by
  cases hfound : s.recordOf r.addr with
  | none => exact absurd rfl ((s.recordOf_eq_none_iff r.addr).1 hfound r hr)
  | some q =>
    obtain ⟨hq, haddr⟩ := State.recordOf_some hfound
    exact congrArg some (TableOf.eq_of_addr h hq hr haddr)

theorem State.recordAt_eq_none_iff (s : State) (k : Nat) : s.recordAt k = none ↔ ∀ r ∈ s.stu.stations, r.slot ≠ k := by
  simp [State.recordAt]

theorem State.recordAt_of_mem {s : State} (h : TableProper s) {r : Station} (hr : r ∈ s.stu.stations) :
    s.recordAt r.slot = some r := by
  cases hfound : s.recordAt r.slot with
  | none => exact absurd rfl ((s.recordAt_eq_none_iff r.slot).1 hfound r hr)
  | some q =>
    obtain ⟨hq, hslot⟩ := State.recordAt_some hfound
    exact congrArg some (TableOf.eq_of_slot h hq hr hslot)

/-! ## Marks and the game-active count (R93, R110) -/

/-- The table where contention turns to `c`: every record is marked where that is a change (R110). -/
def markedFor (old c : Bool) (rs : List Station) : List Station :=
  if old = c then rs else rs.map (fun r => { r with mark := true })

theorem State.setGameCount_eq (n : Nat) (s : State) :
    s.setGameCount n = { s with
      cgu.count := n, cgu.contention := decide (0 < n)
      stu.stations := markedFor s.cgu.contention (decide (0 < n)) s.stu.stations } := by
  rcases s.setGameCount_cases n with ⟨hc, h⟩ | ⟨hc, h⟩ <;> rw [h, markedFor]
  · rw [if_pos hc, ← hc]
  · rw [if_neg hc]
    rfl

theorem markedFor_unmarked (old c : Bool) (rs : List Station) : unmarked (markedFor old c rs) = unmarked rs := by
  unfold markedFor
  split
  · rfl
  · simp [unmarked]

/-- What no mark bears on is the same in tables that differ in marks alone. -/
theorem unmarked_map_eq {α : Type} {rs qs : List Station} (h : unmarked qs = unmarked rs) (f : Station → α)
    (hf : ∀ r, f { r with mark := false } = f r) : qs.map f = rs.map f := by
  have hmap : ∀ l : List Station, (unmarked l).map f = l.map f := fun l => by
    rw [unmarked, List.map_map]
    exact List.map_congr_left fun r _ => hf r
  rw [← hmap, h, hmap]

theorem unmarked_filter (p : Station → Bool) (hp : ∀ r, p { r with mark := false } = p r) (rs : List Station) :
    unmarked (rs.filter p) = (unmarked rs).filter p := by
  induction rs with
  | nil => rfl
  | cons r rs ih =>
    have hcons : unmarked (r :: rs) = { r with mark := false } :: unmarked rs := rfl
    rw [List.filter_cons, hcons, List.filter_cons, hp]
    split
    · rw [← ih]
      rfl
    · exact ih

theorem unmarked_slotFilter {rs qs : List Station} (h : unmarked qs = unmarked rs) (k : Nat) :
    unmarked (qs.filter (fun q => q.slot != k)) = unmarked (rs.filter (fun q => q.slot != k)) := by
  rw [unmarked_filter _ (fun _ => rfl), h, unmarked_filter _ (fun _ => rfl)]

theorem flagged_eq_countP (rs : List Station) : flagged rs = ((rs.map (fun r => r.gameActive)).filter id).length := by
  rw [flagged, List.filter_map, List.length_map]
  rfl

theorem flagged_congr {rs qs : List Station} (h : unmarked qs = unmarked rs) : flagged qs = flagged rs := by
  rw [flagged_eq_countP, flagged_eq_countP, unmarked_map_eq h (fun r => r.gameActive) fun _ => rfl]

/-! ## A record leaves the table (R74) -/

/-- The table without a slot. -/
def withoutSlot (k : Nat) (rs : List Station) : List Station := rs.filter (fun q => q.slot != k)

theorem mem_withoutSlot {k : Nat} {rs : List Station} {q : Station} : q ∈ withoutSlot k rs ↔ q ∈ rs ∧ q.slot ≠ k := by
  simp [withoutSlot]

theorem withoutSlot_idem (k : Nat) (rs : List Station) : withoutSlot k (withoutSlot k rs) = withoutSlot k rs := by
  rw [withoutSlot, withoutSlot, List.filter_filter]
  simp

theorem State.removeRecord_eq (r : Station) (s : State) :
    s.removeRecord r = { s with
      stu.stations := markedFor s.cgu.contention (decide (0 < flagged (withoutSlot r.slot s.stu.stations)))
        (withoutSlot r.slot s.stu.stations)
      cgu.count := flagged (withoutSlot r.slot s.stu.stations)
      cgu.contention := decide (0 < flagged (withoutSlot r.slot s.stu.stations))
      rmu.summaries := s.rmu.summaries.filter (fun k => k != r.slot) } := by
  have hdef : s.removeRecord r = State.setGameCount (flagged (withoutSlot r.slot s.stu.stations))
      { s with
        stu.stations := withoutSlot r.slot s.stu.stations
        rmu.summaries := s.rmu.summaries.filter (fun k => k != r.slot) } := rfl
  rw [hdef, State.setGameCount_eq]

theorem State.removeRecord_unmarked (r : Station) (s : State) :
    unmarked (s.removeRecord r).stu.stations = unmarked (withoutSlot r.slot s.stu.stations) := by
  rw [State.removeRecord_eq]
  exact markedFor_unmarked _ _ _

theorem State.removeRecord_count (r : Station) (s : State) :
    (s.removeRecord r).cgu.count = flagged (s.removeRecord r).stu.stations
      ∧ (s.removeRecord r).cgu.contention = decide (0 < (s.removeRecord r).cgu.count) := by
  refine ⟨?_, by rw [State.removeRecord_eq]⟩
  rw [flagged_congr (s.removeRecord_unmarked r), State.removeRecord_eq]

/-- In a proper table the removed address is recorded no more. -/
theorem State.removeRecord_recordOf {s : State} (h : TableProper s) {r : Station} (hr : r ∈ s.stu.stations) :
    (s.removeRecord r).recordOf r.addr = none := by
  rw [State.recordOf_eq_none_iff]
  intro q hq haddr
  have hmem : (q.slot, q.addr) ∈ (withoutSlot r.slot s.stu.stations).map (fun r => (r.slot, r.addr)) := by
    rw [← unmarked_map_eq (s.removeRecord_unmarked r) (fun r => (r.slot, r.addr)) fun _ => rfl]
    exact List.mem_map_of_mem hq
  obtain ⟨p, hp, heq⟩ := List.mem_map.1 hmem
  obtain ⟨hslot, hpaddr⟩ := Prod.mk.inj heq
  obtain ⟨hp, hne⟩ := mem_withoutSlot.1 hp
  exact hne (congrArg Station.slot (TableOf.eq_of_addr h hp hr (hpaddr.trans haddr)))

theorem State.removeRecord_onlyTable (r : Station) (s : State) :
    s.removeRecord r = { s with
      stu.stations := (s.removeRecord r).stu.stations
      cgu := (s.removeRecord r).cgu
      rmu.summaries := (s.removeRecord r).rmu.summaries } := by
  rw [State.removeRecord_eq]

/-! ## Free order with one list of reports -/

theorem mergeFree_nil_right (n i : Nat) (xs : List ReportBody) : (mergeFree n i xs []).1 = xs := by
  cases n with
  | zero => exact List.append_nil xs
  | succ n => cases xs <;> rfl

/-- Reports of one unit alone keep their order, whatever the others' empty lists. -/
theorem State.raiseTogether_single (bs : List ReportBody) (s : State) :
    (s.raiseTogether [bs, []]).cau.pending = (s.raiseAll bs).cau.pending := by
  have hmerge : (mergeUnits s.freeIdx [bs, []]).1 = bs := mergeFree_nil_right _ _ _
  unfold State.raiseTogether
  dsimp only
  rw [hmerge]
  exact State.raiseAll_pending_congr bs rfl rfl rfl

/-! ## Frees by request and by hold (R71, R74, R75) -/

theorem State.freeRecord_onlyReports (r : Station) (reason : FreeReason) (s : State) :
    OnlyReports (s.removeRecord r) (s.freeRecord r reason) := (State.raiseTogether_runs _ _).onlyReports

theorem State.freeRecord_pending (r : Station) (reason : FreeReason) (s : State) :
    (s.freeRecord r reason).cau.pending =
      (s.raiseTogether [[.stationFreed r.addr r.state reason], freedEdge r (s.removeRecord r).cgu.count]).cau.pending := by
  refine State.raiseTogether_pending_congr _ ?_ ?_ ?_ ?_ <;> rw [State.removeRecord_eq]

theorem exec_holdCountdownExpiry {slot n : Nat} {r : Station} {reason : FreeReason} {s : State}
    (hr : s.recordAt slot = some r) (hn : r.hold = some n) (hle : n ≤ 1) (hreason : holdReason r.state = some reason) :
    exec (.holdCountdownExpiry slot) s = .next (s.freeRecord r reason) := by
  have hrow : exec (.holdCountdownExpiry slot) s = execHoldCountdownExpiry slot s := rfl
  rw [hrow, execHoldCountdownExpiry, hr]
  simp only [hn, hreason]
  exact if_pos hle

/-- Settles O40: the two rows, and a free as the table without the record, the count, and the reports. -/
theorem freesByRequestAndHold : Obligations.FreesByRequestAndHold := by
  refine ⟨fun q s hq => ?_, fun slot n r s hr hn hle => ⟨fun hs => ?_, fun hs => ?_, fun hs => ?_⟩,
    fun r reason s hs hr => ?_⟩
  · obtain ⟨hslot, hreq, hkind⟩ := hq
    have hrun := fun owner => State.onRequest_pending (accepts := fun k => k == 5#32) owner hslot hreq (by simp [hkind])
    have hrow : exec .forgetStation s = execForgetStation s := rfl
    rw [hrow, execForgetStation, hrun]
    exact ⟨fun hr => by rw [hr], fun r hr => by rw [hr]⟩
  · exact exec_holdCountdownExpiry hr hn hle (by rw [hs]; rfl)
  · exact exec_holdCountdownExpiry hr hn hle (by rw [hs]; rfl)
  · exact exec_holdCountdownExpiry hr hn hle (by rw [hs]; rfl)
  · have honly := s.freeRecord_onlyReports r reason
    have hpending := s.freeRecord_pending r reason
    obtain ⟨hcount, hcontention⟩ := s.removeRecord_count r
    dsimp only
    refine ⟨?_, ?_, ?_, fun hg => ?_, fun hg => ?_, ?_, ?_⟩
    · exact (congrArg (fun u => u.recordOf r.addr) honly.eq).trans (State.removeRecord_recordOf hs hr)
    · rw [honly.stu]
      exact s.removeRecord_unmarked r
    · rw [honly.cgu, honly.stu, hcount]
    · rw [hpending, freedEdge, if_neg (by simp [hg]), State.raiseTogether_single]
      rfl
    · rw [hpending, freedEdge, if_pos hg, honly.cgu]
    · rw [honly.cgu, hcontention]
    · rw [honly.stu, honly.cgu, honly.rmu]
      have hparts := s.removeRecord_onlyTable r
      rw [hparts] at honly
      exact honly

end Sys2Proof.Machine

/-! PROOFS. How records are created and observed (sections 4.1, 4.2, 4.4 and 8.2): the fields of a new record, its place in the
table, the victim of a full one, and the receive observations and samples. -/
namespace Sys2Proof.Machine

/-! ## A record joins the table (R65) -/

theorem insertRecord_find_other {p : Station → Bool} {r : Station} (h : p r = false) (rs : List Station) :
    (insertRecord r rs).find? p = rs.find? p := by
  induction rs with
  | nil => simp [insertRecord, h]
  | cons q rs ih =>
    unfold insertRecord
    split
    · rw [List.find?_cons_of_neg (by simp [h])]
    · rw [List.find?_cons, List.find?_cons, ih]

theorem insertRecord_find_same {p : Station → Bool} {r : Station} (h : p r = true) {rs : List Station}
    (hnone : rs.find? p = none) : (insertRecord r rs).find? p = some r := by
  induction rs with
  | nil => simp [insertRecord, h]
  | cons q rs ih =>
    unfold insertRecord
    split
    · rw [List.find?_cons_of_pos h]
    · have hq : p q = false := by
        have := List.find?_eq_none.1 hnone q List.mem_cons_self
        simpa using this
      rw [List.find?_cons_of_neg (by simp [hq])] at hnone ⊢
      exact ih hnone

theorem insertRecord_filter_other {p : Station → Bool} {r : Station} (h : p r = false) (rs : List Station) :
    (insertRecord r rs).filter p = rs.filter p := by
  induction rs with
  | nil => simp [insertRecord, h]
  | cons q rs ih =>
    unfold insertRecord
    split
    · rw [List.filter_cons_of_neg (by simp [h])]
    · rw [List.filter_cons, List.filter_cons, ih]

theorem State.addRecord_recordOf_other (r : Station) (s : State) {m : Mac} (h : r.addr ≠ m) :
    (s.addRecord r).recordOf m = s.recordOf m := insertRecord_find_other (by simp [h]) _

theorem State.addRecord_recordOf_same {r : Station} {s : State} (h : s.recordOf r.addr = none) :
    (s.addRecord r).recordOf r.addr = some r := insertRecord_find_same (by simp) h

theorem flagged_insertRecord {r : Station} (h : r.gameActive = false) (rs : List Station) :
    flagged (insertRecord r rs) = flagged rs := by
  rw [flagged, insertRecord_filter_other h, flagged]

/-! ## The fields of a new record (R65, R79, R135) -/

theorem State.pinFor_eq_some {s : State} {m : Mac} {p : Pin} (h : s.pinFor m = some p) : some p ∈ s.stu.pins ∧ p.addr = m := by
  obtain ⟨q, hq, hfound⟩ := List.exists_of_findSome?_eq_some h
  cases q with
  | none => cases hfound
  | some q =>
    dsimp only at hfound
    split at hfound
    · next haddr =>
      cases hfound
      exact ⟨hq, haddr⟩
    · cases hfound

theorem State.pinFor_eq_none {s : State} {m : Mac} (h : s.pinFor m = none) (p : Pin) (hp : some p ∈ s.stu.pins) :
    p.addr ≠ m := by
  have hnone := List.findSome?_eq_none_iff.1 h (some p) hp
  intro haddr
  simp [haddr] at hnone

/-- A valid pin is the one that a lookup of its address finds (R78). -/
theorem State.pinFor_of_mem {s : State} (hs : PinsDistinct s) {p : Pin} (hp : some p ∈ s.stu.pins) : s.pinFor p.addr = some p := by
  cases hfound : s.pinFor p.addr with
  | none => exact absurd rfl (State.pinFor_eq_none hfound p hp)
  | some q =>
    obtain ⟨hq, haddr⟩ := State.pinFor_eq_some hfound
    obtain ⟨i, hi⟩ := List.mem_iff_getElem?.1 hp
    obtain ⟨j, hj⟩ := List.mem_iff_getElem?.1 hq
    obtain rfl : i = j := index_unique_of_nodup _ hs (b := p.addr) (by simp [hi]) (by simp [hj, haddr])
    have hpq : some p = some q := Option.some.inj (hi.symm.trans hj)
    rw [← hpq]

theorem State.blankRecord_freshIn (s : State) (m : Mac) (st : StationState) (k : Nat) :
    (s.blankRecord m st k).FreshIn s m := by
  refine ⟨rfl, rfl, rfl, rfl, rfl, rfl, rfl, rfl, rfl, rfl, rfl, rfl, fun p hp haddr hs => ?_, fun hno => ?_⟩
  · have hpin : s.pinFor m = some p := haddr ▸ State.pinFor_of_mem hs hp
    simp [State.blankRecord, hpin]
  · have hpin : s.pinFor m = none := by
      refine Option.eq_none_iff_forall_ne_some.2 fun p hp => ?_
      obtain ⟨hmem, haddr⟩ := State.pinFor_eq_some hp
      exact hno p hmem haddr
    simp [State.blankRecord, hpin]

theorem State.startAllowance_startedAt (s : State) (r : Station) :
    (s.startAllowance r).StartedAt s (s.multiplier r.gameActive) := ⟨rfl, rfl, rfl, rfl⟩

/-- What the AU's start leaves of a new record is the rest of it. -/
theorem State.startAllowance_freshIn {s t : State} {m : Mac} {r : Station} (h : r.FreshIn s m) :
    (t.startAllowance r).FreshIn s m := h

/-- The removal of a record bears on a new one through contention alone. -/
theorem State.removeRecord_blankRecord (v : Station) (s : State) (m : Mac) (st : StationState) (k : Nat) :
    (s.removeRecord v).blankRecord m st k = s.blankRecord m st k := by
  rw [State.removeRecord_eq]
  rfl

theorem State.removeRecord_startedAt {v r : Station} {s : State} {mult : Nat} (h : r.StartedAt (s.removeRecord v) mult) :
    r.StartedAt s mult := by
  rw [State.removeRecord_eq] at h
  exact h

/-! ## The victim of a full table (R72) -/

/-- The better victim of two: the greater age, the earlier of equal ones. -/
def olderOf (best : Option Station) (r : Station) : Option Station :=
  match best with
  | none => some r
  | some b => if b.age < r.age then some r else some b

theorem State.oldest_eq (s : State) (st : StationState) :
    s.oldest st = (s.stu.stations.filter (fun r => r.state == st)).foldl olderOf none := rfl

/-- The search for the greatest age, the lowest slot of equal ones, through records in slot order. -/
theorem foldl_oldest (l : List Station) (b : Station) (hsorted : ((b :: l).map (fun r => r.slot)).Pairwise (· < ·)) :
    ∃ v, l.foldl olderOf (some b) = some v
      ∧ v ∈ b :: l ∧ ∀ r ∈ b :: l, r.age < v.age ∨ (r.age = v.age ∧ v.slot ≤ r.slot) := by
  induction l generalizing b with
  | nil => exact ⟨b, rfl, List.mem_cons_self, fun r hr => .inr (by simp [List.mem_singleton.1 hr])⟩
  | cons a l ih =>
    simp only [List.map_cons, List.pairwise_cons, List.mem_cons, forall_eq_or_imp] at hsorted
    obtain ⟨⟨hba, hbl⟩, hal, hl⟩ := hsorted
    rw [List.foldl_cons]
    by_cases hage : b.age < a.age
    · obtain ⟨v, hv, hmem, hall⟩ := ih a (by simpa using ⟨by simpa using hal, hl⟩)
      refine ⟨v, by rw [olderOf, if_pos hage, hv], List.mem_cons_of_mem _ hmem, fun r hr => ?_⟩
      rcases List.mem_cons.1 hr with rfl | hr
      · rcases hall a List.mem_cons_self with h | ⟨h, -⟩ <;> exact .inl (by omega)
      · exact hall r hr
    · obtain ⟨v, hv, hmem, hall⟩ := ih b (by simpa using ⟨by simpa using hbl, hl⟩)
      refine ⟨v, by rw [olderOf, if_neg hage, hv], ?_, fun r hr => ?_⟩
      · rcases List.mem_cons.1 hmem with rfl | hmem
        exacts [List.mem_cons_self, List.mem_cons_of_mem _ (List.mem_cons_of_mem _ hmem)]
      · rcases List.mem_cons.1 hr with rfl | hr
        · exact hall r List.mem_cons_self
        · rcases List.mem_cons.1 hr with rfl | hr
          · rcases hall b List.mem_cons_self with h | ⟨h, hslot⟩
            · exact .inl (by omega)
            · rcases Nat.lt_or_ge r.age b.age with hlt | hge
              exacts [.inl (by omega), .inr ⟨by omega, by omega⟩]
          · exact hall r (List.mem_cons_of_mem _ hr)

theorem State.oldest_eq_none_iff {s : State} (hs : TableProper s) (st : StationState) :
    s.oldest st = none ↔ ∀ r ∈ s.stu.stations, r.state ≠ st := by
  have hsorted := (TableOf.filter hs (fun r => r.state == st)).1
  have hmem : ∀ r, r ∈ s.stu.stations.filter (fun r => r.state == st) ↔ r ∈ s.stu.stations ∧ r.state = st := by simp
  rw [State.oldest_eq]
  cases hl : s.stu.stations.filter (fun r => r.state == st) with
  | nil =>
    simp only [List.foldl_nil, true_iff]
    exact fun r hr hst => List.not_mem_nil (hl ▸ (hmem r).2 ⟨hr, hst⟩)
  | cons b l =>
    obtain ⟨v, hv, -⟩ := foldl_oldest l b (hl ▸ hsorted)
    rw [List.foldl_cons, olderOf, hv]
    obtain ⟨hb, hst⟩ := (hmem b).1 (hl ▸ List.mem_cons_self)
    simp only [reduceCtorEq, false_iff, not_forall, not_not]
    exact ⟨b, hb, hst⟩

theorem State.oldest_eq_some {s : State} (hs : TableProper s) {st : StationState} {v : Station} (h : s.oldest st = some v) :
    v ∈ s.stu.stations ∧ v.state = st
      ∧ ∀ r ∈ s.stu.stations, r.state = st → r.age < v.age ∨ (r.age = v.age ∧ v.slot ≤ r.slot) := by
  have hsorted := (TableOf.filter hs (fun r => r.state == st)).1
  have hmem : ∀ r, r ∈ s.stu.stations.filter (fun r => r.state == st) ↔ r ∈ s.stu.stations ∧ r.state = st := by simp
  rw [State.oldest_eq] at h
  cases hl : s.stu.stations.filter (fun r => r.state == st) with
  | nil =>
    rw [hl] at h
    cases h
  | cons b l =>
    obtain ⟨u, hu, humem, hall⟩ := foldl_oldest l b (hl ▸ hsorted)
    rw [hl, List.foldl_cons, olderOf] at h
    obtain rfl : u = v := Option.some.inj (hu.symm.trans h)
    obtain ⟨hv, hst⟩ := (hmem u).1 (hl ▸ humem)
    exact ⟨hv, hst, fun r hr hrst => hall r (hl ▸ (hmem r).2 ⟨hr, hrst⟩)⟩

/-- The victim is the oldest record of the first of IDLE, AWAY and EXPECTED that has one (R72). -/
theorem State.victim_cases (s : State) :
    (∃ v, s.oldest .idle = some v ∧ s.victim = some v)
      ∨ (∃ v, s.oldest .idle = none ∧ s.oldest .away = some v ∧ s.victim = some v)
      ∨ (s.oldest .idle = none ∧ s.oldest .away = none ∧ s.victim = s.oldest .expected) := by
  unfold State.victim
  cases hi : s.oldest .idle with
  | some v => exact .inl ⟨v, rfl, rfl⟩
  | none =>
    cases ha : s.oldest .away with
    | some v => exact .inr (.inl ⟨v, rfl, rfl, rfl⟩)
    | none => exact .inr (.inr ⟨rfl, rfl, rfl⟩)

theorem State.victim_eq_none_iff {s : State} (hs : TableProper s) :
    s.victim = none ↔ ∀ r ∈ s.stu.stations, r.state = .associated ∨ r.state = .steering := by
  have hother : (∀ r ∈ s.stu.stations, r.state = .associated ∨ r.state = .steering) ↔
      s.oldest .idle = none ∧ s.oldest .away = none ∧ s.oldest .expected = none := by
    rw [State.oldest_eq_none_iff hs, State.oldest_eq_none_iff hs, State.oldest_eq_none_iff hs]
    constructor
    · exact fun h => ⟨fun r hr hst => by simpa [hst] using h r hr, fun r hr hst => by simpa [hst] using h r hr,
        fun r hr hst => by simpa [hst] using h r hr⟩
    · rintro ⟨h1, h2, h3⟩ r hr
      have h1 := h1 r hr
      have h2 := h2 r hr
      have h3 := h3 r hr
      cases hst : r.state <;> simp_all
  rw [hother]
  rcases s.victim_cases with ⟨v, hi, hv⟩ | ⟨v, hi, ha, hv⟩ | ⟨hi, ha, hv⟩
  · simp [hv, hi]
  · simp [hv, ha]
  · simp [hv, hi, ha]

theorem State.victim_eq_some {s : State} (hs : TableProper s) {v : Station} (h : s.victim = some v) :
    v ∈ s.stu.stations ∧ (v.state = .idle ∨ v.state = .away ∨ v.state = .expected)
      ∧ (∀ r ∈ s.stu.stations, r.state = .idle → v.state = .idle)
      ∧ (∀ r ∈ s.stu.stations, r.state = .away → v.state ≠ .expected)
      ∧ ∀ r ∈ s.stu.stations, r.state = v.state → r.age < v.age ∨ (r.age = v.age ∧ v.slot ≤ r.slot) := by
  rcases s.victim_cases with ⟨u, hi, hu⟩ | ⟨u, hi, ha, hu⟩ | ⟨hi, ha, hu⟩
  · obtain rfl : u = v := Option.some.inj (hu.symm.trans h)
    obtain ⟨hmem, hst, hall⟩ := State.oldest_eq_some hs hi
    exact ⟨hmem, .inl hst, fun _ _ _ => hst, fun _ _ _ => by simp [hst], fun r hr hrst => hall r hr (hrst.trans hst)⟩
  · obtain rfl : u = v := Option.some.inj (hu.symm.trans h)
    obtain ⟨hmem, hst, hall⟩ := State.oldest_eq_some hs ha
    exact ⟨hmem, .inr (.inl hst), fun r hr hidle => absurd hidle ((State.oldest_eq_none_iff hs _).1 hi r hr),
      fun _ _ _ => by simp [hst], fun r hr hrst => hall r hr (hrst.trans hst)⟩
  · obtain ⟨hmem, hst, hall⟩ := State.oldest_eq_some hs (hu.symm.trans h)
    exact ⟨hmem, .inr (.inr hst), fun r hr hidle => absurd hidle ((State.oldest_eq_none_iff hs _).1 hi r hr),
      fun r hr haway => absurd haway ((State.oldest_eq_none_iff hs _).1 ha r hr),
      fun r hr hrst => hall r hr (hrst.trans hst)⟩

/-! ## A creation in a FREE slot, and in a victim's -/

theorem State.makeRoom_of_freeSlot {s : State} {k : Nat} (h : s.freeSlot = some k) : s.makeRoom = some (k, s, [], []) := by
  rw [State.makeRoom, h]

theorem State.makeRoom_of_victim {s : State} {v : Station} (h : s.freeSlot = none) (hv : s.victim = some v) :
    s.makeRoom = some (v.slot, s.removeRecord v, [.stationFreed v.addr v.state .evicted],
      freedEdge v (s.removeRecord v).cgu.count) := by
  rw [State.makeRoom, h, hv]

theorem State.makeRoom_of_none {s : State} (h : s.freeSlot = none) (hv : s.victim = none) : s.makeRoom = none := by
  rw [State.makeRoom, h, hv]

theorem State.removeRecord_mem {r q : Station} {s : State} (h : q ∈ (s.removeRecord r).stu.stations) :
    ∃ p ∈ s.stu.stations, p.slot = q.slot ∧ p.addr = q.addr ∧ p.slot ≠ r.slot := by
  have hmem : (q.slot, q.addr) ∈ (withoutSlot r.slot s.stu.stations).map (fun r => (r.slot, r.addr)) := by
    rw [← unmarked_map_eq (s.removeRecord_unmarked r) (fun r => (r.slot, r.addr)) fun _ => rfl]
    exact List.mem_map_of_mem h
  obtain ⟨p, hp, heq⟩ := List.mem_map.1 hmem
  obtain ⟨hslot, haddr⟩ := Prod.mk.inj heq
  obtain ⟨hp, hne⟩ := mem_withoutSlot.1 hp
  exact ⟨p, hp, hslot, haddr, hne⟩

theorem State.removeRecord_recordOf_none {s : State} {m : Mac} (h : s.recordOf m = none) (r : Station) :
    (s.removeRecord r).recordOf m = none := by
  rw [State.recordOf_eq_none_iff] at h ⊢
  intro q hq haddr
  obtain ⟨p, hp, -, hpaddr, -⟩ := State.removeRecord_mem hq
  exact h p hp (hpaddr.trans haddr)

/-- A record in a victim's slot: the rest of the table is as without the victim, and the victim is recorded no more. -/
theorem State.addRecord_removeRecord {s : State} (hs : TableProper s) {v r : Station} (hv : v ∈ s.stu.stations)
    (hslot : r.slot = v.slot) (hm : s.recordOf r.addr = none) :
    ((s.removeRecord v).addRecord r).recordOf r.addr = some r
      ∧ ((s.removeRecord v).addRecord r).recordOf v.addr = none
      ∧ unmarked (((s.removeRecord v).addRecord r).stu.stations.filter (fun q => q.slot != v.slot))
          = unmarked (s.stu.stations.filter (fun q => q.slot != v.slot)) := by
  refine ⟨State.addRecord_recordOf_same (State.removeRecord_recordOf_none hm v), ?_, ?_⟩
  · have hne : r.addr ≠ v.addr := fun h => (s.recordOf_eq_none_iff r.addr).1 hm v hv h.symm
    rw [State.addRecord_recordOf_other r _ hne, State.removeRecord_recordOf hs hv]
  · have hfilter : ((s.removeRecord v).addRecord r).stu.stations.filter (fun q => q.slot != v.slot)
        = (s.removeRecord v).stu.stations.filter (fun q => q.slot != v.slot) :=
      insertRecord_filter_other (p := fun q => q.slot != v.slot) (by simp [hslot]) _
    rw [hfilter, unmarked_slotFilter (s.removeRecord_unmarked v)]
    exact congrArg unmarked (withoutSlot_idem v.slot s.stu.stations)

/-- The new record of a creation. -/
def State.newRecord (m : Mac) (st : StationState) (k : Nat) (s : State) : Station := s.startAllowance (s.blankRecord m st k)

theorem State.learn_of_freeSlot {s : State} {k : Nat} (h : s.freeSlot = some k) (m : Mac) (st : StationState) :
    s.learn m st = (s.addRecord (s.newRecord m st k)).raiseTogether [[.stationLearned m st], []] := by
  rw [State.learn, State.makeRoom_of_freeSlot h]
  rfl

theorem State.learn_of_victim {s : State} {v : Station} (h : s.freeSlot = none) (hv : s.victim = some v) (m : Mac)
    (st : StationState) :
    s.learn m st = ((s.removeRecord v).addRecord ((s.removeRecord v).newRecord m st v.slot)).raiseTogether
      [[.stationFreed v.addr v.state .evicted, .stationLearned m st], freedEdge v (s.removeRecord v).cgu.count] := by
  rw [State.learn, State.makeRoom_of_victim h hv]
  rfl

theorem State.learn_of_none {s : State} (h : s.freeSlot = none) (hv : s.victim = none) (m : Mac) (st : StationState) :
    s.learn m st = s := by
  rw [State.learn, State.makeRoom_of_none h hv]

/-- A learned record as R65 has it, in state `st`, started at a multiplier. -/
theorem State.newRecord_asNew {s s1 : State} (m : Mac) (st : StationState) (k : Nat)
    (hblank : s1.blankRecord m st k = s.blankRecord m st k)
    (hstart : ∀ r mult, Station.StartedAt s1 mult r → Station.StartedAt s mult r) :
    let r := s1.newRecord m st k
    r.FreshIn s m ∧ r.state = st ∧ r.hold = holdFor st ∧ r.level = (s.profileOf r.profile).target ∧ r.pause = .none ∧ r.ext = 0
      ∧ r.failures = 0 ∧ r.gameActive = false ∧ r.linger = 0 ∧ r.mark = false ∧ r.StartedAt s (s1.multiplier false) := by
  have hstarted := hstart _ _ (s1.startAllowance_startedAt (s1.blankRecord m st k))
  rw [State.newRecord, hblank] at *
  exact ⟨State.startAllowance_freshIn (s.blankRecord_freshIn m st k), rfl, rfl, rfl, rfl, rfl, rfl, rfl, rfl, rfl, hstarted⟩

end Sys2Proof.Machine

/-! PROOFS. Receive observations and samples (sections 4.2, 4.4 and 8.2). -/
namespace Sys2Proof.Machine

/-! ## Observations of a record (R67 to R69) -/

theorem RxKind.associates_iff (k : RxKind) : k.associates = true ↔ k = .assoc ∨ k = .data := by
  cases k <;> simp [RxKind.associates]

/-- The state an observation leaves a record in (the table of R67). -/
def observedState (k : RxKind) (st : StationState) : StationState :=
  if (k = .assoc ∨ k = .data) ∧ (st = .idle ∨ st = .expected ∨ st = .away) then .associated
  else if k = .disassoc ∧ (st = .associated ∨ st = .steering) then .idle else st

theorem observeRecord_eq (k : RxKind) (r : Station) :
    observeRecord k r = { r with
      age := 0
      state := observedState k r.state
      hold := if observedState k r.state = .idle then some 60
        else if observedState k r.state = .associated ∧ r.state ≠ .associated then none else r.hold
      current := if r.state = .away ∧ observedState k r.state = .associated then none else r.current
      steerTo := if r.state = .steering ∧ observedState k r.state = .idle then none else r.steerTo
      steerTimer := if r.state = .steering ∧ observedState k r.state = .idle then 0 else r.steerTimer
      unmovable := if r.state ≠ .idle ∧ observedState k r.state = .idle then false else r.unmovable } := by
  obtain ⟨_, _, st, _, _, _, _, _, _, _, _, _, _, _, _, _, _, _, _, _, _, _, _, _, _, _, _, _⟩ := r
  cases st <;> cases k <;> rfl

theorem State.observe_of_recorded {s : State} {m : Mac} {r : Station} (h : s.recordOf m = some r) (k : RxKind) :
    s.observe m k = (s.putRecord (observeRecord k r)).raiseAll (backReport k r) := by
  unfold State.observe
  rw [h]

theorem backReport_of_back {k : RxKind} {r : Station} {n : Nat} (hs : r.state = .away) (hk : k = .assoc ∨ k = .data)
    (hn : r.current = some n) : backReport k r = [.stationBack r.addr n] := by
  rw [backReport, if_pos ⟨hs, k.associates_iff.2 hk⟩, hn]

theorem backReport_of_none {k : RxKind} {r : Station} (h : r.state ≠ .away ∨ (k ≠ .assoc ∧ k ≠ .data)) : backReport k r = [] := by
  refine if_neg ?_
  rintro ⟨hs, hk⟩
  have hk := k.associates_iff.1 hk
  tauto

/-! ## Observations of an unknown address (R65, R66, R72, R73) -/

theorem State.observe_of_unknown {s : State} {m : Mac} (h : s.recordOf m = none) :
    s.observe m .disassoc = s ∧ s.observe m .other = s
      ∧ ∀ k : RxKind, k = .assoc ∨ k = .data ∨ k = .probe →
          s.observe m k = s.learn m (if k = .probe then .idle else .associated) := by
  unfold State.observe
  rw [h]
  refine ⟨rfl, rfl, fun k hk => ?_⟩
  rcases hk with rfl | rfl | rfl <;> rfl

theorem holdFor_learned (k : RxKind) :
    holdFor (if k = .probe then .idle else .associated) = if k = .probe then some 60 else none := by
  split <;> rfl

/-- A station learned in a FREE slot: its record alone is new (R65). -/
theorem State.learn_freeSlot_spec {s : State} {m : Mac} (hm : s.recordOf m = none) {k : Nat} (hk : s.freeSlot = some k)
    (st : StationState) :
    (s.learn m st).recordOf m = some (s.newRecord m st k)
      ∧ (∀ n, n ≠ m → (s.learn m st).recordOf n = s.recordOf n)
      ∧ (s.learn m st).cau.pending = (s.raise (.stationLearned m st)).cau.pending
      ∧ (s.learn m st).cgu = s.cgu
      ∧ OnlyReports { s with stu.stations := (s.learn m st).stu.stations } (s.learn m st) := by
  have honly := (State.raiseTogether_runs [[.stationLearned m st], []] (s.addRecord (s.newRecord m st k))).onlyReports
  have hpending : ((s.addRecord (s.newRecord m st k)).raiseTogether [[.stationLearned m st], []]).cau.pending
      = (s.raise (.stationLearned m st)).cau.pending := by
    rw [State.raiseTogether_single]
    exact State.raiseAll_pending_congr [.stationLearned m st] (s := s) rfl rfl rfl
  rw [← State.learn_of_freeSlot hk] at honly hpending
  refine ⟨?_, fun n hn => ?_, hpending, honly.cgu, ?_⟩
  · exact (congrArg (fun u => u.recordOf m) honly.eq).trans (State.addRecord_recordOf_same (r := s.newRecord m st k) hm)
  · exact (congrArg (fun u => u.recordOf n) honly.eq).trans
      (State.addRecord_recordOf_other (s.newRecord m st k) s (Ne.symm hn))
  · rw [honly.stu]
    exact honly

/-- A station learned in the slot of R72's victim. -/
theorem State.learn_victim_spec {s : State} (hs : TableProper s) {m : Mac} (hm : s.recordOf m = none)
    (hk : s.freeSlot = none) {v : Station} (hv : s.victim = some v) (st : StationState) :
    let t := s.learn m st
    let r := (s.removeRecord v).newRecord m st v.slot
    t.recordOf m = some r ∧ t.recordOf v.addr = none
      ∧ unmarked (t.stu.stations.filter (fun q => q.slot != v.slot))
          = unmarked (s.stu.stations.filter (fun q => q.slot != v.slot))
      ∧ t.cau.pending = (s.raiseTogether
          [[.stationFreed v.addr v.state .evicted, .stationLearned m st], freedEdge v t.cgu.count]).cau.pending
      ∧ t.cgu = (s.removeRecord v).cgu ∧ t.cgu.count = flagged t.stu.stations
      ∧ OnlyReports { s with stu.stations := t.stu.stations, cgu := t.cgu, rmu.summaries := t.rmu.summaries } t := by
  have hvmem := (State.victim_eq_some hs hv).1
  have honly := (State.raiseTogether_runs
    [[.stationFreed v.addr v.state .evicted, .stationLearned m st], freedEdge v (s.removeRecord v).cgu.count]
    ((s.removeRecord v).addRecord ((s.removeRecord v).newRecord m st v.slot))).onlyReports
  have hpending := congrArg (fun u : State => u.cau.pending) (State.learn_of_victim hk hv m st)
  rw [← State.learn_of_victim hk hv] at honly
  obtain ⟨hsame, hvictim, hrest⟩ := State.addRecord_removeRecord (r := (s.removeRecord v).newRecord m st v.slot) hs hvmem rfl hm
  dsimp only
  refine ⟨(congrArg (fun u => u.recordOf m) honly.eq).trans hsame, (congrArg (fun u => u.recordOf v.addr) honly.eq).trans hvictim,
    ?_, ?_, honly.cgu, ?_, ?_⟩
  · rw [honly.stu]
    exact hrest
  · have hcgu : (s.learn m st).cgu.count = (s.removeRecord v).cgu.count := congrArg Cgu.count honly.cgu
    rw [hcgu]
    refine hpending.trans (State.raiseTogether_pending_congr _ ?_ ?_ ?_ ?_) <;> rw [State.removeRecord_eq] <;> rfl
  · rw [honly.cgu, honly.stu]
    exact (s.removeRecord_count v).1.trans (flagged_insertRecord rfl _).symm
  · rw [honly.stu, honly.cgu, honly.rmu]
    have hparts := s.removeRecord_onlyTable v
    generalize (s.removeRecord v).newRecord m st v.slot = r at honly ⊢
    rw [hparts] at honly
    exact honly

/-! ## Samples (R55, R136) -/

theorem rxSignal_eq (w5 : Word) :
    (field w5 0 8 = 128 → rxSignal w5 = none) ∧ (field w5 0 8 < 128 → rxSignal w5 = some 0)
      ∧ (128 < field w5 0 8 → rxSignal w5 = some ((field w5 0 8 : Int) - 256)) := by
  have hlt := field_lt w5 0 8
  unfold rxSignal
  generalize field w5 0 8 = n at *
  refine ⟨fun h => ?_, fun h => ?_, fun h => ?_⟩
  · subst h
    rfl
  · have hv : signed 8 n = n := if_pos (by omega)
    rw [hv, if_neg (by omega)]
    split <;> exact congrArg some (by omega)
  · have hv : signed 8 n = (n : Int) - 256 := if_neg (by omega)
    rw [hv, if_neg (by omega), if_neg (by omega)]

theorem State.putRecord_self {s : State} (hs : TableProper s) {r : Station} (hr : r ∈ s.stu.stations) : s.putRecord r = s := by
  have hid : s.stu.stations.map (fun q => if q.slot = r.slot then r else q) = s.stu.stations := by
    refine (List.map_congr_left fun q hq => ?_).trans (List.map_id _)
    split
    · next h => exact TableOf.eq_of_slot hs hr hq h.symm
    · rfl
  rw [State.putRecord, hid]

theorem putEstimate_find_same (node : Nat) (v : Int) (es : List Estimate) :
    (putEstimate node v es).find? (fun e => e.node == node) = some { node := node, value := v, age := 0 } := by
  induction es with
  | nil => simp [putEstimate]
  | cons e es ih =>
    unfold putEstimate
    split
    · simp
    · split
      · simp
      · next hlt hne =>
        rw [List.find?_cons_of_neg (by simpa using Ne.symm hne)]
        exact ih

theorem putEstimate_find_other {node n : Nat} (h : n ≠ node) (v : Int) (es : List Estimate) :
    (putEstimate node v es).find? (fun e => e.node == n) = es.find? (fun e => e.node == n) := by
  induction es with
  | nil => simp [putEstimate, Ne.symm h]
  | cons e es ih =>
    unfold putEstimate
    split
    · rw [List.find?_cons_of_neg (by simpa using Ne.symm h)]
    · split
      · next heq =>
        rw [List.find?_cons_of_neg (by simpa using Ne.symm h), List.find?_cons_of_neg (by simpa [← heq] using Ne.symm h)]
      · rw [List.find?_cons, List.find?_cons, ih]

theorem State.sample_of_unrecorded {s : State} {m : Mac} (h : s.recordOf m = none) (sig : Option Int) : s.sample m sig = s := by
  rw [State.sample, h]

theorem State.sample_of_recorded {s : State} {m : Mac} {r : Station} (h : s.recordOf m = some r) (sig : Option Int) :
    s.sample m sig = s.putRecord (sampleRecord s.suc.node sig r) := by
  rw [State.sample, h]

/-- No measurement leaves the table (R136). -/
theorem State.sample_of_no_measurement {s : State} (hs : TableProper s) (m : Mac) : s.sample m none = s := by
  cases h : s.recordOf m with
  | none => exact State.sample_of_unrecorded h none
  | some r => exact (State.sample_of_recorded h none).trans (State.putRecord_self hs (State.recordOf_some h).1)

/-- A sample moves the estimate by an eighth of the way, rounded toward it, and by at least 1 (R136). -/
theorem smooth_spec (est sig : Int) :
    let d := 16 * sig - est
    (0 < d → smooth est sig = est + max 1 (d / 8) ∧ smooth est sig ≤ 16 * sig)
      ∧ (d < 0 → smooth est sig = est - max 1 (-d / 8) ∧ 16 * sig ≤ smooth est sig)
      ∧ (d = 0 → smooth est sig = est) := by
  dsimp only
  refine ⟨fun h => ?_, fun h => ?_, fun h => ?_⟩
  · have hstep : Int.tdiv (16 * sig - est) 8 = (16 * sig - est) / 8 := Int.tdiv_eq_ediv_of_nonneg h.le
    unfold smooth
    dsimp only
    rw [hstep]
    split <;> omega
  · have hstep : Int.tdiv (16 * sig - est) 8 = -(-(16 * sig - est) / 8) := by
      rw [← Int.tdiv_eq_ediv_of_nonneg (by omega), Int.neg_tdiv, Int.neg_neg]
    unfold smooth
    dsimp only
    rw [hstep]
    split <;> omega
  · unfold smooth
    dsimp only
    rw [h]
    simp

/-- Settles O28: observations of a record and of an unknown address, the victim, and samples. -/
theorem observationsLearnAndSample : Obligations.ObservationsLearnAndSample := by
  refine ⟨fun m k r s hr => ⟨State.observe_of_recorded hr k, observeRecord_eq k r, fun n hs hk hn => backReport_of_back hs hk hn,
      backReport_of_none⟩, fun m s hm => ?unknown, fun s hs => ⟨State.victim_eq_none_iff hs, fun v hv => State.victim_eq_some hs hv⟩,
    rxSignal_eq, fun m v s => ⟨fun hm => ⟨State.sample_of_unrecorded hm _, State.sample_of_unrecorded hm _⟩,
      fun hs => State.sample_of_no_measurement hs m, fun r hr => ?sampled⟩, smooth_spec⟩
  case unknown =>
    obtain ⟨hdisassoc, hother, hlearn⟩ := State.observe_of_unknown hm
    refine ⟨hdisassoc, hother, fun k hk => ?_⟩
    dsimp only
    rw [hlearn k hk]
    generalize hst : (if k = .probe then StationState.idle else .associated) = st
    have hhold : holdFor st = if k = .probe then some 60 else none := hst ▸ holdFor_learned k
    refine ⟨fun slot hslot => ?_, fun hfree hv => State.learn_of_none hfree hv m st, fun v hfree hv hs => ?_⟩
    · obtain ⟨hfound, hrest, hpending, hcgu, honly⟩ := State.learn_freeSlot_spec hm hslot st
      have hnew := State.newRecord_asNew (s := s) (s1 := s) m st slot rfl fun _ _ h => h
      dsimp only at hnew
      rw [hhold] at hnew
      have hmult : (s.learn m st).multiplier false = s.multiplier false := by
        rw [State.multiplier_eq, State.multiplier_eq, hcgu, honly.policy]
      rw [hmult]
      exact ⟨_, hfound, rfl, hnew, hrest, hpending, honly⟩
    · obtain ⟨hfound, hvictim, hrest, hpending, hcgu, hcount, honly⟩ := State.learn_victim_spec hs hm hfree hv st
      have hnew := State.newRecord_asNew (s := s) (s1 := s.removeRecord v) m st v.slot
        (s.removeRecord_blankRecord v m st v.slot) fun _ _ => State.removeRecord_startedAt
      dsimp only at hnew hcount hpending
      rw [hhold] at hnew
      have hmult : (s.learn m st).multiplier false = (s.removeRecord v).multiplier false := by
        have hpolicy : (s.removeRecord v).policy = s.policy := by rw [State.removeRecord_eq]
        rw [State.multiplier_eq, State.multiplier_eq, hcgu, honly.policy, hpolicy]
      rw [hmult]
      refine ⟨_, hfound, rfl, hnew, hvictim, hrest, fun hg => ?_, fun hg => ?_, hcount, honly⟩
      · rw [hpending, freedEdge, if_neg (by simp [hg]), State.raiseTogether_single]
        rfl
      · rw [hpending, freedEdge, if_pos hg]
  case sampled =>
    refine ⟨sampleRecord s.suc.node (some v) r, State.sample_of_recorded hr _, rfl, fun n hn => putEstimate_find_other hn _ _,
      fun hno => ?_, fun e he => ?_⟩
    · refine (putEstimate_find_same _ _ _).trans ?_
      rw [hno]
    · refine (putEstimate_find_same _ _ _).trans ?_
      rw [he]

end Sys2Proof.Machine

/-! PROOFS. IMPORT_CONTEXT (section 4.9): what it refuses, and the record it finds or creates. -/
namespace Sys2Proof.Machine

theorem OnlyReports.recordOf {s t : State} (h : OnlyReports s t) (m : Mac) : t.recordOf m = s.recordOf m :=
  congrArg (fun rs : List Station => rs.find? (fun r : Station => r.addr == m)) (congrArg Stu.stations h.stu)

/-! ## A record replaced in its slot -/

theorem State.putRecord_tableProper {s : State} (hs : TableProper s) {r p : Station} (hr : r ∈ s.stu.stations)
    (hslot : p.slot = r.slot) (haddr : p.addr = r.addr) : TableProper (s.putRecord p) := by
  refine TableOf.map hs fun q hq => ?_
  split
  · next h =>
    obtain rfl := TableOf.eq_of_slot hs hq hr (h.trans hslot)
    exact ⟨hslot, haddr⟩
  · exact ⟨rfl, rfl⟩

theorem State.putRecord_mem {s : State} {r p : Station} (hr : r ∈ s.stu.stations) (hslot : p.slot = r.slot) :
    p ∈ (s.putRecord p).stu.stations := List.mem_map.2 ⟨r, hr, if_pos hslot.symm⟩

theorem State.putRecord_recordOf_same {s : State} (hs : TableProper s) {r p : Station} (hr : r ∈ s.stu.stations)
    (hslot : p.slot = r.slot) (haddr : p.addr = r.addr) : (s.putRecord p).recordOf p.addr = some p :=
  State.recordOf_of_mem (State.putRecord_tableProper hs hr hslot haddr) (State.putRecord_mem hr hslot)

theorem State.putRecord_others (s : State) (p : Station) :
    (s.putRecord p).stu.stations.filter (fun q => q.slot != p.slot) = s.stu.stations.filter (fun q => q.slot != p.slot) := by
  rw [State.putRecord_stu]
  generalize s.stu.stations = rs
  induction rs with
  | nil => rfl
  | cons q rs ih =>
    rw [List.map_cons]
    by_cases h : q.slot = p.slot
    · rw [if_pos h, List.filter_cons_of_neg (by simp), List.filter_cons_of_neg (by simp [h]), ih]
    · rw [if_neg h, List.filter_cons_of_pos (by simp [h]), List.filter_cons_of_pos (by simp [h]), ih]

/-! ## The game-active count taken again (R93, R94) -/

/-- One record where contention turns to `c`. -/
def markIn (old c : Bool) (r : Station) : Station := if old = c then r else { r with mark := true }

theorem markIn_eq (old c : Bool) (r : Station) : markIn old c r = { r with mark := (markIn old c r).mark } := by
  unfold markIn
  split <;> rfl

theorem markIn_addr (old c : Bool) (r : Station) : (markIn old c r).addr = r.addr := by
  rw [markIn_eq]

theorem markedFor_eq (old c : Bool) (rs : List Station) : markedFor old c rs = rs.map (markIn old c) := by
  unfold markedFor
  split
  · next h =>
    have hid : markIn old c = id := funext fun r => if_pos h
    rw [hid, List.map_id]
  · next h => exact List.map_congr_left fun r _ => (if_neg h).symm

/-- The count taken again of the table as it stands. -/
def State.recounted (s : State) : State := s.setGameCount (flagged s.stu.stations)

theorem State.recounted_eq (s : State) :
    s.recounted = { s with
      cgu.count := flagged s.stu.stations, cgu.contention := decide (0 < flagged s.stu.stations)
      stu.stations := markedFor s.cgu.contention (decide (0 < flagged s.stu.stations)) s.stu.stations } :=
  State.setGameCount_eq _ s

theorem State.recounted_unmarked (s : State) : unmarked s.recounted.stu.stations = unmarked s.stu.stations := by
  rw [State.recounted_eq]
  exact markedFor_unmarked _ _ _

theorem State.recounted_count (s : State) : s.recounted.cgu.count = flagged s.recounted.stu.stations := by
  rw [flagged_congr s.recounted_unmarked, State.recounted_eq]

/-- A record is found after the count as before it, but for its mark. -/
theorem State.recounted_recordOf {s : State} {m : Mac} {r : Station} (h : s.recordOf m = some r) :
    ∃ b, s.recounted.recordOf m = some { r with mark := b } := by
  have hfind : s.recounted.recordOf m
      = (s.recordOf m).map (markIn s.cgu.contention (decide (0 < flagged s.stu.stations))) := by
    rw [State.recounted_eq, State.recordOf, markedFor_eq, List.find?_map]
    refine congrArg (Option.map _) (congrArg (fun p => s.stu.stations.find? p) (funext fun q => ?_))
    exact congrArg (fun a => a == m) (markIn_addr _ _ q)
  rw [hfind, h, Option.map_some, markIn_eq]
  exact ⟨_, rfl⟩

theorem State.recounted_recordOf_none {s : State} {m : Mac} (h : s.recordOf m = none) : s.recounted.recordOf m = none := by
  rw [State.recordOf_eq_none_iff] at h ⊢
  have hmap := unmarked_map_eq s.recounted_unmarked (fun r => r.addr) fun _ => rfl
  intro r hr haddr
  obtain ⟨q, hq, hqr⟩ := List.mem_map.1 (hmap ▸ List.mem_map_of_mem (f := fun r : Station => r.addr) hr)
  exact h q hq (hqr.trans haddr)

/-! ## The imported context (R81, R82) -/

theorem contextOf_eq_none_iff (q : Request) :
    contextOf q = none ↔
      2 < q.arg 2 ∨ (q.arg 2 = 2 ∧ (q.arg 3 = 0 ∨ 86400 < q.arg 3)) ∨ 14400 < q.arg 4 ∨ 4096 < q.arg 5 ∨ 4 < q.arg 8
        ∨ (bit (q.args.getD 6 0) 0 = true ∧ (q.arg 7 = 0 ∨ 300 < q.arg 7)) ∨ (q.arg 2 ≠ 0 ∧ q.arg 4 ≠ 0) := by
  simp only [contextOf, ite_eq_left_iff, reduceCtorEq, imp_false, not_not, Nat.lt_one_iff]

/-- The record a context is written into, before the AU: R81's state and the context's fields. -/
theorem State.importFields_spec (s : State) (c : Context) (r : Station) :
    let r1 := s.importFields c (importState r)
    r1 = { r with
        state := r1.state, hold := r1.hold, level := r1.level
        current := if r.state = .away then none else r.current
        pause := c.pause, ext := c.ext, failures := c.failures
        gameActive := r.gameActive || c.active, linger := if c.active = true then c.linger else r.linger }
      ∧ r1.state = (if r.state = .associated ∨ r.state = .steering then r.state else .expected)
      ∧ r1.hold = (if r.state = .associated ∨ r.state = .steering then r.hold else some 30)
      ∧ r1.level = moveLevel (s.slopeOf r) c.pause.inForce (s.stationTarget r1) (max c.level (s.stationTarget r1)) := by
  obtain ⟨_, _, st, _, _, _, _, _, _, _, _, _, _, _, _, _, _, _, _, _, _, _, _, _, _, _, _, _⟩ := r
  cases st <;> exact ⟨rfl, rfl, rfl, rfl⟩

theorem importedEdge_eq (r r1 : Station) (c : Context) (n : Nat) (h : r1.gameActive = (r.gameActive || c.active)) :
    importedEdge r r1 n
      = if r.gameActive = false ∧ c.active = true then [.gameEdge r.addr true .imported n] else [] := by
  rw [importedEdge, h]
  cases r.gameActive <;> rfl

/-! ## The row -/

/-- What the import makes of a recorded station's state. -/
def State.importFound (s : State) (c : Context) (r : Station) : State :=
  let r1 := s.importFields c (importState r)
  let s2 := (s.putRecord (s.rateChange r1)).recounted
  s2.raiseTogether [importEdges r.addr r.level r1.level (s.stationTarget r1), importedEdge r r1 s2.cgu.count]

/-- What it makes of an unrecorded station's, in a slot of the state in which room has been made. -/
def State.importCreated (s : State) (c : Context) (m : Mac) (k : Nat) (freed edges : List ReportBody) : State :=
  let r := s.blankRecord m .expected k
  let r1 := s.importFields c r
  let s3 := (s.addRecord (s.startAllowance r1)).recounted
  s3.raiseTogether [freed ++ [.stationLearned m .expected], edges ++ importedEdge r r1 s3.cgu.count,
    importEdges r.addr r.level r1.level (s.stationTarget r1)]

section
variable {q : Request} {s : State} (h : s.HasRequest 6 q)
include h

theorem exec_importContext_range (hc : contextOf q = none) : exec .importContext s = .next (s.answer q .range 0) := by
  obtain ⟨hslot, hreq, hkind⟩ := h
  have hrow : exec .importContext s = execImportContext s := rfl
  rw [hrow, execImportContext, State.onRequest_pending (accepts := fun k => k == 6#32) _ hslot hreq (by simp [hkind]), hc]

theorem exec_importContext_found {c : Context} {r : Station} (hc : contextOf q = some c) (hr : s.recordOf q.station = some r) :
    exec .importContext s = .next ((s.importFound c r).answer q .done 0) := by
  obtain ⟨hslot, hreq, hkind⟩ := h
  have hrow : exec .importContext s = execImportContext s := rfl
  rw [hrow, execImportContext, State.onRequest_pending (accepts := fun k => k == 6#32) _ hslot hreq (by simp [hkind]), hc, hr]
  rfl

theorem exec_importContext_full {c : Context} (hc : contextOf q = some c) (hr : s.recordOf q.station = none)
    (hroom : s.makeRoom = none) : exec .importContext s = .next (s.answer q .tableFull 0) := by
  obtain ⟨hslot, hreq, hkind⟩ := h
  have hrow : exec .importContext s = execImportContext s := rfl
  rw [hrow, execImportContext, State.onRequest_pending (accepts := fun k => k == 6#32) _ hslot hreq (by simp [hkind]), hc, hr,
    hroom]

theorem exec_importContext_created {c : Context} {k : Nat} {s1 : State} {freed edges : List ReportBody}
    (hc : contextOf q = some c) (hr : s.recordOf q.station = none) (hroom : s.makeRoom = some (k, s1, freed, edges)) :
    exec .importContext s = .next ((s1.importCreated c q.station k freed edges).answer q .done 0) := by
  obtain ⟨hslot, hreq, hkind⟩ := h
  have hrow : exec .importContext s = execImportContext s := rfl
  rw [hrow, execImportContext, State.onRequest_pending (accepts := fun k => k == 6#32) _ hslot hreq (by simp [hkind]), hc, hr,
    hroom]
  rfl

end

/-- An import into a record: the record after it, the rest of the table, the count and the reports. -/
theorem State.importFound_spec {s : State} (hs : TableProper s) {m : Mac} {r : Station} (hr : s.recordOf m = some r) (c : Context) :
    let t := s.importFound c r
    let r1 := s.importFields c (importState r)
    (∃ b, t.recordOf m = some { s.rateChange r1 with mark := b })
      ∧ unmarked (t.stu.stations.filter (fun p => p.slot != r.slot))
          = unmarked (s.stu.stations.filter (fun p => p.slot != r.slot))
      ∧ t.cgu.count = flagged t.stu.stations
      ∧ t.cau.pending = (s.raiseTogether
          [importEdges r.addr r.level r1.level (s.stationTarget r1), importedEdge r r1 t.cgu.count]).cau.pending
      ∧ OnlyReports { s with stu.stations := t.stu.stations, cgu := t.cgu } t := by
  obtain ⟨hmem, haddr⟩ := State.recordOf_some hr
  obtain ⟨hr1, -⟩ := s.importFields_spec c r
  set r1 := s.importFields c (importState r) with hr1def
  have hslot1 : (s.rateChange r1).slot = r.slot := (congrArg Station.slot hr1).trans rfl
  have haddr1 : (s.rateChange r1).addr = r.addr := (congrArg Station.addr hr1).trans rfl
  set s2 := (s.putRecord (s.rateChange r1)).recounted with hs2
  have honly : OnlyReports s2 (s.importFound c r) := (State.raiseTogether_runs _ _).onlyReports
  have hput := State.putRecord_recordOf_same hs hmem hslot1 haddr1
  rw [haddr1, haddr] at hput
  obtain ⟨b, hb⟩ := State.recounted_recordOf hput
  refine ⟨⟨b, (honly.recordOf m).trans hb⟩, ?_, ?_, ?_, ?_⟩
  · rw [honly.stu, ← hslot1, unmarked_slotFilter (State.recounted_unmarked _), State.putRecord_others]
  · rw [honly.cgu, honly.stu, hs2, State.recounted_count]
  · rw [honly.cgu]
    refine State.raiseTogether_pending_congr _ ?_ ?_ ?_ ?_ <;> rw [State.recounted_eq] <;> rfl
  · rw [honly.stu, honly.cgu]
    have hparts : s2 = { s with stu.stations := s2.stu.stations, cgu := s2.cgu } := by
      rw [hs2, State.recounted_eq]
      rfl
    rw [hparts] at honly
    exact honly

/-- An import that creates a record, in a state in which a slot is free for it. -/
theorem State.importCreated_spec {s : State} {m : Mac} (hm : s.recordOf m = none) (c : Context) (k : Nat)
    (freed edges : List ReportBody) :
    let t := s.importCreated c m k freed edges
    let r := s.blankRecord m .expected k
    let r1 := s.importFields c r
    (∃ b, t.recordOf m = some { s.startAllowance r1 with mark := b })
      ∧ (∀ n, n ≠ m → s.recordOf n = none → t.recordOf n = none)
      ∧ unmarked (t.stu.stations.filter (fun p => p.slot != k)) = unmarked (s.stu.stations.filter (fun p => p.slot != k))
      ∧ t.cgu.count = flagged t.stu.stations
      ∧ (c.active = false → t.cgu.count = flagged s.stu.stations) ∧ t.cgu.contention = decide (0 < t.cgu.count)
      ∧ t.cau.pending = (s.raiseTogether
          [freed ++ [.stationLearned m .expected], edges ++ importedEdge r r1 t.cgu.count,
           importEdges r.addr r.level r1.level (s.stationTarget r1)]).cau.pending
      ∧ OnlyReports { s with stu.stations := t.stu.stations, cgu := t.cgu } t := by
  intro t r r1
  set s3 := (s.addRecord (s.startAllowance r1)).recounted with hs3
  have honly : OnlyReports s3 t := (State.raiseTogether_runs _ _).onlyReports
  have hadd : (s.addRecord (s.startAllowance r1)).recordOf m = some (s.startAllowance r1) :=
    State.addRecord_recordOf_same (r := s.startAllowance r1) hm
  obtain ⟨b, hb⟩ := State.recounted_recordOf hadd
  refine ⟨⟨b, (honly.recordOf m).trans hb⟩, fun n hn hnone => ?_, ?_, ?_, fun hc => ?_, ?_, ?_, ?_⟩
  · refine (honly.recordOf n).trans (State.recounted_recordOf_none ?_)
    exact (State.addRecord_recordOf_other (s.startAllowance r1) s (Ne.symm hn)).trans hnone
  · rw [honly.stu, unmarked_slotFilter (State.recounted_unmarked _)]
    exact congrArg unmarked (insertRecord_filter_other (p := fun q => q.slot != k) (r := s.startAllowance r1)
      (by simp [r1, State.importFields, r, State.blankRecord]) _)
  · rw [honly.cgu, honly.stu, hs3, State.recounted_count]
  · rw [honly.cgu, hs3, State.recounted_eq]
    exact flagged_insertRecord (r := s.startAllowance r1) (by simp [r1, State.importFields, r, State.blankRecord, hc]) _
  · rw [honly.cgu, hs3, State.recounted_eq]
  · rw [honly.cgu]
    refine State.raiseTogether_pending_congr _ ?_ ?_ ?_ ?_ <;> rw [State.recounted_eq] <;> rfl
  · rw [honly.stu, honly.cgu]
    have hparts : s3 = { s with stu.stations := s3.stu.stations, cgu := s3.cgu } := by
      rw [hs3, State.recounted_eq]
      rfl
    rw [hparts] at honly
    exact honly

theorem importEdges_eq (m : Mac) (l0 l1 t1 : Nat) :
    importEdges m l0 l1 t1 = if 0 < l0 ∧ l1 = 0 then [.levelEdge m .gated 0 t1]
      else if l0 = 0 ∧ 0 < l1 then [.levelEdge m .opened l1 t1] else [] := by
  unfold importEdges
  split
  · next h => rw [h.2]
  · rfl

/-- A record that an import is created for is in R81's state already. -/
theorem State.blankRecord_importState (s : State) (m : Mac) (k : Nat) :
    importState (s.blankRecord m .expected k) = s.blankRecord m .expected k := rfl

/-- Reports of one unit alone keep their order, whatever the others' empty lists. -/
theorem State.raiseTogether_single_of_three (bs : List ReportBody) (s : State) :
    (s.raiseTogether [bs, [], []]).cau.pending = (s.raiseAll bs).cau.pending := by
  have hmerge : (mergeUnits s.freeIdx [bs, [], []]).1 = bs := mergeFree_nil_right _ _ _
  unfold State.raiseTogether
  dsimp only
  rw [hmerge]
  exact State.raiseAll_pending_congr bs rfl rfl rfl

/-- What the AU leaves of the record of an import (R108, R112), with the mark that a change of contention sets. -/
theorem Station.imported_fields {r1 p : Station} (h : r1 = p) (tokens : Int) (rate cap : Nat) (settled : BitVec 32) (mark : Bool) :
    ({ r1 with tokens := tokens, rate := rate, cap := cap, settled := settled, mark := mark } : Station)
      = { p with tokens := tokens, rate := rate, cap := cap, settled := settled, mark := mark } := by rw [h]

theorem State.removeRecord_importFields (v : Station) (s : State) (c : Context) (r : Station) :
    (s.removeRecord v).importFields c r = s.importFields c r := by
  rw [State.removeRecord_eq]
  rfl

/-- The multiplier of a record that an import has created: its contention is the one of the table without the victim, unless
the import brings a game session. -/
theorem State.multiplier_imported {s t : State} {active : Bool} (hpolicy : t.policy = s.policy)
    (hc : active = false → t.cgu.contention = s.cgu.contention) : t.multiplier active = s.multiplier active := by
  unfold State.multiplier
  cases active with
  | true => rw [if_neg (by simp), if_neg (by simp)]
  | false => rw [hpolicy, hc rfl]

/-- An import into the slot of R72's victim. -/
theorem State.importVictim_spec {s : State} (hs : TableProper s) {v : Station} (hv : v ∈ s.stu.stations) {m : Mac}
    (hm : s.recordOf m = none) {c : Context} {t : State}
    (ht : (s.removeRecord v).importCreated c m v.slot [.stationFreed v.addr v.state .evicted]
      (freedEdge v (s.removeRecord v).cgu.count) = t) :
    let r := s.blankRecord m .expected v.slot
    let r1 := s.importFields c r
    (∃ tokens rate cap settled mark,
        let r' := { r1 with tokens := tokens, rate := rate, cap := cap, settled := settled, mark := mark }
        t.recordOf m = some r' ∧ r'.StartedAt s (t.multiplier c.active))
      ∧ t.recordOf v.addr = none
      ∧ unmarked (t.stu.stations.filter (fun p => p.slot != v.slot))
          = unmarked (s.stu.stations.filter (fun p => p.slot != v.slot))
      ∧ t.cgu.count = flagged t.stu.stations
      ∧ t.cau.pending = (s.raiseTogether
          [[.stationFreed v.addr v.state .evicted, .stationLearned m .expected],
           freedEdge v (flagged (withoutSlot v.slot s.stu.stations)) ++ importedEdge r r1 t.cgu.count,
           importEdges r.addr r.level r1.level (s.stationTarget r1)]).cau.pending
      ∧ OnlyReports { s with stu.stations := t.stu.stations, cgu := t.cgu, rmu.summaries := t.rmu.summaries } t := by
  intro r r1
  obtain ⟨⟨b, hfound⟩, hnone, hothers, hcount, hsame, hcontention, hpending, honly⟩ :=
    State.importCreated_spec (State.removeRecord_recordOf_none hm v) c v.slot [.stationFreed v.addr v.state .evicted]
      (freedEdge v (s.removeRecord v).cgu.count)
  rw [State.removeRecord_blankRecord, State.removeRecord_importFields] at hfound hpending
  rw [ht] at hfound hnone hothers hcount hsame hcontention hpending honly
  obtain ⟨hcount1, hcontention1⟩ := s.removeRecord_count v
  have hmult : t.multiplier c.active = (s.removeRecord v).multiplier c.active :=
    State.multiplier_imported honly.policy fun hc => by rw [hcontention, hcontention1, hsame hc, hcount1]
  have hne : v.addr ≠ m := (s.recordOf_eq_none_iff m).1 hm v hv
  refine ⟨⟨_, _, _, _, b, hfound, ?_⟩, hnone _ hne (State.removeRecord_recordOf hs hv), hothers.trans ?_, hcount,
    hpending.trans ?_, ?_⟩
  · rw [hmult]
    exact State.removeRecord_startedAt ((s.removeRecord v).startAllowance_startedAt r1)
  · rw [unmarked_slotFilter (s.removeRecord_unmarked v)]
    exact congrArg unmarked (withoutSlot_idem v.slot s.stu.stations)
  · rw [State.removeRecord_eq]
    exact State.raiseTogether_pending_congr _ rfl rfl rfl rfl
  · have hsummaries : t.rmu.summaries = (s.removeRecord v).rmu.summaries := congrArg Rmu.summaries honly.rmu
    have hparts := s.removeRecord_onlyTable v
    rw [hsummaries]
    rw [hparts] at honly
    exact honly

theorem State.blankRecord_fields (s : State) (m : Mac) (st : StationState) (k : Nat) :
    (s.blankRecord m st k).slot = k ∧ (s.blankRecord m st k).state = st
      ∧ (s.blankRecord m st k).level = (s.profileOf (s.blankRecord m st k).profile).target
      ∧ (s.blankRecord m st k).gameActive = false ∧ (s.blankRecord m st k).linger = 0 := ⟨rfl, rfl, rfl, rfl, rfl⟩

/-- What an import writes is no part of what a created record begins with elsewhere. -/
theorem Station.FreshIn.imported {s : State} {m : Mac} {r : Station} (h : r.FreshIn s m) (st : StationState) (hold : Option Nat)
    (level : Nat) (pause : Pause) (ext failures : Nat) (active : Bool) (linger : Nat) (tokens : Int) (rate cap : Nat)
    (settled : BitVec 32) (mark : Bool) :
    Station.FreshIn s m { r with
      state := st, hold := hold, level := level, current := if r.state = .away then none else r.current
      pause := pause, ext := ext, failures := failures, gameActive := active, linger := linger
      tokens := tokens, rate := rate, cap := cap, settled := settled, mark := mark } := by
  obtain ⟨haddr, hage, hcount, hsustain, hestimates, hdwell, hcandidate, hsteer, htimer, hbackoff, hcurrent, hmovable, hpin⟩ := h
  exact ⟨haddr, hage, hcount, hsustain, hestimates, hdwell, hcandidate, hsteer, htimer, hbackoff, by simp [hcurrent], hmovable,
    hpin⟩

/-- Settles O41: RANGE and TABLE_FULL, the record found, the record created in a FREE slot, and that in the victim's. -/
theorem importContextRequest : Obligations.ImportContextRequest := by
  intro q s hq
  refine ⟨contextOf_eq_none_iff q, exec_importContext_range hq, fun c hc => ⟨exec_importContext_full hq hc, ?_⟩,
    fun k => ⟨s.blankRecord_freshIn q.station .expected k, s.blankRecord_fields q.station .expected k⟩, ?_⟩
  · rintro r (hr | ⟨hr, k, hk, rfl⟩) hs
    · obtain ⟨⟨b, hfound⟩, hothers, hcount, hpending, honly⟩ := State.importFound_spec hs hr c
      obtain ⟨hr1, hstate, hhold, hlevel⟩ := s.importFields_spec c r
      have hexec := exec_importContext_found hq hc hr
      generalize s.importFound c r = t at *
      generalize s.importFields c (importState r) = r1 at *
      obtain ⟨r', hr'⟩ : ∃ r', r' = ({ s.rateChange r1 with mark := b } : Station) := ⟨_, rfl⟩
      have hfields := hr'.trans (Station.imported_fields hr1 _ _ _ _ b)
      have hlevel' : r'.level = r1.level := (congrArg Station.level hr').trans rfl
      have htarget : s.stationTarget r' = s.stationTarget r1 := (congrArg s.stationTarget hr').trans rfl
      rw [← hr'] at hfound
      rw [importEdges_eq, importedEdge_eq _ _ c _ ((congrArg Station.gameActive hr1).trans rfl), ← hlevel', ← htarget] at hpending
      rw [← hlevel', ← htarget] at hlevel
      refine ⟨t, r', hexec, hfound, (congrArg Station.slot hfields).trans rfl, ((congrArg Station.state hr').trans rfl).trans hstate,
        ((congrArg Station.hold hr').trans rfl).trans hhold, ⟨?_, fun _ => ?_, fun hno => by simp [hr] at hno⟩, hothers, hcount,
        fun _ => hpending, fun hno => by simp [hr] at hno, hlevel, honly⟩
      · rw [hr']
        exact Station.imported_fields hr1 _ _ _ _ b
      · rw [hr']
        exact congrArg s.rateChange hr1
    · obtain ⟨⟨b, hfound⟩, -, hothers, hcount, -, -, hpending, honly⟩ := State.importCreated_spec hr c k [] []
      obtain ⟨hr1, hstate, hhold, hlevel⟩ := s.importFields_spec c (s.blankRecord q.station .expected k)
      have hstarted := s.startAllowance_startedAt (s.importFields c (s.blankRecord q.station .expected k))
      have hexec := exec_importContext_created hq hc hr (State.makeRoom_of_freeSlot hk)
      rw [State.blankRecord_importState] at hr1 hstate hhold hlevel
      obtain ⟨hslotR, -, -, hactiveR, -⟩ := s.blankRecord_fields q.station .expected k
      have haddrR := (s.blankRecord_freshIn q.station .expected k).1
      generalize s.importCreated c q.station k [] [] = t at *
      generalize s.blankRecord q.station .expected k = r at *
      generalize s.importFields c r = r1 at *
      have hactive : r1.gameActive = c.active := (congrArg Station.gameActive hr1).trans (by rw [hactiveR, Bool.false_or])
      obtain ⟨r', hr'⟩ : ∃ r', r' = ({ s.startAllowance r1 with mark := b } : Station) := ⟨_, rfl⟩
      have hlevel' : r'.level = r1.level := (congrArg Station.level hr').trans rfl
      have htarget : s.stationTarget r' = s.stationTarget r1 := (congrArg s.stationTarget hr').trans rfl
      rw [← hr'] at hfound
      rw [hactive] at hstarted
      rw [importEdges_eq, importedEdge_eq _ _ c _ (hactive.trans (by rw [hactiveR, Bool.false_or])), hactiveR, haddrR,
        ← hlevel', ← htarget] at hpending
      simp only [true_and, List.nil_append] at hpending
      rw [← hlevel', ← htarget] at hlevel
      refine ⟨t, r', hexec, hfound, ((congrArg Station.slot hr').trans rfl).trans ((congrArg Station.slot hr1).trans rfl),
        ((congrArg Station.state hr').trans rfl).trans hstate, ((congrArg Station.hold hr').trans rfl).trans hhold,
        ⟨?_, fun hno => by simp [hr] at hno, fun _ => ?_⟩, hslotR.symm ▸ hothers, hcount, fun hno => by simp [hr] at hno,
        fun _ => hpending, hlevel, honly⟩
      · rw [hr']
        exact Station.imported_fields hr1 _ _ _ _ b
      · rw [hr']
        exact hstarted
  · intro c v hc hr hk hv hs
    have hexec := exec_importContext_created hq hc hr (State.makeRoom_of_victim hk hv)
    generalize ht : (s.removeRecord v).importCreated c q.station v.slot [.stationFreed v.addr v.state .evicted]
      (freedEdge v (s.removeRecord v).cgu.count) = t at hexec
    obtain ⟨⟨tokens, rate, cap, settled, b, hfound, hstarted⟩, hvictim, hothers, hcount, hpending, honly⟩ :=
      State.importVictim_spec hs (State.victim_eq_some hs hv).1 hr ht
    obtain ⟨hr1, hstate, hhold, hlevel⟩ := s.importFields_spec c (s.blankRecord q.station .expected v.slot)
    rw [State.blankRecord_importState] at hr1 hstate hhold hlevel
    generalize v.slot = k at *
    have hblank : (s.blankRecord q.station .expected k).FreshIn s q.station := s.blankRecord_freshIn q.station .expected k
    obtain ⟨hslotR, hstateR, hlevelR, hactiveR, hlingerR⟩ := s.blankRecord_fields q.station .expected k
    generalize s.blankRecord q.station .expected k = r at *
    generalize s.importFields c r = r1 at *
    have hactive : r1.gameActive = c.active := (congrArg Station.gameActive hr1).trans (by rw [hactiveR, Bool.false_or])
    have hpause : r1.pause = c.pause := (congrArg Station.pause hr1).trans rfl
    have hext : r1.ext = c.ext := (congrArg Station.ext hr1).trans rfl
    have hfailures : r1.failures = c.failures := (congrArg Station.failures hr1).trans rfl
    have hlinger : r1.linger = if c.active = true then c.linger else 0 := (congrArg Station.linger hr1).trans (by rw [hlingerR])
    obtain ⟨r', hr'⟩ : ∃ r', r' =
        ({ r1 with tokens := tokens, rate := rate, cap := cap, settled := settled, mark := b } : Station) := ⟨_, rfl⟩
    have hfresh : r'.FreshIn s q.station := (hr'.trans (Station.imported_fields hr1 tokens rate cap settled b)) ▸
      hblank.imported _ _ _ _ _ _ _ _ tokens rate cap settled b
    have hlevel' : r'.level = r1.level := (congrArg Station.level hr').trans rfl
    have htarget : s.stationTarget r' = s.stationTarget r1 := (congrArg s.stationTarget hr').trans rfl
    have hprofile : r'.profile = r.profile := ((congrArg Station.profile hr').trans rfl).trans ((congrArg Station.profile hr1).trans rfl)
    have hslope : s.slopeOf r' = s.slopeOf r := by rw [State.slopeOf, State.slopeOf, hprofile]
    rw [hstateR] at hstate hhold
    rw [← hr'] at hfound hstarted
    rw [importEdges_eq, importedEdge_eq _ _ c _ (hactive.trans (by rw [hactiveR, Bool.false_or])), freedEdge, hlevelR,
      hactiveR, hblank.1, ← hlevel', ← htarget, withoutSlot, ← hprofile] at hpending
    simp only [true_and] at hpending
    rw [← hlevel', ← htarget, ← hslope] at hlevel
    refine ⟨t, r', hexec, hfound, hvictim, ((congrArg Station.slot hr').trans rfl).trans ((congrArg Station.slot hr1).trans hslotR),
      ((congrArg Station.state hr').trans rfl).trans hstate, ((congrArg Station.hold hr').trans rfl).trans hhold,
      ((congrArg Station.pause hr').trans rfl).trans hpause, ((congrArg Station.ext hr').trans rfl).trans hext,
      ((congrArg Station.failures hr').trans rfl).trans hfailures, ((congrArg Station.gameActive hr').trans rfl).trans hactive,
      ((congrArg Station.linger hr').trans rfl).trans hlinger, hfresh, hstarted, hlevel, hothers, hcount,
      fun hv0 hc0 hl => ?_, hpending, honly⟩
    rw [hpending, if_neg (by simp [hv0]), if_neg (by simp [hc0]), if_neg (by omega), if_neg (by omega)]
    exact State.raiseTogether_single_of_three [.stationFreed v.addr v.state .evicted, .stationLearned q.station .expected] s

end Sys2Proof.Machine

/-! PROOFS. The requests of the image session and of activation (sections 9.3, 9.6, 9.7, 10.1 and 10.5): what they refuse, the
session and the port they leave. -/
namespace Sys2Proof.Machine

/-! ## Requests in hand and reports raised -/

/-- A request in hand is given to its owner. -/
theorem State.HasRequest.onRequest {s : State} {n : Nat} {q : Request} (h : s.HasRequest (BitVec.ofNat 32 n) q)
    (owner : Request → State → State) : s.onRequest (fun k => k == BitVec.ofNat 32 n) owner = owner q s := by
  obtain ⟨hslot, hreq, hkind⟩ := h
  exact State.onRequest_pending owner hslot hreq (by simp [hkind])

theorem State.raise_onlyReports (b : ReportBody) (s : State) : OnlyReports s (s.raise b) := (s.raise_runs b).onlyReports

theorem State.raise_pending_congr (b : ReportBody) {s t : State} (htime : t.time = s.time)
    (hpending : t.cau.pending = s.cau.pending) (hgap : t.cau.gap = s.cau.gap) :
    (t.raise b).cau.pending = (s.raise b).cau.pending := State.raiseAll_pending_congr [b] htime hpending hgap

/-- Reports raised before a session ends: the session's end moves none of what a report can. -/
theorem OnlyReports.dropSession {s t : State} (h : OnlyReports s t) : OnlyReports s.dropSession t.dropSession :=
  (congrArg State.dropSession h.eq).trans rfl

theorem State.enterSession_eq (st : SessionState) (reason : Reason) (s : State) :
    s.enterSession st reason = State.raise (.imageState st reason s.imu.session.pages s.imu.session.version)
      { s with imu.session := { s.imu.session with state := st } } := rfl

theorem ceilDiv_eq {a b : Nat} (h : 0 < b) : ceilDiv a b = (a + (b - 1)) / b := by
  rw [ceilDiv, Nat.add_sub_assoc h]

/-! ## Drain mode left (R151) -/

theorem State.leaveDraining_of_draining {s : State} (h : s.imu.session.state = .draining) :
    s.leaveDraining = s.setDrain false := if_pos h

theorem State.leaveDraining_of_not {s : State} (h : s.imu.session.state ≠ .draining) : s.leaveDraining = s := if_neg h

/-- The session leaves DRAINING, if that is its state: drain mode and the records. -/
theorem State.leaveDraining_spec (s : State) :
    s.leaveDraining.rmu.drain = (s.rmu.drain && s.imu.session.state != .draining)
      ∧ (s.imu.session.state ≠ .draining → s.leaveDraining.stu.stations = s.stu.stations)
      ∧ (s.imu.session.state = .draining → s.leaveDraining.stu.stations = s.stu.stations.map (fun r =>
          { r with unmovable := false, dwell := 0, candidate := none }))
      ∧ s.leaveDraining = { s with rmu.drain := s.leaveDraining.rmu.drain, stu.stations := s.leaveDraining.stu.stations } := by
  by_cases h : s.imu.session.state = .draining
  · rw [State.leaveDraining_of_draining h]
    exact ⟨by simp [h], fun hne => absurd h hne, fun _ => rfl, rfl⟩
  · rw [State.leaveDraining_of_not h]
    exact ⟨by simp [h], fun _ => rfl, fun he => absurd he h, rfl⟩

/-! ## IMAGE_OPEN (R163) -/

theorem openInRange_eq_true_iff (q : Request) :
    openInRange q = true ↔ (q.arg 0 = 1 ∧ 1 ≤ q.arg 1 ∧ q.arg 1 ≤ 8192000) ∨ (q.arg 0 = 2 ∧ 64 ≤ q.arg 1 ∧ q.arg 1 ≤ 65536) := by
  unfold openInRange
  split
  · next h =>
    have hle : decide (q.arg 1 ≤ slotBytes) = true ↔ q.arg 1 ≤ 8192000 := decide_eq_true_iff
    simp [h, hle]
  · next h =>
    split
    · next h2 => simp [h2]
    · next h2 => simp [h, h2]

theorem openSession_target {q : Request} {mapping : Slot} {target : Target}
    (h : (q.arg 0 = 1 ∧ 1 ≤ q.arg 1 ∧ q.arg 1 ≤ 8192000 ∧ target = .image (if mapping = .a then .b else .a))
      ∨ (q.arg 0 = 2 ∧ 64 ≤ q.arg 1 ∧ q.arg 1 ≤ 65536 ∧ target = .config)) :
    openInRange q = true ∧ (if q.arg 0 = 1 then Target.image mapping.other else .config) = target := by
  rw [openInRange_eq_true_iff]
  rcases h with ⟨h0, hlo, hhi, rfl⟩ | ⟨h0, hlo, hhi, rfl⟩
  · refine ⟨.inl ⟨h0, hlo, hhi⟩, ?_⟩
    rw [if_pos h0]
    cases mapping <;> rfl
  · exact ⟨.inr ⟨h0, hlo, hhi⟩, if_neg (by omega)⟩

theorem exec_imageOpen {q : Request} {s : State} (h : s.HasRequest 7 q) :
    ((s.imu.session.state ≠ .idle ∧ s.imu.session.state ≠ .failed) ∨ s.suc.boot = .trial →
        exec .imageOpen s = .next (s.answer q .state 0))
      ∧ (¬((s.imu.session.state ≠ .idle ∧ s.imu.session.state ≠ .failed) ∨ s.suc.boot = .trial) →
        (openInRange q = false → exec .imageOpen s = .next (s.answer q .range 0))
        ∧ (openInRange q = true → exec .imageOpen s = .next ((({ s with imu.session := openSession s.ptu.mapping q } :
            State).enterSession .receiving .none).answer q .done (ceilDiv (q.arg 1) 65536)))) := by
  have hrow : exec .imageOpen s = execImageOpen s := rfl
  rw [hrow, execImageOpen, State.HasRequest.onRequest (n := 7) h]
  refine ⟨fun hs => by rw [if_pos hs], fun hs => ⟨fun hr => ?_, fun hr => ?_⟩⟩
  · rw [if_neg hs, hr]
    rfl
  · rw [if_neg hs, if_pos hr]
    rfl

/-! ## IMAGE_CLOSE (R170) -/

theorem Session.wordsNeeded_eq (n : Session) : n.wordsNeeded = (n.length + 3) / 4 := ceilDiv_eq (by omega)

theorem Session.padPage_of_empty {n : Session} (h : n.current = []) : n.padPage = n := by simp [Session.padPage, h]

theorem Session.padPage_of_partial {n : Session} (h : n.current ≠ []) :
    n.padPage = { n with
      current := []
      queue := n.queue ++ [{ page := (4 * n.nextWord - n.current.length) / 256
                             bytes := n.current ++ List.replicate (256 - n.current.length) 0xFF }] } :=
  if_neg (by simpa using h)

theorem Session.padPage_current (n : Session) : n.padPage.current = [] := by
  by_cases h : n.current = []
  · rw [Session.padPage_of_empty h, h]
  · rw [Session.padPage_of_partial h]

theorem Session.padPage_kept (n : Session) : n.padPage.pages = n.pages ∧ n.padPage.version = n.version := by
  by_cases h : n.current = []
  · rw [Session.padPage_of_empty h]
    exact ⟨rfl, rfl⟩
  · rw [Session.padPage_of_partial h]
    exact ⟨rfl, rfl⟩

/-! ## IMAGE_ABORT (R173) -/

theorem SessionState.abortable_iff (st : SessionState) :
    st.abortable = true ↔ st ≠ .idle ∧ st ≠ .committing ∧ st ≠ .committed := by
  cases st <;> simp [SessionState.abortable]

/-- The state in which an accepted IMAGE_ABORT is answered. -/
def State.aborted (s : State) : State := (s.leaveDraining.enterSession .idle .aborted).dropSession

theorem State.aborted_spec (s : State) :
    s.aborted.imu = { s.imu with session := s.imu.session.ended, port := s.imu.port.disown }
      ∧ s.aborted.rmu = s.leaveDraining.rmu ∧ s.aborted.stu = s.leaveDraining.stu
      ∧ s.aborted.cau.pending
          = (s.raise (.imageState .idle .aborted s.imu.session.pages s.imu.session.version)).cau.pending
      ∧ OnlyReports { s with
          imu := s.aborted.imu, rmu.drain := s.aborted.rmu.drain, stu.stations := s.aborted.stu.stations } s.aborted := by
  obtain ⟨-, -, -, hparts⟩ := s.leaveDraining_spec
  have himu : s.leaveDraining.imu = s.imu := (congrArg State.imu hparts).trans rfl
  have honly := State.raise_onlyReports
    (.imageState .idle .aborted s.leaveDraining.imu.session.pages s.leaveDraining.imu.session.version)
    { s.leaveDraining with imu.session := { s.leaveDraining.imu.session with state := .idle } }
  rw [← State.enterSession_eq] at honly
  have hdrop : OnlyReports _ s.aborted := honly.dropSession
  have hends : s.aborted.imu = { s.imu with session := s.imu.session.ended, port := s.imu.port.disown } := by
    rw [hdrop.imu, ← himu]
    rfl
  have hrmu : s.aborted.rmu = s.leaveDraining.rmu := hdrop.rmu
  have hstu : s.aborted.stu = s.leaveDraining.stu := hdrop.stu
  refine ⟨hends, hrmu, hstu, ?_, ?_⟩
  · have hpending : s.aborted.cau.pending = (s.leaveDraining.enterSession .idle .aborted).cau.pending := rfl
    rw [hpending, State.enterSession_eq, himu]
    refine State.raise_pending_congr _ ?_ ?_ ?_ <;> rw [hparts]
  · rw [hends, hrmu, hstu]
    rw [hparts] at hdrop
    exact hdrop

/-- Settles O42: the three requests by the session's state, then by range. -/
theorem sessionRequests : Obligations.SessionRequests := by
  refine fun q s => ⟨fun hq => ?_, fun hq => ?_, fun hq => ?_⟩
  · obtain ⟨hrefused, htaken⟩ := exec_imageOpen hq
    refine ⟨hrefused, fun hstate hboot => ?_⟩
    obtain ⟨hrange, hopen⟩ := htaken (by rw [hboot]; simp; tauto)
    refine ⟨fun h1 h2 => hrange ?_, fun target ht => ?_⟩
    · exact Bool.eq_false_iff.2 fun h => ((openInRange_eq_true_iff q).1 h).elim h1 h2
    · obtain ⟨hin, htarget⟩ := openSession_target ht
      rw [hopen hin, State.enterSession_eq, openSession, htarget, ceilDiv_eq (by omega)]
      rfl
  · have hrow : exec .imageClose s = execImageClose s := rfl
    rw [hrow, execImageClose, State.HasRequest.onRequest (n := 8) hq, Session.wordsNeeded_eq]
    refine ⟨fun h => by rw [if_neg (by tauto)], fun hstate hwords => ?_⟩
    rw [if_pos ⟨hstate, hwords⟩]
    obtain ⟨hpages, hversion⟩ := s.imu.session.padPage_kept
    refine ⟨_, { s.imu.session.padPage with state := .closing }, rfl, rfl, s.imu.session.padPage_current, ?_,
      fun h => by rw [Session.padPage_of_empty h], fun h => by rw [Session.padPage_of_partial h]⟩
    rw [State.enterSession_eq, hpages, hversion]
  · have hrow : exec .imageAbort s = execImageAbort s := rfl
    rw [hrow, execImageAbort, State.HasRequest.onRequest (n := 9) hq]
    refine ⟨fun h => ?_, fun h1 h2 h3 => ?_⟩
    · rw [if_neg]
      rw [SessionState.abortable_iff]
      tauto
    · rw [if_pos ((SessionState.abortable_iff _).2 ⟨h1, h2, h3⟩)]
      obtain ⟨himu, hrmu, hstu, hpending, honly⟩ := s.aborted_spec
      obtain ⟨hdrain, hkept, hcleared, -⟩ := s.leaveDraining_spec
      refine ⟨s.aborted, rfl, by rw [himu]; rfl, by rw [himu], by rw [himu], fun hport => ?_, fun p live a k hport => ?_,
        fun o hport => ?_, hpending, hrmu ▸ hdrain, hstu ▸ hkept, hstu ▸ hcleared, honly⟩ <;> rw [himu, hport] <;> rfl

/-! ## ACTIVATE and ACTIVATE_CANCEL (R178, R181) -/

theorem Session.image_eq_true_iff (n : Session) : n.image = true ↔ ∃ sl, n.target = some (.image sl) := by
  unfold Session.image
  rcases n.target with _ | _ | _ <;> simp

theorem bit_zero_eq (w : Word) : bit w 0 = decide (w.toNat % 2 = 1) := by
  rw [bit, Nat.testBit_zero]

theorem bit_one_of_le_three {w : Word} (h : w.toNat ≤ 3) : bit w 1 = decide (2 ≤ w.toNat) := by
  rw [bit, Nat.testBit_succ, Nat.testBit_zero]
  refine decide_eq_decide.2 ?_
  omega

/-- Settles O43: arming and its cancellation, by the session's state, its target and the flags. -/
theorem activationRequests : Obligations.ActivationRequests := by
  refine fun q s => ⟨fun hq => ?_, fun hq => ?_⟩
  · have hrow : exec .activate s = execActivate s := rfl
    rw [hrow, execActivate, State.HasRequest.onRequest (n := 10) hq]
    refine ⟨fun h => ?_, fun sl hstate htarget => ?_⟩
    · rw [if_pos]
      rcases h with h | h
      · exact .inl h
      · refine .inr (Bool.eq_false_iff.2 fun himage => ?_)
        obtain ⟨sl, hsl⟩ := (Session.image_eq_true_iff _).1 himage
        exact h sl hsl
    · have himage := (Session.image_eq_true_iff _).2 ⟨sl, htarget⟩
      rw [if_neg (by simp [hstate, himage])]
      refine ⟨fun h => by rw [if_pos h], fun h => ?_⟩
      rw [if_neg (by omega)]
      dsimp only
      rw [State.enterSession_eq, bit_zero_eq, bit_one_of_le_three h]
      rfl
  · have hrow : exec .activateCancel s = execActivateCancel s := rfl
    rw [hrow, execActivateCancel, State.HasRequest.onRequest (n := 11) hq]
    refine ⟨fun h1 h2 => by rw [if_neg (by tauto)], fun h => ?_⟩
    rw [if_pos h]
    obtain ⟨hdrain, hkept, hcleared, hparts⟩ := s.leaveDraining_spec
    have himu : s.leaveDraining.imu = s.imu := (congrArg State.imu hparts).trans rfl
    have honly := State.raise_onlyReports (.imageState .verified .cancelled s.imu.session.pages s.imu.session.version)
      { s.leaveDraining with
        imu.session := { s.leaveDraining.imu.session with state := .verified, now := false, force := false, drainLeft := 0 } }
    refine ⟨_, rfl, ?_, ?_, fun hs => ?_, fun hs => ?_, ?_, ?_⟩
    all_goals dsimp only; rw [State.enterSession_eq]
    all_goals dsimp only; simp only [himu] at honly ⊢
    · exact congrArg Imu.session honly.imu
    · exact (congrArg Rmu.drain honly.rmu).trans hdrain
    · exact (congrArg Stu.stations honly.stu).trans (hkept hs)
    · exact (congrArg Stu.stations honly.stu).trans (hcleared hs)
    · refine State.raise_pending_congr _ ?_ ?_ ?_ <;> rw [hparts]
    · rw [honly.imu, honly.rmu, honly.stu]
      rw [hparts] at honly ⊢
      exact honly

end Sys2Proof.Machine

/-! PROOFS. The trial's confirmation and expiry (section 10.5), and the SL7's own writes to SRAM (sections 1.5 and 2.4 to 2.6). -/
namespace Sys2Proof.Machine

/-! ## BOOT_CONFIRM and the trial's last second (R190, R191) -/

/-- Settles O44: the row of a request by its three conditions, and the trial's last second. -/
theorem confirmAndTrialExpiry : Obligations.ConfirmAndTrialExpiry := by
  refine ⟨fun q s hq => ?_, fun s hready hboot hrunning hleft => ?_⟩
  · have hrow : exec .bootConfirm s = execBootConfirm s := rfl
    rw [hrow, execBootConfirm, State.HasRequest.onRequest (n := 12) hq]
    refine ⟨fun h => ?_, fun hboot hleft hconfirming => by rw [if_pos ⟨hboot, hleft, hconfirming⟩]⟩
    rw [if_neg]
    rintro ⟨hboot, hleft, hconfirming⟩
    rcases h with h | h | h
    · exact BootState.noConfusion (hboot.symm.trans h)
    · omega
    · exact Bool.noConfusion (hconfirming.symm.trans h)
  · have hcounts : s.trialCounts = true := by simp [State.trialCounts, hready, hboot, hrunning, hleft]
    have hrow : exec .trialExpiry s = execTrialExpiry s := rfl
    rw [hrow, execTrialExpiry, if_pos ⟨hcounts, hleft.le⟩, State.trialSecond, if_pos hcounts, hleft]
    simp

/-! ## Words of the status block (section 11.2) -/

theorem packWord_five (v lo n v' lo' n' v'' lo'' n'' u l k u' l' k' : Nat) :
    packWord [(v, lo, n), (v', lo', n'), (v'', lo'', n''), (u, l, k), (u', l', k')] =
      BitVec.ofNat 32 (v % 2 ^ n * 2 ^ lo + v' % 2 ^ n' * 2 ^ lo' + v'' % 2 ^ n'' * 2 ^ lo'' + u % 2 ^ k * 2 ^ l
        + u' % 2 ^ k' * 2 ^ l') := by
  simp [packWord, Nat.add_assoc]

theorem bitOf_mod (x : Bool) : bitOf x % 2 ^ 1 = if x = true then 1 else 0 := by cases x <;> rfl

theorem wordByte_eq (w : Word) (k : Nat) : wordByte w k = w.extractLsb' (8 * k) 8 := by
  refine BitVec.eq_of_toNat_eq ?_
  simp [wordByte, BitVec.extractLsb', Nat.shiftRight_eq_div_pow]

/-! ## The end of an access of the SL7's own -/

theorem State.portAccess_of_port {s : State} {a : InternalAccess} {b : Bool} {k : InternalKind}
    (h : s.ptu.port = .internal a b) (hk : a.kind = k) : s.portAccess k = some (a, b) :=
  (s.portAccess_eq_some_iff k a b).2 ⟨h, hk⟩

/-- No closing write waits for the result's end. -/
theorem State.heldRequest_eq_none {s : State} (hheld : ∀ h, s.ptu.inHand = some h → h.phase ≠ .requestHeld)
    (hrouted : ∀ h w, s.routedTo .control .write = some (h, w) → controlUse w.base h.txn ≠ .request) : s.heldRequest = none := by
  have hcontrol : s.controlFor .request = none := by
    refine Option.eq_none_iff_forall_ne_some.2 fun ⟨h, w⟩ hr => ?_
    obtain ⟨hr, hu⟩ := (s.controlFor_eq_some_iff .request h w).1 hr
    exact hrouted h w hr hu
  rw [State.heldRequest, hcontrol]
  cases hh : s.ptu.inHand with
  | none => rfl
  | some h => exact if_neg (hheld h hh)

/-- A closing write waits for the result's end: held, or with its row still to come. -/
theorem State.heldRequest_eq_some {s : State} {h : InHand} {w : Window}
    (hw : s.ptu.inHand = some h ∧ h.phase = .requestHeld ∧ h.window = some w
      ∨ s.routedTo .control .write = some (h, w) ∧ controlUse w.base h.txn = .request) : s.heldRequest = some (h, w) := by
  rcases hw with ⟨hh, hp, hw⟩ | ⟨hr, hu⟩
  · have hrouted : s.controlFor .request = none := by
      refine Option.eq_none_iff_forall_ne_some.2 fun ⟨g, v⟩ hg => ?_
      obtain ⟨hr, -⟩ := (s.controlFor_eq_some_iff .request g v).1 hg
      obtain ⟨hg, -, hrouted, -⟩ := (s.routedTo_eq_some_iff .control .write g v).1 hr
      cases hh.symm.trans hg
      exact Phase.noConfusion (hp.symm.trans hrouted)
    rw [State.heldRequest, hrouted, hh]
    dsimp only
    rw [if_pos hp, hw]
    rfl
  · rw [State.heldRequest, (s.controlFor_eq_some_iff .request h w).2 ⟨hr, hu⟩]

theorem State.pumpStatus_of_none {s : State} (ho : s.cau.statusOut = false) (hl : s.cau.statusLeft = []) : s.pumpStatus = s := by
  rw [State.pumpStatus, if_neg (by simp [ho]), hl]

theorem State.pumpStatus_of_cons {s : State} {o : Nat} {bs : List Byte} {rest : List (Nat × List Byte)}
    (ho : s.cau.statusOut = false) (hl : s.cau.statusLeft = (o, bs) :: rest) :
    s.pumpStatus = State.issue { kind := .status, addr := s.controlBase + 0x2000 + o, data := bs, len := 0 }
      { s with cau.statusLeft := rest, cau.statusOut := true } := by
  rw [State.pumpStatus, if_neg (by simp [ho]), hl]

/-- Settles O45: an answer, the words of the status block, and the ends of the four writes. -/
theorem internalWritesComplete : Obligations.InternalWritesComplete := by
  refine ⟨fun q c n s => ?_, rfl, fun w ws => ⟨?_, rfl⟩, fun s => ?_, fun a s => ⟨fun hport => ?_, fun hport => ?_⟩⟩
  · have hcode : c.code % 2 ^ 8 = c.code := by cases c <;> rfl
    have hword : resultWord q.kind c n = BitVec.ofNat 32 (q.kind.toNat % 2 ^ 8 + c.code * 2 ^ 8 + n % 2 ^ 16 * 2 ^ 16) := by
      rw [resultWord, packWord_three, hcode, Nat.pow_zero, Nat.mul_one]
    rw [← hword]
    rfl
  · simp only [bytesOfWord, wordByte_eq]
  · intro w b sl records words
    have hwords : s.statusWords = words := by
      rw [State.statusWords, packWord_three, packWord_four, packWord_five, packWord_two, packWord_two, packWord_five]
      simp only [bitOf_mod, Nat.pow_zero, Nat.mul_one, SessionState.code_mod, Reason.code_mod, Slot.code_mod]
      cases hboot : s.suc.boot <;> simp only [words, hboot] <;> rfl
    refine ⟨hwords, ?_⟩
    rw [← hwords]
    rfl
  · dsimp only
    refine ⟨fun hk => ?_, fun hk => ?_, fun hk => ?_, fun hk => ?_⟩
    · have hrow : exec .resultWriteDone s = execResultWriteDone s := rfl
      rw [hrow, execResultWriteDone, State.portAccess_of_port hport hk]
      rfl
    · have hrow : exec .reportBodyWriteDone s = execReportBodyWriteDone s := rfl
      rw [hrow, execReportBodyWriteDone, State.portAccess_of_port hport hk]
      rfl
    · have hrow : exec .producerIndexWriteDone s = execProducerIndexWriteDone s := rfl
      rw [hrow, execProducerIndexWriteDone, State.portAccess_of_port hport hk]
      rfl
    · have hrow : exec .statusWriteDone s = execStatusWriteDone s := rfl
      rw [hrow, execStatusWriteDone, State.portAccess_of_port hport hk]
      rfl
  · dsimp only
    refine ⟨fun hk hheld hrouted => ?_, fun h w hk hw => ?_, fun hk => ?_, fun hk => ?_, fun hk => ⟨fun hleft => ?_, fun o bs rest hleft => ?_⟩⟩
    · have hnone : ({ s.finishAccess a with cau.slot := .free } : State).heldRequest = none :=
        State.heldRequest_eq_none hheld hrouted
      have hrow : exec .resultWriteDone s = execResultWriteDone s := rfl
      rw [hrow, execResultWriteDone, State.portAccess_of_port hport hk]
      dsimp only
      rw [if_neg (by decide), State.takeUpRequest, hnone]
      rfl
    · have hsome : ({ s.finishAccess a with cau.slot := .free } : State).heldRequest = some (h, w) :=
        State.heldRequest_eq_some hw
      have hrow : exec .resultWriteDone s = execResultWriteDone s := rfl
      rw [hrow, execResultWriteDone, State.portAccess_of_port hport hk]
      dsimp only
      rw [if_neg (by decide), State.takeUpRequest, hsome]
      rfl
    · have hrow : exec .reportBodyWriteDone s = execReportBodyWriteDone s := rfl
      rw [hrow, execReportBodyWriteDone, State.portAccess_of_port hport hk]
      rfl
    · have hrow : exec .producerIndexWriteDone s = execProducerIndexWriteDone s := rfl
      rw [hrow, execProducerIndexWriteDone, State.portAccess_of_port hport hk]
      rfl
    · have hrow : exec .statusWriteDone s = execStatusWriteDone s := rfl
      rw [hrow, execStatusWriteDone, State.portAccess_of_port hport hk]
      exact congrArg Host.Outcome.next
        (State.pumpStatus_of_none (s := { s.finishAccess a with cau.statusOut := false }) rfl hleft)
    · have hrow : exec .statusWriteDone s = execStatusWriteDone s := rfl
      rw [hrow, execStatusWriteDone, State.portAccess_of_port hport hk]
      exact congrArg Host.Outcome.next
        (State.pumpStatus_of_cons (s := { s.finishAccess a with cau.statusOut := false }) rfl hleft)

end Sys2Proof.Machine

/-! PROOFS. The flash windows and the staging window (sections 9.2, 9.4, 9.5 and 9.9): which transactions are held, answered or
refused. -/
namespace Sys2Proof.Machine

/-! ## The transaction in hand -/

theorem State.routedTo_of_ne {s : State} {h : InHand} {w : Window} {k : WindowKind} {d : Dir} (hh : s.ptu.inHand = some h)
    (hw : h.window = some w) (hk : w.kind ≠ k) : s.routedTo k d = none := by
  refine Option.eq_none_iff_forall_ne_some.2 fun ⟨g, v⟩ hg => ?_
  obtain ⟨hg, hv, -, hkind, -⟩ := (s.routedTo_eq_some_iff k d g v).1 hg
  cases hh.symm.trans hg
  cases hw.symm.trans hv
  exact hk hkind

theorem State.routedTo_of_routed {s : State} {h : InHand} {w : Window} {d : Dir} (hh : s.ptu.inHand = some h)
    (hw : h.window = some w) (hp : h.phase = .routed) (hd : h.txn.dir = d) : s.routedTo w.kind d = some (h, w) :=
  (s.routedTo_eq_some_iff w.kind d h w).2 ⟨hh, hw, hp, rfl, hd⟩

/-- A routed transaction of one of the three flash windows is the IMU's. -/
theorem State.flashRouted_of_routed {s : State} {h : InHand} {w : Window} {d : Dir} (hh : s.ptu.inHand = some h)
    (hw : h.window = some w) (hp : h.phase = .routed) (hd : h.txn.dir = d)
    (hk : w.kind = .boot ∨ w.kind = .config ∨ w.kind = .image) : s.flashRouted d = some (h, w) := by
  have hrouted := State.routedTo_of_routed hh hw hp hd
  have hother := fun k (hne : w.kind ≠ k) => State.routedTo_of_ne (d := d) hh hw hne
  unfold State.flashRouted
  rcases hk with hk | hk | hk <;> rw [hk] at hrouted hother
  · rw [hrouted]
  · rw [hother _ (by decide), hrouted]
  · rw [hother _ (by decide), hother _ (by decide), hrouted]

theorem State.flashRouted_of_staging {s : State} {h : InHand} {w : Window} (hh : s.ptu.inHand = some h)
    (hw : h.window = some w) (hk : w.kind = .staging) (d : Dir) : s.flashRouted d = none := by
  have hother := fun k (hne : w.kind ≠ k) => State.routedTo_of_ne (d := d) hh hw hne
  rw [hk] at hother
  rw [State.flashRouted, hother _ (by decide), hother _ (by decide), hother _ (by decide)]

/-- A read that goes to the flash port (R15). -/
theorem State.flashReadInHand_of_routed {s : State} {h : InHand} {w : Window} (hh : s.ptu.inHand = some h)
    (hw : h.window = some w) (hp : h.phase = .routed) (hd : h.txn.dir = .read)
    (hk : w.kind = .boot ∨ w.kind = .config ∨ w.kind = .image ∨ (w.kind = .staging ∧ s.imu.session.state = .idle)) :
    s.flashReadInHand = some (h, w) := by
  unfold State.flashReadInHand
  by_cases hflash : w.kind = .boot ∨ w.kind = .config ∨ w.kind = .image
  · rw [State.flashRouted_of_routed hh hw hp hd hflash]
  · obtain ⟨hstaging, hidle⟩ : w.kind = .staging ∧ s.imu.session.state = .idle := by tauto
    rw [State.flashRouted_of_staging hh hw hstaging, if_pos hidle, ← hstaging, State.routedTo_of_routed hh hw hp hd]

/-! ## Suspension for a held read (R161) -/

/-- The operation on the port when a held read asks for a suspension. -/
def FlashOp.asked (o : FlashOp) (a : Nat) : FlashOp :=
  if o.suspension = .running ∧ o.inMinRun = false ∧ o.answers = true ∧ o.work.clearOf a = true
  then { o with suspension := .suspending true, suspendUs := 0 } else o

theorem State.trySuspend_of_busy {s : State} {h : InHand} {a n : Nat} {o : FlashOp} (hw : s.waitingRead = some (h, a, n))
    (hp : s.imu.port = .busy o) : s.trySuspend = { s with imu.port := .busy (o.asked a) } := by
  rw [State.trySuspend, hp, hw]
  dsimp only
  unfold FlashOp.asked
  split
  · rfl
  · rw [← hp]

theorem State.trySuspend_of_not_busy {s : State} (hp : ∀ o, s.imu.port ≠ .busy o) : s.trySuspend = s := by
  unfold State.trySuspend
  split
  · next o _ _ _ hport _ => exact absurd hport (hp o)
  · rfl

theorem State.trySuspend_of_no_read {s : State} (hw : s.waitingRead = none) : s.trySuspend = s := by
  unfold State.trySuspend
  split
  · next hread =>
    rw [hw] at hread
    cases hread
  · rfl

theorem State.waitingRead_of_flashHeld {s : State} {h : InHand} {a n : Nat} (hh : s.ptu.inHand = some h)
    (hp : h.phase = .flashHeld a n) : s.waitingRead = some (h, a, n) := (s.waitingRead_eq_some_iff h a n).2 ⟨hh, hp⟩

theorem FlashPort.dropRead_running {o : FlashOp} (h : o.suspension = .running) :
    (FlashPort.busy o).dropRead = .busy o := by
  rw [FlashPort.dropRead, h]

theorem FlashPort.dropRead_suspending {o : FlashOp} {w : Bool} (h : o.suspension = .suspending w) :
    (FlashPort.busy o).dropRead = .busy { o with suspension := .suspending false } := by
  rw [FlashPort.dropRead, h]

theorem FlashPort.dropRead_suspended {o : FlashOp} (h : o.suspension = .suspended) :
    (FlashPort.busy o).dropRead = .busy o.resume := by
  rw [FlashPort.dropRead, h]

/-- Settles O47: a read held at its address, a write discarded, and the expiry of a read's hold. -/
theorem flashWindowAccess : Obligations.FlashWindowAccess := by
  refine ⟨fun h w s hh hw hp => ⟨fun hd hk => ?_, fun hd hk => ?_⟩, fun h a n s hh hp => ?_⟩
  · intro base held
    have haddr : s.flashAddress w h.txn.addr = base + (h.txn.addr - w.base) := by
      rcases hk with hk | hk | hk | ⟨hk, -⟩ <;> cases hm : s.ptu.mapping <;>
        simp [State.flashAddress, base, hk, hm, slotBase, configBase, Slot.other]
    have hrow : exec .flashWindowRead s = execFlashWindowRead s := rfl
    rw [hrow, execFlashWindowRead, State.flashReadInHand_of_routed hh hw hp hd hk]
    dsimp only
    rw [haddr]
    generalize hs1 : s.toPhase h (.flashHeld (base + (h.txn.addr - w.base)) h.txn.byteCount) = s1
    have hport : s1.imu.port = s.imu.port := by rw [← hs1]; rfl
    have hread : s1.waitingRead = some ({ h with phase := held }, base + (h.txn.addr - w.base), h.txn.byteCount) := by
      rw [← hs1]
      exact State.waitingRead_of_flashHeld rfl rfl
    refine ⟨s1.trySuspend, rfl, ?_, fun hno => ?_, fun o ho => ?_⟩
    · by_cases hbusy : ∃ o, s1.imu.port = .busy o
      · obtain ⟨o, ho⟩ := hbusy
        rw [State.trySuspend_of_busy hread ho, ← hs1]
        rfl
      · rw [State.trySuspend_of_not_busy fun o ho => hbusy ⟨o, ho⟩, ← hs1]
        rfl
    · rw [State.trySuspend_of_not_busy fun o ho => hno o (hport ▸ ho), hport]
    · rw [State.trySuspend_of_busy hread (hport.trans ho)]
      rfl
  · have hrow : exec .flashWindowWrite s = execFlashWindowWrite s := rfl
    rw [hrow, execFlashWindowWrite, State.flashRouted_of_routed hh hw hp hd hk]
    rfl
  · have hrow : exec .flashHoldExpiry s = execFlashHoldExpiry s := rfl
    rw [hrow, execFlashHoldExpiry, State.waitingRead_of_flashHeld hh hp]
    refine ⟨_, rfl, rfl, fun hport => ?_, fun l b m hport => ?_, fun p l b m hne hport => ?_,
      fun o w hport => ⟨fun hs => ?_, fun hs => ?_, fun hs => ?_⟩⟩
    · exact congrArg FlashPort.dropRead hport
    · exact congrArg FlashPort.dropRead hport
    · refine (congrArg FlashPort.dropRead hport).trans ?_
      rw [FlashPort.dropRead, if_neg hne, hport]
    · exact (congrArg FlashPort.dropRead hport).trans (FlashPort.dropRead_running hs)
    · exact (congrArg FlashPort.dropRead hport).trans (FlashPort.dropRead_suspending hs)
    · exact (congrArg FlashPort.dropRead hport).trans (FlashPort.dropRead_suspended hs)

/-! ## STAGING writes (R164 to R167) -/

theorem Session.fits_eq_true_iff (n : Session) (base : Nat) (x : Transaction) :
    n.fits base x = true ↔ 0 < x.fullWords.length ∧ (wordBase x.addr - base) / 4 = n.nextWord
      ∧ 4 * (n.nextWord + x.fullWords.length - 1) < n.length := by
  simp only [Session.fits, Bool.and_eq_true, decide_eq_true_eq, and_assoc]
  exact Iff.rfl

theorem Session.judgeWrite_idle {n : Session} (h : n.state = .idle) (base : Nat) (x : Transaction) :
    n.judgeWrite base x = .protect := by
  rw [Session.judgeWrite, h]

theorem Session.judgeWrite_receiving {n : Session} (h : n.state = .receiving) (base : Nat) (x : Transaction) :
    n.judgeWrite base x = if n.fits base x = true then
      if 4 * n.nextWord % 256 = 0 ∧ n.freeBuffers = 0 then .hold else .accept else .refuse := by
  rw [Session.judgeWrite, h]

theorem Session.judgeWrite_refuse {n : Session} (h : n.state ≠ .idle) {base : Nat} {x : Transaction}
    (hr : n.state ≠ .receiving ∨ n.fits base x = false) : n.judgeWrite base x = .refuse := by
  by_cases hrec : n.state = .receiving
  · rw [Session.judgeWrite_receiving hrec, if_neg (by simp [hr.resolve_left (fun hne => hne hrec)])]
  · unfold Session.judgeWrite
    split
    · next hs => exact absurd hs h
    · next hs => exact absurd hs hrec
    all_goals rfl

/-- A session takes the words of an accepted write (R164, R168): a full page joins the program queue. -/
theorem Session.takeWords_eq (n : Session) (ws : List Word) :
    let bytes := bytesOfWords ws
    let inside := bytes.take (n.length - 4 * n.nextWord)
    let page := n.current ++ inside ++ List.replicate (bytes.length - inside.length) 0xFF
    n.takeWords ws = { n with
      nextWord := n.nextWord + ws.length
      refused := false
      crc := crcBytes n.crc inside
      current := if page.length < 256 then page else []
      queue := if page.length < 256 then n.queue
        else n.queue ++ [{ page := (4 * (n.nextWord + ws.length) - 1) / 256, bytes := page }] } := by
  intro bytes inside page
  unfold Session.takeWords
  dsimp only
  by_cases h : page.length < 256
  · rw [if_neg (Nat.not_le.2 h), if_pos h, if_pos h]
  · rw [if_pos (Nat.not_lt.1 h), if_neg h, if_neg h]

theorem exec_stagingWrite {s : State} {h : InHand} {w : Window} (hr : s.routedTo .staging .write = some (h, w))
    {j : StagingAnswer} (hj : s.imu.session.judgeWrite w.base h.txn = j) :
    (j = .protect → exec .stagingWrite s = .next ((s.endTxn h .ack).protectEvent w h.txn))
      ∧ (j = .refuse → exec .stagingWrite s = .next (s.refuseStaging h))
      ∧ (j = .accept → exec .stagingWrite s = .next (s.acceptStaging h))
      ∧ (j = .hold → exec .stagingWrite s = .next (s.toPhase h .stagingHeld)) := by
  have hrow : exec .stagingWrite s = execStagingWrite s := rfl
  rw [hrow, execStagingWrite, hr]
  dsimp only
  rw [hj]
  refine ⟨?_, ?_, ?_, ?_⟩ <;> rintro rfl <;> rfl

/-! ## STAGING reads (R169) -/

theorem State.progressWord_eq (s : State) :
    s.progressWord = BitVec.ofNat 32 (s.imu.session.state.code + (if s.imu.toggle = true then 2 ^ 4 else 0)
      + (if s.imu.session.refused = true then 2 ^ 5 else 0)
      + (8 - (s.imu.session.queue.length + if s.imu.session.current = [] then 0 else 1)) * 2 ^ 6
      + s.imu.session.nextWord % 2 ^ 21 * 2 ^ 11) := by
  have hcode : s.imu.session.state.code % 2 ^ 4 = s.imu.session.state.code := by cases s.imu.session.state <;> rfl
  have hfree : s.imu.session.freeBuffers
      = 8 - (s.imu.session.queue.length + if s.imu.session.current = [] then 0 else 1) := by
    simp [Session.freeBuffers, Session.held]
  have hfit : s.imu.session.freeBuffers % 2 ^ 4 = s.imu.session.freeBuffers :=
    Nat.mod_eq_of_lt (by rw [Session.freeBuffers]; omega)
  rw [State.progressWord, packWord_five, hcode, hfit, hfree, bitOf_mod_mul, bitOf_mod_mul, Nat.pow_zero, Nat.mul_one]

theorem State.detailWord_eq (s : State) :
    s.detailWord = BitVec.ofNat 32 (s.imu.session.pages % 2 ^ 16 + s.imu.session.sectors % 2 ^ 8 * 2 ^ 16
      + s.imu.lastFail.code * 2 ^ 24) := by
  rw [State.detailWord, packWord_three, Reason.code_mod, Nat.pow_zero, Nat.mul_one]

theorem readsProgress_iff (base : Nat) (x : Transaction) :
    readsProgress base x = true ↔ ∀ en, x.form = .single en → (wordBase x.addr - base) / 4 % 2 = 0 := by
  unfold readsProgress
  split
  · next h =>
    rw [decide_eq_true_iff]
    exact ⟨fun hz _ _ => hz, fun hall => hall _ h⟩
  · next h => simp [h]

/-- Settles O48: the answers to a write by the session's state, the hold's expiry, and the words of a read. -/
theorem stagingWindowAccess : Obligations.StagingWindowAccess := by
  refine ⟨fun h w s hr => ?_, fun h s hh hp => ?_, fun s => ⟨s.progressWord_eq, s.detailWord_eq⟩, rfl, rfl, fun h w s hr hs => ?_⟩
  · intro n words fits refused
    obtain ⟨hprotect, hrefuse, haccept, hhold⟩ := exec_stagingWrite hr rfl
    have hfits : n.fits w.base h.txn = true ↔ fits := n.fits_eq_true_iff w.base h.txn
    refine ⟨fun hs => hprotect (Session.judgeWrite_idle hs _ _), fun hs hno => hrefuse (Session.judgeWrite_refuse hs ?_),
      fun hs hfit halign hfree => hhold ?_, fun hs hfit hroom => ?_⟩
    · exact hno.imp_right fun hfit => Bool.eq_false_iff.2 fun h => hfit (hfits.1 h)
    · rw [Session.judgeWrite_receiving hs, if_pos (hfits.2 hfit), if_pos ⟨halign, hfree⟩]
    · intro bytes inside page
      rw [haccept (by rw [Session.judgeWrite_receiving hs, if_pos (hfits.2 hfit), if_neg (by tauto)]), State.acceptStaging,
        Session.takeWords_eq, List.length_map]
      rfl
  · have hrow : exec .stagingWriteHoldExpiry s = execStagingWriteHoldExpiry s := rfl
    rw [hrow, execStagingWriteHoldExpiry, hh]
    dsimp only
    rw [if_pos hp]
    rfl
  · intro flips
    have hflips : (s.imu.port.sessionWork && readsProgress w.base h.txn) = true ↔ flips := by
      rw [Bool.and_eq_true, readsProgress_iff]
    have hrow : exec .stagingRead s = execStagingRead s := rfl
    rw [hrow, execStagingRead, hr]
    dsimp only
    rw [if_neg hs]
    refine ⟨_, rfl, fun hf => ?_, fun hf => ?_, rfl⟩
    · have htoggle := hflips.2 hf
      simp [State.endTxn, htoggle]
    · have htoggle := Bool.eq_false_iff.2 fun h => hf (hflips.1 h)
      simp [State.endTxn, htoggle]

end Sys2Proof.Machine

/-! PROOFS. The flash port's arbiter (section 9.2): what the start-up controller wants, how an append begins, and to whom the free
port goes. -/
namespace Sys2Proof.Machine

/-! ## What the start-up controller wants (R184 to R188) -/

section
variable {s : State}

theorem State.sucWant_of_loading (h : s.suc.startUp = .loading) :
    (s.suc.load = .status → s.sucWant = .nothing)
      ∧ (s.suc.load = .header → s.sucWant = .read .config (0x040000 + s.suc.cfgPos) (16 - s.suc.cfgPos))
      ∧ (s.suc.load = .body → s.sucWant = .read .config (0x040000 + s.suc.cfgPos)
          (min (32 - (0x040000 + s.suc.cfgPos) % 32) ((byteWord s.suc.cfgBytes 2).toNat - s.suc.cfgPos))) := by
  refine ⟨fun hl => ?_, fun hl => ?_, fun hl => ?_⟩ <;> rw [State.sucWant, h, hl] <;> rfl

theorem State.sucWant_of_append (h : s.suc.startUp ≠ .loading) {a : Append} (ha : s.suc.append = some a) :
    s.sucWant = s.appendWork a := by
  unfold State.sucWant
  rw [ha]
  cases hu : s.suc.startUp with
  | loading => exact absurd hu h
  | selecting => rfl
  | ready => rfl

theorem State.sucWant_of_job (h : s.suc.startUp ≠ .loading) (ha : s.suc.append = none) {j : AppendJob} {rest : List AppendJob}
    (hj : s.suc.jobs = j :: rest) : s.sucWant = if s.suc.stale = true then s.scanRead else .begins j rest := by
  unfold State.sucWant
  rw [ha, hj]
  cases hu : s.suc.startUp with
  | loading => exact absurd hu h
  | selecting => rfl
  | ready => rfl

theorem State.sucWant_of_idle (h : s.suc.startUp ≠ .loading) (ha : s.suc.append = none) (hj : s.suc.jobs = []) :
    s.sucWant = if s.suc.startUp = .selecting ∧ s.suc.decided = false ∧ s.suc.noFlash = false ∧ s.suc.stale = true
      then s.scanRead else .nothing := by
  unfold State.sucWant
  rw [ha, hj]
  cases hu : s.suc.startUp with
  | loading => exact absurd hu h
  | selecting => rfl
  | ready => rfl

theorem State.scanRead_eq (s : State) :
    s.scanRead = .read .scan (0x050000 + (match s.suc.scan with | none => 0 | some sc => sc.pos)) 32 := by
  rw [State.scanRead]
  cases s.suc.scan <;> rfl

theorem State.appendWork_of_phase (s : State) (a : Append) :
    (a.phase = .erase → s.appendWork a = .work (.erase 0x050000))
      ∧ (a.phase = .program → s.appendWork a
          = .work (.program (0x050000 + s.suc.appendPos.getD 0 / 16 * 256) (appendPage (s.suc.appendPos.getD 0) a.entry)))
      ∧ (a.phase = .readback → s.appendWork a = .read .readback (0x050000 + 16 * s.suc.appendPos.getD 0) 16) := by
  refine ⟨fun h => ?_, fun h => ?_, fun h => ?_⟩ <;> rw [State.appendWork, h] <;> rfl

end

/-! ## How an append begins (R185) -/

theorem State.seqSpent_iff (s : State) : s.seqSpent = true ↔ ∃ e, s.suc.newest = some e ∧ e.seq = 0xFFFFFFFF#32 := by
  unfold State.seqSpent
  cases s.suc.newest <;> simp

theorem State.nextSeq_first {s : State} (h : s.suc.newest = none ∨ s.seqSpent = true) : s.nextSeq = 1 := by
  rcases h with h | h
  · rw [State.nextSeq, h]
  · obtain ⟨e, he, hseq⟩ := s.seqSpent_iff.1 h
    rw [State.nextSeq, he]
    exact if_pos hseq

theorem State.nextSeq_next {s : State} {e : Entry} (he : s.suc.newest = some e) (h : s.seqSpent = false) :
    s.nextSeq = e.seq + 1 := by
  rw [State.nextSeq, he]
  refine if_neg fun hseq => ?_
  exact Bool.false_ne_true (h ▸ s.seqSpent_iff.2 ⟨e, he, hseq⟩)

theorem State.beginAppend_erase {s : State} (h : s.suc.appendPos = none ∨ s.seqSpent = true) (j : AppendJob) :
    (s.beginAppend j).phase = .erase := if_pos (by rcases h with h | h <;> simp [h])

theorem State.beginAppend_program {s : State} (hp : s.suc.appendPos ≠ none) (h : s.seqSpent = false) (j : AppendJob) :
    (s.beginAppend j).phase = .program := if_neg (by simp [h, Option.isNone_iff_eq_none, hp])

theorem Entry.bytes_eq (e : Entry) :
    e.bytes = bytesOfWords [e.seq, BitVec.ofNat 32 ((if e.slot = .a then 1 else 2) + (if e.boot = .confirmed then 1 else 2) * 2 ^ 8
        + e.attempts % 2 ^ 3 * 2 ^ 16 + (if e.fallback = true then 2 ^ 24 else 0)), 0,
      ~~~(e.seq ^^^ BitVec.ofNat 32 ((if e.slot = .a then 1 else 2) + (if e.boot = .confirmed then 1 else 2) * 2 ^ 8
        + e.attempts % 2 ^ 3 * 2 ^ 16 + (if e.fallback = true then 2 ^ 24 else 0)))] := by
  have hxor : ∀ w : Word, w ^^^ 0 = w := fun w => BitVec.xor_zero
  rw [Entry.bytes, Entry.words, packWord_four, bitOf_mod_mul, hxor]
  obtain ⟨seq, slot, boot, attempts, fallback⟩ := e
  cases slot <;> cases boot <;> rfl

theorem Entry.bytes_length (e : Entry) : e.bytes.length = 16 := rfl

theorem appendPage_length (p : Nat) (e : Entry) : (appendPage p e).length = 256 := by
  rw [appendPage, List.length_append, List.length_append, List.length_replicate, List.length_replicate, Entry.bytes_length]
  omega

/-- The entry at its place in the page, and 0xFF around it. -/
theorem appendPage_getD (p : Nat) (e : Entry) {i : Nat} (hi : i < 256) :
    (appendPage p e).getD i 0 = if i / 16 = p % 16 then e.bytes.getD (i % 16) 0 else 0xFF := by
  have hlen := e.bytes_length
  have hp : p % 16 < 16 := Nat.mod_lt _ (by decide)
  rw [appendPage]
  generalize p % 16 = k at *
  rcases Nat.lt_trichotomy (i / 16) k with h | h | h
  · rw [if_neg (by omega), List.append_assoc, List.getD_append _ _ _ _ (by rw [List.length_replicate]; omega),
      List.getD_replicate _ (by omega)]
  · rw [if_pos h, List.append_assoc, List.getD_append_right _ _ _ _ (by rw [List.length_replicate]; omega), List.length_replicate,
      List.getD_append _ _ _ _ (by omega)]
    exact congrArg (fun n => e.bytes.getD n 0) (by omega)
  · rw [if_neg (by omega), List.getD_append_right _ _ _ _ (by rw [List.length_append, List.length_replicate]; omega),
      List.getD_replicate _ (by rw [List.length_append, List.length_replicate]; omega)]

/-! ## To whom the free port goes (R160) -/

theorem State.grantSuc_begins {s : State} {j : AppendJob} {rest : List AppendJob} (h : s.sucWant = .begins j rest) :
    (s.suc.appendPos = none ∨ s.seqSpent = true → s.grantSuc = ({ s with
        suc.append := some (s.beginAppend j), suc.jobs := rest } : State).grantWork (.erase 0x050000) .startUp)
      ∧ ∀ p, s.suc.appendPos = some p → s.seqSpent = false → s.grantSuc = ({ s with
        suc.append := some (s.beginAppend j), suc.jobs := rest } : State).grantWork
          (.program (0x050000 + p / 16 * 256) (appendPage p (s.beginAppend j).entry)) .startUp := by
  have hwork := State.appendWork_of_phase { s with suc.append := some (s.beginAppend j), suc.jobs := rest } (s.beginAppend j)
  obtain ⟨herase, hprogram, -⟩ := hwork
  unfold State.grantSuc
  rw [h]
  dsimp only
  refine ⟨fun he => ?_, fun p hp hs => ?_⟩
  · rw [herase (State.beginAppend_erase he j)]
  · rw [hprogram (State.beginAppend_program (by simp [hp]) hs j)]
    dsimp only
    rw [hp]
    rfl

theorem State.grantSession_verify {s : State} (h : s.imu.session.verifying = true) :
    s.grantSession = s.grantRead .verify (s.imu.session.base + s.imu.session.rbPos)
      (min (32 - (s.imu.session.base + s.imu.session.rbPos) % 32) (s.imu.session.length - s.imu.session.rbPos)) := if_pos h

theorem Session.working_iff (n : Session) : n.working = true ↔ n.state = .receiving ∨ n.state = .closing := by
  simp [Session.working]

theorem State.grantSession_page {s : State} {p : PageBuffer} (h : s.imu.session.verifying = false)
    (hw : s.imu.session.working = true) (hp : s.imu.session.readyPage = some p) :
    s.grantSession = s.grantWork (.program (s.imu.session.base + 256 * p.page) p.bytes) .session := by
  unfold State.grantSession
  dsimp only
  rw [if_neg (by simp [h]), if_pos hw, hp]

theorem State.grantSession_ahead {s : State} (h : s.imu.session.verifying = false) (hw : s.imu.session.working = true)
    (hp : s.imu.session.readyPage = none) :
    s.grantSession = if s.imu.session.sectors < s.imu.session.needed
      then s.grantWork (.erase (s.imu.session.base + 65536 * s.imu.session.sectors)) .session else s := by
  unfold State.grantSession
  dsimp only
  rw [if_neg (by simp [h]), if_pos hw, hp]

theorem State.grantSession_none {s : State} (h : s.imu.session.verifying = false) (hw : s.imu.session.working = false) :
    s.grantSession = s := (if_neg (by simp [h])).trans (if_neg (by simp [hw]))

theorem Session.readyPage_of_cons {n : Session} {p : PageBuffer} {rest : List PageBuffer} (h : n.queue = p :: rest)
    (hp : p.page * 256 / 65536 < n.sectors) : n.readyPage = some p := by
  rw [Session.readyPage, h]
  exact if_pos hp

theorem Session.readyPage_eq_none {n : Session} (h : ∀ p ∈ n.queue.head?, n.sectors ≤ p.page * 256 / 65536) :
    n.readyPage = none := by
  unfold Session.readyPage
  split
  · next p rest hq => exact if_neg (Nat.not_lt.2 (h p (by simp [hq])))
  · rfl

theorem exec_flashPortGrant {s : State} (hp : s.imu.port = .free) :
    (∀ h a n, s.waitingRead = some (h, a, n) → exec .flashPortGrant s = .next (s.grantRead .passThrough a n))
      ∧ (s.waitingRead = none → exec .flashPortGrant s = .next s.grantSuc) := by
  have hrow : exec .flashPortGrant s = execFlashPortGrant s := rfl
  rw [hrow, execFlashPortGrant, hp]
  refine ⟨fun h a n hw => ?_, fun hw => ?_⟩ <;> dsimp only <;> rw [hw]

/-- Settles O49: the start-up controller's request, the beginning of an append, its page, and the grant. -/
theorem flashPortOrder : Obligations.FlashPortOrder := by
  refine ⟨fun s => ⟨State.sucWant_of_loading, fun hl => ⟨fun a ha => ?_, fun j rest ha hj => ?_, fun ha hj => ?_⟩⟩, fun j s => ?_,
    fun a p => ⟨rfl, a.entry.bytes_eq, appendPage_length p a.entry, fun i hi => appendPage_getD p a.entry hi⟩, fun s hp => ?_⟩
  · rw [State.sucWant_of_append hl ha]
    exact s.appendWork_of_phase a
  · rw [State.sucWant_of_job hl ha hj, State.scanRead_eq] <;> rfl
  · rw [State.sucWant_of_idle hl ha hj, State.scanRead_eq] <;> rfl
  · intro spent
    have hspent : s.seqSpent = true ↔ spent := s.seqSpent_iff
    have hnot : ¬spent → s.seqSpent = false := fun h => Bool.eq_false_iff.2 fun hs => h (hspent.1 hs)
    exact ⟨rfl, fun h => State.nextSeq_first (h.imp_right hspent.2), fun e he h => State.nextSeq_next he (hnot h),
      fun h => State.beginAppend_erase (h.imp_right hspent.2) j, fun hne h => State.beginAppend_program hne (hnot h) j⟩
  · obtain ⟨hread, hsuc⟩ := exec_flashPortGrant hp
    refine ⟨fun h a n hh hph => hread h a n (State.waitingRead_of_flashHeld hh hph), fun hw => ?_⟩
    rw [hsuc hw]
    refine ⟨fun p a n hwant => ?_, fun w hwant => ?_, fun j rest hwant => ?_, fun hwant => ?_⟩
    · rw [State.grantSuc, hwant]
      rfl
    · rw [State.grantSuc, hwant]
      rfl
    · obtain ⟨herase, hprogram⟩ := State.grantSuc_begins hwant
      refine ⟨s.grantSuc, rfl, ?_, fun h => by rw [herase h]; rfl, fun p hp hs => by rw [hprogram p hp hs]; rfl⟩
      by_cases h : s.suc.appendPos = none ∨ s.seqSpent = true
      · rw [herase h]
        rfl
      · obtain ⟨hne, hs⟩ := not_or.1 h
        obtain ⟨p, hp⟩ := Option.ne_none_iff_exists'.1 hne
        rw [hprogram p hp (Bool.eq_false_iff.2 hs)]
        rfl
    · have hgrant : s.grantSuc = s.grantSession := by rw [State.grantSuc, hwant]
      rw [hgrant]
      refine ⟨fun hv => by rw [State.grantSession_verify hv]; rfl, fun p rest hv hstate hq hsec => ?_, fun hv hstate hq => ?_,
        fun hv h1 h2 => ?_⟩
      · rw [State.grantSession_page hv ((Session.working_iff _).2 hstate) (Session.readyPage_of_cons hq hsec)]
        rfl
      · rw [State.grantSession_ahead hv ((Session.working_iff _).2 hstate) (Session.readyPage_eq_none hq)]
        exact ⟨fun h => by rw [if_pos h]; rfl, fun h => by rw [if_neg (Nat.not_lt.2 h)]⟩
      · rw [State.grantSession_none hv]
        refine Bool.eq_false_iff.2 fun hw => ?_
        exact ((Session.working_iff _).1 hw).elim h1 h2

end Sys2Proof.Machine

/-! PROOFS. Suspension of programs and erases for pass-through reads (section 9.2). -/
namespace Sys2Proof.Machine

section
variable {s : State} {o : FlashOp} (hp : s.imu.port = .busy o)
include hp

theorem exec_flashSuspended : exec .flashSuspended s = .next { s with imu.port := .busy o.paused } := by
  have hrow : exec .flashSuspended s = execFlashSuspended s := rfl
  rw [hrow, execFlashSuspended, hp]

theorem exec_suspendTimeout_of_suspending {w : Bool} (h : o.suspension = .suspending w) :
    exec .suspendTimeout s = .next { s with imu.port := .busy { o with
      suspension := .running, answers := false, suspendUs := max o.suspendUs 1000 } } := by
  have hrow : exec .suspendTimeout s = execSuspendTimeout s := rfl
  rw [hrow, execSuspendTimeout, hp]
  dsimp only
  rw [h]

theorem exec_suspendTimeout_of_not (h : ∀ w, o.suspension ≠ .suspending w) : exec .suspendTimeout s = .next s := by
  have hrow : exec .suspendTimeout s = execSuspendTimeout s := rfl
  rw [hrow, execSuspendTimeout, hp]
  dsimp only
  cases hs : o.suspension with
  | running => rfl
  | suspending w => exact absurd hs (h w)
  | suspended => rfl

/-- An operation that is not being suspended is as it was. -/
theorem exec_flashSuspended_of_not (h : ∀ w, o.suspension ≠ .suspending w) : exec .flashSuspended s = .next s := by
  have hpaused : o.paused = o := by
    rcases o.paused_cases with ⟨hs, -⟩ | ⟨hs, -⟩ | ⟨-, he⟩
    exacts [absurd hs (h _), absurd hs (h _), he]
  rw [exec_flashSuspended hp, hpaused, ← hp]

/-- The operation after its minimum run. -/
def FlashOp.minimumRun (o : FlashOp) : FlashOp := { o with inMinRun := false, runUs := max o.runUs 1000 }

theorem exec_minimumRunEnd (hm : o.inMinRun = true) (hs : o.suspension = .running) :
    exec .minimumRunEnd s = .next ({ s with imu.port := .busy o.minimumRun } : State).trySuspend := by
  have hrow : exec .minimumRunEnd s = execMinimumRunEnd s := rfl
  rw [hrow, execMinimumRunEnd, hp]
  exact if_pos ⟨hm, hs⟩

theorem exec_passThroughReadEnd_of_not (h : o.suspension ≠ .suspended) (flips : List Byte) :
    exec (.flashPassThroughReadEnd flips) s = .next s := by
  have hrow : exec (.flashPassThroughReadEnd flips) s = execFlashPassThroughReadEnd flips s := rfl
  rw [hrow, execFlashPassThroughReadEnd, hp]
  dsimp only
  cases hs : o.suspension with
  | running => rfl
  | suspending w => rfl
  | suspended => exact absurd hs h

theorem exec_passThroughReadEnd_of_suspended (h : o.suspension = .suspended) (flips : List Byte) :
    exec (.flashPassThroughReadEnd flips) s = .next (({ s with imu.port := .busy o.resume } : State).answerRead flips) := by
  have hrow : exec (.flashPassThroughReadEnd flips) s = execFlashPassThroughReadEnd flips s := rfl
  rw [hrow, execFlashPassThroughReadEnd, hp]
  dsimp only
  rw [h]

end

theorem exec_passThroughReadEnd_of_reading {s : State} {live : Bool} {b m : Nat}
    (hp : s.imu.port = .reading .passThrough live b m) (flips : List Byte) :
    exec (.flashPassThroughReadEnd flips) s = .next
      (if live = true then State.answerRead flips { s with imu.port := .free } else { s with imu.port := .free }) := by
  have hrow : exec (.flashPassThroughReadEnd flips) s = execFlashPassThroughReadEnd flips s := rfl
  rw [hrow, execFlashPassThroughReadEnd, hp]

/-- The held read completes with its data. -/
theorem State.answerRead_of_flashHeld {s : State} {h : InHand} {a n : Nat} (hh : s.ptu.inHand = some h)
    (hp : h.phase = .flashHeld a n) (flips : List Byte) :
    s.answerRead flips = s.endTxn h (.data (h.txn.dataOfBytes (s.flashRead a n flips))) := by
  rw [State.answerRead, State.waitingRead_of_flashHeld hh hp]

/-- The operation that a minimum run's end may suspend. -/
theorem FlashOp.minimumRun_asked {o : FlashOp} (hs : o.suspension = .running) (a : Nat) :
    (o.answers = true → o.work.clearOf a = true → o.minimumRun.asked a
        = { o.minimumRun with suspension := .suspending true, suspendUs := 0 })
      ∧ (o.answers = false ∨ o.work.clearOf a = false → o.minimumRun.asked a = o.minimumRun) := by
  refine ⟨fun ha hc => if_pos ⟨hs, rfl, ha, hc⟩, fun hno => if_neg ?_⟩
  rintro ⟨-, -, ha, hc⟩
  rcases hno with hno | hno
  · exact Bool.false_ne_true (hno.symm.trans ha)
  · exact Bool.false_ne_true (hno.symm.trans hc)

/-- Settles O50: the rows of a suspension, the minimum run's end, and the end of a pass-through READ. -/
theorem suspensionForReads : Obligations.SuspensionForReads := by
  refine ⟨fun o s hp => ⟨fun hs => ?_, fun hs => ?_, fun w hs => ⟨_, exec_suspendTimeout_of_suspending hp hs⟩,
    fun h => ⟨exec_flashSuspended_of_not hp h, exec_suspendTimeout_of_not hp h⟩, fun hm hs => ?_,
    fun flips h => exec_passThroughReadEnd_of_not hp h flips, fun flips h a n hs hh hph => ?_⟩,
    fun flips b m s => ⟨fun hp => exec_passThroughReadEnd_of_reading hp flips, fun h a n hp hh hph => ?_⟩⟩
  · rw [exec_flashSuspended hp, FlashOp.paused, hs]
  · rw [exec_flashSuspended hp, FlashOp.paused, hs]
    rfl
  · refine ⟨max o.runUs 1000, fun hw => ?_, fun h a n hh hph => ?_⟩
    · rw [exec_minimumRunEnd hp hm hs, State.trySuspend_of_no_read (s := { s with imu.port := .busy o.minimumRun }) hw]
      rfl
    · intro clear
      have hclear : o.work.clearOf a = true ↔ clear := by
        unfold FlashWork.clearOf
        cases hwork : o.work <;> simp [clear, hwork]
      have hread : ({ s with imu.port := .busy o.minimumRun } : State).waitingRead = some (h, a, n) :=
        State.waitingRead_of_flashHeld hh hph
      obtain ⟨hasked, hkept⟩ := FlashOp.minimumRun_asked hs a
      rw [exec_minimumRunEnd hp hm hs, State.trySuspend_of_busy hread rfl]
      refine ⟨fun ha hc => ?_, fun hno => ?_⟩
      · rw [hasked ha (hclear.2 hc)]
        rfl
      · rw [hkept (hno.imp_right fun hc => Bool.eq_false_iff.2 fun hcl => hc (hclear.1 hcl))]
        rfl
  · rw [exec_passThroughReadEnd_of_suspended hp hs, State.answerRead_of_flashHeld (s := { s with imu.port := .busy o.resume }) hh hph]
    rfl
  · rw [exec_passThroughReadEnd_of_reading hp, if_pos rfl,
      State.answerRead_of_flashHeld (s := { s with imu.port := .free }) hh hph]
    rfl

end Sys2Proof.Machine

/-! PROOFS. What keeps the invariants of the station table: the relation between the table before and after, record by record, and
what the AU's, SCU's and other units' operations on one record keep. -/
namespace Sys2Proof.Machine

/-! ## The table before and after -/

/-- The levels of every profile are in range (R119). -/
def ProfilesProper (s : State) : Prop := ∀ p ∈ s.scu.profiles, p.LevelsBounded

/-- The contention factor and the reference rate are in their ranges (R24). -/
def PolicyProper (s : State) : Prop := s.policy.factor ≤ 4096 ∧ 1 ≤ s.policy.refRate

/-- A record's level lies between its station target and 4096, and is 0 while a pause is in force. -/
def State.LevelProper (s : State) (r : Station) : Prop :=
  s.stationTarget r ≤ r.level ∧ r.level ≤ 4096 ∧ (r.pause.inForce = true → r.level = 0)

/-- A record's level is in range and its rate is proper. -/
def State.AllowanceProper (s : State) (r : Station) : Prop := r.level ≤ 4096 ∧ s.RateProper r

theorem levelsProper_iff (s : State) : LevelsProper s ↔ (∀ r ∈ s.stu.stations, s.LevelProper r) ∧ ProfilesProper s := Iff.rfl

theorem ratesProper_iff (s : State) :
    RatesProper s ↔ (∀ r ∈ s.stu.stations, s.AllowanceProper r) ∧ ProfilesProper s ∧ PolicyProper s := Iff.rfl

theorem gamesCounted_iff (s : State) :
    GamesCounted s ↔ s.cgu.count = flagged s.stu.stations ∧ s.cgu.contention = decide (0 < s.cgu.count) := Iff.rfl

/-- Each invariant of the table that holds in `s` holds in `t`, but for the game-active count. -/
structure RecordsKept (s t : State) : Prop where
  table : TableProper s → TableProper t
  pins : PinsDistinct s → PinsDistinct t
  tokens : AllTokensBounded s → AllTokensBounded t
  rates : RatesProper s → RatesProper t
  states : AllStatesProper s → AllStatesProper t
  levels : LevelsProper s → LevelsProper t

/-- Each invariant of the table that holds in `s` holds in `t`. -/
structure TableKept (s t : State) : Prop extends RecordsKept s t where
  games : TableProper s → GamesCounted s → GamesCounted t

theorem RecordsKept.refl (s : State) : RecordsKept s s := ⟨id, id, id, id, id, id⟩

theorem RecordsKept.trans {s t u : State} (h : RecordsKept s t) (h' : RecordsKept t u) : RecordsKept s u :=
  ⟨fun hs => h'.table (h.table hs), fun hs => h'.pins (h.pins hs), fun hs => h'.tokens (h.tokens hs),
    fun hs => h'.rates (h.rates hs), fun hs => h'.states (h.states hs), fun hs => h'.levels (h.levels hs)⟩

theorem TableKept.refl (s : State) : TableKept s s := ⟨.refl s, fun _ => id⟩

theorem TableKept.trans {s t u : State} (h : TableKept s t) (h' : TableKept t u) : TableKept s u :=
  ⟨h.toRecordsKept.trans h'.toRecordsKept, fun hs hg => h'.games (h.table hs) (h.games hs hg)⟩

/-- A first update that keeps the table, mostly by `of_frame`, goes before an operation. -/
theorem TableKept.after {s t u : State} (h' : TableKept t u) (h : TableKept s t) : TableKept s u := h.trans h'

theorem TableKept.ite {s t u : State} {c : Prop} [Decidable c] (h : TableKept s t) (h' : TableKept s u) :
    TableKept s (if c then t else u) := by
  split
  exacts [h, h']

theorem TableKept.foldl {α : Type} (f : State → α → State) (hf : ∀ s a, TableKept s (f s a)) (l : List α) (s : State) :
    TableKept s (l.foldl f s) := by
  induction l generalizing s with
  | nil => exact .refl s
  | cons a l ih => exact (hf s a).trans (ih (f s a))

/-! ## Operations that leave the table -/

/-- The pieces that the invariants of the table speak of. -/
abbrev tableInputs : List Piece := [.stations, .pins, .games, .profiles, .policy]

section
variable {F : List Piece} {s t : State}

theorem Frame.stations (h : Frame F s t) (hp : .stations ∉ F) : t.stu.stations = s.stu.stations := by
  simpa only [State.without, Piece.pick_of_not_mem hp] using congrArg (fun u => u.stu.stations) h

theorem Frame.games (h : Frame F s t) (hp : .games ∉ F) : t.cgu.count = s.cgu.count ∧ t.cgu.contention = s.cgu.contention := by
  simpa only [State.without, Piece.pick_of_not_mem hp, Prod.mk.injEq] using
    congrArg (fun u => (u.cgu.count, u.cgu.contention)) h

theorem State.profileOf_congr (h : t.scu.profiles = s.scu.profiles) (i : Nat) : t.profileOf i = s.profileOf i := by
  rw [State.profileOf, h, State.profileOf]

theorem State.workingCeiling_congr (h : t.scu.profiles = s.scu.profiles) (hp : t.policy = s.policy) (i : Nat) :
    t.workingCeiling i = s.workingCeiling i := by
  rw [State.workingCeiling_eq, State.workingCeiling_eq, State.profileOf_congr h, hp]

theorem State.stationTarget_congr (h : t.scu.profiles = s.scu.profiles) (r : Station) :
    t.stationTarget r = s.stationTarget r := by
  rw [State.stationTarget, State.profileOf_congr h, State.stationTarget]

theorem State.levelProper_congr (h : t.scu.profiles = s.scu.profiles) (r : Station) : t.LevelProper r ↔ s.LevelProper r := by
  rw [State.LevelProper, State.stationTarget_congr h, State.LevelProper]

theorem State.allowanceProper_congr {r : Station} (h : t.workingCeiling r.profile = s.workingCeiling r.profile) :
    t.AllowanceProper r ↔ s.AllowanceProper r := by
  rw [State.AllowanceProper, State.RateProper, h, State.AllowanceProper, State.RateProper]

/-- States with the same table and inputs. -/
theorem TableKept.of_inputs (hstations : t.stu.stations = s.stu.stations) (hpins : t.stu.pins = s.stu.pins)
    (hprofiles : t.scu.profiles = s.scu.profiles) (hpolicy : t.policy = s.policy)
    (hgames : t.cgu.count = s.cgu.count ∧ t.cgu.contention = s.cgu.contention) : TableKept s t := by
  refine ⟨⟨fun hs => ?_, fun hs => ?_, fun hs => ?_, fun hs => ?_, fun hs => ?_, fun hs => ?_⟩, fun _ hs => ?_⟩
  · rwa [tableProper_iff, hstations]
  · rwa [PinsDistinct, hpins]
  · rwa [AllTokensBounded, hstations]
  · obtain ⟨hrecords, hlevels, hranges⟩ := hs
    refine ⟨?_, by rwa [hprofiles], by rwa [hpolicy]⟩
    rw [hstations]
    exact fun r hr => (State.allowanceProper_congr (State.workingCeiling_congr hprofiles hpolicy _)).2 (hrecords r hr)
  · rwa [AllStatesProper, hstations]
  · obtain ⟨hrecords, hlevels⟩ := hs
    refine ⟨?_, by rwa [hprofiles]⟩
    rw [hstations]
    exact fun r hr => (State.levelProper_congr hprofiles r).2 (hrecords r hr)
  · rw [gamesCounted_iff] at hs ⊢
    rwa [hstations, hgames.1, hgames.2]

/-- An operation that touches none of the table's inputs keeps its invariants. -/
theorem TableKept.of_frame (h : Frame F s t) (hF : ∀ p ∈ tableInputs, p ∉ F := by decide) : TableKept s t :=
  .of_inputs (h.stations (hF _ (by decide))) (h.pins (hF _ (by decide))) (h.profiles (hF _ (by decide)))
    (h.policy (hF _ (by decide))) (h.games (hF _ (by decide)))

end

theorem TableKept.raiseAll (bs : List ReportBody) (s : State) : TableKept s (s.raiseAll bs) :=
  .of_frame (s.raiseAll_runs bs).frame

theorem TableKept.raiseTogether (groups : List (List ReportBody)) (s : State) : TableKept s (s.raiseTogether groups) :=
  .of_frame (s.raiseTogether_runs groups).frame

/-! ## One record before and after -/

/-- A record `r` of `s` has become `q` of `t` without harm to the invariants of the table. -/
structure RecordKept (s t : State) (r q : Station) : Prop where
  slot : q.slot = r.slot
  addr : q.addr = r.addr
  tokens : r.TokensBounded → q.TokensBounded
  rate : ProfilesProper t → PolicyProper t → s.AllowanceProper r → t.AllowanceProper q
  state : r.StateProper → q.StateProper
  level : ProfilesProper t → s.LevelProper r → t.LevelProper q

/-- Two states whose profiles and policy are the same. -/
def SameInputs (s t : State) : Prop := t.scu.profiles = s.scu.profiles ∧ t.policy = s.policy

theorem RecordKept.refl {s t : State} (h : SameInputs s t) (r : Station) : RecordKept s t r r :=
  ⟨rfl, rfl, id, fun _ _ => (State.allowanceProper_congr (State.workingCeiling_congr h.1 h.2 _)).2, id,
    fun _ => (State.levelProper_congr h.1 r).2⟩

/-- A record that changes in fields of the STU, the CGU and the RMU alone. -/
theorem RecordKept.of_fields {s : State} {r q : Station} (hslot : q.slot = r.slot) (haddr : q.addr = r.addr)
    (hprofile : q.profile = r.profile) (hlevel : q.level = r.level) (hpause : q.pause = r.pause) (hext : q.ext = r.ext)
    (htokens : q.tokens = r.tokens) (hrate : q.rate = r.rate) (hcap : q.cap = r.cap)
    (hstate : r.StateProper → q.StateProper) : RecordKept s s r q := by
  refine ⟨hslot, haddr, fun h => ?_, fun _ _ h => ?_, hstate, fun _ h => ?_⟩
  · rwa [Station.TokensBounded, hcap, htokens]
  · rwa [State.AllowanceProper, State.RateProper, hlevel, hrate, hcap, hprofile]
  · rwa [State.LevelProper, State.stationTarget, hlevel, hpause, hext, hprofile]

/-! ## The AU (R102 to R108) -/

theorem capacityOf_bounds (rate : Nat) : 3072 ≤ capacityOf rate ∧ capacityOf rate ≤ 1048576 := by
  rw [capacityOf_eq]
  omega

theorem settle_tokensBounded (now : BitVec 32) {r : Station} (h : r.TokensBounded) : (settle now r).TokensBounded := by
  obtain ⟨hlo, hhi, hmin, hmax⟩ := h
  have hle := le_settle_tokens now hmax
  rw [settle_eq] at hle ⊢
  exact ⟨hlo, hhi, hmin.trans hle, min_le_left _ _⟩

theorem charge_tokensBounded (len : Nat) {r : Station} (h : r.TokensBounded) : (charge len r).TokensBounded := by
  obtain ⟨hlo, hhi, hmin, hmax⟩ := h
  rw [charge_eq]
  refine ⟨hlo, hhi, ?_, max_le ?_ ?_⟩ <;> dsimp only <;> omega

theorem State.recompute_tokensBounded (s : State) (r : Station) : (s.recompute r).TokensBounded := by
  obtain ⟨hlo, hhi⟩ := capacityOf_bounds (s.rateFor r)
  have htokens := s.recompute_tokens r
  have hcap : (s.recompute r).cap = capacityOf (s.rateFor r) := rfl
  rw [hcap] at htokens
  rw [Station.TokensBounded, hcap, htokens]
  omega

theorem baseOf_pos {ceiling : Nat} (h : 1 ≤ ceiling) : 1 ≤ baseOf ceiling := by
  unfold baseOf
  omega

theorem State.workingCeiling_pos {s : State} (h : PolicyProper s) (i : Nat) : 1 ≤ s.workingCeiling i := by
  obtain ⟨-, href⟩ := h
  rw [State.workingCeiling_eq]
  split <;> omega

theorem State.multiplier_le {s : State} (h : PolicyProper s) (g : Bool) : s.multiplier g ≤ 4096 := by
  obtain ⟨hfactor, -⟩ := h
  rw [State.multiplier_eq]
  split <;> omega

/-- The rate that a record's inputs give is proper (R102). -/
theorem State.rateProper_of_rateFor {s : State} (hs : PolicyProper s) {r : Station} (hlevel : r.level ≤ 4096)
    (hrate : r.rate = s.rateFor r) (hcap : r.cap = capacityOf r.rate) : s.RateProper r := by
  refine ⟨fun h => ?_, fun h => ?_, hcap⟩ <;> rw [hrate, State.rateFor]
  · rw [h]
    exact rateOf_zero _ _
  · exact ⟨by rw [rateOf_of_pos h]; exact le_max_left _ _,
      rateOf_le_base hlevel (State.multiplier_le hs _) (baseOf_pos (State.workingCeiling_pos hs _))⟩

theorem State.rateChange_allowanceProper {s : State} (hs : PolicyProper s) {r : Station} (hlevel : r.level ≤ 4096) :
    s.AllowanceProper (s.rateChange r) := ⟨hlevel, State.rateProper_of_rateFor hs hlevel rfl rfl⟩

theorem State.startAllowance_allowanceProper {s : State} (hs : PolicyProper s) {r : Station} (hlevel : r.level ≤ 4096) :
    s.AllowanceProper (s.startAllowance r) := ⟨hlevel, State.rateProper_of_rateFor hs hlevel rfl rfl⟩

theorem State.startAllowance_tokensBounded (s : State) (r : Station) : (s.startAllowance r).TokensBounded := by
  obtain ⟨hlo, hhi⟩ := capacityOf_bounds (s.rateFor r)
  refine ⟨hlo, hhi, ?_, le_rfl⟩
  change -(16 * (capacityOf (s.rateFor r) : Int)) ≤ 16 * (capacityOf (s.rateFor r) : Int)
  omega

/-- A record that is recomputed in `t`, its level and state being kept well. -/
theorem RecordKept.rateChange {s t : State} {r q : Station} (hslot : q.slot = r.slot) (haddr : q.addr = r.addr)
    (hstate : r.StateProper → q.StateProper) (hbound : ProfilesProper t → r.level ≤ 4096 → q.level ≤ 4096)
    (hlevel : ProfilesProper t → s.LevelProper r → t.LevelProper q) : RecordKept s t r (t.rateChange q) :=
  ⟨hslot, haddr, fun _ => t.recompute_tokensBounded _,
    fun hp hpol h => State.rateChange_allowanceProper hpol (hbound hp h.1), hstate, hlevel⟩

/-- A settlement of a record, and a charge after it, as a token test makes them (R104, R106). -/
theorem RecordKept.settle (now : BitVec 32) (s : State) (r : Station) : RecordKept s s r (settle now r) :=
  ⟨rfl, rfl, settle_tokensBounded now, fun _ _ => id, id, fun _ => id⟩

theorem RecordKept.charge (len : Nat) (s : State) (r : Station) : RecordKept s s r (charge len r) :=
  ⟨rfl, rfl, charge_tokensBounded len, fun _ _ => id, id, fun _ => id⟩

theorem RecordKept.trans {s t u : State} {r q p : Station} (h : RecordKept s t r q) (h' : RecordKept t u q p)
    (hinputs : SameInputs t u) : RecordKept s u r p := by
  have hprofiles : ProfilesProper u → ProfilesProper t := by
    rw [ProfilesProper, hinputs.1]
    exact id
  have hpolicy : PolicyProper u → PolicyProper t := by
    rw [PolicyProper, hinputs.2]
    exact id
  exact ⟨h'.slot.trans h.slot, h'.addr.trans h.addr, fun hr => h'.tokens (h.tokens hr),
    fun hp hpol hr => h'.rate hp hpol (h.rate (hprofiles hp) (hpolicy hpol) hr), fun hr => h'.state (h.state hr),
    fun hp hr => h'.level hp (h.level (hprofiles hp) hr)⟩

/-- The inputs of the invariants are profiles and policy alone. -/
theorem RecordKept.inputs {s t u : State} {r q : Station} (h : RecordKept s t r q) (hinputs : SameInputs t u) :
    RecordKept s u r q := h.trans (.refl hinputs q) hinputs

/-! ## The SCU (R122 to R124) -/

theorem State.profileOf_levelsBounded {s : State} (hs : ProfilesProper s) (i : Nat) : (s.profileOf i).LevelsBounded := by
  unfold State.profileOf
  rw [List.getD_eq_getElem?_getD]
  cases hi : s.scu.profiles[i]? with
  | none => exact Profile.powerOn_levelsBounded
  | some p => exact hs p (List.mem_of_getElem? hi)

theorem State.stationTarget_le {s : State} (hs : ProfilesProper s) (r : Station) : s.stationTarget r ≤ 4096 := by
  obtain ⟨-, htarget, -⟩ := State.profileOf_levelsBounded hs r.profile
  unfold State.stationTarget
  split
  · exact Nat.zero_le _
  · split
    exacts [le_rfl, htarget]

theorem le_moveLevel (slope : Nat) (paused : Bool) (target level : Nat) : target ≤ moveLevel slope paused target level := by
  unfold moveLevel
  split
  · exact le_rfl
  · split <;> omega

theorem moveLevel_le {slope target level : Nat} {paused : Bool} (ht : target ≤ 4096) (hl : level ≤ 4096) :
    moveLevel slope paused target level ≤ 4096 := by
  unfold moveLevel
  split
  · exact ht
  · split
    exacts [ht, hl]

/-- The level at which a record meets its target is proper, whatever it was within 0..4096 (R123). -/
theorem State.moveLevel_levelProper {s : State} (hs : ProfilesProper s) (slope : Nat) {q : Station} {l : Nat} (hl : l ≤ 4096)
    (hq : q.level = moveLevel slope q.pause.inForce (s.stationTarget q) l) : s.LevelProper q := by
  refine ⟨hq ▸ le_moveLevel _ _ _ _, hq ▸ moveLevel_le (State.stationTarget_le hs q) hl, fun hpause => ?_⟩
  rw [hq, State.stationTarget_of_pause hpause, hpause, moveLevel_paused]

/-- A record that meets its target in `t`, the AU being handed what has changed: its own change leaves level and allowance, and the
ceiling it works under is the same where it is not handed over. -/
theorem RecordKept.moved {s t : State} {r q : Station} (t0 : Nat) {handed : Bool} (hslot : q.slot = r.slot)
    (haddr : q.addr = r.addr) (hlevel : q.level = r.level) (htokens : q.tokens = r.tokens) (hrate : q.rate = r.rate)
    (hcap : q.cap = r.cap) (hstate : r.StateProper → q.StateProper)
    (hceiling : handed = false → t.workingCeiling q.profile = s.workingCeiling r.profile) :
    RecordKept s t r (t.moveRecord t0 handed q).1 := by
  have hproper : ∀ l, l = moveLevel (t.slopeOf q) q.pause.inForce (t.stationTarget q) q.level → ProfilesProper t →
      r.level ≤ 4096 → t.LevelProper { q with level := l } := fun l hl hp hr =>
    State.moveLevel_levelProper hp _ (hlevel ▸ hr) hl
  rw [State.moveRecord]
  dsimp only
  split
  · exact .rateChange hslot haddr hstate (fun hp hr => (hproper _ rfl hp hr).2.1) fun hp hr => hproper _ rfl hp hr.2.1
  · next hnot =>
    rw [not_or, not_not] at hnot
    obtain ⟨hhanded, hsame⟩ := hnot
    refine ⟨hslot, haddr, fun h => ?_, fun _ _ h => ?_, hstate, fun hp hr => hproper _ rfl hp hr.2.1⟩
    · rwa [Station.TokensBounded, hcap, htokens]
    · have hceiling := hceiling (Bool.eq_false_iff.2 hhanded)
      rw [State.AllowanceProper, State.RateProper] at h ⊢
      rw [hsame]
      dsimp only
      rwa [hceiling, hlevel, hrate, hcap]

/-! ## The table, record by record -/

/-- Every record of `t` has become so of one of `s` without harm. -/
theorem RecordsKept.of_each {s t : State} (h : ∀ q ∈ t.stu.stations, ∃ r ∈ s.stu.stations, RecordKept s t r q)
    (htable : TableProper s → TableProper t) (hpins : PinsDistinct s → PinsDistinct t)
    (hprofiles : ProfilesProper s → ProfilesProper t) (hpolicy : PolicyProper s → PolicyProper t) : RecordsKept s t where
  table := htable
  pins := hpins
  tokens hs q hq := by
    obtain ⟨r, hr, hkept⟩ := h q hq
    exact hkept.tokens (hs r hr)
  rates hs := by
    obtain ⟨hrecords, hlevels, hranges⟩ := (ratesProper_iff s).1 hs
    refine (ratesProper_iff t).2 ⟨fun q hq => ?_, hprofiles hlevels, hpolicy hranges⟩
    obtain ⟨r, hr, hkept⟩ := h q hq
    exact hkept.rate (hprofiles hlevels) (hpolicy hranges) (hrecords r hr)
  states hs q hq := by
    obtain ⟨r, hr, hkept⟩ := h q hq
    exact hkept.state (hs r hr)
  levels hs := by
    obtain ⟨hrecords, hlevels⟩ := (levelsProper_iff s).1 hs
    refine (levelsProper_iff t).2 ⟨fun q hq => ?_, hprofiles hlevels⟩
    obtain ⟨r, hr, hkept⟩ := h q hq
    exact hkept.level (hprofiles hlevels) (hrecords r hr)

/-- The whole table mapped. -/
theorem RecordsKept.map {s t : State} (f : Station → Station) (hstations : t.stu.stations = s.stu.stations.map f)
    (h : ∀ r ∈ s.stu.stations, RecordKept s t r (f r)) (hpins : PinsDistinct s → PinsDistinct t)
    (hprofiles : ProfilesProper s → ProfilesProper t) (hpolicy : PolicyProper s → PolicyProper t) : RecordsKept s t := by
  refine .of_each (fun q hq => ?_) (fun hs => ?_) hpins hprofiles hpolicy
  · obtain ⟨r, hr, rfl⟩ := List.mem_map.1 (hstations ▸ hq)
    exact ⟨r, hr, h r hr⟩
  · rw [tableProper_iff, hstations]
    exact TableOf.map hs fun r hr => ⟨(h r hr).slot, (h r hr).addr⟩

/-- A game flag that every record keeps leaves the count true. -/
theorem flagged_map {f : Station → Station} {rs : List Station} (h : ∀ r ∈ rs, (f r).gameActive = r.gameActive) :
    flagged (rs.map f) = flagged rs := by
  rw [flagged_eq_countP, flagged_eq_countP, List.map_map, List.map_congr_left (f := _ ∘ f) h]

/-- The whole table mapped, profiles and policy standing, no game flag moving. -/
theorem TableKept.map {s : State} (f : Station → Station) (h : ∀ r ∈ s.stu.stations, RecordKept s s r (f r))
    (hgame : ∀ r ∈ s.stu.stations, (f r).gameActive = r.gameActive) :
    TableKept s { s with stu.stations := s.stu.stations.map f } := by
  refine ⟨RecordsKept.map f rfl (fun r hr => ?_) id id id, fun _ hg => ?_⟩
  · exact (h r hr).inputs ⟨rfl, rfl⟩
  · rw [gamesCounted_iff] at hg ⊢
    rwa [flagged_map hgame]

/-- Every record replaced by what `f` makes of it, with its reports. -/
theorem TableKept.eachRecord {s : State} (f : Station → Station × List ReportBody)
    (h : ∀ r ∈ s.stu.stations, RecordKept s s r (f r).1) (hgame : ∀ r ∈ s.stu.stations, (f r).1.gameActive = r.gameActive) :
    TableKept s (s.eachRecord f) := by
  refine TableKept.trans ?_ (TableKept.raiseAll _ _)
  rw [List.map_map]
  exact TableKept.map (Prod.fst ∘ f) h hgame

/-- A record put back into its slot. -/
theorem RecordsKept.put {s : State} {r q : Station} (hr : r ∈ s.stu.stations) (h : RecordKept s s r q) :
    RecordsKept s (s.putRecord q) := by
  refine .of_each (fun p hp => ?_) (fun hs => State.putRecord_tableProper hs hr h.slot h.addr) id id id
  rw [State.putRecord_stu] at hp
  obtain ⟨p', hp', rfl⟩ := List.mem_map.1 hp
  split
  · exact ⟨r, hr, h.inputs ⟨rfl, rfl⟩⟩
  · exact ⟨p', hp', RecordKept.refl (s := s) (t := s.putRecord q) ⟨rfl, rfl⟩ p'⟩

theorem TableKept.put {s : State} {r q : Station} (hr : r ∈ s.stu.stations) (h : RecordKept s s r q)
    (hgame : q.gameActive = r.gameActive) : TableKept s (s.putRecord q) := by
  refine ⟨.put hr h, fun hs hg => ?_⟩
  rw [gamesCounted_iff] at hg ⊢
  rw [State.putRecord_stu, flagged_map fun p hp => ?_]
  · exact hg
  · split
    · next hslot =>
      obtain rfl := TableOf.eq_of_slot hs hp hr (hslot.trans h.slot)
      exact hgame
    · rfl

/-- The sweep marks are in no invariant (R110). -/
theorem RecordKept.mark (s : State) (b : Bool) (r : Station) : RecordKept s s r { r with mark := b } :=
  .of_fields rfl rfl rfl rfl rfl rfl rfl rfl rfl id

/-- The count taken again is true whatever it was, and leaves the records but for their marks. -/
theorem RecordsKept.recounted {s t : State} (h : RecordsKept s t) : TableKept s t.recounted := by
  have hmarks : RecordsKept t t.recounted := by
    refine RecordsKept.map (markIn t.cgu.contention (decide (0 < flagged t.stu.stations))) ?_ (fun r _ => ?_) ?_ ?_ ?_ <;>
      rw [State.recounted_eq]
    · exact markedFor_eq _ _ _
    · rw [markIn_eq]
      exact (RecordKept.mark t _ r).inputs ⟨rfl, rfl⟩
    all_goals exact id
  refine ⟨h.trans hmarks, fun _ _ => (gamesCounted_iff _).2 ⟨t.recounted_count, ?_⟩⟩
  rw [State.recounted_eq]

end Sys2Proof.Machine

/-! PROOFS. The units' operations keep the invariants of the table: the STU's, CGU's, SCU's and RMU's work on records, on creations
and frees, and the absorption of policies, profiles and pins. -/
namespace Sys2Proof.Machine

/-! ## Fields that belong to a state -/

theorem Station.stateProper_idle {r : Station} (hs : r.state = .idle ∨ r.state = .expected) :
    r.StateProper ↔ r.current = none ∧ r.steerTo = none ∧ r.hold.isSome = true := by
  rcases hs with hs | hs <;> simp [Station.StateProper, hs]

theorem Station.stateProper_associated {r : Station} (hs : r.state = .associated) :
    r.StateProper ↔ r.current = none ∧ r.steerTo = none ∧ r.hold = none := by
  simp [Station.StateProper, hs]

theorem Station.stateProper_steering {r : Station} (hs : r.state = .steering) :
    r.StateProper ↔ r.current = none ∧ r.steerTo.isSome = true ∧ r.hold = none := by
  simp [Station.StateProper, hs]

theorem Station.stateProper_away {r : Station} (hs : r.state = .away) :
    r.StateProper ↔ r.current.isSome = true ∧ r.steerTo = none ∧ r.hold.isSome = true := by
  simp [Station.StateProper, hs]

theorem observeRecord_stateProper (k : RxKind) {r : Station} (h : r.StateProper) : (observeRecord k r).StateProper := by
  rw [observeRecord_eq]
  cases hs : r.state with
  | idle | expected =>
    obtain ⟨hcurrent, hsteer, hhold⟩ := (Station.stateProper_idle (by simp [hs])).1 h
    cases k <;> simp [observedState, Station.StateProper, hcurrent, hsteer, hhold]
  | associated =>
    obtain ⟨hcurrent, hsteer, hhold⟩ := (Station.stateProper_associated hs).1 h
    cases k <;> simp [observedState, Station.StateProper, hcurrent, hsteer, hhold]
  | steering =>
    obtain ⟨hcurrent, hsteer, hhold⟩ := (Station.stateProper_steering hs).1 h
    cases k <;> simp [observedState, Station.StateProper, hcurrent, hsteer, hhold]
  | away =>
    obtain ⟨hcurrent, hsteer, hhold⟩ := (Station.stateProper_away hs).1 h
    cases k <;> simp [observedState, Station.StateProper, hcurrent, hsteer, hhold]

theorem enterAway_stateProper (n : Nat) (r : Station) : (enterAway n r).StateProper := by
  simp [enterAway, Station.StateProper]

theorem claimRecord_stateProper (n : Nat) {r : Station} (h : r.StateProper) : (claimRecord n r).1.StateProper := by
  unfold claimRecord
  split
  · exact enterAway_stateProper n r
  · exact enterAway_stateProper n r
  · exact enterAway_stateProper n r
  · exact h
  · next hs =>
    split
    · exact h
    · obtain ⟨-, hsteer, hhold⟩ := (Station.stateProper_away hs).1 h
      exact (Station.stateProper_away (r := { r with current := some n }) hs).2 ⟨rfl, hsteer, hhold⟩

theorem importState_stateProper {r : Station} (h : r.StateProper) : (importState r).StateProper := by
  unfold importState
  split
  · next hs =>
    obtain ⟨hcurrent, hsteer, -⟩ := (Station.stateProper_idle (.inl hs)).1 h
    exact (Station.stateProper_idle (.inr rfl)).2 ⟨hcurrent, hsteer, rfl⟩
  · next hs =>
    obtain ⟨hcurrent, hsteer, -⟩ := (Station.stateProper_idle (.inr hs)).1 h
    exact (Station.stateProper_idle (r := { r with hold := some 30 }) (.inr hs)).2 ⟨hcurrent, hsteer, rfl⟩
  · next hs =>
    obtain ⟨-, hsteer, -⟩ := (Station.stateProper_away hs).1 h
    exact (Station.stateProper_idle (.inr rfl)).2 ⟨rfl, hsteer, rfl⟩
  · exact h
  · exact h

theorem stuCount_stateProper {r : Station} (h : r.StateProper) : (stuCount r).StateProper := by
  unfold Station.StateProper stuCount at *
  cases hr : r.hold <;> simpa [hr] using h

theorem beginSteering_stateProper (p : Policy) (own : Nat) (cause : SteerCause) (e : Estimate) {r : Station}
    (h : r.StateProper) (hs : r.state = .associated) : (beginSteering p own cause e r).1.StateProper := by
  obtain ⟨hcurrent, -, -⟩ := (Station.stateProper_associated hs).1 h
  exact (Station.stateProper_steering rfl).2 ⟨hcurrent, rfl, rfl⟩

theorem timeOutRecord_stateProper (drain : Bool) {r : Station} (h : r.StateProper) (hs : r.state = .steering) :
    (timeOutRecord drain r).1.StateProper := by
  obtain ⟨hcurrent, -, -⟩ := (Station.stateProper_steering hs).1 h
  exact (Station.stateProper_associated rfl).2 ⟨hcurrent, rfl, rfl⟩

/-! ## Transmit decisions and observations -/

/-- An address's record is one of the table. -/
theorem State.mem_of_recordOf {s : State} {m : Mac} {r : Station} (h : s.recordOf m = some r) : r ∈ s.stu.stations :=
  (State.recordOf_some h).1

theorem State.mem_of_recordAt {s : State} {k : Nat} {r : Station} (h : s.recordAt k = some r) : r ∈ s.stu.stations :=
  (State.recordAt_some h).1

/-- The hold countdown of an AWAY record is restarted (R42). -/
theorem RecordKept.holdRestarted (s : State) {r : Station} (hs : r.state = .away) : RecordKept s s r { r with hold := some 120 } := by
  refine .of_fields rfl rfl rfl rfl rfl rfl rfl rfl rfl fun h => ?_
  obtain ⟨hcurrent, hsteer, -⟩ := (Station.stateProper_away hs).1 h
  exact (Station.stateProper_away (r := { r with hold := some 120 }) hs).2 ⟨hcurrent, hsteer, rfl⟩

theorem RecordKept.countGame (s : State) (r : Station) : RecordKept s s r (countGame r) :=
  .of_fields rfl rfl rfl rfl rfl rfl rfl rfl rfl id

theorem RecordKept.tokenTest (now : BitVec 32) (c : Class) (len : Nat) (s : State) (r : Station) :
    RecordKept s s r (tokenTest now c len r).2 ∧ (tokenTest now c len r).2.gameActive = r.gameActive := by
  rcases tokenTest_cases now c len r with ⟨-, h⟩ | ⟨-, h⟩ <;> rw [h]
  · exact ⟨(RecordKept.settle now s r).trans (.charge len s _) ⟨rfl, rfl⟩, rfl⟩
  · exact ⟨.settle now s r, rfl⟩

theorem State.judge_tableKept (d : List Word) (s : State) : TableKept s (s.judge d).2 := by
  unfold State.judge
  split
  · split <;> exact .refl s
  · next r hr =>
    have hmem := State.mem_of_recordOf hr
    split
    · next haway => exact .put hmem (.holdRestarted s haway) rfl
    · split
      · exact .refl s
      · dsimp only
        obtain ⟨htest, hgame⟩ :=
          RecordKept.tokenTest s.time.ms (s.resolveClass r.pinned (txClass d) (txTag d)) (txLength d) s r
        split
        · split
          · exact .put hmem (htest.trans (.countGame s _) ⟨rfl, rfl⟩) hgame
          · exact .put hmem htest hgame
        · exact .put hmem htest hgame

/-! ## Creations and frees -/

theorem insertRecord_perm (r : Station) (rs : List Station) : (insertRecord r rs).Perm (r :: rs) := by
  induction rs with
  | nil => exact .refl _
  | cons q rs ih =>
    unfold insertRecord
    split
    · exact .refl _
    · exact (ih.cons q).trans (.swap r q rs)

theorem insertRecord_sorted {r : Station} {rs : List Station} (h : (rs.map (fun r => r.slot)).Pairwise (· < ·))
    (hr : ∀ q ∈ rs, q.slot ≠ r.slot) : ((insertRecord r rs).map (fun r => r.slot)).Pairwise (· < ·) := by
  induction rs with
  | nil => simp [insertRecord]
  | cons q rs ih =>
    simp only [List.map_cons, List.pairwise_cons, List.forall_mem_map] at h
    obtain ⟨hq, hrs⟩ := h
    unfold insertRecord
    split
    · next hlt =>
      simp only [List.map_cons, List.pairwise_cons, List.mem_cons, forall_eq_or_imp, List.forall_mem_map]
      exact ⟨⟨hlt, fun p hp => hlt.trans (hq p hp)⟩, hq, hrs⟩
    · next hnot =>
      have hne := hr q List.mem_cons_self
      simp only [List.map_cons, List.pairwise_cons, List.forall_mem_map]
      refine ⟨fun p hp => ?_, ih hrs fun p hp => hr p (List.mem_cons_of_mem q hp)⟩
      rcases List.mem_cons.1 ((insertRecord_perm r rs).mem_iff.1 hp) with rfl | hp
      exacts [by omega, hq p hp]

theorem TableOf.insert {r : Station} {rs : List Station} (h : TableOf rs) (hlt : r.slot < 128) (hslot : ∀ q ∈ rs, q.slot ≠ r.slot)
    (haddr : ∀ q ∈ rs, q.addr ≠ r.addr) : TableOf (insertRecord r rs) := by
  obtain ⟨hsorted, hslots, haddrs⟩ := h
  refine ⟨insertRecord_sorted hsorted hslot, fun q hq => ?_, ?_⟩
  · rcases List.mem_cons.1 ((insertRecord_perm r rs).mem_iff.1 hq) with rfl | hq
    exacts [hlt, hslots q hq]
  · rw [((insertRecord_perm r rs).map _).nodup_iff, List.map_cons, List.nodup_cons]
    refine ⟨fun hmem => ?_, haddrs⟩
    obtain ⟨q, hq, heq⟩ := List.mem_map.1 hmem
    exact haddr q hq heq

/-- A record as it may join the table of `s`. -/
structure State.Joins (s : State) (r : Station) : Prop where
  tokens : r.TokensBounded
  rate : ProfilesProper s → PolicyProper s → s.AllowanceProper r
  state : r.StateProper
  level : ProfilesProper s → s.LevelProper r

/-- A record joins a table in which its slot and its address are free. -/
theorem RecordsKept.add {s s1 : State} {r : Station} (h : RecordsKept s s1) (hr : s1.Joins r)
    (hlt : TableProper s → r.slot < 128) (hslot : ∀ q ∈ s1.stu.stations, q.slot ≠ r.slot) (haddr : s1.recordOf r.addr = none) :
    RecordsKept s (s1.addRecord r) := by
  have hmem : ∀ q ∈ (s1.addRecord r).stu.stations, q = r ∨ q ∈ s1.stu.stations := fun q hq =>
    List.mem_cons.1 ((insertRecord_perm r _).mem_iff.1 hq)
  have hceiling : ∀ q, s1.AllowanceProper q → (s1.addRecord r).AllowanceProper q := fun q =>
    (State.allowanceProper_congr (s := s1) (t := s1.addRecord r) (State.workingCeiling_congr rfl rfl _)).2
  have htarget : ∀ q, s1.LevelProper q → (s1.addRecord r).LevelProper q := fun q =>
    (State.levelProper_congr (s := s1) (t := s1.addRecord r) rfl q).2
  refine ⟨fun hs => ?_, h.pins, fun hs q hq => ?_, fun hs => ?_, fun hs q hq => ?_, fun hs => ?_⟩
  · exact TableOf.insert (h.table hs) (hlt hs) hslot ((State.recordOf_eq_none_iff _ _).1 haddr)
  · rcases hmem q hq with rfl | hq
    exacts [hr.tokens, h.tokens hs q hq]
  · obtain ⟨hrecords, hprofiles, hpolicy⟩ := (ratesProper_iff _).1 (h.rates hs)
    refine (ratesProper_iff _).2 ⟨fun q hq => hceiling q ?_, hprofiles, hpolicy⟩
    rcases hmem q hq with rfl | hq
    exacts [hr.rate hprofiles hpolicy, hrecords q hq]
  · rcases hmem q hq with rfl | hq
    exacts [hr.state, h.states hs q hq]
  · obtain ⟨hrecords, hprofiles⟩ := (levelsProper_iff _).1 (h.levels hs)
    refine (levelsProper_iff _).2 ⟨fun q hq => htarget q ?_, hprofiles⟩
    rcases hmem q hq with rfl | hq
    exacts [hr.level hprofiles, hrecords q hq]

/-- A record that is not game-active joins without a change of the count. -/
theorem TableKept.add {s s1 : State} {r : Station} (h : TableKept s s1) (hr : s1.Joins r) (hlt : TableProper s → r.slot < 128)
    (hslot : ∀ q ∈ s1.stu.stations, q.slot ≠ r.slot) (haddr : s1.recordOf r.addr = none) (hgame : r.gameActive = false) :
    TableKept s (s1.addRecord r) := by
  refine ⟨.add h.toRecordsKept hr hlt hslot haddr, fun hs hg => ?_⟩
  obtain ⟨hcount, hcontention⟩ := (gamesCounted_iff _).1 (h.games hs hg)
  exact (gamesCounted_iff _).2 ⟨hcount.trans (flagged_insertRecord hgame _).symm, hcontention⟩

theorem State.removeRecord_tableKept (r : Station) (s : State) : TableKept s (s.removeRecord r) := by
  have hleft : RecordsKept s { s with
      stu.stations := withoutSlot r.slot s.stu.stations
      rmu.summaries := s.rmu.summaries.filter (fun k => k != r.slot) } :=
    .of_each (fun q hq => ⟨q, (mem_withoutSlot.1 hq).1, (RecordKept.refl (s := s) ⟨rfl, rfl⟩ q).inputs ⟨rfl, rfl⟩⟩)
      (fun hs => TableOf.filter hs _) id id id
  exact hleft.recounted

theorem State.freeRecord_tableKept (r : Station) (reason : FreeReason) (s : State) : TableKept s (s.freeRecord r reason) :=
  (s.removeRecord_tableKept r).trans (.raiseTogether _ _)

/-- The room that is made for a new record. -/
theorem State.makeRoom_spec {s s1 : State} {k : Nat} {freed edges : List ReportBody}
    (h : s.makeRoom = some (k, s1, freed, edges)) :
    TableKept s s1 ∧ (TableProper s → k < 128) ∧ (∀ q ∈ s1.stu.stations, q.slot ≠ k)
      ∧ ∀ m, s.recordOf m = none → s1.recordOf m = none := by
  rcases s.makeRoom_cases with ⟨k', hfree, h'⟩ | ⟨v, -, hv, h'⟩ | ⟨-, -, h'⟩ <;> rw [h'] at h <;> cases h
  · have hfound := List.find?_eq_some_iff_append.1 hfree
    obtain ⟨hall, -⟩ := hfound
    refine ⟨.refl s, fun _ => List.mem_range.1 (List.mem_of_find?_eq_some hfree), fun q hq hslot => ?_, fun _ => id⟩
    simpa [hslot] using List.all_eq_true.1 hall q hq
  · refine ⟨s.removeRecord_tableKept v, fun hs => hs.2.1 v (State.victim_eq_some hs hv).1, fun q hq hslot => ?_,
      fun m hm => State.removeRecord_recordOf_none hm v⟩
    obtain ⟨p, -, hpslot, -, hne⟩ := State.removeRecord_mem hq
    exact hne (hpslot.trans hslot)

/-- A learned record is fit to join. -/
theorem State.newRecord_joins (s : State) (m : Mac) {st : StationState}
    (hst : st = .idle ∨ st = .expected ∨ st = .associated) (k : Nat) : s.Joins (s.newRecord m st k) := by
  have htarget : (s.blankRecord m st k).level = s.stationTarget (s.blankRecord m st k) := rfl
  refine ⟨s.startAllowance_tokensBounded _, fun hp hpol => ?_, ?_, fun hp => ?_⟩
  · exact State.startAllowance_allowanceProper hpol (htarget ▸ State.stationTarget_le hp _)
  · rcases hst with rfl | rfl | rfl
    · exact (Station.stateProper_idle (.inl rfl)).2 ⟨rfl, rfl, rfl⟩
    · exact (Station.stateProper_idle (.inr rfl)).2 ⟨rfl, rfl, rfl⟩
    · exact (Station.stateProper_associated rfl).2 ⟨rfl, rfl, rfl⟩
  · exact ⟨htarget.ge, htarget ▸ State.stationTarget_le hp _, fun hpause => nomatch hpause⟩

theorem State.learn_tableKept {s : State} {m : Mac} (hm : s.recordOf m = none) {st : StationState}
    (hst : st = .idle ∨ st = .expected ∨ st = .associated) : TableKept s (s.learn m st) := by
  unfold State.learn
  split
  · next k s1 freed edges hroom =>
    obtain ⟨hkept, hlt, hslot, hnone⟩ := State.makeRoom_spec hroom
    refine TableKept.trans ?_ (.raiseTogether _ _)
    exact .add hkept (s1.newRecord_joins m hst k) hlt hslot (hnone m hm) rfl
  · exact .refl s

theorem RecordKept.observed (k : RxKind) (s : State) (r : Station) : RecordKept s s r (observeRecord k r) := by
  have heq := observeRecord_eq k r
  have hstate := observeRecord_stateProper k (r := r)
  generalize observeRecord k r = q at heq hstate
  exact .of_fields (congrArg Station.slot heq :) (congrArg Station.addr heq :) (congrArg Station.profile heq :)
    (congrArg Station.level heq :) (congrArg Station.pause heq :) (congrArg Station.ext heq :) (congrArg Station.tokens heq :)
    (congrArg Station.rate heq :) (congrArg Station.cap heq :) hstate

theorem State.observe_tableKept (m : Mac) (k : RxKind) (s : State) : TableKept s (s.observe m k) := by
  unfold State.observe
  split
  · next r hr =>
    have hgame : (observeRecord k r).gameActive = r.gameActive := (congrArg Station.gameActive (observeRecord_eq k r) :)
    exact (TableKept.put (State.mem_of_recordOf hr) (.observed k s r) hgame).trans (.raiseAll _ _)
  · next hnone =>
    split
    · exact State.learn_tableKept hnone (by simp)
    · exact State.learn_tableKept hnone (by simp)
    · exact State.learn_tableKept hnone (by simp)
    all_goals exact .refl s

theorem RecordKept.estimates (es : List Estimate) (s : State) (r : Station) : RecordKept s s r { r with estimates := es } :=
  .of_fields rfl rfl rfl rfl rfl rfl rfl rfl rfl id

theorem State.sample_tableKept (m : Mac) (sig : Option Int) (s : State) : TableKept s (s.sample m sig) := by
  unfold State.sample
  split
  · next r hr =>
    have hmem := State.mem_of_recordOf hr
    unfold sampleRecord
    split
    · exact .put hmem (.refl ⟨rfl, rfl⟩ r) rfl
    · exact .put hmem (.estimates _ s r) rfl
  · exact .refl s

theorem State.receive_tableKept (ring : Nat) (w0 : Word) (word : Nat → Word) (s : State) :
    TableKept s (s.receive ring w0 word).2 := by
  have hcleared : TableKept s (s.putCapture ring Capture.empty) := .of_frame (F := [.captures]) rfl
  refine TableKept.ite (hcleared.trans (.of_frame (State.queuePeer_runs _ _).frame)) ?_
  exact hcleared.trans ((State.observe_tableKept _ _ _).trans (State.sample_tableKept _ _ _))

theorem State.endFill_tableKept (s : State) : TableKept s s.endFill := by
  unfold State.endFill
  split
  · split
    · exact (s.receive_tableKept _ _ _).trans (.of_frame (State.toPhase_frame _ _ _))
    · exact .refl s
  · exact .refl s

/-- A hold that runs out frees its record; any other stands. -/
theorem State.freeExpired_tableKept (k : Nat) (s : State) : TableKept s (s.freeExpired k) := by
  unfold State.freeExpired
  split
  · split
    · exact s.freeRecord_tableKept _ _
    · exact .refl s
  · exact .refl s

theorem State.stationBoundary_tableKept (s : State) : TableKept s s.stationBoundary := by
  have hcounted : TableKept s { s with stu.stations := s.stu.stations.map stuCount } :=
    .map stuCount (fun r _ => .of_fields rfl rfl rfl rfl rfl rfl rfl rfl rfl stuCount_stateProper) fun _ _ => rfl
  exact hcounted.trans (.foldl _ (fun s k => s.freeExpired_tableKept k) _ _)

/-! ## Claims, roaming and drain mode -/

/-- The record after a claim: AWAY entered, moved to another node, or as it was (R139). -/
theorem claimRecord_cases (n : Nat) (r : Station) :
    (claimRecord n r).1 = enterAway n r ∨ (claimRecord n r).1 = r ∨ (claimRecord n r).1 = { r with current := some n } := by
  unfold claimRecord
  split
  · exact .inl rfl
  · exact .inl rfl
  · exact .inl rfl
  · exact .inr (.inl rfl)
  · split
    exacts [.inr (.inl rfl), .inr (.inr rfl)]

theorem RecordKept.claimed (n : Nat) (s : State) (r : Station) :
    RecordKept s s r (claimRecord n r).1 ∧ (claimRecord n r).1.gameActive = r.gameActive := by
  have hstate := claimRecord_stateProper n (r := r)
  rcases claimRecord_cases n r with h | h | h <;> rw [h] at hstate ⊢ <;>
    exact ⟨.of_fields rfl rfl rfl rfl rfl rfl rfl rfl rfl hstate, rfl⟩

theorem State.peerEstimate_tableKept (n : Nat) (e : PeerEntry) (s : State) : TableKept s (s.peerEstimate n e) := by
  unfold State.peerEstimate
  split
  · exact .refl s
  · next r hr =>
    have hmem := State.mem_of_recordOf hr
    have hkept := RecordKept.estimates (putEstimate n (clampInt (-2048) 0 e.value) r.estimates) s r
    dsimp only
    split
    · obtain ⟨hclaimed, hgame⟩ := RecordKept.claimed n s
        { r with estimates := putEstimate n (clampInt (-2048) 0 e.value) r.estimates }
      exact (TableKept.put hmem (hkept.trans hclaimed ⟨rfl, rfl⟩) hgame).trans (.raiseTogether _ _)
    · exact .put hmem hkept rfl

theorem State.handEntries_tableKept (node used : Nat) (s : State) : TableKept s (s.handEntries node used) := by
  unfold State.handEntries
  dsimp only
  have hhanded : ∀ (f : Nat → PeerEntry) n, TableKept s ((List.range n).foldl (fun s i => s.peerEstimate node (f i)) s) :=
    fun f n => .foldl _ (fun s i => s.peerEstimate_tableKept node _) _ _
  refine TableKept.ite ((hhanded _ _).trans (.of_frame (State.endFetch_frame _))) ?_
  exact (hhanded _ _).trans (.after (.of_frame (State.issueFetch_frame _)) (.of_frame (F := [.peers]) rfl))

/-- A record that changes in fields of the RMU without bearing on its state. -/
theorem RecordKept.roaming {s : State} {r : Station} (dwell : Nat) (candidate : Option Nat) (unmovable : Bool) :
    RecordKept s s r { r with dwell := dwell, candidate := candidate, unmovable := unmovable } :=
  .of_fields rfl rfl rfl rfl rfl rfl rfl rfl rfl id

theorem State.setDrain_tableKept (on : Bool) (s : State) : TableKept s (s.setDrain on) :=
  (TableKept.map (drainSwitched on) (fun _ _ => .roaming _ _ _) fun _ _ => rfl).trans (.of_frame (F := [.rmu]) rfl)

theorem RecordKept.beginSteering (p : Policy) (own : Nat) (cause : SteerCause) (e : Estimate) (s : State) {r : Station}
    (hs : r.state = .associated) : RecordKept s s r (beginSteering p own cause e r).1 :=
  .of_fields rfl rfl rfl rfl rfl rfl rfl rfl rfl fun h => beginSteering_stateProper p own cause e h hs

theorem RecordKept.timeOut (drain : Bool) (s : State) {r : Station} (hs : r.state = .steering) :
    RecordKept s s r (timeOutRecord drain r).1 :=
  .of_fields rfl rfl rfl rfl rfl rfl rfl rfl rfl fun h => timeOutRecord_stateProper drain h hs

theorem RecordKept.evaluated (p : Policy) (own : Nat) (s : State) (r : Station) :
    RecordKept s s r (evaluateRecord p own r).1 ∧ (evaluateRecord p own r).1.gameActive = r.gameActive := by
  unfold evaluateRecord
  dsimp only
  split
  · next hassoc =>
    split
    · next l b _ _ =>
      split
      · generalize (if r.candidate = some b.node then r.dwell + 1 else 1) = n
        generalize (if r.gameActive = true then p.gameDwell else p.dwell) = limit
        split
        · exact ⟨.beginSteering p own _ _ s hassoc.1, rfl⟩
        · exact ⟨.roaming _ _ _, rfl⟩
      · exact ⟨.roaming _ _ _, rfl⟩
    · exact ⟨.roaming _ _ _, rfl⟩
  · exact ⟨.roaming _ _ _, rfl⟩

theorem movable_state {p : Policy} {own : Nat} {r : Station} (h : movable p own r = true) : r.state = .associated := by
  simp only [movable, Bool.and_eq_true, beq_iff_eq] at h
  exact h.1.1

theorem RecordKept.drained (p : Policy) (own : Nat) (s : State) (r : Station) :
    RecordKept s s r (drainRecord p own r).1 ∧ (drainRecord p own r).1.gameActive = r.gameActive := by
  unfold drainRecord
  dsimp only
  split
  · next hmovable =>
    split
    · refine ⟨(RecordKept.roaming (s := s) 0 none r.unmovable).trans (.beginSteering p own _ _ s ?_) ⟨rfl, rfl⟩, rfl⟩
      exact movable_state hmovable
    · exact ⟨.roaming _ _ _, rfl⟩
  · exact ⟨.roaming _ _ _, rfl⟩

theorem RecordKept.roamCounted (drain : Bool) (s : State) (r : Station) :
    RecordKept s s r (roamCount drain r).1 ∧ (roamCount drain r).1.gameActive = r.gameActive := by
  have haged : ∀ n, RecordKept s s r (ageEstimates { r with backoff := n }) := fun _ =>
    .of_fields rfl rfl rfl rfl rfl rfl rfl rfl rfl id
  unfold roamCount
  dsimp only
  split
  · next hsteer =>
    split
    · exact ⟨(haged _).trans (.timeOut drain s hsteer) ⟨rfl, rfl⟩, rfl⟩
    · exact ⟨.of_fields rfl rfl rfl rfl rfl rfl rfl rfl rfl id, rfl⟩
  · exact ⟨haged _, rfl⟩

theorem State.roamStep_kept (s t : State) (r : Station) :
    RecordKept t t r (s.roamStep r).1 ∧ (s.roamStep r).1.gameActive = r.gameActive := by
  unfold State.roamStep
  split
  exacts [RecordKept.drained _ _ t r, RecordKept.evaluated _ _ t r]

theorem State.roamMoved_tableKept (s : State) : TableKept s s.roamMoved := by
  have hcounted : TableKept s (s.eachRecord (roamCount s.rmu.drain)) :=
    .eachRecord _ (fun r _ => (RecordKept.roamCounted _ s r).1) fun r _ => (RecordKept.roamCounted _ s r).2
  exact hcounted.trans (.eachRecord _ (fun r _ => (s.roamStep_kept _ r).1) fun r _ => (s.roamStep_kept s r).2)

/-! ## Sessions -/

theorem State.enterSession_tableKept (st : SessionState) (reason : Reason) (s : State) : TableKept s (s.enterSession st reason) :=
  .of_frame (s.enterSession_runs st reason).frame

theorem State.leaveDraining_tableKept (s : State) : TableKept s s.leaveDraining := by
  unfold State.leaveDraining
  exact .ite (s.setDrain_tableKept false) (.refl s)

theorem TableKept.session (n : Session) (s : State) : TableKept s { s with imu.session := n } :=
  .of_frame (F := [.session]) rfl

theorem TableKept.jobs (jobs : List AppendJob) (s : State) : TableKept s { s with suc.jobs := jobs } :=
  .of_frame (F := [.startLog]) rfl

theorem State.enterDraining_tableKept (s : State) : TableKept s s.enterDraining := by
  exact (TableKept.session _ s).trans ((State.setDrain_tableKept true _).trans (State.enterSession_tableKept _ _ _))

theorem State.enterCommitting_tableKept (reason : Reason) (s : State) : TableKept s (s.enterCommitting reason) := by
  have hentered := (TableKept.session { s.imu.session with now := false, force := false } s).trans
    ((State.setDrain_tableKept false _).trans (State.enterSession_tableKept .committing reason _))
  exact hentered.trans (.jobs _ _)

theorem State.imageBoundary_tableKept (s : State) : TableKept s s.imageBoundary := by
  unfold State.imageBoundary
  split
  · exact .ite s.enterDraining_tableKept (.refl s)
  · exact .ite ((TableKept.session _ s).trans (State.enterCommitting_tableKept _ _)) (.session _ s)
  all_goals exact .refl s

theorem State.roamBoundary_tableKept (s : State) : TableKept s s.roamBoundary := by
  rw [State.roamBoundary_eq]
  refine s.roamMoved_tableKept.trans (TableKept.trans ?_ (.of_frame (State.summaryStep_runs _).frame))
  unfold State.roamJudged
  exact .ite (State.enterCommitting_tableKept _ _) (.refl _)

end Sys2Proof.Machine

/-! PROOFS. The AU's, CGU's and SCU's operations, the absorbed tables and the imports keep the invariants of the table. -/
namespace Sys2Proof.Machine

/-! ## Records handed to the AU -/

theorem RecordKept.recomputed (s : State) (r : Station) : RecordKept s s r (s.rateChange r) :=
  .rateChange rfl rfl id (fun _ => id) fun _ => id

/-- A record unchanged under profiles and a policy that mean the same for it. -/
theorem RecordKept.same {s t : State} {r : Station} (hceiling : t.workingCeiling r.profile = s.workingCeiling r.profile)
    (htarget : t.stationTarget r = s.stationTarget r) : RecordKept s t r r := by
  refine ⟨rfl, rfl, id, fun _ _ => (State.allowanceProper_congr hceiling).2, id, fun _ h => ?_⟩
  rwa [State.LevelProper, htarget]

theorem State.moveRecord_gameActive (s : State) (t0 : Nat) (handed : Bool) (r : Station) :
    (s.moveRecord t0 handed r).1.gameActive = r.gameActive := by
  obtain ⟨q, h, hq⟩ := s.moveRecord_shape t0 handed r
  rw [h]
  exact (congrArg Station.gameActive hq :)

theorem PinsDistinct.congr {s t : State} (h : t.stu.pins = s.stu.pins) (hs : PinsDistinct s) : PinsDistinct t := by
  rwa [PinsDistinct, h]

/-! ## Game sessions -/

theorem gameEvaluate_kept (p : Policy) (s : State) (r : Station) : RecordKept s s r (gameEvaluate p r).1 := by
  unfold gameEvaluate
  dsimp only
  split
  · split
    · exact .of_fields rfl rfl rfl rfl rfl rfl rfl rfl rfl id
    · generalize min p.sustain (r.sustain + 1) = n
      split <;> exact .of_fields rfl rfl rfl rfl rfl rfl rfl rfl rfl id
  · split
    · split <;> exact .of_fields rfl rfl rfl rfl rfl rfl rfl rfl rfl id
    · exact .of_fields rfl rfl rfl rfl rfl rfl rfl rfl rfl id

theorem State.gameStep_kept (s : State) (r : Station) : RecordKept s s r (s.gameStep r) := by
  have hkept := gameEvaluate_kept s.policy s r
  unfold State.gameStep
  dsimp only
  split
  · exact hkept.trans (.recomputed s _) ⟨rfl, rfl⟩
  · exact hkept

theorem State.gameBoundary_tableKept (s : State) : TableKept s s.gameBoundary := by
  have hstepped : RecordsKept s { s with stu.stations := s.stu.stations.map s.gameStep } :=
    .map s.gameStep rfl (fun r _ => (s.gameStep_kept r).inputs ⟨rfl, rfl⟩) id id id
  exact hstepped.recounted.trans (.raiseAll _ _)

theorem execGameLingerEnd_tableKept (slot : Nat) (s : State) : Answers (TableKept s) (execGameLingerEnd slot s) := by
  unfold execGameLingerEnd
  split
  · next r hr =>
    refine .ite (fun _ => .next ?_) fun _ => .next (.refl s)
    exact (RecordsKept.put (State.mem_of_recordAt hr) (s.gameStep_kept r)).recounted.trans (.raiseAll _ _)
  · exact .next (.refl s)

theorem execSweepVisit_tableKept (s : State) : Answers (TableKept s) (execSweepVisit s) := by
  unfold execSweepVisit
  split
  · next r hr => exact .next (.put (List.mem_of_find?_eq_some hr) (.recomputed s r) rfl)
  · exact .next (.refl s)

/-! ## Levels and targets -/

/-- A record whose pause or extension changes meets its target. -/
theorem State.override_tableKept {s : State} {r : Station} (hr : r ∈ s.stu.stations) (pause : Pause) (ext : Nat) :
    TableKept s (s.override r { r with pause := pause, ext := ext }) := by
  have hput : TableKept s
      (s.putRecord (s.moveRecord (s.stationTarget r) false { r with pause := pause, ext := ext }).1) :=
    .put hr (.moved _ rfl rfl rfl rfl rfl rfl id fun _ => rfl) (s.moveRecord_gameActive _ _ _)
  exact hput.trans (.raiseAll _ _)

theorem targetAt_le (c : TimeBase) {p : Profile} (h : p.LevelsBounded) : targetAt c p ≤ 4096 := by
  obtain ⟨hdefault, -, hlevels⟩ := h
  by_cases hopen : c.valid = true ∧ ∃ w ∈ p.windows.take p.count, minuteIn w.start w.stop c.minute = true
  · obtain ⟨⟨w, hw, -, htarget⟩, -⟩ := targetAt_least hopen.1 hopen.2
    exact htarget ▸ hlevels w hw
  · rw [targetAt_default]
    · exact hdefault
    · by_cases hv : c.valid = true
      · exact .inr fun w hw hin => hopen ⟨hv, w, hw, hin⟩
      · exact .inl (Bool.eq_false_iff.2 hv)

theorem Profile.retargeted_levelsBounded (c : TimeBase) {p : Profile} (h : p.LevelsBounded) :
    ({ p with target := targetAt c p } : Profile).LevelsBounded := ⟨h.1, targetAt_le c h, h.2.2⟩

theorem State.retargetProfiles_proper {s : State} (h : ProfilesProper s) : ProfilesProper s.retargetProfiles := by
  intro p hp
  obtain ⟨q, hq, rfl⟩ := List.mem_map.1 hp
  exact Profile.retargeted_levelsBounded s.time (h q hq)

/-- Profiles that differ in their targets alone have the same ceilings. -/
theorem State.workingCeiling_of_profileRecords {s t : State} (h : t.profileRecords = s.profileRecords) (hp : t.policy = s.policy)
    (i : Nat) : t.workingCeiling i = s.workingCeiling i := by
  have hceilings : ∀ u : State, (u.profileOf i).ceiling = (u.profileRecords.map (fun p => p.ceiling)).getD i 0 := fun u => by
    have hdefault : (0 : Nat) = Profile.powerOn.ceiling := rfl
    have hmap : u.profileRecords.map (fun p => p.ceiling) = u.scu.profiles.map (fun p => p.ceiling) := List.map_map
    rw [hmap, hdefault, State.profileOf]
    simp only [List.getD_eq_getElem?_getD, List.getElem?_map]
    cases u.scu.profiles[i]? <;> rfl
  rw [State.workingCeiling_eq, State.workingCeiling_eq, hceilings t, hceilings s, h, hp]

/-- The records of a table meet their targets in `s1`, which differs from `s` in profiles and policy: those not concerned stand under
what means the same for them, and of the others what is not handed to the AU keeps its ceiling. -/
theorem State.moveRecords_tableKept {s s1 : State} {concerned handed : Station → Bool} (hpins : s1.stu.pins = s.stu.pins)
    (hgames : s1.cgu.count = s.cgu.count ∧ s1.cgu.contention = s.cgu.contention)
    (hprofiles : ProfilesProper s → ProfilesProper s1) (hpolicy : PolicyProper s → PolicyProper s1)
    (hother : ∀ r, concerned r = false → RecordKept s s1 r r)
    (hceiling : ∀ r, concerned r = true → handed r = false → s1.workingCeiling r.profile = s.workingCeiling r.profile) :
    TableKept s (s.moveRecords s1 concerned handed) := by
  rw [State.moveRecords_eq]
  refine TableKept.trans ?_ (.raiseAll _ _)
  have hmet : ∀ r, RecordKept s s1 r (s.meets s1 concerned handed r).1
      ∧ (s.meets s1 concerned handed r).1.gameActive = r.gameActive := fun r => by
    unfold State.meets
    split
    · next h =>
      exact ⟨.moved _ rfl rfl rfl rfl rfl rfl id (hceiling r h), s1.moveRecord_gameActive _ _ r⟩
    · next h => exact ⟨hother r (Bool.eq_false_iff.2 h), rfl⟩
  refine ⟨RecordsKept.map _ rfl (fun r _ => (hmet r).1.inputs ⟨rfl, rfl⟩) (fun hs => ?_) hprofiles hpolicy, fun _ hg => ?_⟩
  · exact PinsDistinct.congr hpins hs
  · rw [gamesCounted_iff] at hg ⊢
    exact ⟨hgames.1.trans (hg.1.trans (flagged_map fun r _ => (hmet r).2).symm),
      hgames.2.trans (hg.2.trans (congrArg (fun n => decide (0 < n)) hgames.1.symm))⟩

theorem State.clockSet_moveRecords_tableKept (minute second : Nat) (s : State) :
    TableKept s (s.moveRecords (s.clockSet minute second) (fun _ => true) fun _ => false) := by
  have hceiling : ∀ i, (s.clockSet minute second).workingCeiling i = s.workingCeiling i :=
    State.workingCeiling_of_profileRecords (State.retargetProfiles_profileRecords
      { s with time := { s.time with minute := minute, second := second, valid := true } }) rfl
  exact State.moveRecords_tableKept rfl ⟨rfl, rfl⟩ (fun h => State.retargetProfiles_proper h) id (fun _ h => nomatch h)
    fun r _ _ => hceiling r.profile

/-! ## The SCU's event at a second boundary (R126) -/

theorem State.clockAdvanced_inputs (s : State) :
    s.clockAdvanced.policy = s.policy ∧ (ProfilesProper s → ProfilesProper s.clockAdvanced) := by
  unfold State.clockAdvanced
  split
  · exact ⟨rfl, fun h => State.retargetProfiles_proper h⟩
  · exact ⟨rfl, id⟩

theorem le_rampLevel {slope target level : Nat} (h : target ≤ level) : target ≤ rampLevel slope target level := by
  unfold rampLevel
  split <;> omega

theorem rampLevel_le (slope target level : Nat) : rampLevel slope target level ≤ level := by
  unfold rampLevel
  split <;> omega

theorem Pause.inForce_of_count {p : Pause} (h : p.count.inForce = true) : p.inForce = true := by
  cases p with
  | none => exact h
  | indefinite => rfl
  | timed n =>
    by_cases hn : n ≤ 1
    · simp [Pause.count, hn, Pause.inForce] at h
    · exact decide_eq_true (by omega)

/-- Where no override ends and the profile's target stands, the record's target stands through the countdowns. -/
theorem State.stationTarget_counted {s s1 : State} {r : Station} (l : Nat) (hends : overrideEnds r = false)
    (htarget : (s.profileOf r.profile).target = (s1.profileOf r.profile).target) :
    s1.stationTarget { r with level := l, pause := r.pause.count, ext := r.ext - 1 } = s.stationTarget r := by
  have hext : r.ext ≠ 1 := fun h => by simp [overrideEnds, h] at hends
  have hpause : r.pause.count.inForce = r.pause.inForce := by
    cases hp : r.pause with
    | none => rfl
    | indefinite => rfl
    | timed n =>
      have hn : ¬n ≤ 1 := fun hn => by simp [overrideEnds, hp, hn] at hends
      simp only [Pause.count, if_neg hn, Pause.inForce, decide_eq_decide]
      omega
  have hleft : (0 < r.ext - 1) = (0 < r.ext) := propext (by omega)
  simp only [State.stationTarget, hpause, hleft, htarget]

/-- The level a record has after the SCU's event: the ramp step, and the target where an override ends or the profile's target
changes (steps 1 and 5). -/
def State.scuLevel (s s1 : State) (r : Station) : Nat :=
  let ramped := rampLevel (s.slopeOf r) (s.stationTarget r) r.level
  if (overrideEnds r || (s.profileOf r.profile).target != (s1.profileOf r.profile).target) = true then
    moveLevel (s1.slopeOf r) r.pause.count.inForce (s1.stationTarget { r with pause := r.pause.count, ext := r.ext - 1 }) ramped
  else ramped

/-- The record after the SCU's event but for the AU's fields. -/
def State.scuCounted (s s1 : State) (r : Station) : Station :=
  { r with level := s.scuLevel s1 r, pause := r.pause.count, ext := r.ext - 1 }

theorem State.scuRecord_fst (s s1 : State) (r : Station) :
    (s.scuRecord s1 r).1 =
      if s.scuLevel s1 r ≠ r.level then s1.rateChange (s.scuCounted s1 r) else s.scuCounted s1 r := rfl

theorem State.scuLevel_le {s s1 : State} (hp : ProfilesProper s1) {r : Station} (h : r.level ≤ 4096) :
    s.scuLevel s1 r ≤ 4096 := by
  have hramped : rampLevel (s.slopeOf r) (s.stationTarget r) r.level ≤ 4096 := (rampLevel_le _ _ _).trans h
  unfold State.scuLevel
  dsimp only
  split
  exacts [moveLevel_le (State.stationTarget_le hp _) hramped, hramped]

/-- The record's level after the SCU's event is proper (R123 to R127). -/
theorem State.scuCounted_levelProper {s s1 : State} (hp : ProfilesProper s1) {r : Station} (h : s.LevelProper r) :
    s1.LevelProper (s.scuCounted s1 r) := by
  obtain ⟨htarget, hmax, hpause⟩ := h
  by_cases hmeets : (overrideEnds r || (s.profileOf r.profile).target != (s1.profileOf r.profile).target) = true
  · exact State.moveLevel_levelProper hp (s1.slopeOf r) (q := s.scuCounted s1 r) ((rampLevel_le _ _ _).trans hmax)
      (if_pos hmeets)
  · have hlevel : s.scuLevel s1 r = rampLevel (s.slopeOf r) (s.stationTarget r) r.level := if_neg hmeets
    rw [Bool.or_eq_true, not_or, bne_iff_ne, not_not, Bool.not_eq_true] at hmeets
    refine ⟨?_, State.scuLevel_le hp hmax, fun hforce => ?_⟩
    · refine (State.stationTarget_counted _ hmeets.1 hmeets.2).le.trans ?_
      exact (le_rampLevel htarget).trans hlevel.ge
    · have hzero := hpause (Pause.inForce_of_count hforce)
      exact Nat.le_zero.1 (hzero ▸ hlevel.le.trans (rampLevel_le _ _ _))

theorem State.scuRecord_kept {s s1 : State} (hceiling : ∀ i, s1.workingCeiling i = s.workingCeiling i) (r : Station) :
    RecordKept s s1 r (s.scuRecord s1 r).1 ∧ (s.scuRecord s1 r).1.gameActive = r.gameActive := by
  rw [State.scuRecord_fst]
  split
  · exact ⟨.rateChange rfl rfl id (fun hp => State.scuLevel_le hp) fun hp => State.scuCounted_levelProper hp, rfl⟩
  · next hsame =>
    rw [not_not] at hsame
    refine ⟨⟨rfl, rfl, id, fun _ _ h => ?_, id, fun hp => State.scuCounted_levelProper hp⟩, rfl⟩
    rw [State.AllowanceProper, State.RateProper] at h ⊢
    rw [State.scuCounted]
    dsimp only
    rwa [hsame, hceiling]

theorem State.scheduleBoundary_tableKept (s : State) : TableKept s s.scheduleBoundary := by
  obtain ⟨hpolicy, hprofiles⟩ := s.clockAdvanced_inputs
  have hframe := s.clockAdvanced_frame
  have hceiling := State.workingCeiling_of_profileRecords s.clockAdvanced_profileRecords hpolicy
  have hmapped : TableKept s
      { s.clockAdvanced with stu.stations := (s.stu.stations.map (s.scuRecord s.clockAdvanced)).map Prod.fst } := by
    rw [List.map_map]
    refine ⟨RecordsKept.map _ rfl (fun r _ => (State.scuRecord_kept hceiling r).1.inputs ⟨rfl, rfl⟩) (fun hs => ?_) hprofiles
      (fun h => ?_), fun _ hg => ?_⟩
    · exact PinsDistinct.congr (hframe.pins (by decide)) hs
    · rwa [PolicyProper, hpolicy]
    · obtain ⟨hcount, hcontention⟩ := hframe.games (by decide)
      rw [gamesCounted_iff] at hg ⊢
      exact ⟨hcount.trans (hg.1.trans (flagged_map fun r _ => (State.scuRecord_kept hceiling r).2).symm),
        hcontention.trans (hg.2.trans (congrArg (fun n => decide (0 < n)) hcount.symm))⟩
  rw [State.scheduleBoundary_eq]
  exact hmapped.trans ((TableKept.raiseAll _ _).trans (.raiseAll _ _))

end Sys2Proof.Machine

/-! PROOFS. Absorbed records, requests and the two resets keep the invariants of the table, and so does every step. -/
namespace Sys2Proof.Machine

/-! ## The node policy record (R25, R96, R109) -/

theorem policyOfWords_proper (ws : List Word) : (policyOfWords ws).factor ≤ 4096 ∧ 1 ≤ (policyOfWords ws).refRate := by
  obtain ⟨href, -, hfactor, -⟩ := policyOfWords_ranges ws
  exact ⟨hfactor, href⟩

/-- A ceiling of its own, or an unchanged reference rate, leaves a record's working ceiling. -/
theorem State.workingCeiling_policy {s : State} {p : Policy} {i : Nat}
    (h : ¬(p.refRate ≠ s.policy.refRate ∧ (s.profileOf i).ceiling = 0)) :
    ({ s with policy := p } : State).workingCeiling i = s.workingCeiling i := by
  rw [State.workingCeiling_eq, State.workingCeiling_eq]
  have hprofile : ({ s with policy := p } : State).profileOf i = s.profileOf i := rfl
  rw [hprofile]
  split
  · next hzero =>
    by_contra hne
    exact h ⟨hne, hzero⟩
  · rfl

/-- A record of any shape whose sweep mark, sustain count and linger alone are changed. -/
theorem RecordKept.detection (mark : Bool) (sustain linger : Nat) (s : State) (r : Station) :
    RecordKept s s r { r with mark := mark, sustain := sustain, linger := linger } :=
  .of_fields rfl rfl rfl rfl rfl rfl rfl rfl rfl id

theorem State.policyTaken_kept (p : Policy) (s : State) (r : Station) :
    RecordKept s { s with policy := p } r (s.policyTaken p r) ∧ (s.policyTaken p r).gameActive = r.gameActive := by
  unfold State.policyTaken
  dsimp only
  by_cases h : p.refRate ≠ s.policy.refRate ∧ (s.profileOf r.profile).ceiling = 0
  · have hkept : RecordKept s { s with policy := p } r (({ s with policy := p } : State).rateChange r) :=
      .rateChange rfl rfl id (fun _ => id) fun _ => id
    simp only [if_pos h]
    exact ⟨hkept.trans (.detection _ _ _ _ _) ⟨rfl, rfl⟩, rfl⟩
  · have hkept : RecordKept s { s with policy := p } r r := .same (State.workingCeiling_policy h) rfl
    simp only [if_neg h]
    exact ⟨hkept.trans (.detection _ _ _ _ _) ⟨rfl, rfl⟩, trivial⟩

theorem State.takePolicy_tableKept (ws : List Word) (s : State) : TableKept s (s.takePolicy (policyOfWords ws)) := by
  rw [State.takePolicy_eq]
  have hproper := policyOfWords_proper ws
  generalize policyOfWords ws = p at hproper
  refine ⟨RecordsKept.map _ rfl (fun r _ => (s.policyTaken_kept p r).1.inputs ⟨rfl, rfl⟩) id id fun _ => hproper, fun _ hg => ?_⟩
  rw [gamesCounted_iff] at hg ⊢
  exact ⟨hg.1.trans (flagged_map fun r _ => (s.policyTaken_kept p r).2).symm, hg.2⟩

/-! ## Profiles (R119) -/

theorem State.profileSet_other {i k : Nat} (h : k ≠ i) (p : Profile) (s : State) :
    (s.profileSet i p).profileOf k = s.profileOf k := by
  simp only [State.profileOf, State.profileSet, List.getD_eq_getElem?_getD, List.getElem?_set_ne (Ne.symm h)]

theorem State.profileSet_proper {i : Nat} {p : Profile} (hp : profileInRange p = true) (ht : p.target ≤ 4096) {s : State}
    (hs : ProfilesProper s) : ProfilesProper (s.profileSet i p) := by
  intro q hq
  obtain ⟨hdefault, -, -, hwindows⟩ := (profileInRange_iff p).1 hp
  have hbounded : p.LevelsBounded := ⟨hdefault, ht, fun w hw => (hwindows w hw).2.2⟩
  rcases List.mem_or_eq_of_mem_set hq with hq | rfl
  exacts [hs q hq, Profile.retargeted_levelsBounded s.time hbounded]

theorem State.takeProfile_tableKept (i : Nat) (ws : List Word) (s : State) : TableKept s (s.takeProfile i ws) := by
  cases hp : profileInRange (profileOfWords ws 0) with
  | false =>
    rw [State.takeProfile_refused hp]
    exact .of_frame (s.raise_frame _)
  | true =>
    rw [State.takeProfile_taken hp]
    refine State.moveRecords_tableKept rfl ⟨rfl, rfl⟩ (State.profileSet_proper hp (Nat.zero_le _)) id (fun r hr => ?_)
      fun r hr hsame => ?_
    · have hother := State.profileSet_other (beq_eq_false_iff_ne.1 hr) (profileOfWords ws 0) s
      refine .same ?_ ?_
      · rw [State.workingCeiling_eq, State.workingCeiling_eq, hother]
        rfl
      · rw [State.stationTarget, hother, State.stationTarget]
    · rw [bne_eq_false_iff_eq] at hsame
      rw [beq_iff_eq.1 hr, hsame]

theorem execProfileRecord_tableKept (s : State) : Answers (TableKept s) (execProfileRecord s) := by
  unfold execProfileRecord
  split
  · exact .next ((TableKept.of_frame (s.absorb_frame _ _)).trans (.foldl _ (fun s o => s.takeProfile_tableKept _ _) _ _))
  · exact .next (.refl s)

/-! ## Pins (R77 to R79) -/

/-- Values at distinct places are distinct where every value stands at one place. -/
theorem nodup_filterMap_of_index {α β : Type} {f : Option α → Option β} {l : List (Option α)}
    (h : ∀ i j b, i < j → f (l.getD i none) = some b → f (l.getD j none) ≠ some b) : (l.filterMap f).Nodup := by
  rw [List.Nodup, List.pairwise_filterMap, List.pairwise_iff_getElem]
  intro i j hi hj hlt b hb b' hb' heq
  have hget : ∀ k (hk : k < l.length), l.getD k none = l[k] := fun k hk => by simp [List.getD_eq_getElem?_getD, hk]
  exact h i j b hlt (hget i hi ▸ hb) (hget j hj ▸ heq ▸ hb')

/-- The address of a valid pin. -/
def pinAddr (p : Option Pin) : Option Mac := p.map (fun q => q.addr)

theorem PinsDistinct.index {s : State} (hs : PinsDistinct s) {i j : Nat} {m : Mac} (hi : pinAddr (s.stu.pins.getD i none) = some m)
    (hj : pinAddr (s.stu.pins.getD j none) = some m) : i = j := by
  have hbind : ∀ k, pinAddr (s.stu.pins.getD k none) = some m → s.stu.pins[k]?.bind (fun p => p.map (fun q => q.addr)) = some m :=
    fun k hk => by
      obtain ⟨q, hq, haddr⟩ := Option.map_eq_some_iff.1 hk
      rw [(getD_eq_some_lt hq).2]
      simp [haddr]
  exact index_unique_of_nodup _ hs (hbind i hi) (hbind j hj)

/-- A pin taken leaves no second valid pin of any address (R78). -/
theorem pinsTaken_distinct {s : State} (hs : PinsDistinct s) (j : Nat) (new : Option Pin) :
    ((pinsTaken s.stu.pins j new).filterMap pinAddr).Nodup := by
  have hother : ∀ k m, k ≠ j → pinAddr ((pinsTaken s.stu.pins j new).getD k none) = some m →
      pinAddr (s.stu.pins.getD k none) = some m ∧ pinAddr new ≠ some m := fun k m hk hm => by
    rw [pinsTaken_getD_other hk] at hm
    split at hm
    · exact nomatch hm
    · next hdup =>
      refine ⟨hm, fun hnew => hdup ((doubled_iff_pinDuplicate hs j k new).1 ⟨hk, ?_, ?_⟩)⟩
      · obtain ⟨q, hq, -⟩ := Option.map_eq_some_iff.1 hm
        rw [hq]
        rfl
      · exact Eq.trans hm hnew.symm
  have hsame : ∀ m, pinAddr ((pinsTaken s.stu.pins j new).getD j none) = some m → pinAddr new = some m := fun m hm => by
    by_cases hj : j < s.stu.pins.length
    · rwa [pinsTaken_getD_same hj] at hm
    · rw [List.getD_eq_default _ _ (by rw [pinsTaken_length]; omega)] at hm
      exact nomatch hm
  refine nodup_filterMap_of_index fun i k m hlt hi hk => ?_
  by_cases hij : i = j
  · subst hij
    exact (hother k m hlt.ne' hk).2 (hsame m hi)
  · by_cases hkj : k = j
    · subst hkj
      exact (hother i m hij hi).2 (hsame m hk)
    · exact hlt.ne (hs.index (hother i m hij hi).1 (hother k m hkj hk).1)

theorem State.pinMeets_kept (s : State) (old new : Option Pin) (r : Station) :
    RecordKept s s r (s.pinMeets old new r).1 ∧ (s.pinMeets old new r).1.gameActive = r.gameActive := by
  have hshape : ∃ profile pinned, pinRecordTo old new r = { r with profile := profile, pinned := pinned } := by
    rw [pinRecordTo_eq]
    split
    · exact ⟨_, _, rfl⟩
    · split
      exacts [⟨_, _, rfl⟩, ⟨r.profile, r.pinned, rfl⟩]
  obtain ⟨profile, pinned, hshape⟩ := hshape
  unfold State.pinMeets
  rw [hshape]
  split
  · next hprofile => exact ⟨.of_fields rfl rfl hprofile rfl rfl rfl rfl rfl rfl id, rfl⟩
  · exact ⟨.moved _ rfl rfl rfl rfl rfl rfl id (fun h => nomatch h), s.moveRecord_gameActive _ _ _⟩

theorem State.takePin_tableKept (j : Nat) (ws : List Word) (s : State) : TableKept s (s.takePin j ws) := by
  rw [State.takePin_eq]
  refine TableKept.trans ?_ (.raiseTogether _ _)
  generalize pinOfWords ws = new
  refine ⟨RecordsKept.map _ rfl (fun r _ => (s.pinMeets_kept _ new r).1.inputs ⟨rfl, rfl⟩)
    (fun hs => pinsTaken_distinct hs j new) id id, fun _ hg => ?_⟩
  rw [gamesCounted_iff] at hg ⊢
  exact ⟨hg.1.trans (flagged_map fun r _ => (s.pinMeets_kept _ new r).2).symm, hg.2⟩

theorem execPinRecord_tableKept (s : State) : Answers (TableKept s) (execPinRecord s) := by
  unfold execPinRecord
  split
  · exact .next ((TableKept.of_frame (s.absorb_frame _ _)).trans (.foldl _ (fun s o => s.takePin_tableKept _ _) _ _))
  · exact .next (.refl s)

theorem execNodePolicyRecord_tableKept (s : State) : Answers (TableKept s) (execNodePolicyRecord s) := by
  unfold execNodePolicyRecord
  split
  · exact .next ((TableKept.of_frame (s.absorb_frame _ _)).trans (State.takePolicy_tableKept _ _))
  · exact .next (.refl s)

/-! ## Imports (R81, R82) -/

theorem contextOf_level {q : Request} {c : Context} (h : contextOf q = some c) : c.level ≤ 4096 := by
  have hrange : ¬4096 < q.arg 5 := fun hlt => by
    have := (contextOf_eq_none_iff q).2 (.inr (.inr (.inr (.inl hlt))))
    exact nomatch h.symm.trans this
  have hlevel : c.level = q.arg 5 := by
    unfold contextOf at h
    dsimp only at h
    split at h
    · exact nomatch h
    · exact congrArg Context.level (Option.some.inj h).symm
  omega

theorem State.importFields_levelProper {s : State} (hs : ProfilesProper s) {c : Context} (hc : c.level ≤ 4096) (r : Station) :
    s.LevelProper (s.importFields c r) :=
  State.moveLevel_levelProper hs _ (q := s.importFields c r) (max_le hc (State.stationTarget_le hs _)) rfl

theorem State.importFound_tableKept {s : State} {c : Context} (hc : c.level ≤ 4096) {r : Station} (hr : r ∈ s.stu.stations) :
    TableKept s (s.importFound c r) := by
  have hfields : (importState r).slot = r.slot ∧ (importState r).addr = r.addr := by
    unfold importState
    split <;> exact ⟨rfl, rfl⟩
  have hput : RecordsKept s (s.putRecord (s.rateChange (s.importFields c (importState r)))) :=
    .put hr (.rateChange hfields.1 hfields.2 (fun h => importState_stateProper h)
      (fun hp _ => (State.importFields_levelProper hp hc _).2.1) fun hp _ => State.importFields_levelProper hp hc _)
  exact hput.recounted.trans (.raiseTogether _ _)

theorem State.importFields_joins {s : State} {c : Context} (hc : c.level ≤ 4096) (m : Mac) (k : Nat) :
    s.Joins (s.startAllowance (s.importFields c (s.blankRecord m .expected k))) :=
  ⟨s.startAllowance_tokensBounded _,
    fun hp hpol => State.startAllowance_allowanceProper hpol (State.importFields_levelProper hp hc _).2.1,
    (Station.stateProper_idle (r := s.startAllowance (s.importFields c (s.blankRecord m .expected k))) (.inr rfl)).2
      ⟨rfl, rfl, rfl⟩,
    fun hp => State.importFields_levelProper hp hc _⟩

theorem State.importCreated_tableKept {s s1 : State} {c : Context} (hc : c.level ≤ 4096) {m : Mac} {k : Nat}
    (hm : s.recordOf m = none) {freed edges : List ReportBody} (hroom : s.makeRoom = some (k, s1, freed, edges)) :
    TableKept s (s1.importCreated c m k freed edges) := by
  obtain ⟨hkept, hlt, hslot, hnone⟩ := State.makeRoom_spec hroom
  have hadded := RecordsKept.add hkept.toRecordsKept (s1.importFields_joins hc m k) hlt hslot (hnone m hm)
  exact hadded.recounted.trans (.raiseTogether _ _)

/-! ## Requests -/

theorem TableKept.answer (q : Request) (c : ResultCode) (d : Nat) (s : State) : TableKept s (s.answer q c d) :=
  .of_frame (s.answer_frame q c d)

/-- A request row keeps the table where its owner does. -/
theorem State.onRequest_tableKept (accepts : Word → Bool) (owner : Request → State → State) (s : State)
    (h : ∀ q s, TableKept s (owner q s)) : Answers (TableKept s) (.next (s.onRequest accepts owner)) := by
  refine .next ?_
  rcases s.onRequest_cases accepts owner with h' | ⟨q, _, _, h'⟩ <;> rw [h']
  · exact .refl s
  · exact (TableKept.of_frame s.takeClosing_frame).trans (h q _)

theorem execSetTime_tableKept (s : State) : Answers (TableKept s) (execSetTime s) :=
  s.onRequest_tableKept _ _ fun _ s => .ite (.answer _ _ _ s)
    ((s.clockSet_moveRecords_tableKept _ _).trans (.answer _ _ _ _))

theorem execPauseStation_tableKept (s : State) : Answers (TableKept s) (execPauseStation s) := by
  refine s.onRequest_tableKept _ _ fun q s => .ite (.answer _ _ _ s) ?_
  split
  · exact .answer _ _ _ s
  · next r hr => exact (State.override_tableKept (State.mem_of_recordOf hr) _ 0).trans (.answer _ _ _ _)

theorem execResumeStation_tableKept (s : State) : Answers (TableKept s) (execResumeStation s) := by
  refine s.onRequest_tableKept _ _ fun q s => ?_
  split
  · exact .answer _ _ _ s
  · next r hr =>
    exact .ite ((State.override_tableKept (State.mem_of_recordOf hr) _ r.ext).trans (.answer _ _ _ _)) (.answer _ _ _ s)

theorem execExtendStation_tableKept (s : State) : Answers (TableKept s) (execExtendStation s) := by
  refine s.onRequest_tableKept _ _ fun q s => .ite (.answer _ _ _ s) ?_
  split
  · exact .answer _ _ _ s
  · next r hr =>
    exact .ite (.answer _ _ _ s) ((State.override_tableKept (State.mem_of_recordOf hr) r.pause _).trans (.answer _ _ _ _))

theorem execForgetStation_tableKept (s : State) : Answers (TableKept s) (execForgetStation s) := by
  refine s.onRequest_tableKept _ _ fun _ s => ?_
  split
  · exact .answer _ _ _ s
  · exact (s.freeRecord_tableKept _ _).trans (.answer _ _ _ _)

theorem execImportContext_tableKept (s : State) : Answers (TableKept s) (execImportContext s) := by
  refine s.onRequest_tableKept _ _ fun q s => ?_
  split
  · exact .answer _ _ _ s
  · next c hc =>
    have hlevel := contextOf_level hc
    split
    · next r hr => exact (State.importFound_tableKept hlevel (State.mem_of_recordOf hr)).trans (.answer _ _ _ _)
    · next hnone =>
      split
      · exact .answer _ _ _ s
      · next hroom => exact (State.importCreated_tableKept hlevel hnone hroom).trans (.answer _ _ _ _)

theorem execImageAbort_tableKept (s : State) : Answers (TableKept s) (execImageAbort s) := by
  refine s.onRequest_tableKept _ _ fun _ s => ?_
  split
  · exact s.leaveDraining_tableKept.trans ((State.enterSession_tableKept _ _ _).trans
      ((TableKept.of_frame (State.dropSession_frame _)).trans (.answer _ _ _ _)))
  · exact .answer _ _ _ s

theorem execActivateCancel_tableKept (s : State) : Answers (TableKept s) (execActivateCancel s) := by
  refine s.onRequest_tableKept _ _ fun _ s => ?_
  split
  · exact s.leaveDraining_tableKept.trans ((TableKept.of_frame (State.sessionEntered_runs _ _ _ _).frame).trans (.answer _ _ _ _))
  · exact .answer _ _ _ s

/-! ## Countdowns and inspection -/

theorem State.transmit_tableKept (ring addr : Nat) (d : List Word) (s : State) : TableKept s (s.transmit ring addr d).2 := by
  have hdefers : ∀ (u : State) (q : List (Option Defer)), TableKept u { u with diu.defers := q } := fun _ _ =>
    .of_frame (F := [.defers]) rfl
  exact (s.judge_tableKept d).trans (hdefers _ _)

theorem execTransmitDecision_tableKept (s : State) : Answers (TableKept s) (execTransmitDecision s) := by
  unfold execTransmitDecision
  split
  · split
    · exact .next ((s.transmit_tableKept _ _ _).trans (.of_frame (State.endTxn_frame _ _ _)))
    · exact .next (.refl s)
  · exact .next (.refl s)

theorem execRxClosingWrite_tableKept (s : State) : Answers (TableKept s) (execRxClosingWrite s) := by
  unfold execRxClosingWrite
  split
  · next h w _ =>
    dsimp only
    have hcaptured : ∀ c, TableKept s (s.putCapture w.ringId c) := fun _ => .of_frame (F := [.captures]) rfl
    refine .ite (fun _ => .next ?_) fun _ => .next ((hcaptured _).trans (.of_frame (State.toPhase_frame _ _ _)))
    exact (hcaptured _).trans ((State.receive_tableKept _ _ _ _).trans (.of_frame (State.toPhase_frame _ _ _)))
  · exact .next s.endFill_tableKept

theorem execPeerFetchReadDone_tableKept (s : State) : Answers (TableKept s) (execPeerFetchReadDone s) := by
  unfold execPeerFetchReadDone
  split
  · dsimp only
    have hfinished : ∀ a, TableKept s (s.finishAccess a) := fun a => .of_frame (s.finishAccess_frame a)
    have htaken : ∀ a bs, TableKept s { s.finishAccess a with diu.fetch.bytes := bs } := fun a _ =>
      (hfinished a).trans (.of_frame (F := [.peers]) rfl)
    split
    · exact .next ((hfinished _).trans (.of_frame (State.joinBehind_frame _)))
    · exact .next (hfinished _)
    · split
      · exact .next ((htaken _ _).trans (State.handEntries_tableKept _ _ _))
      · exact .ite (fun _ => .next ((htaken _ _).trans (.of_frame (State.issueFetch_frame _))))
          fun _ => .next ((htaken _ _).trans (.of_frame (State.takeHeader_frame _ _)))
  · exact .next (.refl s)

theorem execHoldCountdownExpiry_tableKept (slot : Nat) (s : State) : Answers (TableKept s) (execHoldCountdownExpiry slot s) := by
  unfold execHoldCountdownExpiry
  split
  · split
    · exact .ite (fun _ => .next (s.freeRecord_tableKept _ _)) fun _ => .next (.refl s)
    · exact .next (.refl s)
  · exact .next (.refl s)

theorem execPauseExpiry_tableKept (slot : Nat) (s : State) : Answers (TableKept s) (execPauseExpiry slot s) := by
  unfold execPauseExpiry
  split
  · next r hr =>
    split
    · exact .ite (fun _ => .next (State.override_tableKept (State.mem_of_recordAt hr) .none r.ext)) fun _ => .next (.refl s)
    all_goals exact .next (.refl s)
  · exact .next (.refl s)

theorem execExtensionExpiry_tableKept (slot : Nat) (s : State) : Answers (TableKept s) (execExtensionExpiry slot s) := by
  unfold execExtensionExpiry
  split
  · next r hr =>
    exact .ite (fun _ => .next (State.override_tableKept (State.mem_of_recordAt hr) r.pause 0)) fun _ => .next (.refl s)
  · exact .next (.refl s)

theorem execEstimateEntryExpiry_tableKept (slot node : Nat) (s : State) :
    Answers (TableKept s) (execEstimateEntryExpiry slot node s) := by
  unfold execEstimateEntryExpiry
  split
  · next r hr => exact .next (.put (State.mem_of_recordAt hr) (.estimates _ s r) rfl)
  · exact .next (.refl s)

theorem execBackoffExpiry_tableKept (slot : Nat) (s : State) : Answers (TableKept s) (execBackoffExpiry slot s) := by
  unfold execBackoffExpiry
  split
  · next r hr =>
    refine .ite (fun _ => .next (.put (State.mem_of_recordAt hr) ?_ rfl)) fun _ => .next (.refl s)
    exact .of_fields rfl rfl rfl rfl rfl rfl rfl rfl rfl id
  · exact .next (.refl s)

theorem execSteerTimeout_tableKept (slot : Nat) (s : State) : Answers (TableKept s) (execSteerTimeout slot s) := by
  unfold execSteerTimeout
  split
  · next r hr =>
    refine .ite (fun h => .next ?_) fun _ => .next (.refl s)
    exact (TableKept.put (State.mem_of_recordAt hr) (.timeOut _ s h.1) rfl).trans (.raiseAll _ _)
  · exact .next (.refl s)

theorem execDrainDeadline_tableKept (s : State) : Answers (TableKept s) (execDrainDeadline s) :=
  .ite (fun _ => .next ((TableKept.session _ s).trans (State.enterCommitting_tableKept _ _))) fun _ => .next (.refl s)

/-! ## The second boundary -/

theorem State.unitBoundary_tableKept (u : BoundaryUnit) (s : State) : TableKept s (s.unitBoundary u) := by
  cases u with
  | ptu => exact .of_frame (F := [.protect]) rfl
  | cau => exact .of_frame s.statusBoundary_runs.frame
  | stu => exact s.stationBoundary_tableKept
  | cgu => exact s.gameBoundary_tableKept
  | scu => exact s.scheduleBoundary_tableKept
  | rmu => exact s.roamBoundary_tableKept
  | imu => exact s.imageBoundary_tableKept
  | suc => exact .of_frame s.trialSecond_frame

theorem State.boundary_tableKept (order : List BoundaryUnit) (s : State) : TableKept s (s.boundary order) := by
  have hclock : TableKept s s.toBoundary := .of_frame (F := [.clock, .hand, .flashPort, .startLog]) rfl
  exact hclock.trans (.foldl _ (fun s u => s.unitBoundary_tableKept u) _ _)

/-! ## The resets -/

theorem State.takeControl_tableKept (u : ControlUse) (s : State) : TableKept s (s.takeControl u) := by
  cases u with
  | plain => exact State.afterRow_of_answers ((execControlWrite_frame s).imp fun _ h => .of_frame h) (.refl s)
  | consumerIndex => exact State.afterRow_of_answers ((execConsumerIndexWrite_frame s).imp fun _ h => .of_frame h) (.refl s)
  | classMap => exact State.afterRow_of_answers ((execClassMapWrite_frame s).imp fun _ h => .of_frame h) (.refl s)
  | policy => exact State.afterRow_of_answers (execNodePolicyRecord_tableKept s) (.refl s)
  | profile => exact State.afterRow_of_answers (execProfileRecord_tableKept s) (.refl s)
  | pin => exact State.afterRow_of_answers (execPinRecord_tableKept s) (.refl s)
  | request => exact .of_frame s.takeClosing_frame

theorem State.takeRouted_tableKept (h : InHand) (s : State) : TableKept s (s.takeRouted h) := by
  have hflash : TableKept s (s.afterRow execFlashWindowWrite) :=
    State.afterRow_of_answers ((execFlashWindowWrite_runs s).imp fun _ h => .of_frame h.frame) (.refl s)
  unfold State.takeRouted
  split
  · split
    · exact State.afterRow_of_answers ((execRxRingWrite_frame s).imp fun _ h => .of_frame h) (.refl s)
    · exact s.takeControl_tableKept _
    · exact State.afterRow_of_answers ((execStagingWrite_runs s).imp fun _ h => .of_frame h.frame) (.refl s)
    · exact State.afterRow_of_answers ((execStagingRead_frame s).imp fun _ h => .of_frame h) (.refl s)
    · exact hflash
    · exact hflash
    · exact hflash
    all_goals exact .refl s
  · exact .refl s

theorem State.restartTransaction_tableKept (s : State) : TableKept s s.restartTransaction := by
  rcases s.restartTransaction_cases with h | ⟨_, _, _, _, _, _, h⟩ | ⟨_, _, _, h, _⟩ <;> rw [h]
  · exact .refl s
  · exact s.takeRouted_tableKept _
  · exact .of_frame (F := [.hand, .port]) rfl

/-- The emptied table of a node restart (R84, R98). -/
theorem State.restartTable_tableKept (s : State) : TableKept s s.restartTable := by
  refine ⟨.of_each (fun q hq => absurd hq List.not_mem_nil) (fun _ => ?_) id id id, fun _ _ => ⟨rfl, rfl⟩⟩
  exact ⟨.nil, fun r hr => absurd hr List.not_mem_nil, .nil⟩

theorem State.restartRest_tableKept (s : State) : TableKept s s.restartRest := by
  refine TableKept.trans ?_ ((State.restartTable_tableKept _).trans
    ((TableKept.of_frame (State.restartImu_frame _)).trans (.of_frame (State.restartSuc_frame _))))
  exact TableKept.after (.of_frame (State.restartCau_frame _))
    (.of_frame (F := [.waiting, .protect, .port, .defers, .captures, .peers, .txLate, .rxLate]) rfl)

theorem execNodeRestart_tableKept (s : State) : Answers (TableKept s) (execNodeRestart s) :=
  .next (s.restartTransaction_tableKept.trans (State.restartRest_tableKept _))

/-- Power-on gives every unit its reset value, for which the invariants hold (R83, R97, R114, R133). -/
theorem execPowerOn_tableKept (s : State) : Answers (TableKept s) (execPowerOn s) := by
  obtain ⟨-, -, -, -, htable, hpins, htokens, hrates, hgames, hstates, hlevels, -⟩ := resetMeetsTheInvariants
  refine .next ?_
  generalize s.cutFlash = cut
  have hreset : TableKept State.reset { State.reset with
      pending := s.pending, sram := s.sram, flash := cut.flash, freeIdx := cut.freeIdx } :=
    .of_inputs rfl rfl rfl rfl ⟨rfl, rfl⟩
  exact ⟨⟨fun _ => hreset.table htable, fun _ => hreset.pins hpins, fun _ => hreset.tokens htokens,
    fun _ => hreset.rates hrates, fun _ => hreset.states hstates, fun _ => hreset.levels hlevels⟩,
    fun _ _ => hreset.games htable hgames⟩

/-! ## Every step -/

/-- The commands that leave the table's inputs alone, by their frame. -/
theorem exec_tableKept_of_frame {c : Instr} (hc : ∀ p ∈ tableInputs, p ∉ touchedBy c) (s : State) :
    Answers (TableKept s) (exec c s) := (exec_frame c s).imp fun _ h => .of_frame h hc

theorem exec_tableKept (c : Instr) (s : State) : Answers (TableKept s) (exec c s) := by
  cases c with
  | powerOn => exact execPowerOn_tableKept s
  | nodeRestart => exact execNodeRestart_tableKept s
  | transmitDecision => exact execTransmitDecision_tableKept s
  | rxClosingWrite => exact execRxClosingWrite_tableKept s
  | peerFetchReadDone => exact execPeerFetchReadDone_tableKept s
  | nodePolicyRecord => exact execNodePolicyRecord_tableKept s
  | profileRecord => exact execProfileRecord_tableKept s
  | pinRecord => exact execPinRecord_tableKept s
  | setTime => exact execSetTime_tableKept s
  | pauseStation => exact execPauseStation_tableKept s
  | resumeStation => exact execResumeStation_tableKept s
  | extendStation => exact execExtendStation_tableKept s
  | forgetStation => exact execForgetStation_tableKept s
  | importContext => exact execImportContext_tableKept s
  | imageAbort => exact execImageAbort_tableKept s
  | activateCancel => exact execActivateCancel_tableKept s
  | secondBoundary o => exact .next (s.boundary_tableKept o)
  | minuteBoundary o => exact .ite (fun _ => .next (s.boundary_tableKept o)) fun _ => .next (.refl s)
  | holdCountdownExpiry k => exact execHoldCountdownExpiry_tableKept k s
  | gameLingerEnd k => exact execGameLingerEnd_tableKept k s
  | sweepVisit => exact execSweepVisit_tableKept s
  | pauseExpiry k => exact execPauseExpiry_tableKept k s
  | extensionExpiry k => exact execExtensionExpiry_tableKept k s
  | estimateEntryExpiry k n => exact execEstimateEntryExpiry_tableKept k n s
  | backoffExpiry k => exact execBackoffExpiry_tableKept k s
  | steerTimeout k => exact execSteerTimeout_tableKept k s
  | drainDeadline => exact execDrainDeadline_tableKept s
  | _ => exact exec_tableKept_of_frame (by simp [touchedBy]) s

theorem State.tick_frame (s : State) : Frame [.clock, .hand, .flashPort, .startLog] s s.tick := by
  unfold State.tick
  exact Frame.ite rfl rfl

/-- What every command keeps, and the passing of a millisecond, every step keeps. -/
theorem step_answers {P : State → State → Prop} (hexec : ∀ c s, Answers (P s) (exec c s)) (htick : ∀ s, P s s.tick)
    (hqueue : ∀ s q, P s { s with pending := q }) (htrans : ∀ s t u, P s t → P t u → P s u) (s : State) :
    Answers (P s) (step s) := by
  cases hq : s.pending with
  | nil =>
    rw [step_of_idle hq]
    exact .next (htick s)
  | cons c rest =>
    have hfront : s = { s with pending := c :: rest } := by rw [← hq]
    rw [hfront, step_cons, ← hfront]
    exact (hexec c _).imp fun t ht => htrans s _ t (hqueue s rest) ht

theorem step_tableKept (s : State) : Answers (TableKept s) (step s) :=
  step_answers exec_tableKept (fun s => .of_frame s.tick_frame) (fun s _ => .of_frame (F := [.commands]) rfl)
    (fun _ _ _ => TableKept.trans) s

/-- Settles O5. -/
theorem tableAndPinsStayProper : Obligations.TableAndPinsStayProper :=
  ⟨fun s t hs h => (step_tableKept s t h).table hs, fun s t hs h => (step_tableKept s t h).pins hs⟩

/-- Settles O6. -/
theorem allowancesStayBounded : Obligations.AllowancesStayBounded :=
  ⟨fun s t hs h => (step_tableKept s t h).tokens hs, fun s t hs h => (step_tableKept s t h).rates hs⟩

/-- Settles O7. -/
theorem gameCountStaysTrue : Obligations.GameCountStaysTrue := fun s t hs h =>
  ⟨(step_tableKept s t h).table hs.1, (step_tableKept s t h).games hs.1 hs.2⟩

/-- Settles O8. -/
theorem recordStatesStayProper : Obligations.RecordStatesStayProper := fun s t hs h => (step_tableKept s t h).states hs

/-- Settles O9. -/
theorem levelsStayAboveTargets : Obligations.LevelsStayAboveTargets := fun s t hs h => (step_tableKept s t h).levels hs

end Sys2Proof.Machine

/-! PROOFS. Every step keeps the three memories canonical (sections 2.1 and 9.1). -/
namespace Sys2Proof.Machine

/-! ## The memories before and after -/

section
variable {F : List Piece} {s t : State}

theorem Frame.shadow (h : Frame F s t) (hp : .shadow ∉ F) : t.cau.shadow = s.cau.shadow := by
  simpa only [State.without, Piece.pick_of_not_mem hp] using congrArg (fun u => u.cau.shadow) h

end

/-- A canonical form that holds in `s` holds in `t`, memory by memory. -/
structure MemoriesKept (s t : State) : Prop where
  sram : Memory.wf Config.sramUnwritten s.sram = true → Memory.wf Config.sramUnwritten t.sram = true
  flash : Memory.wf Config.flashErased s.flash = true → Memory.wf Config.flashErased t.flash = true
  shadow : Memory.wf Config.shadowZero s.cau.shadow = true → Memory.wf Config.shadowZero t.cau.shadow = true

theorem MemoriesKept.refl (s : State) : MemoriesKept s s := ⟨id, id, id⟩

theorem MemoriesKept.trans {s t u : State} (h : MemoriesKept s t) (h' : MemoriesKept t u) : MemoriesKept s u :=
  ⟨fun hs => h'.sram (h.sram hs), fun hs => h'.flash (h.flash hs), fun hs => h'.shadow (h.shadow hs)⟩

theorem MemoriesKept.of_frame {F : List Piece} {s t : State} (h : Frame F s t)
    (hF : ∀ p ∈ [Piece.sram, .flash, .shadow], p ∉ F := by decide) : MemoriesKept s t := by
  refine ⟨fun hs => ?_, fun hs => ?_, fun hs => ?_⟩
  · rwa [h.sram (hF _ (by decide))]
  · rwa [h.flash (hF _ (by decide))]
  · rwa [h.shadow (hF _ (by decide))]

/-- A plain update goes before an operation. -/
theorem MemoriesKept.after {s t u : State} (h' : MemoriesKept t u) (h : MemoriesKept s t) : MemoriesKept s u := h.trans h'

/-! ## The stores -/

theorem State.storeSram_memoriesKept (cs : List Host.Cell) (s : State) : MemoriesKept s (s.storeSram cs) :=
  ⟨Memory.writeCells_wf _ _ _, id, id⟩

theorem State.storeShadow_memoriesKept (cs : List Host.Cell) (s : State) : MemoriesKept s (s.storeShadow cs) :=
  ⟨id, id, Memory.writeCells_wf _ _ _⟩

theorem State.overlayFlash_memoriesKept (a n : Nat) (f : Nat → Byte) (s : State) : MemoriesKept s (s.overlayFlash a n f) :=
  ⟨id, Memory.overlay_wf _ _ _ _ _, id⟩

theorem State.finishAccess_memoriesKept (a : InternalAccess) (s : State) : MemoriesKept s (s.finishAccess a) :=
  (s.storeSram_memoriesKept _).trans (.of_frame (F := [.port]) rfl)

theorem State.absorb_memoriesKept (h : InHand) (w : Window) (s : State) : MemoriesKept s (s.absorb h w) :=
  (s.storeShadow_memoriesKept _).trans (.of_frame (State.toPhase_frame _ _ _))

theorem State.takeRequest_frame (s : State) : Frame [.request] s s.takeRequest := rfl

theorem State.takeClosing_memoriesKept (s : State) : MemoriesKept s s.takeClosing := by
  rcases s.takeClosing_cases with h | ⟨_, _, _, _, _, h⟩ <;> rw [h]
  · exact .refl s
  · exact (s.absorb_memoriesKept _ _).trans (.of_frame (State.takeRequest_frame _))

theorem State.takeUpRequest_memoriesKept (s : State) : MemoriesKept s s.takeUpRequest := by
  rcases s.takeUpRequest_cases with h | ⟨_, _, _, _, _, h⟩ <;> rw [h]
  · exact .refl s
  · exact (s.absorb_memoriesKept _ _).trans ((MemoriesKept.of_frame (State.takeRequest_frame _)).trans
      (.of_frame (State.toPhase_frame _ _ _)))

/-! ## The flash array -/

theorem MemoriesKept.free (n : Nat) (s : State) : MemoriesKept s { s with freeIdx := n } := .of_frame (F := [.free]) rfl

theorem State.workDone_memoriesKept (w : FlashWork) (s : State) : MemoriesKept s (s.workDone w) := by
  cases w <;> exact s.overlayFlash_memoriesKept _ _ _

theorem State.workPartway_memoriesKept (w : FlashWork) (s : State) : MemoriesKept s (s.workPartway w) := by
  cases w <;> exact (s.overlayFlash_memoriesKept _ _ _).trans (.free _ _)

theorem State.workVoid_memoriesKept (w : FlashWork) (s : State) : MemoriesKept s (s.workVoid w) := by
  cases w
  · exact .free _ s
  · exact (MemoriesKept.free (s.freeIdx + 1) s).trans (State.overlayFlash_memoriesKept _ _ _ _)

theorem State.workLost_memoriesKept (w : FlashWork) (o : OpOwner) (s : State) : MemoriesKept s (s.workLost w o) := by
  rcases s.workLost_cases w o with ⟨h, _⟩ | ⟨_, _, h⟩ | ⟨_, _, h⟩ <;> rw [h]
  · exact s.workPartway_memoriesKept w
  · exact .free _ s
  · exact s.workVoid_memoriesKept w

theorem State.workEnded_memoriesKept (o : FlashOp) (fail : Bool) (s : State) : MemoriesKept s (s.workEnded o fail) := by
  rcases s.workEnded_cases o fail with ⟨h, _⟩ | ⟨h, _⟩ <;> rw [h]
  · exact s.workLost_memoriesKept _ _
  · exact s.workDone_memoriesKept _

theorem State.voidPlace_memoriesKept (s : State) : MemoriesKept s s.voidPlace := by
  rcases s.voidPlace_cases with ⟨_, h⟩ | ⟨_, h, _⟩ <;> rw [h]
  · exact .refl s
  · exact (MemoriesKept.free _ s).trans (State.overlayFlash_memoriesKept _ _ _ _)

theorem State.cutFlash_memoriesKept (s : State) : MemoriesKept s s.cutFlash := by
  unfold State.cutFlash
  split
  · split
    · exact s.workLost_memoriesKept _ _
    · exact s.workPartway_memoriesKept _
  all_goals exact .refl s

theorem MemoriesKept.flashPort (p : FlashPort) (fault : Bool) (s : State) :
    MemoriesKept s { s with imu.port := p, suc.flashFault := fault } := .of_frame (F := [.flashPort, .flashFault]) rfl

theorem State.giveUp_memoriesKept (o : FlashOp) (s : State) : MemoriesKept s (s.giveUp o) := by
  have hlost := (MemoriesKept.flashPort (s.portGivenUp o) true s).trans (State.workLost_memoriesKept o.work o.owner _)
  exact hlost.trans (.of_frame (State.giveUpSelecting_runs _).frame)

theorem MemoriesKept.port (p : FlashPort) (s : State) : MemoriesKept s { s with imu.port := p } :=
  .of_frame (F := [.flashPort]) rfl

theorem execFlashStatusPoll_memoriesKept (busy suspended fail : Bool) (s : State) :
    Answers (MemoriesKept s) (execFlashStatusPoll busy suspended fail s) := by
  have hpoll : ∀ o, Answers (MemoriesKept s)
      (if busy = false ∧ suspended = false then
        if o.timedOut = true ∧ giveUpUs < o.lateUs then .next (s.giveUp o)
        else .next ((({ s with imu.port := .free } : State).workEnded o fail).operationEnded o fail)
      else if suspended then .next { s with imu.port := .busy o.paused } else .next s) := fun o =>
    .ite (fun _ => .ite (fun _ => .next (s.giveUp_memoriesKept o))
      fun _ => .next ((MemoriesKept.port .free s).trans ((State.workEnded_memoriesKept _ _ _).trans
        (.of_frame (State.operationEnded_runs _ _ _).frame))))
      fun _ => .ite (fun _ => .next (.port _ s)) fun _ => .next (.refl s)
  unfold execFlashStatusPoll
  split
  · split
    exacts [.next (.refl s), hpoll _, hpoll _]
  all_goals exact .next (.refl s)

theorem execFlashOperationGiveUp_memoriesKept (s : State) : Answers (MemoriesKept s) (execFlashOperationGiveUp s) := by
  unfold execFlashOperationGiveUp
  split
  · exact .ite (fun _ => .next (s.giveUp_memoriesKept _)) fun _ => .next (.refl s)
  all_goals exact .next (.refl s)

theorem execSelectorReadbackEnd_memoriesKept (flips : List Byte) (s : State) :
    Answers (MemoriesKept s) (execSelectorReadbackEnd flips s) := by
  unfold execSelectorReadbackEnd
  split
  · dsimp only
    split
    · refine .ite (fun _ => .next ?_) fun _ => .next ?_
      · exact (MemoriesKept.port .free s).trans (.of_frame (State.finishAppend_runs _ _).frame)
      · exact (MemoriesKept.port .free s).trans ((State.voidPlace_memoriesKept _).trans
          (.of_frame (State.failAppend_runs _ _ _).frame))
    · exact .next (.port .free s)
  all_goals exact .next (.refl s)

/-! ## Completions at the SRAM port -/

theorem MemoriesKept.sramPort (p : SramPort) (s : State) : MemoriesKept s { s with ptu.port := p } := .of_frame (F := [.port]) rfl

theorem State.completePlain_memoriesKept (h : InHand) (s : State) : MemoriesKept s (s.completePlain h) := by
  unfold State.completePlain
  split
  · exact .of_frame (s.endTxn_frame _ _)
  · exact (s.storeSram_memoriesKept _).trans (.of_frame (State.endTxn_frame _ _ _))

theorem execPassThroughSramDone_memoriesKept (s : State) : Answers (MemoriesKept s) (execPassThroughSramDone s) := by
  have hstored : ∀ h cs, MemoriesKept s ((({ s with ptu.port := .free } : State).storeSram cs).endTxn h .ack) := fun h cs =>
    (MemoriesKept.sramPort .free s).trans ((State.storeSram_memoriesKept _ _).trans (.of_frame (State.endTxn_frame _ _ _)))
  unfold execPassThroughSramDone
  split
  · split
    · exact .next ((MemoriesKept.sramPort .free s).trans (State.completePlain_memoriesKept _ _))
    · exact .next ((MemoriesKept.sramPort .free s).trans (State.completePlain_memoriesKept _ _))
    · exact .next ((MemoriesKept.sramPort .free s).trans (.of_frame (State.toPhase_frame _ _ _)))
    · exact .next (hstored _ _)
    · exact .next (hstored _ _)
    all_goals exact .next (.refl s)
  · exact .next (.refl s)

theorem execPeerFetchReadDone_memoriesKept (s : State) : Answers (MemoriesKept s) (execPeerFetchReadDone s) := by
  unfold execPeerFetchReadDone
  split
  · dsimp only
    have htaken : ∀ a bs, MemoriesKept s { s.finishAccess a with diu.fetch.bytes := bs } := fun a _ =>
      (s.finishAccess_memoriesKept a).trans (.of_frame (F := [.peers]) rfl)
    split
    · exact .next ((s.finishAccess_memoriesKept _).trans (.of_frame (State.joinBehind_frame _)))
    · exact .next (s.finishAccess_memoriesKept _)
    · split
      · exact .next ((htaken _ _).trans (.of_frame (State.handEntries_frame _ _ _)))
      · exact .ite (fun _ => .next ((htaken _ _).trans (.of_frame (State.issueFetch_frame _))))
          fun _ => .next ((htaken _ _).trans (.of_frame (State.takeHeader_frame _ _)))
  · exact .next (.refl s)

theorem execResultWriteDone_memoriesKept (s : State) : Answers (MemoriesKept s) (execResultWriteDone s) := by
  unfold execResultWriteDone
  split
  · have hfree : ∀ a, MemoriesKept s { s.finishAccess a with cau.slot := .free } := fun a =>
      (s.finishAccess_memoriesKept a).trans (.of_frame (F := [.request]) rfl)
    exact .ite (fun _ => .next ((s.finishAccess_memoriesKept _).trans (.of_frame (State.joinBehind_frame _))))
      fun _ => .next ((hfree _).trans (State.takeUpRequest_memoriesKept _))
  · exact .next (.refl s)

theorem execReportBodyWriteDone_memoriesKept (s : State) : Answers (MemoriesKept s) (execReportBodyWriteDone s) := by
  unfold execReportBodyWriteDone
  split
  · have hleft : ∀ a n, MemoriesKept s { s.finishAccess a with
        cau.pending := (s.finishAccess a).cau.pending.tail, cau.writeIdx := n, cau.path := .index } := fun a _ =>
      (s.finishAccess_memoriesKept a).trans (.of_frame (F := [.reports, .indices]) rfl)
    exact .ite (fun _ => .next ((s.finishAccess_memoriesKept _).trans (.of_frame (State.joinBehind_frame _))))
      fun _ => .next ((hleft _ _).trans (.of_frame (State.issue_frame _ _)))
  · exact .next (.refl s)

theorem execProducerIndexWriteDone_memoriesKept (s : State) : Answers (MemoriesKept s) (execProducerIndexWriteDone s) := by
  unfold execProducerIndexWriteDone
  split
  · have hpublished : ∀ a, MemoriesKept s
        ({ s.finishAccess a with cau.published := (s.finishAccess a).cau.writeIdx, cau.path := .idle } : State).driveAttn :=
      fun a => (s.finishAccess_memoriesKept a).trans (.of_frame (F := [.reports, .indices, .attn]) rfl)
    exact .ite (fun _ => .next ((s.finishAccess_memoriesKept _).trans (.of_frame (State.joinBehind_frame _))))
      fun _ => .next ((hpublished _).trans (.of_frame (State.pumpReports_frame _)))
  · exact .next (.refl s)

theorem execStatusWriteDone_memoriesKept (s : State) : Answers (MemoriesKept s) (execStatusWriteDone s) := by
  unfold execStatusWriteDone
  split
  · have hdone : ∀ a, MemoriesKept s { s.finishAccess a with cau.statusOut := false } := fun a =>
      (s.finishAccess_memoriesKept a).trans (.of_frame (F := [.status]) rfl)
    exact .ite (fun _ => .next ((s.finishAccess_memoriesKept _).trans (.of_frame (State.joinBehind_frame _))))
      fun _ => .next ((hdone _).trans (.of_frame (State.pumpStatus_frame _)))
  · exact .next (.refl s)

/-! ## Control writes and requests -/

theorem execControlWrite_memoriesKept (s : State) : Answers (MemoriesKept s) (execControlWrite s) := by
  unfold execControlWrite
  split
  exacts [.next (s.absorb_memoriesKept _ _), .next (.refl s)]

theorem execConsumerIndexWrite_memoriesKept (s : State) : Answers (MemoriesKept s) (execConsumerIndexWrite s) := by
  unfold execConsumerIndexWrite
  split
  · exact .next ((s.absorb_memoriesKept _ _).trans (.of_frame (State.takeConsumer_frame _)))
  · exact .next (.refl s)

theorem execClassMapWrite_memoriesKept (s : State) : Answers (MemoriesKept s) (execClassMapWrite s) := by
  unfold execClassMapWrite
  split
  · have hstored : ∀ es (u : State), MemoriesKept u (u.storeClasses es) := fun _ _ => .of_frame (F := [.classMap]) rfl
    exact .next ((s.absorb_memoriesKept _ _).trans (hstored _ _))
  · exact .next (.refl s)

theorem execNodePolicyRecord_memoriesKept (s : State) : Answers (MemoriesKept s) (execNodePolicyRecord s) := by
  unfold execNodePolicyRecord
  split
  · exact .next ((s.absorb_memoriesKept _ _).trans (.of_frame (State.takePolicy_frame _ _)))
  · exact .next (.refl s)

theorem execProfileRecord_memoriesKept (s : State) : Answers (MemoriesKept s) (execProfileRecord s) := by
  unfold execProfileRecord
  split
  · exact .next ((s.absorb_memoriesKept _ _).trans (.of_frame (Runs.foldl _ (fun s o => s.takeProfile_runs _ _) _ _).frame))
  · exact .next (.refl s)

theorem execPinRecord_memoriesKept (s : State) : Answers (MemoriesKept s) (execPinRecord s) := by
  unfold execPinRecord
  split
  · exact .next ((s.absorb_memoriesKept _ _).trans (.of_frame (Runs.foldl _ (fun s o => s.takePin_runs _ _) _ _).frame))
  · exact .next (.refl s)

/-- A request row whose owner touches no memory. -/
theorem Requested.memoriesKept {F : List Piece} {s t : State} (h : Requested F s t)
    (hF : ∀ p ∈ [Piece.sram, .flash, .shadow], p ∉ F := by decide) : MemoriesKept s t := by
  rcases h with rfl | ⟨q, u, c, d, _, hrun, rfl⟩
  · exact .refl _
  · exact s.takeClosing_memoriesKept.trans ((MemoriesKept.of_frame hrun.frame hF).trans (.of_frame (u.answer_frame q c d)))

/-! ## The resets -/

theorem State.takeControl_memoriesKept (u : ControlUse) (s : State) : MemoriesKept s (s.takeControl u) := by
  cases u with
  | plain => exact State.afterRow_of_answers (execControlWrite_memoriesKept s) (.refl s)
  | consumerIndex => exact State.afterRow_of_answers (execConsumerIndexWrite_memoriesKept s) (.refl s)
  | classMap => exact State.afterRow_of_answers (execClassMapWrite_memoriesKept s) (.refl s)
  | policy => exact State.afterRow_of_answers (execNodePolicyRecord_memoriesKept s) (.refl s)
  | profile => exact State.afterRow_of_answers (execProfileRecord_memoriesKept s) (.refl s)
  | pin => exact State.afterRow_of_answers (execPinRecord_memoriesKept s) (.refl s)
  | request => exact s.takeClosing_memoriesKept

theorem State.takeRouted_memoriesKept (h : InHand) (s : State) : MemoriesKept s (s.takeRouted h) := by
  have hflash : MemoriesKept s (s.afterRow execFlashWindowWrite) :=
    State.afterRow_of_answers ((execFlashWindowWrite_runs s).imp fun _ h => .of_frame h.frame) (.refl s)
  unfold State.takeRouted
  split
  · split
    · exact State.afterRow_of_answers ((execRxRingWrite_frame s).imp fun _ h => .of_frame h) (.refl s)
    · exact s.takeControl_memoriesKept _
    · exact State.afterRow_of_answers ((execStagingWrite_runs s).imp fun _ h => .of_frame h.frame) (.refl s)
    · exact State.afterRow_of_answers ((execStagingRead_frame s).imp fun _ h => .of_frame h) (.refl s)
    · exact hflash
    · exact hflash
    · exact hflash
    all_goals exact .refl s
  · exact .refl s

theorem State.restartTransaction_memoriesKept (s : State) : MemoriesKept s s.restartTransaction := by
  rcases s.restartTransaction_cases with h | ⟨_, _, _, _, _, _, h⟩ | ⟨_, _, _, h, _⟩ <;> rw [h]
  · exact .refl s
  · exact s.takeRouted_memoriesKept _
  · exact .of_frame (F := [.hand, .port]) rfl

/-- The shadow of a restart keeps the entries past the request slot and the consumer index (R38). -/
theorem State.restartCau_memoriesKept (s : State) : MemoriesKept s s.restartCau := by
  refine ⟨?_, ?_, fun hs => ?_⟩
  · rw [s.restartCau_frame.sram (by decide)]
    exact id
  · rw [s.restartCau_frame.flash (by decide)]
    exact id
  · unfold State.restartCau
    dsimp only
    split <;> exact Memory.filter_wf _ _ _ hs

theorem State.restartRest_memoriesKept (s : State) : MemoriesKept s s.restartRest := by
  refine MemoriesKept.trans ?_ (.of_frame ((State.restartTable_frame _).andThen
    ((State.restartImu_frame _).andThen (State.restartSuc_frame _)
      (H := [.session, .flashPort, .startUp, .startLog, .ready, .restartReq]))
    (H := [.stations, .games, .rmu, .session, .flashPort, .startUp, .startLog, .ready, .restartReq])))
  exact MemoriesKept.after (State.restartCau_memoriesKept _)
    (.of_frame (F := [.waiting, .protect, .port, .defers, .captures, .peers, .txLate, .rxLate]) rfl)

/-- Power-on clears the shadow, and the SRAM and the flash keep what they hold (log 15). -/
theorem execPowerOn_memoriesKept (s : State) : Answers (MemoriesKept s) (execPowerOn s) :=
  .next ⟨id, s.cutFlash_memoriesKept.flash, fun _ => Memory.wf_nil _⟩

/-! ## Every step -/

theorem exec_memoriesKept_of_frame {c : Instr} (hc : ∀ p ∈ [Piece.sram, .flash, .shadow], p ∉ touchedBy c) (s : State) :
    Answers (MemoriesKept s) (exec c s) := (exec_frame c s).imp fun _ h => .of_frame h hc

theorem exec_memoriesKept (c : Instr) (s : State) : Answers (MemoriesKept s) (exec c s) := by
  cases c with
  | powerOn => exact execPowerOn_memoriesKept s
  | nodeRestart => exact .next (s.restartTransaction_memoriesKept.trans (State.restartRest_memoriesKept _))
  | passThroughSramDone => exact execPassThroughSramDone_memoriesKept s
  | peerFetchReadDone => exact execPeerFetchReadDone_memoriesKept s
  | controlWrite => exact execControlWrite_memoriesKept s
  | consumerIndexWrite => exact execConsumerIndexWrite_memoriesKept s
  | classMapWrite => exact execClassMapWrite_memoriesKept s
  | nodePolicyRecord => exact execNodePolicyRecord_memoriesKept s
  | profileRecord => exact execProfileRecord_memoriesKept s
  | pinRecord => exact execPinRecord_memoriesKept s
  | badKindRequest => exact (execBadKindRequest_requested s).imp fun _ h => h.memoriesKept
  | setTime => exact (execSetTime_requested s).imp fun _ h => h.memoriesKept
  | pauseStation => exact (execPauseStation_requested s).imp fun _ h => h.memoriesKept
  | resumeStation => exact (execResumeStation_requested s).imp fun _ h => h.memoriesKept
  | extendStation => exact (execExtendStation_requested s).imp fun _ h => h.memoriesKept
  | forgetStation => exact (execForgetStation_requested s).imp fun _ h => h.memoriesKept
  | importContext => exact (execImportContext_requested s).imp fun _ h => h.memoriesKept
  | imageOpen => exact (execImageOpen_requested s).imp fun _ h => h.memoriesKept
  | imageClose => exact (execImageClose_requested s).imp fun _ h => h.memoriesKept
  | imageAbort => exact (execImageAbort_requested s).imp fun _ h => h.memoriesKept
  | activate => exact (execActivate_requested s).imp fun _ h => h.memoriesKept
  | activateCancel => exact (execActivateCancel_requested s).imp fun _ h => h.memoriesKept
  | bootConfirm => exact (execBootConfirm_requested s).imp fun _ h => h.memoriesKept
  | resultWriteDone => exact execResultWriteDone_memoriesKept s
  | reportBodyWriteDone => exact execReportBodyWriteDone_memoriesKept s
  | producerIndexWriteDone => exact execProducerIndexWriteDone_memoriesKept s
  | statusWriteDone => exact execStatusWriteDone_memoriesKept s
  | flashStatusPoll b u f => exact execFlashStatusPoll_memoriesKept b u f s
  | flashOperationGiveUp => exact execFlashOperationGiveUp_memoriesKept s
  | selectorReadbackEnd f => exact execSelectorReadbackEnd_memoriesKept f s
  | _ => exact exec_memoriesKept_of_frame (by simp [touchedBy]) s

theorem step_memoriesKept (s : State) : Answers (MemoriesKept s) (step s) :=
  step_answers exec_memoriesKept (fun s => .of_frame s.tick_frame) (fun s _ => .of_frame (F := [.commands]) rfl)
    (fun _ _ _ => MemoriesKept.trans) s

/-- Settles O3: every store keeps its memory canonical, and the other operations leave the memories. -/
theorem memoriesStayCanonical : Obligations.MemoriesStayCanonical := by
  rintro s t ⟨hsram, hflash, hshadow⟩ h
  have hkept := step_memoriesKept s t h
  exact ⟨hkept.sram hsram, hkept.flash hflash, hkept.shadow hshadow⟩

end Sys2Proof.Machine

/-! PROOFS. What the parts of a run, the taking of a request and its answer keep, the ordinary commands keep; with it, ATTN, READY and
the pending queue (sections 2.5 and 10.4). -/
namespace Sys2Proof.Machine

/-! ## Invariants kept part by part -/

theorem Frame.request {F : List Piece} {s t : State} (hframe : Frame F s t) (hp : .request ∉ F) :
    t.cau.slot = s.cau.slot ∧ t.cau.request = s.cau.request := by
  simpa only [State.without, Piece.pick_of_not_mem hp, Prod.mk.injEq] using
    congrArg (fun u => (u.cau.slot, u.cau.request)) hframe

/-- An invariant that each part of an ordinary command keeps. -/
structure KeptByParts (P : State → Prop) : Prop where
  update : ∀ F s t, Frame (unguarded F) s t → P s → P t
  raise : ∀ b s, P s → P (s.raise b)
  refresh : ∀ s, P s → P s.refreshStatus
  queuePeer : ∀ b s, P s → P (s.queuePeer b)
  ready : ∀ s, P s → P { s with suc.startUp := .ready, lines.ready := true }
  takeClosing : ∀ s, P s → P s.takeClosing
  answer : ∀ q c d s, s.cau.request ≠ none → P s → P (s.answer q c d)

section
variable {P : State → Prop} (h : KeptByParts P)
include h

theorem KeptByParts.runs {F : List Piece} {s t : State} (hrun : Runs F s t) (hs : P s) : P t :=
  hrun.keeps hs (h.update F) h.raise h.refresh h.queuePeer h.ready

theorem KeptByParts.frame {F : List Piece} {s t : State} (hframe : Frame F s t) (hs : P s)
    (hF : F ⊆ unguarded F := by decide) : P t := h.update F s t (hframe.mono hF) hs

theorem KeptByParts.requested {F : List Piece} {s t : State} (hrequest : Requested F s t) (hs : P s)
    (hF : .request ∉ F := by decide) : P t := by
  rcases hrequest with rfl | ⟨q, u, c, d, hq, hrun, rfl⟩
  · exact hs
  · refine h.answer q c d u ?_ (h.runs hrun (h.takeClosing s hs))
    rw [(hrun.frame.request hF).2, hq]
    exact Option.some_ne_none q

end

/-- The commands whose rows are no runs of parts: the resets, the end of LOADING, the SRAM port's grant and completions, and the
consumer index write. -/
def guardedRow : Instr → Bool
  | .powerOn | .nodeRestart | .flashNoResponse | .loadingReadStatus _ | .configBlockReadEnd _ | .sramPortGrant
  | .passThroughSramDone | .peerFetchReadDone | .consumerIndexWrite | .resultWriteDone | .reportBodyWriteDone
  | .producerIndexWriteDone | .statusWriteDone => true
  | _ => false

theorem KeptByParts.exec {P : State → Prop} (h : KeptByParts P)
    (hguarded : ∀ c s, guardedRow c = true → P s → Answers P (Machine.exec c s)) (c : Instr) (s : State) (hs : P s) :
    Answers P (Machine.exec c s) := by
  have hframe : touchedBy c ⊆ unguarded (touchedBy c) → Answers P (Machine.exec c s) := fun hc =>
    (exec_frame c s).imp fun _ ht => h.frame ht hs hc
  cases c with
  | powerOn => exact hguarded _ s rfl hs
  | nodeRestart => exact hguarded _ s rfl hs
  | flashNoResponse => exact hguarded _ s rfl hs
  | loadingReadStatus b => exact hguarded _ s rfl hs
  | configBlockReadEnd f => exact hguarded _ s rfl hs
  | sramPortGrant => exact hguarded _ s rfl hs
  | passThroughSramDone => exact hguarded _ s rfl hs
  | peerFetchReadDone => exact hguarded _ s rfl hs
  | consumerIndexWrite => exact hguarded _ s rfl hs
  | resultWriteDone => exact hguarded _ s rfl hs
  | reportBodyWriteDone => exact hguarded _ s rfl hs
  | producerIndexWriteDone => exact hguarded _ s rfl hs
  | statusWriteDone => exact hguarded _ s rfl hs
  | badKindRequest => exact (execBadKindRequest_requested s).imp fun _ ht => h.requested ht hs
  | setTime => exact (execSetTime_requested s).imp fun _ ht => h.requested ht hs
  | pauseStation => exact (execPauseStation_requested s).imp fun _ ht => h.requested ht hs
  | resumeStation => exact (execResumeStation_requested s).imp fun _ ht => h.requested ht hs
  | extendStation => exact (execExtendStation_requested s).imp fun _ ht => h.requested ht hs
  | forgetStation => exact (execForgetStation_requested s).imp fun _ ht => h.requested ht hs
  | importContext => exact (execImportContext_requested s).imp fun _ ht => h.requested ht hs
  | imageOpen => exact (execImageOpen_requested s).imp fun _ ht => h.requested ht hs
  | imageClose => exact (execImageClose_requested s).imp fun _ ht => h.requested ht hs
  | imageAbort => exact (execImageAbort_requested s).imp fun _ ht => h.requested ht hs
  | activate => exact (execActivate_requested s).imp fun _ ht => h.requested ht hs
  | activateCancel => exact (execActivateCancel_requested s).imp fun _ ht => h.requested ht hs
  | bootConfirm => exact (execBootConfirm_requested s).imp fun _ ht => h.requested ht hs
  | selectingDecision => exact (execSelectingDecision_runs s).imp fun _ ht => h.runs ht hs
  | busTransaction x => exact (execBusTransaction_runs x s).imp fun _ ht => h.runs ht hs
  | rxClosingWrite => exact (execRxClosingWrite_runs s).imp fun _ ht => h.runs ht hs
  | profileRecord => exact (execProfileRecord_runs s).imp fun _ ht => h.runs ht hs
  | pinRecord => exact (execPinRecord_runs s).imp fun _ ht => h.runs ht hs
  | flashWindowWrite => exact (execFlashWindowWrite_runs s).imp fun _ ht => h.runs ht hs
  | stagingWrite => exact (execStagingWrite_runs s).imp fun _ ht => h.runs ht hs
  | flashStatusPoll b u f => exact (execFlashStatusPoll_runs b u f s).imp fun _ ht => h.runs ht hs
  | flashOperationTimeout => exact (execFlashOperationTimeout_runs s).imp fun _ ht => h.runs ht hs
  | flashOperationGiveUp => exact (execFlashOperationGiveUp_runs s).imp fun _ ht => h.runs ht hs
  | verifyReadEnd f => exact (execVerifyReadEnd_runs f s).imp fun _ ht => h.runs ht hs
  | selectorReadbackEnd f => exact (execSelectorReadbackEnd_runs f s).imp fun _ ht => h.runs ht hs
  | secondBoundary o => exact .next (h.runs (s.boundary_runs o) hs)
  | minuteBoundary o => exact (execMinuteBoundary_runs o s).imp fun _ ht => h.runs ht hs
  | holdCountdownExpiry k => exact (execHoldCountdownExpiry_runs k s).imp fun _ ht => h.runs ht hs
  | gameLingerEnd k => exact (execGameLingerEnd_runs k s).imp fun _ ht => h.runs ht hs
  | pauseExpiry k => exact (execPauseExpiry_runs k s).imp fun _ ht => h.runs ht hs
  | extensionExpiry k => exact (execExtensionExpiry_runs k s).imp fun _ ht => h.runs ht hs
  | steerTimeout k => exact (execSteerTimeout_runs k s).imp fun _ ht => h.runs ht hs
  | signalSummary => exact (execSignalSummary_runs s).imp fun _ ht => h.runs ht hs
  | drainDeadline => exact (execDrainDeadline_runs s).imp fun _ ht => h.runs ht hs
  | _ => exact hframe (by simp [touchedBy])

/-- What every command keeps, every step keeps, where plain updates keep it. -/
theorem keptByStep_of_exec {P : State → Prop} (hupdate : ∀ s t, Frame [.commands, .clock, .hand, .flashPort, .startLog] s t → P s → P t)
    (hexec : ∀ c s, P s → Answers P (exec c s)) : KeptByStep P := by
  intro s t hs h
  exact step_answers (P := fun s t => P s → P t) (fun c s t ht hs => hexec c s hs t ht)
    (fun s => hupdate s _ s.tick_frame.mono) (fun s _ => hupdate s _ rfl) (fun _ _ _ h h' hs => h' (h hs)) s t h hs

theorem KeptByParts.step {P : State → Prop} (h : KeptByParts P)
    (hguarded : ∀ c s, guardedRow c = true → P s → Answers P (Machine.exec c s)) : KeptByStep P :=
  keptByStep_of_exec (fun s t => h.update [.commands, .clock, .hand, .flashPort, .startLog] s t) (h.exec hguarded)

/-! ## ATTN -/

section
variable {F : List Piece} {s t : State}

theorem Frame.attnLine (h : Frame F s t) (hp : .attn ∉ F) : t.lines.attn = s.lines.attn := by
  simpa only [State.without, Piece.pick_of_not_mem hp] using congrArg (fun u => u.lines.attn) h

theorem Frame.indices (h : Frame F s t) (hp : .indices ∉ F) :
    t.cau.writeIdx = s.cau.writeIdx ∧ t.cau.published = s.cau.published ∧ t.cau.consumer = s.cau.consumer := by
  simpa only [State.without, Piece.pick_of_not_mem hp, Prod.mk.injEq] using
    congrArg (fun u => (u.cau.writeIdx, u.cau.published, u.cau.consumer)) h

theorem Frame.readyLine (h : Frame F s t) (hp : .ready ∉ F) : t.lines.ready = s.lines.ready := by
  simpa only [State.without, Piece.pick_of_not_mem hp] using congrArg (fun u => u.lines.ready) h

theorem Frame.startUp (h : Frame F s t) (hp : .startUp ∉ F) : t.suc.startUp = s.suc.startUp := by
  simpa only [State.without, Piece.pick_of_not_mem hp] using congrArg (fun u => u.suc.startUp) h

theorem Frame.reports (h : Frame F s t) (hp : .reports ∉ F) :
    t.cau.pending = s.cau.pending ∧ t.cau.gap = s.cau.gap ∧ t.cau.path = s.cau.path := by
  simpa only [State.without, Piece.pick_of_not_mem hp, Prod.mk.injEq] using
    congrArg (fun u => (u.cau.pending, u.cau.gap, u.cau.path)) h

theorem Frame.attnFollows (h : Frame F s t) (hs : AttnFollowsIndices s) (hF : ∀ p ∈ [Piece.attn, .indices], p ∉ F := by decide) :
    AttnFollowsIndices t := by
  obtain ⟨-, hpublished, hconsumer⟩ := h.indices (hF _ (by decide))
  rwa [AttnFollowsIndices, h.attnLine (hF _ (by decide)), hpublished, hconsumer]

end

theorem State.driveAttn_follows (s : State) : AttnFollowsIndices s.driveAttn := rfl

theorem State.beginRing_follows (s : State) : AttnFollowsIndices s.beginRing := rfl

theorem State.install_attnFollows (c : Install) (s : State) : AttnFollowsIndices (s.install c) := State.beginRing_follows _

theorem State.installDefaults_attnFollows (r : DefaultedReason) (s : State) : AttnFollowsIndices (s.installDefaults r) :=
  Frame.attnFollows (State.raise_frame _ _) (s.install_attnFollows builtIn)

theorem State.noResponse_attnFollows (s : State) : AttnFollowsIndices s.noResponse := State.installDefaults_attnFollows _ _

theorem State.judgeConfig_attnFollows {s : State} (hs : AttnFollowsIndices s) : AttnFollowsIndices s.judgeConfig := by
  unfold State.judgeConfig
  split
  · exact hs
  · split
    · exact hs
    · split
      exacts [s.installDefaults_attnFollows _, hs]
  · split
    · exact hs
    · split
      exacts [s.installDefaults_attnFollows _, s.install_attnFollows _]

theorem State.takeConsumer_attnFollows {s : State} (hs : AttnFollowsIndices s) : AttnFollowsIndices s.takeConsumer := by
  unfold State.takeConsumer
  dsimp only
  split
  · exact Frame.attnFollows (State.pumpReports_frame _) (State.driveAttn_follows _)
  · exact hs

theorem State.restartCau_attnFollows (s : State) : AttnFollowsIndices s.restartCau := by
  unfold State.restartCau
  dsimp only
  split
  exacts [rfl, State.beginRing_follows _]

theorem State.restartRest_attnFollows (s : State) : AttnFollowsIndices s.restartRest :=
  Frame.attnFollows (F := [.stations, .games, .rmu, .session, .flashPort, .startUp, .startLog, .ready, .restartReq])
    ((State.restartTable_frame _).mono.trans ((State.restartImu_frame _).andThen (State.restartSuc_frame _)))
    (State.restartCau_attnFollows _)

theorem execReportBodyWriteDone_attnFollows {s : State} (hs : AttnFollowsIndices s) :
    Answers AttnFollowsIndices (execReportBodyWriteDone s) := by
  unfold execReportBodyWriteDone
  split
  · exact .ite (fun _ => .next hs) fun _ => .next hs
  · exact .next hs

theorem execProducerIndexWriteDone_attnFollows {s : State} (hs : AttnFollowsIndices s) :
    Answers AttnFollowsIndices (execProducerIndexWriteDone s) := by
  unfold execProducerIndexWriteDone
  split
  · exact .ite (fun _ => .next hs) fun _ =>
      .next (Frame.attnFollows (State.pumpReports_frame _) (State.driveAttn_follows _))
  · exact .next hs

theorem exec_attnFollows (c : Instr) (s : State) (hs : AttnFollowsIndices s) : Answers AttnFollowsIndices (exec c s) := by
  cases c with
  | powerOn => exact .next rfl
  | nodeRestart => exact Answers.next (t := s.restartTransaction.restartRest) (State.restartRest_attnFollows _)
  | flashNoResponse => exact .ite (fun _ => .next s.noResponse_attnFollows) fun _ => .next hs
  | loadingReadStatus b =>
    exact .ite (fun _ => .ite (fun _ => .next s.noResponse_attnFollows) fun _ => .next hs) fun _ => .next hs
  | configBlockReadEnd f =>
    change Answers _ (execConfigBlockReadEnd f s)
    unfold execConfigBlockReadEnd
    split
    · exact .ite (fun _ => .next (State.judgeConfig_attnFollows hs)) fun _ => .next hs
    all_goals exact .next hs
  | consumerIndexWrite =>
    change Answers _ (execConsumerIndexWrite s)
    unfold execConsumerIndexWrite
    split
    · exact .next (State.takeConsumer_attnFollows (Frame.attnFollows (s.absorb_frame _ _) hs))
    · exact .next hs
  | reportBodyWriteDone => exact execReportBodyWriteDone_attnFollows hs
  | producerIndexWriteDone => exact execProducerIndexWriteDone_attnFollows hs
  | _ => exact (exec_frame _ s).imp fun _ ht => ht.attnFollows hs (by simp [touchedBy])

/-! ## READY -/

theorem Frame.readyFollows {F : List Piece} {s t : State} (h : Frame F s t) (hs : ReadyFollowsStartUp s)
    (hF : ∀ p ∈ [Piece.ready, .startUp], p ∉ F := by decide) : ReadyFollowsStartUp t := by
  rwa [ReadyFollowsStartUp, h.readyLine (hF _ (by decide)), h.startUp (hF _ (by decide))]

theorem not_mem_unguarded {p : Piece} (hp : p ∈ guardedPieces) (F : List Piece) : p ∉ unguarded F := fun h =>
  of_decide_eq_true (List.mem_filter.1 h).2 hp

theorem readyFollows_keptByParts : KeptByParts ReadyFollowsStartUp where
  update F s t h hs := h.readyFollows hs fun p hp => not_mem_unguarded (by fin_cases hp <;> decide) F
  raise b s hs := (s.raise_frame b).readyFollows hs
  refresh s hs := s.refreshStatus_frame.readyFollows hs
  queuePeer b s hs := (s.queuePeer_frame b).readyFollows hs
  ready _ _ := rfl
  takeClosing s hs := s.takeClosing_frame.readyFollows hs
  answer q c d s _ hs := (s.answer_frame q c d).readyFollows hs

/-- LOADING ends in SELECTING, with READY low as before. -/
theorem State.install_readyFollows {s : State} (hready : s.lines.ready = false) (c : Install) :
    ReadyFollowsStartUp (s.install c) := hready

theorem State.installDefaults_readyFollows {s : State} (hready : s.lines.ready = false) (r : DefaultedReason) :
    ReadyFollowsStartUp (s.installDefaults r) :=
  Frame.readyFollows (State.raise_frame _ _) (State.install_readyFollows hready builtIn)

theorem State.noResponse_readyFollows {s : State} (hready : s.lines.ready = false) : ReadyFollowsStartUp s.noResponse :=
  State.installDefaults_readyFollows (s := { s with suc.loadUs := max s.suc.loadUs noResponseUs }) hready .noFlash

theorem State.judgeConfig_readyFollows {s : State} (hs : ReadyFollowsStartUp s) (hready : s.lines.ready = false) :
    ReadyFollowsStartUp s.judgeConfig := by
  unfold State.judgeConfig
  split
  · exact hs
  · split
    · exact hs
    · split
      exacts [State.installDefaults_readyFollows hready _, hs]
  · split
    · exact hs
    · split
      exacts [State.installDefaults_readyFollows hready _, State.install_readyFollows hready _]

theorem State.restartSuc_readyFollows (s : State) : ReadyFollowsStartUp s.restartSuc := by
  change false = ((if s.suc.startUp = .loading then .loading else .selecting : StartUp) == .ready)
  split <;> rfl

theorem State.restartRest_readyFollows (s : State) : ReadyFollowsStartUp s.restartRest := State.restartSuc_readyFollows _

theorem ReadyFollowsStartUp.low_of_loading {s : State} (hs : ReadyFollowsStartUp s) (hl : s.suc.startUp = .loading) :
    s.lines.ready = false := by
  rw [hs, hl]
  rfl

theorem exec_readyFollows_of_guarded (c : Instr) (s : State) (hc : guardedRow c = true) (hs : ReadyFollowsStartUp s) :
    Answers ReadyFollowsStartUp (exec c s) := by
  cases c with
  | powerOn => exact .next rfl
  | nodeRestart => exact Answers.next (t := s.restartTransaction.restartRest) (State.restartRest_readyFollows _)
  | flashNoResponse =>
    exact .ite (fun h => .next (State.noResponse_readyFollows (hs.low_of_loading h.1))) fun _ => .next hs
  | loadingReadStatus b =>
    exact .ite (fun h => .ite (fun _ => .next (State.noResponse_readyFollows (hs.low_of_loading h.1))) fun _ => .next hs)
      fun _ => .next hs
  | configBlockReadEnd f =>
    change Answers _ (execConfigBlockReadEnd f s)
    unfold execConfigBlockReadEnd
    split
    · exact .ite (fun h => .next (State.judgeConfig_readyFollows hs (hs.low_of_loading h))) fun _ => .next hs
    all_goals exact .next hs
  | sramPortGrant | passThroughSramDone | peerFetchReadDone | consumerIndexWrite | resultWriteDone | reportBodyWriteDone
  | producerIndexWriteDone | statusWriteDone => exact (exec_frame _ s).imp fun _ ht => ht.readyFollows hs (by simp [touchedBy])
  | _ => exact absurd hc (by simp [guardedRow])

/-! ## The pending queue -/

theorem Frame.pendingBounded {F : List Piece} {s t : State} (h : Frame F s t) (hs : PendingBounded s)
    (hF : .reports ∉ F := by decide) : PendingBounded t := by
  rwa [PendingBounded, (h.reports hF).1]

theorem State.pumpReports_pendingBounded {s : State} (hs : PendingBounded s) : PendingBounded s.pumpReports := by
  rwa [PendingBounded, State.pumpReports_pending]

theorem State.raise_pendingBounded (b : ReportBody) {s : State} (hs : PendingBounded s) : PendingBounded (s.raise b) := by
  refine State.pumpReports_pendingBounded ?_
  unfold State.joinQueue
  split
  · next hlt => simpa [PendingBounded] using hlt
  · exact hs

theorem State.queuePeer_pendingBounded (b : PeerBuffer) {s : State} (hs : PendingBounded s) : PendingBounded (s.queuePeer b) := by
  unfold State.queuePeer
  split
  · exact State.raise_pendingBounded _ hs
  · split
    · exact State.raise_pendingBounded _ hs
    · split
      · exact State.raise_pendingBounded _ hs
      · dsimp only
        split
        · exact Frame.pendingBounded (State.issueFetch_frame _) hs
        · exact hs

theorem pendingBounded_keptByParts : KeptByParts PendingBounded where
  update F s t h hs := h.pendingBounded hs (not_mem_unguarded (by decide) F)
  raise b _ := State.raise_pendingBounded b
  refresh s hs := s.refreshStatus_frame.pendingBounded hs
  queuePeer b _ := State.queuePeer_pendingBounded b
  ready _ hs := hs
  takeClosing s hs := s.takeClosing_frame.pendingBounded hs
  answer q c d s _ hs := (s.answer_frame q c d).pendingBounded hs

theorem State.installDefaults_pendingBounded {s : State} (hs : PendingBounded s) (r : DefaultedReason) :
    PendingBounded (s.installDefaults r) := State.raise_pendingBounded _ hs

theorem State.noResponse_pendingBounded {s : State} (hs : PendingBounded s) : PendingBounded s.noResponse :=
  State.installDefaults_pendingBounded (s := { s with suc.loadUs := max s.suc.loadUs noResponseUs }) hs .noFlash

theorem State.judgeConfig_pendingBounded {s : State} (hs : PendingBounded s) : PendingBounded s.judgeConfig := by
  unfold State.judgeConfig
  split
  · exact hs
  · split
    · exact hs
    · split
      exacts [State.installDefaults_pendingBounded hs _, hs]
  · split
    · exact hs
    · split
      exacts [State.installDefaults_pendingBounded hs _, hs]

theorem State.takeHeader_pendingBounded (b : PeerBuffer) {s : State} (hs : PendingBounded s) : PendingBounded (s.takeHeader b) := by
  have hended : ∀ r, PendingBounded ((s.raise r).endFetch) := fun r =>
    Frame.pendingBounded (State.endFetch_frame _) (State.raise_pendingBounded r hs)
  unfold State.takeHeader
  dsimp only
  split
  · exact hended _
  · split
    · exact hended _
    · split
      · exact hended _
      · split
        · exact Frame.pendingBounded (State.endFetch_frame _) hs
        · exact Frame.pendingBounded (State.issueFetch_frame _) hs

theorem State.peerEstimates_runs (f : Nat → PeerEntry) (node n : Nat) (s : State) :
    Runs (.stations :: reportPieces) s ((List.range n).foldl (fun s i => s.peerEstimate node (f i)) s) :=
  Runs.foldl _ (fun s _ => s.peerEstimate_runs node _) _ _

theorem State.handEntries_pendingBounded (node used : Nat) {s : State} (hs : PendingBounded s) :
    PendingBounded (s.handEntries node used) := by
  unfold State.handEntries
  dsimp only
  have hhanded := fun (f : Nat → PeerEntry) n => pendingBounded_keptByParts.runs (s.peerEstimates_runs f node n) hs
  split
  · exact Frame.pendingBounded (State.endFetch_frame _) (hhanded _ _)
  · exact Frame.pendingBounded (State.issueFetch_frame _) (hhanded (fun i => Machine.entryAt s.diu.fetch.bytes (s.diu.fetch.handed + i)) _)

theorem execPeerFetchReadDone_pendingBounded {s : State} (hs : PendingBounded s) :
    Answers PendingBounded (execPeerFetchReadDone s) := by
  unfold execPeerFetchReadDone
  split
  · dsimp only
    split
    · exact .next hs
    · exact .next hs
    · split
      · exact .next (State.handEntries_pendingBounded _ _ hs)
      · exact .ite (fun _ => .next (Frame.pendingBounded (State.issueFetch_frame _) hs))
          fun _ => .next (State.takeHeader_pendingBounded _ hs)
  · exact .next hs

theorem execReportBodyWriteDone_pendingBounded {s : State} (hs : PendingBounded s) :
    Answers PendingBounded (execReportBodyWriteDone s) := by
  have htail : ∀ {l : List Report}, l.length ≤ 16 → l.tail.length ≤ 16 := fun h => by
    rw [List.length_tail]
    omega
  unfold execReportBodyWriteDone
  split
  · exact .ite (fun _ => .next hs) fun _ => .next (htail hs)
  · exact .next hs

theorem State.restartCau_pendingBounded (s : State) : PendingBounded s.restartCau := by
  unfold State.restartCau
  dsimp only
  split <;> exact Nat.zero_le 16

theorem State.restartRest_pendingBounded (s : State) : PendingBounded s.restartRest :=
  Frame.pendingBounded (F := [.stations, .games, .rmu, .session, .flashPort, .startUp, .startLog, .ready, .restartReq])
    ((State.restartTable_frame _).mono.trans ((State.restartImu_frame _).andThen (State.restartSuc_frame _)))
    (State.restartCau_pendingBounded _)

theorem exec_pendingBounded_of_guarded (c : Instr) (s : State) (hc : guardedRow c = true) (hs : PendingBounded s) :
    Answers PendingBounded (exec c s) := by
  cases c with
  | powerOn => exact .next (Nat.zero_le 16)
  | nodeRestart => exact Answers.next (t := s.restartTransaction.restartRest) (State.restartRest_pendingBounded _)
  | flashNoResponse => exact .ite (fun _ => .next (State.noResponse_pendingBounded hs)) fun _ => .next hs
  | loadingReadStatus b =>
    exact .ite (fun _ => .ite (fun _ => .next (State.noResponse_pendingBounded hs)) fun _ => .next hs) fun _ => .next hs
  | configBlockReadEnd f =>
    change Answers _ (execConfigBlockReadEnd f s)
    unfold execConfigBlockReadEnd
    split
    · exact .ite (fun _ => .next (State.judgeConfig_pendingBounded hs)) fun _ => .next hs
    all_goals exact .next hs
  | peerFetchReadDone => exact execPeerFetchReadDone_pendingBounded hs
  | consumerIndexWrite =>
    change Answers _ (execConsumerIndexWrite s)
    unfold execConsumerIndexWrite
    split
    · refine .next ?_
      unfold State.takeConsumer
      dsimp only
      split
      exacts [State.pumpReports_pendingBounded hs, hs]
    · exact .next hs
  | reportBodyWriteDone => exact execReportBodyWriteDone_pendingBounded hs
  | producerIndexWriteDone =>
    change Answers _ (execProducerIndexWriteDone s)
    unfold execProducerIndexWriteDone
    split
    · exact .ite (fun _ => .next hs) fun _ => .next (State.pumpReports_pendingBounded hs)
    · exact .next hs
  | sramPortGrant | passThroughSramDone | resultWriteDone | statusWriteDone =>
    exact (exec_frame _ s).imp fun _ ht => ht.pendingBounded hs (by simp [touchedBy])
  | _ => exact absurd hc (by simp [guardedRow])

/-- Settles O4: the three invariants, kept by every command and by the passing of a millisecond. -/
theorem linesAndReportQueueStayProper : Obligations.LinesAndReportQueueStayProper :=
  ⟨keptByStep_of_exec (fun _ _ h hs => h.attnFollows hs) exec_attnFollows,
    readyFollows_keptByParts.step exec_readyFollows_of_guarded, pendingBounded_keptByParts.step exec_pendingBounded_of_guarded⟩

end Sys2Proof.Machine

/-! PROOFS. The arbiter of the SRAM port (section 1.5): every step keeps one access of each path outstanding where its unit waits for
one, and the wait counts. -/
namespace Sys2Proof.Machine

/-! ## Paths issued and outstanding -/

/-- The path of an access on the port, overtaken or not. -/
def SramPort.issuedPaths : SramPort → List Nat
  | .internal a _ => [a.kind.path]
  | .free => []
  | .passThrough => []

/-- The path of an access on the port that no restart has overtaken. -/
def SramPort.awaitedPaths : SramPort → List Nat
  | .internal a false => [a.kind.path]
  | .internal _ true => []
  | .free => []
  | .passThrough => []

/-- The paths of the queued accesses. -/
def queuedPaths (qs : List Queued) : List Nat := qs.map (fun q => q.access.kind.path)

theorem State.issued_eq (s : State) : s.issued = queuedPaths s.ptu.queue ++ s.ptu.port.issuedPaths := by
  unfold State.issued
  cases s.ptu.port <;> rfl

theorem State.outstanding_eq (s : State) :
    s.outstanding = queuedPaths s.ptu.queue ++ (s.ptu.behind.map (fun a => a.kind.path)).toList ++ s.ptu.port.awaitedPaths := by
  unfold State.outstanding
  cases s.ptu.port with
  | internal a g => cases g <;> rfl
  | free => rfl
  | passThrough => rfl

/-- The arbiter's queue is proper, and the paths outstanding are 0 to 3 as four propositions say. -/
structure ArbiterWith (s : State) (w0 w1 w2 w3 : Prop) : Prop where
  sorted : (s.ptu.queue.map (fun q => q.wait)).Pairwise (· ≥ ·)
  waits : ∀ q ∈ s.ptu.queue, q.wait ≤ 8
  issued : s.issued.Nodup
  behind : ∀ a, s.ptu.behind = some a → s.pathBlocked a.kind.path = true
  outstanding : s.outstanding.Nodup
  report : 0 ∈ s.outstanding ↔ w0
  result : 1 ∈ s.outstanding ↔ w1
  status : 2 ∈ s.outstanding ↔ w2
  fetch : 3 ∈ s.outstanding ↔ w3

section
variable {s t : State} {w0 w1 w2 w3 v0 v1 v2 v3 : Prop}

theorem ArbiterWith.iff (h : ArbiterWith s w0 w1 w2 w3) (h0 : w0 ↔ v0) (h1 : w1 ↔ v1) (h2 : w2 ↔ v2) (h3 : w3 ↔ v3) :
    ArbiterWith s v0 v1 v2 v3 :=
  ⟨h.sorted, h.waits, h.issued, h.behind, h.outstanding, h.report.trans h0, h.result.trans h1, h.status.trans h2,
    h.fetch.trans h3⟩

/-- The queue, the access that waits behind and the port are all it speaks of. -/
theorem ArbiterWith.congr (h : ArbiterWith s w0 w1 w2 w3) (hq : t.ptu.queue = s.ptu.queue) (hb : t.ptu.behind = s.ptu.behind)
    (hp : t.ptu.port = s.ptu.port) : ArbiterWith t w0 w1 w2 w3 := by
  have hissued : t.issued = s.issued := by rw [State.issued_eq, hq, hp, State.issued_eq]
  have houtstanding : t.outstanding = s.outstanding := by rw [State.outstanding_eq, hq, hb, hp, State.outstanding_eq]
  have hblocked : ∀ k, t.pathBlocked k = s.pathBlocked k := fun k => by rw [State.pathBlocked, hp, State.pathBlocked]
  obtain ⟨h1, h2, h3, h4, h5, h6, h7, h8, h9⟩ := h
  refine ⟨by rwa [hq], by rwa [hq], by rwa [hissued], fun a ha => ?_, by rwa [houtstanding], by rwa [houtstanding],
    by rwa [houtstanding], by rwa [houtstanding], by rwa [houtstanding]⟩
  rw [hblocked]
  exact h4 a (hb ▸ ha)

/-- Only an overtaken access on the port has one waiting behind it. -/
theorem ArbiterWith.behind_eq_none (h : ArbiterWith s w0 w1 w2 w3) (hp : ∀ a, s.ptu.port ≠ .internal a true) :
    s.ptu.behind = none := by
  refine Option.eq_none_iff_forall_ne_some.2 fun a ha => ?_
  obtain ⟨b, hb, -⟩ := (s.pathBlocked_eq_true_iff a.kind.path).1 (h.behind a ha)
  exact hp b hb

/-! ## An access is issued -/

/-- An access of a path without one outstanding is issued: its path is outstanding then. -/
theorem ArbiterWith.issue (h : ArbiterWith s w0 w1 w2 w3) {a : InternalAccess} (ha : a.kind.path ∉ s.outstanding) :
    ArbiterWith (s.issue a) (0 = a.kind.path ∨ w0) (1 = a.kind.path ∨ w1) (2 = a.kind.path ∨ w2) (3 = a.kind.path ∨ w3) := by
  obtain ⟨hsorted, hwaits, hissued, hbehind, houtstanding, h0, h1, h2, h3⟩ := h
  have hparts := s.outstanding_eq
  cases hblocked : s.pathBlocked a.kind.path with
  | true =>
    obtain ⟨b, hport, hb⟩ := (s.pathBlocked_eq_true_iff _).1 hblocked
    have hnone : s.ptu.behind = none := by
      refine Option.eq_none_iff_forall_ne_some.2 fun c hc => ha ?_
      obtain ⟨b', hport', hb'⟩ := (s.pathBlocked_eq_true_iff _).1 (hbehind c hc)
      obtain ⟨rfl, -⟩ := SramPort.internal.inj (hport.symm.trans hport')
      rw [hparts, hc]
      simp [← hb, hb']
    have hissue := State.issue_of_blocked hblocked
    have hperm : (s.issue a).outstanding.Perm (a.kind.path :: s.outstanding) := by
      rw [State.outstanding_eq, hissue, hparts, hport, hnone]
      simp [SramPort.awaitedPaths]
    have hmem : ∀ x, x ∈ (s.issue a).outstanding ↔ x = a.kind.path ∨ x ∈ s.outstanding := fun x =>
      hperm.mem_iff.trans List.mem_cons
    refine ⟨by rwa [hissue], by rwa [hissue], ?_, fun c hc => ?_, hperm.nodup_iff.2 (List.nodup_cons.2 ⟨ha, houtstanding⟩),
      (hmem 0).trans (or_congr_right h0), (hmem 1).trans (or_congr_right h1), (hmem 2).trans (or_congr_right h2),
      (hmem 3).trans (or_congr_right h3)⟩
    · rw [hissue]
      exact hissued
    · rw [hissue] at hc ⊢
      obtain rfl := Option.some.inj hc
      exact hblocked
  | false =>
    have hissue := State.issue_of_not_blocked hblocked
    have hqueue : (s.issue a).ptu.queue = s.ptu.queue ++ [{ access := a, wait := 0 }] := by rw [hissue]
    have hpaths : queuedPaths (s.issue a).ptu.queue = queuedPaths s.ptu.queue ++ [a.kind.path] := by
      rw [hqueue, queuedPaths, List.map_append]
      rfl
    have hperm : (s.issue a).outstanding.Perm (a.kind.path :: s.outstanding) := by
      rw [State.outstanding_eq, hpaths, hparts, hissue]
      simp only [List.append_assoc]
      exact List.perm_middle
    have hmem : ∀ x, x ∈ (s.issue a).outstanding ↔ x = a.kind.path ∨ x ∈ s.outstanding := fun x =>
      hperm.mem_iff.trans List.mem_cons
    have hpermIssued : (s.issue a).issued.Perm (a.kind.path :: s.issued) := by
      rw [State.issued_eq, hpaths, s.issued_eq, hissue]
      simp only [List.append_assoc]
      exact List.perm_middle
    have hfree : a.kind.path ∉ s.issued := by
      rw [s.issued_eq]
      intro hin
      rcases List.mem_append.1 hin with hin | hin
      · exact ha (by rw [hparts]; simp [hin])
      · cases hport : s.ptu.port with
        | free => simp [hport, SramPort.issuedPaths] at hin
        | passThrough => simp [hport, SramPort.issuedPaths] at hin
        | internal b g =>
          have hb : a.kind.path = b.kind.path := by simpa [hport, SramPort.issuedPaths] using hin
          cases g with
          | true => exact absurd ((s.pathBlocked_eq_true_iff _).2 ⟨b, hport, hb.symm⟩) (by simp [hblocked])
          | false => exact ha (by rw [hparts, hport]; simp [SramPort.awaitedPaths, hb])
    refine ⟨?_, fun q hq => ?_, hpermIssued.nodup_iff.2 (List.nodup_cons.2 ⟨hfree, hissued⟩), ?_,
      hperm.nodup_iff.2 (List.nodup_cons.2 ⟨ha, houtstanding⟩),
      (hmem 0).trans (or_congr_right h0), (hmem 1).trans (or_congr_right h1), (hmem 2).trans (or_congr_right h2),
      (hmem 3).trans (or_congr_right h3)⟩
    · rw [hqueue, List.map_append]
      exact List.pairwise_append.2 ⟨hsorted, List.pairwise_singleton _ _, fun x _ y hy => by
        obtain rfl := List.mem_singleton.1 hy
        exact Nat.zero_le x⟩
    · rw [hqueue] at hq
      rcases List.mem_append.1 hq with hq | hq
      · exact hwaits q hq
      · obtain rfl := List.mem_singleton.1 hq
        exact Nat.zero_le 8
    · rw [hissue]
      exact hbehind

/-! ## Grants and completions -/

theorem ArbiterWith.grantPass (h : ArbiterWith s w0 w1 w2 w3) (hport : s.ptu.port = .free)
    (hwait : ∀ q ∈ s.ptu.queue, q.wait < 8) (x : InHand) (work : SramWork) : ArbiterWith (s.grantPass x work) w0 w1 w2 w3 := by
  have hnone := h.behind_eq_none (by simp [hport])
  have hpaths : queuedPaths (s.grantPass x work).ptu.queue = queuedPaths s.ptu.queue := List.map_map
  have hissued : (s.grantPass x work).issued = s.issued := by rw [State.issued_eq, hpaths, s.issued_eq, hport]; rfl
  have houtstanding : (s.grantPass x work).outstanding = s.outstanding := by
    rw [State.outstanding_eq, hpaths, s.outstanding_eq, hport]
    rfl
  obtain ⟨hsorted, -, h3, -, h5, h6, h7, h8, h9⟩ := h
  refine ⟨?_, fun q hq => ?_, by rwa [hissued], fun a ha => ?_, by rwa [houtstanding], by rwa [houtstanding],
    by rwa [houtstanding], by rwa [houtstanding], by rwa [houtstanding]⟩
  · have hmap : (s.grantPass x work).ptu.queue.map (fun q => q.wait) = (s.ptu.queue.map (fun q => q.wait)).map (· + 1) := by
      rw [List.map_map]
      exact List.map_map
    rw [hmap, List.pairwise_map]
    exact hsorted.imp fun hle => Nat.succ_le_succ hle
  · obtain ⟨p, hp, rfl⟩ := List.mem_map.1 hq
    exact hwait p hp
  · exact nomatch hnone.symm.trans ha

theorem ArbiterWith.grantInternal (h : ArbiterWith s w0 w1 w2 w3) (hport : s.ptu.port = .free) {q : Queued}
    {rest : List Queued} (hq : s.ptu.queue = q :: rest) : ArbiterWith (s.grantInternal q rest) w0 w1 w2 w3 := by
  have hnone := h.behind_eq_none (by simp [hport])
  have hissued : (s.grantInternal q rest).issued.Perm s.issued := by
    rw [State.issued_eq, s.issued_eq, hport, hq]
    simp [SramPort.issuedPaths, State.grantInternal, queuedPaths]
  have houtstanding : (s.grantInternal q rest).outstanding.Perm s.outstanding := by
    rw [State.outstanding_eq, s.outstanding_eq, hport, hq]
    simp [SramPort.awaitedPaths, State.grantInternal, queuedPaths, hnone]
  obtain ⟨hsorted, hwaits, h3, -, h5, h6, h7, h8, h9⟩ := h
  rw [hq] at hsorted hwaits
  refine ⟨(List.pairwise_cons.1 hsorted).2, fun p hp => hwaits p (List.mem_cons_of_mem q hp), hissued.nodup_iff.2 h3,
    fun a ha => ?_, houtstanding.nodup_iff.2 h5, houtstanding.mem_iff.trans h6, houtstanding.mem_iff.trans h7,
    houtstanding.mem_iff.trans h8, houtstanding.mem_iff.trans h9⟩
  exact nomatch hnone.symm.trans ha

/-- The port is free after an access that no restart has overtaken: its path is outstanding no more. -/
theorem ArbiterWith.finish (h : ArbiterWith s w0 w1 w2 w3) {a : InternalAccess} (hport : s.ptu.port = .internal a false) :
    ArbiterWith (s.finishAccess a) (0 ≠ a.kind.path ∧ w0) (1 ≠ a.kind.path ∧ w1) (2 ≠ a.kind.path ∧ w2)
      (3 ≠ a.kind.path ∧ w3) := by
  have hnone := h.behind_eq_none (by simp [hport])
  have hissued : (s.finishAccess a).issued = queuedPaths s.ptu.queue := by
    rw [State.issued_eq]
    exact List.append_nil _
  have houtstanding : (s.finishAccess a).outstanding = queuedPaths s.ptu.queue := by
    rw [State.outstanding_eq]
    simp [State.finishAccess, State.storeSram, hnone, SramPort.awaitedPaths]
  have hbefore : s.outstanding = queuedPaths s.ptu.queue ++ [a.kind.path] := by
    rw [State.outstanding_eq, hnone, hport]
    simp [SramPort.awaitedPaths]
  obtain ⟨hsorted, hwaits, -, -, h5, h6, h7, h8, h9⟩ := h
  rw [hbefore] at h5 h6 h7 h8 h9
  have hnodup := List.nodup_append.1 h5
  have hmem : ∀ x, x ∈ queuedPaths s.ptu.queue ↔ x ≠ a.kind.path ∧ x ∈ queuedPaths s.ptu.queue ++ [a.kind.path] := fun x => by
    rw [List.mem_append, List.mem_singleton]
    refine ⟨fun hx => ⟨fun heq => ?_, .inl hx⟩, fun hx => hx.2.resolve_right hx.1⟩
    exact hnodup.2.2 x hx _ (List.mem_singleton_self _) heq
  refine ⟨hsorted, hwaits, by rw [hissued]; exact hnodup.1, fun b hb => ?_, by rw [houtstanding]; exact hnodup.1, ?_, ?_, ?_, ?_⟩
  · exact nomatch hnone.symm.trans hb
  all_goals rw [houtstanding, hmem]
  · rw [h6]
  · rw [h7]
  · rw [h8]
  · rw [h9]

/-- An overtaken access is over: the access that has waited behind it joins the queue, and the same paths are outstanding. -/
theorem ArbiterWith.finishOvertaken (h : ArbiterWith s w0 w1 w2 w3) {a : InternalAccess} (hport : s.ptu.port = .internal a true) :
    ArbiterWith (s.finishAccess a).joinBehind w0 w1 w2 w3 := by
  have hqueue : (s.finishAccess a).joinBehind.ptu.queue
      = s.ptu.queue ++ (s.ptu.behind.map (fun a => ({ access := a, wait := 0 } : Queued))).toList := rfl
  have hpaths : queuedPaths (s.finishAccess a).joinBehind.ptu.queue = s.outstanding := by
    rw [s.outstanding_eq, hport, hqueue, queuedPaths, List.map_append]
    cases s.ptu.behind <;> simp [queuedPaths, SramPort.awaitedPaths]
  have hissued : (s.finishAccess a).joinBehind.issued = s.outstanding := by
    rw [State.issued_eq, hpaths]
    exact List.append_nil _
  have houtstanding : (s.finishAccess a).joinBehind.outstanding = s.outstanding := by
    rw [State.outstanding_eq, hpaths]
    exact (List.append_nil _).trans (List.append_nil _)
  obtain ⟨hsorted, hwaits, -, -, h5, h6, h7, h8, h9⟩ := h
  refine ⟨?_, fun q hq => ?_, by rwa [hissued], fun b hb => (nomatch hb), by rwa [houtstanding], by rwa [houtstanding],
    by rwa [houtstanding], by rwa [houtstanding], by rwa [houtstanding]⟩
  · rw [hqueue, List.map_append]
    refine List.pairwise_append.2 ⟨hsorted, ?_, fun x _ y hy => ?_⟩
    · cases s.ptu.behind <;> simp
    · cases hb : s.ptu.behind <;> simp [hb] at hy
      omega
  · rw [hqueue] at hq
    rcases List.mem_append.1 hq with hq | hq
    · exact hwaits q hq
    · cases hb : s.ptu.behind <;> simp [hb] at hq
      simp [hq]

end

end Sys2Proof.Machine

/-! PROOFS. The units and the commands keep the arbiter's queue proper. -/
namespace Sys2Proof.Machine

/-! ## Which unit waits -/

/-- The report path waits for an access (R31, R34). -/
def State.reportWaits (s : State) : Prop := s.cau.path = .zeroing ∨ s.cau.path = .body ∨ s.cau.path = .index

/-- A result write has been asked for (R28). -/
def State.resultWaits (s : State) : Prop := s.cau.slot = .pending ∧ s.cau.request = none

/-- The arbiter is proper, with the peer fetch waiting where `w3` says so. -/
structure ArbiterFor (w3 : Prop) (s : State) : Prop where
  arbiter : ArbiterWith s s.reportWaits s.resultWaits (s.cau.statusOut = true) w3
  request : s.cau.request ≠ none → s.cau.slot = .pending
  loading : s.suc.startUp = .loading → s.cau.path = .notBegun

theorem arbiterProper_iff (s : State) : ArbiterProper s ↔ ArbiterFor (s.diu.peerQueue ≠ []) s := by
  constructor
  · rintro ⟨h1, h2, h3, h4, h5, h6, h7, h8, h9, h10, h11⟩
    exact ⟨⟨h1, h2, h3, h4, h5, h6, h7, h8, h9⟩, h10, h11⟩
  · rintro ⟨⟨h1, h2, h3, h4, h5, h6, h7, h8, h9⟩, h10, h11⟩
    exact ⟨h1, h2, h3, h4, h5, h6, h7, h8, h9, h10, h11⟩

/-- The issue of an access of path `p`. -/
theorem ArbiterWith.issuePath {s : State} {w0 w1 w2 w3 : Prop} (h : ArbiterWith s w0 w1 w2 w3) {a : InternalAccess} {p : Nat}
    (hpath : a.kind.path = p) (hp : p ∉ s.outstanding) :
    ArbiterWith (s.issue a) (0 = p ∨ w0) (1 = p ∨ w1) (2 = p ∨ w2) (3 = p ∨ w3) := by
  subst hpath
  exact h.issue hp

section
variable {F : List Piece} {s t : State} {w3 : Prop}

theorem Frame.waiting (h : Frame F s t) (hp : .waiting ∉ F) : t.ptu.queue = s.ptu.queue ∧ t.ptu.behind = s.ptu.behind := by
  simpa only [State.without, Piece.pick_of_not_mem hp, Prod.mk.injEq] using congrArg (fun u => (u.ptu.queue, u.ptu.behind)) h

theorem Frame.sramPort (h : Frame F s t) (hp : .port ∉ F) : t.ptu.port = s.ptu.port := by
  simpa only [State.without, Piece.pick_of_not_mem hp] using congrArg (fun u => u.ptu.port) h

theorem Frame.statusOut (h : Frame F s t) (hp : .status ∉ F) : t.cau.statusOut = s.cau.statusOut := by
  simpa only [State.without, Piece.pick_of_not_mem hp] using congrArg (fun u => u.cau.statusOut) h

theorem Frame.peerQueue (h : Frame F s t) (hp : .peers ∉ F) : t.diu.peerQueue = s.diu.peerQueue := by
  simpa only [State.without, Piece.pick_of_not_mem hp] using congrArg (fun u => u.diu.peerQueue) h

/-- The pieces the arbiter's invariant speaks of, but for the peer queue. -/
abbrev arbiterPieces : List Piece := [.waiting, .port, .reports, .request, .status, .startUp]

theorem Frame.arbiterFor (h : Frame F s t) (hs : ArbiterFor w3 s) (hF : ∀ p ∈ arbiterPieces, p ∉ F := by decide) :
    ArbiterFor w3 t := by
  obtain ⟨hqueue, hbehind⟩ := h.waiting (hF _ (by decide))
  obtain ⟨-, -, hpath⟩ := h.reports (hF _ (by decide))
  obtain ⟨hslot, hrequest⟩ := h.request (hF _ (by decide))
  have hport := h.sramPort (hF _ (by decide))
  have hstatus := h.statusOut (hF _ (by decide))
  have hstart := h.startUp (hF _ (by decide))
  obtain ⟨harbiter, hpending, hloading⟩ := hs
  refine ⟨(harbiter.congr hqueue hbehind hport).iff ?_ ?_ ?_ .rfl, ?_, ?_⟩
  · rw [State.reportWaits, State.reportWaits, hpath]
  · rw [State.resultWaits, State.resultWaits, hslot, hrequest]
  · rw [hstatus]
  · rwa [hslot, hrequest]
  · rwa [hstart, hpath]

theorem ArbiterFor.of_iff {v3 : Prop} (hs : ArbiterFor w3 s) (h : w3 ↔ v3) : ArbiterFor v3 s :=
  ⟨hs.arbiter.iff .rfl .rfl .rfl h, hs.request, hs.loading⟩

/-! ## The report path -/

theorem ArbiterFor.pumpReports (hs : ArbiterFor w3 s) : ArbiterFor w3 s.pumpReports := by
  rcases s.pumpReports_cases with h | ⟨r, rest, hidle, -, -, h⟩ <;> rw [h]
  · exact hs
  · obtain ⟨harbiter, hpending, hloading⟩ := hs
    have hwaits : ¬s.reportWaits := by simp [State.reportWaits, hidle]
    have hbody : ArbiterWith { s with cau.path := .body } s.reportWaits s.resultWaits (s.cau.statusOut = true) w3 :=
      harbiter.congr rfl rfl rfl
    refine ⟨(hbody.issuePath (p := 0) rfl fun hin => hwaits (hbody.report.1 hin)).iff ?_ ?_ ?_ ?_, hpending, fun hl => ?_⟩
    · exact iff_of_true (.inl rfl) (.inr (.inl rfl))
    · exact or_iff_right (by decide)
    · exact or_iff_right (by decide)
    · exact or_iff_right (by decide)
    · exact nomatch hidle.symm.trans (hloading hl)

theorem ArbiterFor.raise (b : ReportBody) (hs : ArbiterFor w3 s) : ArbiterFor w3 (s.raise b) := by
  refine ArbiterFor.pumpReports ?_
  unfold State.joinQueue
  split
  · exact ⟨hs.arbiter.congr rfl rfl rfl, hs.request, hs.loading⟩
  · exact ⟨hs.arbiter.congr rfl rfl rfl, hs.request, hs.loading⟩

/-- The ring begins where the report path waits for nothing (R34). -/
theorem ArbiterFor.beginRing {v0 : Prop} (harbiter : ArbiterWith s v0 s.resultWaits (s.cau.statusOut = true) w3) (hv : ¬v0)
    (hrequest : s.cau.request ≠ none → s.cau.slot = .pending) (hstart : s.suc.startUp ≠ .loading) :
    ArbiterFor w3 s.beginRing := by
  have hzeroing : ArbiterWith { s with
      cau.writeIdx := 0, cau.published := 0, cau.consumer := 0, cau.gap := false, cau.path := .zeroing
      lines.attn := false } v0 s.resultWaits (s.cau.statusOut = true) w3 := harbiter.congr rfl rfl rfl
  refine ⟨(hzeroing.issuePath (p := 0) rfl fun hin => hv (hzeroing.report.1 hin)).iff ?_ ?_ ?_ ?_, hrequest, fun hl => absurd hl hstart⟩
  · exact iff_of_true (.inl rfl) (.inl rfl)
  · exact or_iff_right (by decide)
  · exact or_iff_right (by decide)
  · exact or_iff_right (by decide)

/-! ## The status path -/

theorem ArbiterFor.pumpStatus (hs : ArbiterFor w3 s) : ArbiterFor w3 s.pumpStatus := by
  rcases s.pumpStatus_cases with h | ⟨o, bs, rest, hout, -, h⟩ <;> rw [h]
  · exact hs
  · obtain ⟨harbiter, hpending, hloading⟩ := hs
    have hleft : ArbiterWith { s with cau.statusLeft := rest, cau.statusOut := true } s.reportWaits s.resultWaits
        (s.cau.statusOut = true) w3 := harbiter.congr rfl rfl rfl
    refine ⟨(hleft.issuePath (p := 2) rfl fun hin => ?_).iff ?_ ?_ ?_ ?_, hpending, hloading⟩
    · exact nomatch hout.symm.trans (hleft.status.1 hin)
    · exact or_iff_right (by decide)
    · exact or_iff_right (by decide)
    · exact iff_of_true (.inl rfl) rfl
    · exact or_iff_right (by decide)

/-- A status write that waits behind an overtaken one is given up, and none is outstanding (R36). -/
theorem ArbiterWith.dropBehind {w0 w1 w2 : Prop} (h : ArbiterWith s w0 w1 w2 w3) {a : InternalAccess}
    (ha : s.ptu.behind = some a) (hpath : a.kind.path = 2) {u : State} (hqueue : u.ptu.queue = s.ptu.queue)
    (hnone : u.ptu.behind = none) (hport : u.ptu.port = s.ptu.port) : ArbiterWith u w0 w1 False w3 := by
  have hissued : u.issued = s.issued := by rw [State.issued_eq, hqueue, hport, s.issued_eq]
  have hperm : s.outstanding.Perm (2 :: u.outstanding) := by
    rw [s.outstanding_eq, ha, State.outstanding_eq, hnone, hqueue, hport, Option.map_some, hpath]
    simp only [List.append_assoc, Option.toList_some, Option.map_none, Option.toList_none, List.nil_append]
    exact List.perm_middle
  obtain ⟨hsorted, hwaits, h3, -, h5, h6, h7, h8, h9⟩ := h
  obtain ⟨hnot, hnodup⟩ := List.nodup_cons.1 (hperm.nodup_iff.1 h5)
  have hmem : ∀ x, x ≠ 2 → (x ∈ u.outstanding ↔ x ∈ s.outstanding) := fun x hx => by
    rw [hperm.mem_iff, List.mem_cons]
    exact (or_iff_right hx).symm
  exact ⟨by rwa [hqueue], by rwa [hqueue], by rwa [hissued], fun b hb => (nomatch hnone.symm.trans hb), hnodup,
    (hmem 0 (by decide)).trans h6, (hmem 1 (by decide)).trans h7, iff_false_intro hnot, (hmem 3 (by decide)).trans h9⟩

theorem ArbiterFor.dropParked (hs : ArbiterFor w3 s) : ArbiterFor w3 s.dropParked := by
  rcases s.dropParked_cases with ⟨-, h⟩ | ⟨a, ha, hpath, h⟩ <;> rw [h]
  · exact hs
  · have hdropped : ArbiterWith { s with ptu.behind := none, cau.statusOut := false } s.reportWaits s.resultWaits False w3 :=
      hs.arbiter.dropBehind ha hpath rfl rfl rfl
    exact ⟨hdropped.iff .rfl .rfl (by simp) .rfl, hs.request, hs.loading⟩

theorem ArbiterFor.refreshStatus (hs : ArbiterFor w3 s) : ArbiterFor w3 s.refreshStatus := by
  have hcounted : ArbiterFor w3 { s with cau.refreshCount := s.cau.refreshCount + 1 } :=
    ⟨hs.arbiter.congr rfl rfl rfl, hs.request, hs.loading⟩
  have hdropped := hcounted.dropParked
  exact ArbiterFor.pumpStatus ⟨hdropped.arbiter.congr rfl rfl rfl, hdropped.request, hdropped.loading⟩

/-! ## The peer queue -/

/-- A read of the buffer at the head is issued where none is outstanding. -/
theorem ArbiterFor.issueFetch (hs : ArbiterFor False s) : ArbiterFor (s.diu.peerQueue ≠ []) s.issueFetch := by
  unfold State.issueFetch
  split
  · next hq => exact hs.of_iff (by simp [hq])
  · next b rest hq =>
    obtain ⟨harbiter, hpending, hloading⟩ := hs
    refine ⟨(harbiter.issuePath (p := 3) rfl fun hin => harbiter.fetch.1 hin).iff ?_ ?_ ?_ ?_, hpending, hloading⟩
    · exact or_iff_right (by decide)
    · exact or_iff_right (by decide)
    · exact or_iff_right (by decide)
    · exact iff_of_true (.inl rfl) (by simp [hq])

theorem State.issueFetch_peerQueue (s : State) : s.issueFetch.diu.peerQueue = s.diu.peerQueue :=
  s.issueFetch_frame.peerQueue (by decide)

theorem ArbiterFor.issueFetch_proper (hs : ArbiterFor False s) : ArbiterProper s.issueFetch := by
  rw [arbiterProper_iff, State.issueFetch_peerQueue]
  exact hs.issueFetch

theorem ArbiterFor.peers (hs : ArbiterFor w3 s) (d : Diu) : ArbiterFor w3 { s with diu := d } :=
  ⟨hs.arbiter.congr rfl rfl rfl, hs.request, hs.loading⟩

theorem ArbiterFor.endFetch_proper (hs : ArbiterFor False s) : ArbiterProper s.endFetch :=
  (hs.peers { s.diu with peerQueue := s.diu.peerQueue.tail, fetch := Fetch.none }).issueFetch_proper

theorem ArbiterProper.raise (b : ReportBody) (hs : ArbiterProper s) : ArbiterProper (s.raise b) := by
  rw [arbiterProper_iff] at hs ⊢
  rw [(s.raise_frame b).peerQueue (by decide)]
  exact hs.raise b

theorem ArbiterProper.queuePeer (b : PeerBuffer) (hs : ArbiterProper s) : ArbiterProper (s.queuePeer b) := by
  unfold State.queuePeer
  split
  · exact hs.raise _
  · split
    · exact hs.raise _
    · split
      · exact hs.raise _
      · have hfor := (arbiterProper_iff s).1 hs
        dsimp only
        split
        · next hempty =>
          rw [List.isEmpty_iff] at hempty
          refine ArbiterFor.issueFetch_proper (ArbiterFor.peers (hfor.of_iff (by simp [hempty])) _)
        · next hfull =>
          rw [List.isEmpty_iff] at hfull
          exact (arbiterProper_iff _).2 ((hfor.peers _).of_iff (iff_of_true hfull (by simp)))

/-! ## Requests -/

/-- A request taken from the shadow of a FREE slot, or of one just become free (R27). -/
theorem ArbiterFor.takeRequest (harbiter : ArbiterWith s s.reportWaits False (s.cau.statusOut = true) w3)
    (hloading : s.suc.startUp = .loading → s.cau.path = .notBegun) : ArbiterFor w3 s.takeRequest := by
  have htaken : ArbiterWith s.takeRequest s.reportWaits False (s.cau.statusOut = true) w3 := harbiter.congr rfl rfl rfl
  exact ⟨htaken.iff .rfl (by simp [State.resultWaits, State.takeRequest]) .rfl .rfl, fun _ => rfl, hloading⟩

theorem ArbiterFor.resultWaits_of_free (hs : ArbiterFor w3 s) (hfree : s.cau.slot = .free) :
    ArbiterWith s s.reportWaits False (s.cau.statusOut = true) w3 :=
  hs.arbiter.iff .rfl (by simp [State.resultWaits, hfree]) .rfl .rfl

theorem ArbiterFor.takeClosing (hs : ArbiterFor w3 s) : ArbiterFor w3 s.takeClosing := by
  rcases s.takeClosing_cases with h | ⟨x, w, -, -, hfree, h⟩ <;> rw [h]
  · exact hs
  · have habsorbed : ArbiterFor w3 (s.absorb x w) := (s.absorb_frame x w).arbiterFor hs
    exact ArbiterFor.takeRequest (habsorbed.resultWaits_of_free hfree) habsorbed.loading

/-- A request in hand is answered: the result write is the one outstanding access of its path (R28). -/
theorem ArbiterFor.answer (q : Request) (c : ResultCode) (d : Nat) (hq : s.cau.request ≠ none) (hs : ArbiterFor w3 s) :
    ArbiterFor w3 (s.answer q c d) := by
  obtain ⟨harbiter, hpending, hloading⟩ := hs
  have hnot : ¬s.resultWaits := fun h => hq h.2
  have hnone : ArbiterWith { s with cau.request := none } s.reportWaits s.resultWaits (s.cau.statusOut = true) w3 :=
    harbiter.congr rfl rfl rfl
  refine ⟨(hnone.issuePath (p := 1) rfl fun hin => hnot (hnone.result.1 hin)).iff ?_ ?_ ?_ ?_, fun h => absurd ?_ h, hloading⟩
  · exact or_iff_right (by decide)
  · exact iff_of_true (.inl rfl) ⟨hpending hq, rfl⟩
  · exact or_iff_right (by decide)
  · exact or_iff_right (by decide)
  · rfl

end

/-- The ordinary commands keep the arbiter proper. -/
theorem arbiterProper_keptByParts : KeptByParts ArbiterProper where
  update F s t h hs := by
    rw [arbiterProper_iff] at hs ⊢
    rw [h.peerQueue (not_mem_unguarded (by decide) F)]
    exact h.arbiterFor hs fun p hp => not_mem_unguarded (by fin_cases hp <;> decide) F
  raise b s := ArbiterProper.raise b
  refresh s hs := by
    rw [arbiterProper_iff] at hs ⊢
    rw [s.refreshStatus_frame.peerQueue (by decide)]
    exact hs.refreshStatus
  queuePeer b s := ArbiterProper.queuePeer b
  ready s hs := by
    rw [arbiterProper_iff] at hs ⊢
    exact ⟨hs.arbiter.congr rfl rfl rfl, hs.request, fun h => nomatch h⟩
  takeClosing s hs := by
    rw [arbiterProper_iff] at hs ⊢
    rw [s.takeClosing_frame.peerQueue (by decide)]
    exact hs.takeClosing
  answer q c d s hq hs := by
    rw [arbiterProper_iff] at hs ⊢
    rw [(s.answer_frame q c d).peerQueue (by decide)]
    exact hs.answer q c d hq

end Sys2Proof.Machine

/-! PROOFS. The rows of the resets, of the end of LOADING and of the SRAM port keep the arbiter proper. -/
namespace Sys2Proof.Machine

section
variable {s t : State} {w0 w1 w2 w3 v0 v1 v2 v3 : Prop}

/-! ## The port -/

theorem State.path_mem_outstanding {a : InternalAccess} {p : Nat} (hpath : a.kind.path = p)
    (hport : s.ptu.port = .internal a false) : p ∈ s.outstanding := by
  rw [s.outstanding_eq, hport, ← hpath]
  exact List.mem_append_right _ (List.mem_singleton_self _)

theorem ArbiterWith.carried (h : ArbiterWith s w0 w1 w2 w3) (hq : t.ptu.queue = s.ptu.queue) (hb : t.ptu.behind = s.ptu.behind)
    (hp : t.ptu.port = s.ptu.port) (h0 : w0 ↔ v0) (h1 : w1 ↔ v1) (h2 : w2 ↔ v2) (h3 : w3 ↔ v3) : ArbiterWith t v0 v1 v2 v3 :=
  (h.congr hq hb hp).iff h0 h1 h2 h3

/-- The pass-through access gives up the port: no access of the SL7's own is touched. -/
theorem ArbiterWith.release (h : ArbiterWith s w0 w1 w2 w3) (hport : s.ptu.port = .passThrough) (hqueue : t.ptu.queue = s.ptu.queue)
    (hbehind : t.ptu.behind = s.ptu.behind) (hfree : t.ptu.port = .free) : ArbiterWith t w0 w1 w2 w3 := by
  have hnone := h.behind_eq_none (by simp [hport])
  have hissued : t.issued = s.issued := by rw [State.issued_eq, hqueue, hfree, s.issued_eq, hport]; rfl
  have houtstanding : t.outstanding = s.outstanding := by
    rw [State.outstanding_eq, hqueue, hbehind, hfree, s.outstanding_eq, hport]
    rfl
  obtain ⟨h1, h2, h3, -, h5, h6, h7, h8, h9⟩ := h
  exact ⟨by rwa [hqueue], by rwa [hqueue], by rwa [hissued], fun a ha => (nomatch hnone.symm.trans (hbehind.symm.trans ha)),
    by rwa [houtstanding], by rwa [houtstanding], by rwa [houtstanding], by rwa [houtstanding], by rwa [houtstanding]⟩

theorem ArbiterFor.release (hs : ArbiterFor w3 s) (hport : s.ptu.port = .passThrough) : ArbiterFor w3 { s with ptu.port := .free } :=
  ⟨hs.arbiter.release hport rfl rfl rfl, hs.request, hs.loading⟩

theorem ArbiterFor.grantPass (hs : ArbiterFor w3 s) (hport : s.ptu.port = .free) (hwait : ∀ q ∈ s.ptu.queue, q.wait < 8)
    (x : InHand) (work : SramWork) : ArbiterFor w3 (s.grantPass x work) :=
  ⟨hs.arbiter.grantPass hport hwait x work, hs.request, hs.loading⟩

theorem ArbiterFor.grantInternal (hs : ArbiterFor w3 s) (hport : s.ptu.port = .free) {q : Queued} {rest : List Queued}
    (hq : s.ptu.queue = q :: rest) : ArbiterFor w3 (s.grantInternal q rest) :=
  ⟨hs.arbiter.grantInternal hport hq, hs.request, hs.loading⟩

theorem ArbiterFor.finishOvertaken (hs : ArbiterFor w3 s) {a : InternalAccess} (hport : s.ptu.port = .internal a true) :
    ArbiterFor w3 (s.finishAccess a).joinBehind :=
  ⟨hs.arbiter.finishOvertaken hport, hs.request, hs.loading⟩

/-- The end of an access of path `p`. -/
theorem ArbiterWith.finishPath (h : ArbiterWith s w0 w1 w2 w3) {a : InternalAccess} {p : Nat} (hpath : a.kind.path = p)
    (hport : s.ptu.port = .internal a false) :
    ArbiterWith (s.finishAccess a) (0 ≠ p ∧ w0) (1 ≠ p ∧ w1) (2 ≠ p ∧ w2) (3 ≠ p ∧ w3) := by
  subst hpath
  exact h.finish hport

/-- A closing write that waits for the slot to be FREE is taken up (R29). -/
theorem ArbiterFor.takeUpRequest (hs : ArbiterFor w3 s) (hfree : s.cau.slot = .free) : ArbiterFor w3 s.takeUpRequest := by
  rcases s.takeUpRequest_cases with h | ⟨x, w, -, -, -, h⟩ <;> rw [h]
  · exact hs
  · have habsorbed := (s.absorb_frame x w).arbiterFor hs
    have htaken := ArbiterFor.takeRequest (habsorbed.resultWaits_of_free hfree) habsorbed.loading
    exact (State.toPhase_frame x _ _).arbiterFor htaken

/-- The oldest entry's wait count bounds the queue's. -/
theorem ArbiterWith.waits_lt (h : ArbiterWith s w0 w1 w2 w3) {q : Queued} {rest : List Queued} (hq : s.ptu.queue = q :: rest)
    (hwait : ¬8 ≤ q.wait) : ∀ p ∈ s.ptu.queue, p.wait < 8 := by
  intro p hp
  have hsorted := h.sorted
  rw [hq, List.map_cons, List.pairwise_cons] at hsorted
  rcases List.mem_cons.1 (hq ▸ hp) with rfl | hp
  · exact not_le.1 hwait
  · exact lt_of_le_of_lt (hsorted.1 _ (List.mem_map_of_mem hp)) (not_le.1 hwait)

end

section
variable {s : State} (hs : ArbiterProper s)
include hs

theorem execSramPortGrant_arbiterProper : Answers ArbiterProper (execSramPortGrant s) := by
  rw [arbiterProper_iff] at hs
  have hproper : ∀ {t : State}, t.diu.peerQueue = s.diu.peerQueue → ArbiterFor (s.diu.peerQueue ≠ []) t → ArbiterProper t :=
    fun heq ht => (arbiterProper_iff _).2 (by rwa [heq])
  unfold execSramPortGrant
  split
  · next hport =>
    split
    · next hq => exact .next (hproper rfl (hs.grantPass hport (by simp [hq]) _ _))
    · next hq => exact .next (hproper rfl (hs.grantInternal hport hq))
    · next hq =>
      exact .ite (fun _ => .next (hproper rfl (hs.grantInternal hport hq)))
        fun hwait => .next (hproper rfl (hs.grantPass hport (hs.arbiter.waits_lt hq hwait) _ _))
    · exact .next (hproper rfl hs)
  · exact .next (hproper rfl hs)
  · exact .next (hproper rfl hs)

theorem execPassThroughSramDone_arbiterProper : Answers ArbiterProper (execPassThroughSramDone s) := by
  unfold execPassThroughSramDone
  split
  · next h hport hh =>
    have hproper : ∀ {t : State}, Frame [.sram, .hand] { s with ptu.port := .free } t → ArbiterProper t := fun ht =>
      arbiterProper_keptByParts.frame ht ((arbiterProper_iff _).2 (((arbiterProper_iff s).1 hs).release hport))
    dsimp only
    split
    · exact .next (hproper (State.completePlain_frame _ _))
    · exact .next (hproper (State.completePlain_frame _ _))
    · exact .next (hproper rfl)
    · exact .next (hproper rfl)
    · exact .next (hproper rfl)
    all_goals exact .next hs
  · exact .next hs

/-! ## The ends of the SL7's own accesses -/

theorem ArbiterProper.finishOvertaken {a : InternalAccess} (hport : s.ptu.port = .internal a true) :
    ArbiterProper (s.finishAccess a).joinBehind :=
  (arbiterProper_iff _).2 (((arbiterProper_iff s).1 hs).finishOvertaken hport)

/-- The result word is in SRAM: the slot is FREE, and a held closing write is taken up (R28, R29). -/
theorem execResultWriteDone_arbiterProper : Answers ArbiterProper (execResultWriteDone s) := by
  unfold execResultWriteDone
  split
  · next a g ha =>
    obtain ⟨hport, hkind⟩ := (s.portAccess_eq_some_iff _ _ _).1 ha
    refine .ite (fun hg => .next (ArbiterProper.finishOvertaken hs (by rw [hport, hg]))) fun hg => .next ?_
    rw [Bool.not_eq_true] at hg
    subst hg
    have hpath : a.kind.path = 1 := by rw [hkind]; rfl
    obtain ⟨harbiter, hpending, hloading⟩ := (arbiterProper_iff s).1 hs
    have hwaits : s.resultWaits := harbiter.result.1 (State.path_mem_outstanding hpath hport)
    have hdone := harbiter.finishPath hpath hport
    have hfree : ArbiterFor (s.diu.peerQueue ≠ []) { s.finishAccess a with cau.slot := .free } := by
      refine ⟨hdone.carried rfl rfl rfl ?_ ?_ ?_ ?_, fun h => absurd hwaits.2 h, hloading⟩
      · exact and_iff_right (by decide)
      · exact iff_of_false (fun h => h.1 rfl) fun h => nomatch h.1
      · exact and_iff_right (by decide)
      · exact and_iff_right (by decide)
    rw [arbiterProper_iff, (State.takeUpRequest_frame _).peerQueue (by decide)]
    exact hfree.takeUpRequest rfl
  · exact .next hs

/-- A record's body is in SRAM: the producer index write is the access outstanding of its path (R31). -/
theorem execReportBodyWriteDone_arbiterProper : Answers ArbiterProper (execReportBodyWriteDone s) := by
  unfold execReportBodyWriteDone
  split
  · next a g ha =>
    obtain ⟨hport, hkind⟩ := (s.portAccess_eq_some_iff _ _ _).1 ha
    refine .ite (fun hg => .next (ArbiterProper.finishOvertaken hs (by rw [hport, hg]))) fun hg => .next ?_
    rw [Bool.not_eq_true] at hg
    subst hg
    have hpath : a.kind.path = 0 := by rw [hkind]; rfl
    obtain ⟨harbiter, hpending, hloading⟩ := (arbiterProper_iff s).1 hs
    have hwaits : s.reportWaits := harbiter.report.1 (State.path_mem_outstanding hpath hport)
    have hbegun : s.suc.startUp ≠ .loading := fun hl => by simp [State.reportWaits, hloading hl] at hwaits
    have hdone := harbiter.finishPath hpath hport
    dsimp only
    generalize hn : (((s.finishAccess a).cau.writeIdx + 1) % (s.finishAccess a).ringSize) = n
    have hindex : ArbiterWith
        { s.finishAccess a with cau.pending := (s.finishAccess a).cau.pending.tail, cau.writeIdx := n, cau.path := .index }
        (0 ≠ 0 ∧ s.reportWaits) (1 ≠ 0 ∧ s.resultWaits) (2 ≠ 0 ∧ s.cau.statusOut = true) (3 ≠ 0 ∧ s.diu.peerQueue ≠ []) :=
      hdone.congr rfl rfl rfl
    refine (arbiterProper_iff _).2
      ⟨(hindex.issuePath (p := 0) rfl fun hin => (hindex.report.1 hin).1 rfl).iff ?_ ?_ ?_ ?_, hpending, fun h => absurd h hbegun⟩
    · exact iff_of_true (.inl rfl) (.inr (.inr rfl))
    · exact (or_iff_right (by decide)).trans (and_iff_right (by decide))
    · exact (or_iff_right (by decide)).trans (and_iff_right (by decide))
    · exact (or_iff_right (by decide)).trans (and_iff_right (by decide))
  · exact .next hs

/-- The producer index is in SRAM: the path is idle, and the next record's body follows where there is room (R31). -/
theorem execProducerIndexWriteDone_arbiterProper : Answers ArbiterProper (execProducerIndexWriteDone s) := by
  unfold execProducerIndexWriteDone
  split
  · next a g ha =>
    obtain ⟨hport, hkind⟩ := (s.portAccess_eq_some_iff _ _ _).1 ha
    refine .ite (fun hg => .next (ArbiterProper.finishOvertaken hs (by rw [hport, hg]))) fun hg => .next ?_
    rw [Bool.not_eq_true] at hg
    subst hg
    have hpath : a.kind.path = 0 := by rw [hkind]; rfl
    obtain ⟨harbiter, hpending, hloading⟩ := (arbiterProper_iff s).1 hs
    have hwaits : s.reportWaits := harbiter.report.1 (State.path_mem_outstanding hpath hport)
    have hbegun : s.suc.startUp ≠ .loading := fun hl => by simp [State.reportWaits, hloading hl] at hwaits
    have hdone := harbiter.finishPath hpath hport
    have hidle : ArbiterFor (s.diu.peerQueue ≠ [])
        ({ s.finishAccess a with cau.published := (s.finishAccess a).cau.writeIdx, cau.path := .idle } : State).driveAttn := by
      refine ⟨hdone.carried rfl rfl rfl ?_ ?_ ?_ ?_, hpending, fun h => absurd h hbegun⟩
      · exact iff_of_false (fun h => h.1 rfl) (by simp [State.reportWaits, State.driveAttn])
      · exact and_iff_right (by decide)
      · exact and_iff_right (by decide)
      · exact and_iff_right (by decide)
    rw [arbiterProper_iff, (State.pumpReports_frame _).peerQueue (by decide)]
    exact hidle.pumpReports
  · exact .next hs

/-- A write of the status block is in SRAM, and the next of the refresh is issued (R35, R36). -/
theorem execStatusWriteDone_arbiterProper : Answers ArbiterProper (execStatusWriteDone s) := by
  unfold execStatusWriteDone
  split
  · next a g ha =>
    obtain ⟨hport, hkind⟩ := (s.portAccess_eq_some_iff _ _ _).1 ha
    refine .ite (fun hg => .next (ArbiterProper.finishOvertaken hs (by rw [hport, hg]))) fun hg => .next ?_
    rw [Bool.not_eq_true] at hg
    subst hg
    have hpath : a.kind.path = 2 := by rw [hkind]; rfl
    obtain ⟨harbiter, hpending, hloading⟩ := (arbiterProper_iff s).1 hs
    have hdone := harbiter.finishPath hpath hport
    have hout : ArbiterFor (s.diu.peerQueue ≠ []) { s.finishAccess a with cau.statusOut := false } := by
      refine ⟨hdone.carried rfl rfl rfl ?_ ?_ ?_ ?_, hpending, hloading⟩
      · exact and_iff_right (by decide)
      · exact and_iff_right (by decide)
      · exact iff_of_false (fun h => h.1 rfl) (by simp)
      · exact and_iff_right (by decide)
    rw [arbiterProper_iff, (State.pumpStatus_frame _).peerQueue (by decide)]
    exact hout.pumpStatus
  · exact .next hs

theorem execConsumerIndexWrite_arbiterProper : Answers ArbiterProper (execConsumerIndexWrite s) := by
  unfold execConsumerIndexWrite
  split
  · next x w _ =>
    refine .next ?_
    have habsorbed := arbiterProper_keptByParts.frame (s.absorb_frame x w) hs
    unfold State.takeConsumer
    dsimp only
    split
    · have hconsumer := fun c => arbiterProper_keptByParts.frame
        (F := [.indices, .attn]) (t := ({ s.absorb x w with cau.consumer := c } : State).driveAttn) rfl habsorbed
      rw [arbiterProper_iff, (State.pumpReports_frame _).peerQueue (by decide)]
      exact ((arbiterProper_iff _).1 (hconsumer _)).pumpReports
    · exact habsorbed
  · exact .next hs

end

end Sys2Proof.Machine

/-! PROOFS. A peer fetch's end, the end of LOADING and the resets keep the arbiter proper, and so every step does. -/
namespace Sys2Proof.Machine

section
variable {s t : State} {w3 : Prop}

/-! ## The end of a fetch's read -/

/-- A run that queues no peer buffer keeps the arbiter proper, whatever the fetch waits for. -/
theorem Runs.arbiterFor {F : List Piece} (h : Runs F s t) (hF : .peers ∉ F) (hs : ArbiterFor w3 s) : ArbiterFor w3 t := by
  induction h with
  | update h => exact h.arbiterFor hs fun p hp => not_mem_unguarded (by fin_cases hp <;> decide) F
  | raise b s _ => exact hs.raise b
  | refresh s _ => exact hs.refreshStatus
  | queuePeer b s h => exact absurd (h List.mem_cons_self) hF
  | ready s _ => exact ⟨hs.arbiter.congr rfl rfl rfl, hs.request, fun h => nomatch h⟩
  | trans _ _ ih ih' => exact ih' (ih hs)

theorem ArbiterFor.handEntries_proper (node used : Nat) (hs : ArbiterFor False s) : ArbiterProper (s.handEntries node used) := by
  have hhanded := fun (f : Nat → PeerEntry) n => (s.peerEstimates_runs f node n).arbiterFor (by decide) hs
  unfold State.handEntries
  dsimp only
  split
  · exact ArbiterFor.endFetch_proper (hhanded _ _)
  · exact ArbiterFor.issueFetch_proper (ArbiterFor.peers (hhanded _ _) _)

theorem ArbiterFor.takeHeader_proper (b : PeerBuffer) (hs : ArbiterFor False s) : ArbiterProper (s.takeHeader b) := by
  unfold State.takeHeader
  dsimp only
  split
  · exact (hs.raise _).endFetch_proper
  · split
    · exact (hs.raise _).endFetch_proper
    · split
      · exact (hs.raise _).endFetch_proper
      · split
        · exact hs.endFetch_proper
        · exact (hs.peers _).issueFetch_proper

/-- A read of the buffer at the head is over: none is outstanding. -/
theorem ArbiterFor.finishFetch {a : InternalAccess} (hs : ArbiterFor w3 s) (hport : s.ptu.port = .internal a false)
    (hpath : a.kind.path = 3) : ArbiterFor False (s.finishAccess a) := by
  obtain ⟨harbiter, hpending, hloading⟩ := hs
  refine ⟨(harbiter.finishPath hpath hport).iff ?_ ?_ ?_ ?_, hpending, hloading⟩
  · exact and_iff_right (by decide)
  · exact and_iff_right (by decide)
  · exact and_iff_right (by decide)
  · exact iff_of_false (fun h => h.1 rfl) id

theorem execPeerFetchReadDone_arbiterProper (hs : ArbiterProper s) : Answers ArbiterProper (execPeerFetchReadDone s) := by
  unfold execPeerFetchReadDone
  split
  · next a g ha =>
    obtain ⟨hport, hkind⟩ := (s.portAccess_eq_some_iff _ _ _).1 ha
    have hpath : a.kind.path = 3 := by rw [hkind]; rfl
    dsimp only
    split
    · exact .next (hs.finishOvertaken hport)
    · next hq =>
      have hdone := ((arbiterProper_iff s).1 hs).finishFetch hport hpath
      exact .next ((arbiterProper_iff _).2 (hdone.of_iff (by simp [State.finishAccess, State.storeSram, hq])))
    · have hdone := ((arbiterProper_iff s).1 hs).finishFetch hport hpath
      split
      · exact .next ((hdone.peers _).handEntries_proper _ _)
      · exact .ite (fun _ => .next (hdone.peers _).issueFetch_proper) fun _ => .next ((hdone.peers _).takeHeader_proper _)
  · exact .next hs

/-! ## The end of LOADING -/

theorem ArbiterProper.install (c : Install) (hs : ArbiterProper s) (hl : s.suc.startUp = .loading) : ArbiterProper (s.install c) := by
  rw [arbiterProper_iff] at hs ⊢
  have hwaits : ¬s.reportWaits := by simp [State.reportWaits, hs.loading hl]
  rw [State.install, (State.beginRing_frame _).peerQueue (by decide)]
  exact ArbiterFor.beginRing (hs.arbiter.congr rfl rfl rfl) hwaits hs.request (fun h => nomatch h)

theorem ArbiterProper.installDefaults (r : DefaultedReason) (hs : ArbiterProper s) (hl : s.suc.startUp = .loading) :
    ArbiterProper (s.installDefaults r) :=
  ArbiterProper.raise _ (arbiterProper_keptByParts.frame (F := [.startLog, .flashFault]) rfl (hs.install builtIn hl))

theorem ArbiterProper.noResponse (hs : ArbiterProper s) (hl : s.suc.startUp = .loading) : ArbiterProper s.noResponse :=
  ArbiterProper.installDefaults (s := { s with suc.loadUs := max s.suc.loadUs noResponseUs }) .noFlash hs hl

theorem ArbiterProper.judgeConfig (hs : ArbiterProper s) (hl : s.suc.startUp = .loading) : ArbiterProper s.judgeConfig := by
  unfold State.judgeConfig
  split
  · exact hs
  · split
    · exact hs
    · split
      exacts [hs.installDefaults _ hl, hs]
  · split
    · exact hs
    · split
      exacts [hs.installDefaults _ hl, hs.install _ hl]

/-! ## The resets -/

theorem ArbiterProper.afterRow_frame {F : List Piece} {row : State → Host.Outcome State Fault Refusal} (hs : ArbiterProper s)
    (h : Answers (Frame F s) (row s)) (hF : F ⊆ unguarded F := by decide) : ArbiterProper (s.afterRow row) :=
  State.afterRow_of_answers (h.imp fun _ ht => arbiterProper_keptByParts.frame ht hs hF) hs

theorem ArbiterProper.afterRow_runs {F : List Piece} {row : State → Host.Outcome State Fault Refusal} (hs : ArbiterProper s)
    (h : Answers (Runs F s) (row s)) : ArbiterProper (s.afterRow row) :=
  State.afterRow_of_answers (h.imp fun _ ht => arbiterProper_keptByParts.runs ht hs) hs

theorem ArbiterProper.takeControl (u : ControlUse) (hs : ArbiterProper s) : ArbiterProper (s.takeControl u) := by
  cases u with
  | plain => exact hs.afterRow_frame (execControlWrite_frame s)
  | consumerIndex => exact State.afterRow_of_answers (execConsumerIndexWrite_arbiterProper hs) hs
  | classMap => exact hs.afterRow_frame (execClassMapWrite_frame s)
  | policy => exact hs.afterRow_frame (execNodePolicyRecord_frame s)
  | profile => exact hs.afterRow_runs (execProfileRecord_runs s)
  | pin => exact hs.afterRow_runs (execPinRecord_runs s)
  | request => exact arbiterProper_keptByParts.takeClosing s hs

theorem ArbiterProper.takeRouted (h : InHand) (hs : ArbiterProper s) : ArbiterProper (s.takeRouted h) := by
  have hflash := hs.afterRow_runs (execFlashWindowWrite_runs s)
  unfold State.takeRouted
  split
  · split
    · exact hs.afterRow_frame (execRxRingWrite_frame s)
    · exact hs.takeControl _
    · exact hs.afterRow_runs (execStagingWrite_runs s)
    · exact hs.afterRow_frame (execStagingRead_frame s)
    · exact hflash
    · exact hflash
    · exact hflash
    all_goals exact hs
  · exact hs

/-- The transaction in hand at a restart may give up the port (R20; log 43). -/
theorem ArbiterProper.restartTransaction (hs : ArbiterProper s) : ArbiterProper s.restartTransaction := by
  rcases s.restartTransaction_cases with h | ⟨_, _, _, _, _, _, h⟩ | ⟨x, p, -, h, hp⟩ <;> rw [h]
  · exact hs
  · exact hs.takeRouted _
  · have hended : ArbiterProper (s.endTxn x .err) := arbiterProper_keptByParts.frame (F := [.hand]) rfl hs
    rcases hp with ⟨hport, rfl⟩ | rfl
    · exact (arbiterProper_iff _).2 (((arbiterProper_iff _).1 hended).release hport)
    · exact hended

/-- A restart takes the queue away, and what it finds on the port is overtaken (R20): nothing is outstanding. -/
theorem ArbiterWith.emptied (hqueue : t.ptu.queue = []) (hbehind : t.ptu.behind = none)
    (hport : ∀ a, t.ptu.port ≠ .internal a false) : ArbiterWith t False False False False := by
  have houtstanding : t.outstanding = [] := by
    rw [State.outstanding_eq, hqueue, hbehind]
    cases hp : t.ptu.port with
    | free => rfl
    | passThrough => rfl
    | internal a g =>
      cases g with
      | true => rfl
      | false => exact absurd hp (hport a)
  have hissued : t.issued.Nodup := by
    rw [State.issued_eq, hqueue]
    cases t.ptu.port with
    | free => exact List.nodup_nil
    | passThrough => exact List.nodup_nil
    | internal a g => exact List.nodup_singleton _
  have hnone : ∀ p, p ∈ t.outstanding ↔ False := fun p => by simp [houtstanding]
  exact ⟨by simp [hqueue], by simp [hqueue], hissued, fun a ha => (nomatch hbehind.symm.trans ha), by simp [houtstanding],
    hnone 0, hnone 1, hnone 2, hnone 3⟩

/-- What a restart makes of the PTU and the DIU (R20, R62). -/
def State.restartArbiter (s : State) : State :=
  { s with
    ptu.queue := []
    ptu.behind := none
    ptu.quiet := false
    ptu.further := 0
    ptu.port := match s.ptu.port with
      | .internal a _ => .internal a true
      | .free => .free
      | .passThrough => .passThrough
    diu := Diu.powerOn }

theorem State.restartArbiter_port (s : State) (a : InternalAccess) : s.restartArbiter.ptu.port ≠ .internal a false := by
  cases hp : s.ptu.port <;> simp [State.restartArbiter, hp]

theorem State.restartCau_arbiterFor (hloading : s.suc.startUp = .loading → s.cau.path = .notBegun) :
    ArbiterFor False s.restartArbiter.restartCau := by
  have hempty : ArbiterWith s.restartArbiter False False False False := .emptied rfl rfl s.restartArbiter_port
  unfold State.restartCau
  dsimp only
  split
  · next hpath =>
    have hpath' : s.cau.path = .notBegun := hpath
    refine ⟨hempty.carried rfl rfl rfl ?_ ?_ ?_ .rfl, fun h => absurd rfl h, fun _ => hpath⟩
    · simp [State.reportWaits, State.restartArbiter, hpath']
    · simp [State.resultWaits]
    · simp
  · next hpath =>
    refine ArbiterFor.beginRing (v0 := False) (hempty.carried rfl rfl rfl .rfl ?_ ?_ .rfl) id (fun h => absurd rfl h)
      fun hl => hpath (hloading hl)
    · simp [State.resultWaits]
    · simp

theorem ArbiterProper.restartRest (hs : ArbiterProper s) : ArbiterProper s.restartRest := by
  obtain ⟨-, -, hloading⟩ := (arbiterProper_iff s).1 hs
  obtain ⟨harbiter, hpending, hl⟩ := s.restartCau_arbiterFor hloading
  have hpeers : s.restartRest.diu.peerQueue = [] :=
    ((State.restartTable_frame _).mono.trans ((State.restartImu_frame _).andThen (State.restartSuc_frame _))
      : Frame [.stations, .games, .rmu, .session, .flashPort, .startUp, .startLog, .ready, .restartReq] s.restartArbiter.restartCau
        s.restartRest).peerQueue (by decide) |>.trans ((State.restartCau_frame _).peerQueue (by decide))
  refine (arbiterProper_iff _).2 ⟨harbiter.carried rfl rfl rfl .rfl .rfl .rfl (iff_of_false id (by simp [hpeers])),
    hpending, fun h => hl ?_⟩
  have hstart : (if s.restartArbiter.restartCau.suc.startUp = .loading then .loading else .selecting : StartUp) = .loading := h
  split at hstart
  · assumption
  · exact nomatch hstart

end

/-! ## Every step -/

theorem exec_arbiterProper_of_guarded (c : Instr) (s : State) (hc : guardedRow c = true) (hs : ArbiterProper s) :
    Answers ArbiterProper (exec c s) := by
  cases c with
  | powerOn =>
    exact .next ((arbiterProper_iff _).2 (Frame.arbiterFor (F := [.sram, .flash]) rfl
      ((arbiterProper_iff _).1 State.reset_arbiterProper)))
  | nodeRestart => exact Answers.next (t := s.restartTransaction.restartRest) hs.restartTransaction.restartRest
  | flashNoResponse => exact .ite (fun h => .next (hs.noResponse h.1)) fun _ => .next hs
  | loadingReadStatus b =>
    refine .ite (fun h => .ite (fun _ => .next (hs.noResponse h.1)) fun _ => .next ?_) fun _ => .next hs
    exact arbiterProper_keptByParts.frame (F := [.startLog]) rfl hs
  | configBlockReadEnd f =>
    have hfree : ArbiterProper { s with imu.port := .free } := arbiterProper_keptByParts.frame (F := [.flashPort]) rfl hs
    change Answers _ (execConfigBlockReadEnd f s)
    unfold execConfigBlockReadEnd
    split
    · refine .ite (fun h => .next (ArbiterProper.judgeConfig ?_ h)) fun _ => .next hfree
      exact arbiterProper_keptByParts.frame (F := [.startLog]) rfl hfree
    all_goals exact .next hs
  | sramPortGrant => exact execSramPortGrant_arbiterProper hs
  | passThroughSramDone => exact execPassThroughSramDone_arbiterProper hs
  | peerFetchReadDone => exact execPeerFetchReadDone_arbiterProper hs
  | consumerIndexWrite => exact execConsumerIndexWrite_arbiterProper hs
  | resultWriteDone => exact execResultWriteDone_arbiterProper hs
  | reportBodyWriteDone => exact execReportBodyWriteDone_arbiterProper hs
  | producerIndexWriteDone => exact execProducerIndexWriteDone_arbiterProper hs
  | statusWriteDone => exact execStatusWriteDone_arbiterProper hs
  | _ => exact absurd hc (by simp [guardedRow])

/-- Settles O10: the ordinary commands by what their parts keep, the SRAM port's rows and the resets one by one. -/
theorem arbiterStaysProper : Obligations.ArbiterStaysProper := arbiterProper_keptByParts.step exec_arbiterProper_of_guarded

end Sys2Proof.Machine

/-! PROOFS. What programs and erases leave of the flash (R157, R172, R174), and power-on. -/
namespace Sys2Proof.Machine

/-! ## Left part-way -/

/-- A byte of which some bits are cleared, none that the data leaves. -/
theorem Byte.cleared_and (x d m : Byte) : x &&& (d ||| m) &&& x = x &&& (d ||| m) ∧ x &&& d &&& (x &&& (d ||| m)) = x &&& d := by
  constructor <;> ext i hi <;> simp <;> cases x[i] <;> cases d[i] <;> simp

theorem LeftPartway.congr {w : FlashWork} {s t u : State} (h : LeftPartway w s t) (hflash : u.flash = t.flash) : LeftPartway w s u := by
  have hbyte : ∀ a, u.flashByte a = t.flashByte a := fun a => by rw [State.flashByte, hflash, State.flashByte]
  simpa only [LeftPartway, hbyte] using h

/-- Nothing of the page or sector has changed. -/
theorem leftPartway_of_flash_eq {w : FlashWork} {s t : State} (h : t.flash = s.flash) : LeftPartway w s t := by
  have hbyte : ∀ a, t.flashByte a = s.flashByte a := fun a => by rw [State.flashByte, h, State.flashByte]
  refine ⟨fun a _ => hbyte a, fun p data i _ _ => ?_⟩
  rw [hbyte, BitVec.and_self]
  refine ⟨rfl, ?_⟩
  rw [BitVec.and_comm, ← BitVec.and_assoc, BitVec.and_self]

/-- An erase may leave anything in its sector, and nothing outside it. -/
theorem leftPartway_erase {p : Nat} {s t : State} (h : ∀ a, a < p ∨ p + 65536 ≤ a → t.flashByte a = s.flashByte a) :
    LeftPartway (.erase p) s t := by
  refine ⟨fun a ha => h a ?_, fun _ _ _ hw _ => nomatch hw⟩
  have hcovers : ¬(p ≤ a ∧ a < p + 65536) := ha
  omega

theorem State.workPartway_program_flashByte (p : Nat) (data : List Byte) (s : State) (a : Nat) :
    (s.workPartway (.program p data)).flashByte a = (s.overlayFlash p 256
      (fun x => s.flashByte x &&& (data.getD (x - p) 0xFF ||| Config.partwayByte s.freeIdx x))).flashByte a := rfl

theorem State.leftPartway_workPartway (w : FlashWork) (s : State) : LeftPartway w s (s.workPartway w) := by
  cases w with
  | erase p => exact leftPartway_erase fun a ha => State.flashByte_overlay_outside _ _ _ _ _ ha
  | program p data =>
    refine ⟨fun a ha => ?_, fun q bytes i hw hi => ?_⟩
    · have hcovers : ¬(p ≤ a ∧ a < p + 256) := ha
      have hout : a < p ∨ p + 256 ≤ a := by omega
      rw [State.workPartway_program_flashByte, State.flashByte_overlay_outside _ _ _ _ _ hout]
    · cases hw
      rw [State.workPartway_program_flashByte, State.flashByte_overlay_inside _ _ _ _ _ (by omega) (by omega), Nat.add_sub_cancel_left]
      exact Byte.cleared_and _ _ _

theorem State.leftPartway_workVoid (w : FlashWork) (s : State) : LeftPartway w s (s.workVoid w) := by
  cases w with
  | program p data => exact leftPartway_of_flash_eq rfl
  | erase p => exact leftPartway_erase fun a ha => State.flashByte_overlay_outside _ _ _ _ _ ha

theorem State.leftPartway_workLost (w : FlashWork) (o : OpOwner) (s : State) : LeftPartway w s (s.workLost w o) := by
  rcases State.workLost_cases w o s with ⟨h, -, -⟩ | ⟨-, -, h⟩ | ⟨-, -, h⟩ <;> rw [h]
  · exact s.leftPartway_workPartway w
  · exact leftPartway_of_flash_eq rfl
  · exact s.leftPartway_workVoid w

/-! ## The configuration block after a lost operation -/

theorem ConfigInvalid.of_blockValid {s t : State} (h : s.blockValid = false) (hflash : t.flash = s.flash) : ConfigInvalid t :=
  (State.blockValid_eq_false_iff t).1 ((State.blockValid_congr hflash).trans h)

theorem State.workLost_configInvalid_erase {o : OpOwner} (ho : o ≠ .startUp) (s : State) {t : State}
    (ht : t.flash = (s.workLost (.erase 0x040000) o).flash) : ConfigInvalid t :=
  .of_blockValid (State.workLost_config_erase o s ho) ht

theorem State.workLost_configInvalid_page {o : OpOwner} (ho : o ≠ .startUp) {s t : State} {p : Nat} {data : List Byte}
    (hp : p / 65536 = 4) (hs : ConfigInvalid s) (ht : t.flash = (s.workLost (.program p data) o).flash) : ConfigInvalid t :=
  .of_blockValid (State.workLost_config_page p data o s ho (by rw [inConfigSector, hp]; rfl) ((State.blockValid_eq_false_iff s).2 hs)) ht

/-! ## Power-on -/

theorem State.cutFlash_of_not_busy {s : State} (h : ∀ o, s.imu.port ≠ .busy o) : s.cutFlash = s := by
  unfold State.cutFlash
  split
  · next o ho => exact absurd ho (h o)
  · rfl
  · rfl

theorem State.cutFlash_of_busy {s : State} {o : FlashOp} (h : s.imu.port = .busy o) :
    s.cutFlash = if o.timedOut || o.owner == .pastSession then s.workLost o.work o.owner else s.workPartway o.work := by
  rw [State.cutFlash, h]

theorem State.cutFlash_leftPartway {s : State} {o : FlashOp} (h : s.imu.port = .busy o) : LeftPartway o.work s s.cutFlash := by
  rw [State.cutFlash_of_busy h]
  split
  · exact s.leftPartway_workLost _ _
  · exact s.leftPartway_workPartway _

/-- What a CONFIG session that is over leaves of its operation at power-on (R174; log 51). -/
theorem State.cutFlash_of_session_over {s : State} {o : FlashOp} (h : s.imu.port = .busy o)
    (hover : o.owner = .pastSession ∨ o.owner = .session ∧ o.timedOut = true) :
    o.owner ≠ .startUp ∧ s.cutFlash = s.workLost o.work o.owner := by
  rw [State.cutFlash_of_busy h]
  rcases hover with ho | ⟨ho, ht⟩
  · exact ⟨by simp [ho], if_pos (by simp [ho])⟩
  · exact ⟨by simp [ho], if_pos (by simp [ht])⟩

/-- Settles O59: the state is the reset state but for what it names, and the flash is the cut-off operation's. -/
theorem powerOnResetsEveryUnit : Obligations.PowerOnResetsEveryUnit := by
  intro s
  refine ⟨_, rfl, rfl, fun hport => ?_, fun o ho => ⟨(State.cutFlash_leftPartway ho).congr rfl, fun hover => ?_⟩⟩
  · exact ⟨(congrArg State.flash (State.cutFlash_of_not_busy hport) :), (congrArg State.freeIdx (State.cutFlash_of_not_busy hport) :)⟩
  · obtain ⟨howner, hcut⟩ := State.cutFlash_of_session_over ho hover
    refine ⟨fun hw => State.workLost_configInvalid_erase howner s ?_, fun p data hw hp hs =>
      State.workLost_configInvalid_page (p := p) (data := data) howner hp hs ?_⟩
    · rw [← hw, ← hcut]
    · rw [← hw, ← hcut]

end Sys2Proof.Machine

/-! PROOFS. The selector log after an operation of it that is lost (R185, R188), and the array at an operation's end. -/
namespace Sys2Proof.Machine

/-! ## Entries and the bytes they stand in -/

theorem State.flashByte_congr {s t : State} (h : t.flash = s.flash) (a : Nat) : t.flashByte a = s.flashByte a := by
  rw [State.flashByte, h, State.flashByte]

theorem State.entryAt_congr {s t : State} {k : Nat} (h : ∀ i, i < 16 → t.flashByte (logBase + 16 * k + i) = s.flashByte (logBase + 16 * k + i)) :
    t.entryAt k = s.entryAt k := by
  unfold State.entryAt State.flashRead
  refine congrArg entryOfBytes (List.map_congr_left fun i hi => ?_)
  rw [h i (List.mem_range.1 hi)]

theorem State.entryAt_of_flash_eq {s t : State} (h : t.flash = s.flash) (k : Nat) : t.entryAt k = s.entryAt k :=
  State.entryAt_congr fun _ _ => State.flashByte_congr h _

theorem newestKept_of_entries {s t : State} (h : ∀ k, k < 4096 → t.entryAt k = s.entryAt k) : NewestKept s t :=
  newestKept_of_logNewest (newestBelow_congr _ _ _ h)

theorem NewestKept.congr {s t u : State} (h : NewestKept s t) (hflash : u.flash = t.flash) : NewestKept s u := by
  have hentry : ∀ k, logEntryAt u k = logEntryAt t k := State.entryAt_of_flash_eq hflash
  simpa only [NewestKept, hentry] using h

theorem entryOfBytes_erased : entryOfBytes (List.replicate 16 0xFF) = none := by decide

/-- A place at 0xFF holds no entry (R184). -/
theorem State.entryAt_of_erased {s : State} {k : Nat} (h : ∀ i, i < 16 → s.flashByte (logBase + 16 * k + i) = 0xFF) :
    s.entryAt k = none := by
  have hread : s.flashRead (logBase + 16 * k) 16 [] = List.replicate 16 0xFF := by
    refine List.eq_replicate_iff.2 ⟨by rw [State.flashRead, List.length_map, List.length_range], fun b hb => ?_⟩
    obtain ⟨i, hi, rfl⟩ := List.mem_map.1 hb
    rw [h i (List.mem_range.1 hi), List.getD_nil]
    rfl
  rw [State.entryAt, hread, entryOfBytes_erased]

/-! ## A lost program of the log -/

theorem appendPage_getD_around {p i : Nat} (e : Entry) (hi : i < 256) (h : i / 16 ≠ p % 16) : (appendPage p e).getD i 0xFF = 0xFF := by
  have hlength : i < (appendPage p e).length := by rwa [appendPage_length]
  have hvalue := appendPage_getD p e hi
  rw [if_neg h, List.getD_eq_getElem _ _ hlength] at hvalue
  rw [List.getD_eq_getElem _ _ hlength, hvalue]

theorem Byte.and_all_or (x m : Byte) : x &&& (0xFF ||| m) = x := by
  rw [show (0xFF : Byte) = BitVec.allOnes 8 from rfl, BitVec.allOnes_or, BitVec.and_allOnes]

/-- The program of an append leaves every other entry of its page, and every other page, as it was (R194). -/
theorem State.workPartway_entryAt (s : State) (e : Entry) {k : Nat} (hk : k ≠ s.position) :
    (s.workPartway (.program (logBase + s.position / 16 * 256) (appendPage s.position e))).entryAt k = s.entryAt k := by
  refine State.entryAt_congr fun i hi => ?_
  rw [State.workPartway_program_flashByte]
  generalize hp : logBase + s.position / 16 * 256 = p
  generalize ha : logBase + 16 * k + i = a
  by_cases hin : p ≤ a ∧ a < p + 256
  · rw [State.flashByte_overlay_inside _ _ _ _ _ hin.1 hin.2, appendPage_getD_around e (by omega) (by omega), Byte.and_all_or]
  · rw [State.flashByte_overlay_outside _ _ _ _ _ (by omega)]

/-- A lost program of the start-up controller leaves no valid entry at its place where none was (R185). -/
theorem State.workLost_place {s : State} (p : Nat) (data : List Byte) (hs : s.entryAt s.position = none) :
    (s.workLost (.program p data) .startUp).entryAt s.position = none := by
  rcases State.workLost_cases (.program p data) .startUp s with ⟨h, hbroken, -⟩ | ⟨-, -, h⟩ | ⟨h, -⟩
  · rw [h]
    have hplace : (s.workPartway (.program p data)).placeValid = false := hbroken rfl
    exact Option.isNone_iff_eq_none.1 (Option.isSome_eq_false_iff.1 hplace)
  · rw [h]
    exact hs
  · exact absurd rfl h

/-- A lost append leaves the log's other places as they were (R188). -/
theorem State.workLost_entryAt (s : State) (e : Entry) {k : Nat} (hk : k ≠ s.position) :
    (s.workLost (.program (logBase + s.position / 16 * 256) (appendPage s.position e)) .startUp).entryAt k = s.entryAt k := by
  rcases State.workLost_cases (.program (logBase + s.position / 16 * 256) (appendPage s.position e)) .startUp s
    with ⟨h, -, -⟩ | ⟨-, -, h⟩ | ⟨h, -⟩
  · rw [h, State.workPartway_entryAt s e hk]
  · rw [h]
    rfl
  · exact absurd rfl h

theorem State.workLost_newestKept_page {s : State} (e : Entry) (hs : s.entryAt s.position = none) :
    NewestKept s (s.workLost (.program (logBase + s.position / 16 * 256) (appendPage s.position e)) .startUp) := by
  refine newestKept_of_entries fun k _ => ?_
  by_cases hk : k = s.position
  · rw [hk, State.workLost_place _ _ hs, hs]
  · exact s.workLost_entryAt e hk

/-- A lost append of an erased log leaves no valid entry in it (R185). -/
theorem State.workLost_entryAt_of_erased {s : State} (e : Entry) (hs : ∀ i, i < 65536 → s.flashByte (logBase + i) = 0xFF) {k : Nat}
    (hk : k < 4096) :
    (s.workLost (.program (logBase + s.position / 16 * 256) (appendPage s.position e)) .startUp).entryAt k = none := by
  have hnone : s.entryAt k = none := State.entryAt_of_erased fun i hi => by
    rw [Nat.add_assoc]
    exact hs _ (by omega)
  by_cases hp : k = s.position
  · subst hp
    exact State.workLost_place _ _ hnone
  · rw [s.workLost_entryAt e hp, hnone]

theorem State.workLost_newestKept_erase (p : Nat) (s : State) : NewestKept s (s.workLost (.erase p) .startUp) :=
  newestKept_of_logNewest (s.workLost_erase_newest p)

/-! ## The array at an operation's end -/

theorem State.workDone_program_inside {s : State} (p : Nat) (data : List Byte) {i : Nat} (hi : i < 256) :
    (s.workDone (.program p data)).flashByte (p + i) = s.flashByte (p + i) &&& data.getD i 0xFF := by
  rw [State.workDone, State.flashByte_overlay_inside _ _ _ _ _ (by omega) (by omega), Nat.add_sub_cancel_left]

theorem State.workDone_erase_inside {s : State} (p : Nat) {i : Nat} (hi : i < 65536) :
    (s.workDone (.erase p)).flashByte (p + i) = 0xFF := by
  rw [State.workDone, State.flashByte_overlay_inside _ _ _ _ _ (by omega) (by omega)]

theorem State.workDone_outside {s : State} {w : FlashWork} {a : Nat} (h : ¬w.covers a) : (s.workDone w).flashByte a = s.flashByte a := by
  cases w with
  | program p data =>
    have hcovers : ¬(p ≤ a ∧ a < p + 256) := h
    exact State.flashByte_overlay_outside _ _ _ _ _ (by omega)
  | erase p =>
    have hcovers : ¬(p ≤ a ∧ a < p + 65536) := h
    exact State.flashByte_overlay_outside _ _ _ _ _ (by omega)

/-- The operation's busy time has passed its limit, or its owner has had the timeout (R159). -/
def FlashOp.late (o : FlashOp) : Prop := o.timedOut = true ∨ o.work.limitUs < o.busyUs

theorem FlashOp.overdue_eq_true_iff (o : FlashOp) : o.overdue = true ↔ o.timedOut = false ∧ o.work.limitUs < o.busyUs := by
  rw [FlashOp.overdue, Bool.and_eq_true, Bool.not_eq_true', decide_eq_true_iff]

theorem FlashOp.late_iff (o : FlashOp) : o.late ↔ o.timedOut = true ∨ o.overdue = true := by
  rw [FlashOp.late, o.overdue_eq_true_iff]
  cases o.timedOut <;> simp

theorem inConfigSector_iff (p : Nat) : inConfigSector p = true ↔ p / 65536 = 4 := decide_eq_true_iff

theorem State.workEnded_of_lost {o : FlashOp} {fail : Bool} (s : State)
    (h : fail = true ∨ o.late ∧ (o.owner = .startUp ∨ o.work.configPage = true)) :
    s.workEnded o fail = s.workLost o.work o.owner := by
  rw [o.late_iff] at h
  exact if_pos (by simpa [and_or_left, or_and_right] using h)

theorem State.workEnded_of_done {o : FlashOp} (s : State) (h : o.late → o.owner ≠ .startUp ∧ o.work.configPage = false) :
    s.workEnded o false = s.workDone o.work := by
  rw [o.late_iff] at h
  refine if_neg ?_
  simp only [Bool.false_or, Bool.and_eq_true, Bool.or_eq_true, beq_iff_eq]
  rintro ⟨hlate, hwhere⟩
  obtain ⟨howner, hpage⟩ := h hlate
  exact hwhere.elim howner fun hp => Bool.false_ne_true (hpage.symm.trans hp)

theorem State.workEnded_outside {s : State} {o : FlashOp} (fail : Bool) {a : Nat} (h : ¬o.work.covers a) :
    (s.workEnded o fail).flashByte a = s.flashByte a := by
  rcases s.workEnded_cases o fail with ⟨he, -⟩ | ⟨he, -⟩ <;> rw [he]
  · exact (s.leftPartway_workLost _ _).1 a h
  · exact State.workDone_outside h

end Sys2Proof.Machine

/-! PROOFS. Whom the end, the timeout and the giving up of an operation reach (R158, R159, R167, R172, R185, R188). -/
namespace Sys2Proof.Machine

section
variable {F : List Piece} {s t : State}

theorem Frame.flashPort (h : Frame F s t) (hp : .flashPort ∉ F) : t.imu.port = s.imu.port := by
  simpa only [State.without, Piece.pick_of_not_mem hp] using congrArg (fun u => u.imu.port) h

theorem Frame.session (h : Frame F s t) (hp : .session ∉ F) : t.imu.session = s.imu.session ∧ t.imu.lastFail = s.imu.lastFail := by
  simpa only [State.without, Piece.pick_of_not_mem hp, Prod.mk.injEq] using congrArg (fun u => (u.imu.session, u.imu.lastFail)) h

theorem Frame.freeIdx (h : Frame F s t) (hp : .free ∉ F) : t.freeIdx = s.freeIdx := by
  simpa only [State.without, Piece.pick_of_not_mem hp] using congrArg (fun u => u.freeIdx) h

end

/-! ## The free values that the end of SELECTING takes -/

theorem State.pumpReports_freeIdx (s : State) : s.pumpReports.freeIdx = s.freeIdx := by
  rcases s.pumpReports_cases with h | ⟨r, rest, -, -, -, h⟩ <;> rw [h]
  obtain ⟨-, h⟩ | ⟨-, h⟩ := State.issue_cases
    { kind := .reportBody, addr := s.reportBase + 32 * s.cau.writeIdx, data := bytesOfWords r.words, len := 0 }
    { s with cau.path := .body } <;> rw [h]

theorem State.raise_freeIdx (b : ReportBody) (s : State) : (s.raise b).freeIdx = s.freeIdx := by
  rw [State.raise, State.pumpReports_freeIdx]
  unfold State.joinQueue
  split <;> rfl

theorem State.takeUpHeld_freeIdx (s : State) : s.takeUpHeld.freeIdx = s.freeIdx := by
  rcases s.takeUpHeld_cases with h | ⟨x, -, -, h | h⟩ <;> rw [h]
  · rfl
  · rcases s.takeUp_cases x with ⟨-, -, h⟩ | ⟨-, -, h⟩ | ⟨_, -, -, h⟩ | ⟨w, -, -, h⟩ <;> rw [h]
    · rfl
    · rfl
    · rfl
    · rcases (s.endTxn x (deniedReply x.txn.dir)).protectEvent_cases w x.txn with ⟨-, _, h⟩ | ⟨-, h⟩ <;> rw [h]
      · rfl
      · exact State.raise_freeIdx _ _

theorem State.raiseAll_freeIdx (bs : List ReportBody) (s : State) : (s.raiseAll bs).freeIdx = s.freeIdx := by
  induction bs generalizing s with
  | nil => rfl
  | cons b bs ih => exact (ih _).trans (s.raise_freeIdx b)

/-- One unit alone reports: no free order is taken. -/
theorem State.raiseTogether_second (bs : List ReportBody) (s : State) : s.raiseTogether [[], bs] = s.raiseAll bs := by
  have hmerge : mergeUnits s.freeIdx [[], bs] = (bs, s.freeIdx) := by
    cases bs <;> rfl
  rw [State.raiseTogether, hmerge]

theorem State.riseReady_freeIdx (sl : Slot) (boot : BootState) (s : State) : (s.riseReady sl boot []).freeIdx = s.freeIdx := by
  rw [State.riseReady]
  dsimp only
  rw [State.takeUpHeld_freeIdx, (State.refreshStatus_frame _).freeIdx (by decide), State.raiseTogether_second, State.raiseAll_freeIdx]

/-! ## The outcome of an append (R182, R185, R188, R191) -/

/-- An append that fails: what each owner makes of it. -/
theorem State.failAppend_spec (x : Append) (why : Reason) (w : State) :
    let u : State := { w with suc.append := none, suc.stale := true, suc.flashFault := true }
    (x.job.owner = .commit → w.imu.session.state = .committing → w.failAppend x why = ({ u with
        imu.lastFail := why
        imu.session := { w.imu.session with state := .failed, current := [], queue := [] } } : State).raise
          (.imageState .failed why w.imu.session.pages w.imu.session.version))
    ∧ (x.job.owner = .nobody ∨ x.job.owner = .commit ∧ w.imu.session.state ≠ .committing → w.failAppend x why = u)
    ∧ (x.job.owner = .confirm → w.failAppend x why = { u with suc.trialRunning := true })
    ∧ ∀ sl a, x.job.owner = .trialStart ∧ sl = (if x.job.slot = .a then .b else .a) ∧ a = x.job.attempts
          ∨ x.job.owner = .fallbackStart a ∧ sl = x.job.slot →
        w.failAppend x why = State.riseReady sl .confirmed [.fallback sl a true] u := by
  intro u
  have hu : w.failAppend x why = u.toOwner x.job (some why) := rfl
  rw [hu]
  unfold State.toOwner
  refine ⟨fun ho hc => ?_, fun h => ?_, fun ho => ?_, fun sl a h => ?_⟩
  · rw [ho]
    exact if_pos hc
  · rcases h with ho | ⟨ho, hc⟩ <;> rw [ho]
    exact if_neg hc
  · rw [ho]
  · rcases h with ⟨ho, rfl, rfl⟩ | ⟨ho, rfl⟩ <;> rw [ho]
    · dsimp only
      cases x.job.slot <;> rfl
    · rfl

/-! ## The outcome of a session's operation (R167, R172) -/

/-- A session that fails on what an operation has left (R172). -/
theorem State.failSession_spec (why : Reason) (s : State) (p : FlashPort) (m : Memory) (i : Nat) :
    let t := State.failSession why { s with imu.port := p, flash := m, freeIdx := i }
    t.cau.pending = (s.raise (.imageState .failed why s.imu.session.pages s.imu.session.version)).cau.pending
      ∧ OnlyReports { s with
          imu.port := t.imu.port, flash := t.flash, imu.lastFail := why
          imu.session := { s.imu.session with state := .failed, current := [], queue := [] } } t := by
  intro t
  have honly : OnlyReports _ t := State.raise_onlyReports _ _
  have hframe : Frame _ _ t := (State.failSession_runs why { s with imu.port := p, flash := m, freeIdx := i }).frame
  refine ⟨State.raise_pending_congr _ rfl rfl rfl, ?_⟩
  rw [hframe.flashPort (by decide), hframe.flash (by decide)]
  exact honly

/-- A page buffer has become free with no write held for it, or none that is accepted (R166). -/
theorem State.releaseStaging_of_not {s : State} (h : (∀ x, s.ptu.inHand = some x → x.phase ≠ .stagingHeld) ∨ s.imu.session.state ≠ .receiving) :
    s.releaseStaging = s := by
  rcases s.releaseStaging_cases with he | ⟨x, w, hx, hp, -, hj, -⟩
  · exact he
  · rcases h with h | h
    · exact absurd hp (h x hx)
    · unfold Session.judgeWrite at hj
      split at hj
      · cases hj
      · next hr => exact absurd hr h
      all_goals cases hj

/-- A held write that fits is accepted as the STAGING_WRITE of a free buffer (R166). -/
theorem State.releaseStaging_of_fits {s : State} {x : InHand} {w : Window} (hx : s.ptu.inHand = some x) (hp : x.phase = .stagingHeld)
    (hw : x.window = some w) (hk : w.kind = .staging) (hd : x.txn.dir = .write) (hstate : s.imu.session.state = .receiving)
    (hfits : s.imu.session.fits w.base x.txn = true) (hfree : 0 < s.imu.session.freeBuffers) :
    s.releaseStaging = s.acceptStaging x
      ∧ exec .stagingWrite { s with ptu.inHand := some { x with phase := .routed } } = .next s.releaseStaging := by
  have hj : s.imu.session.judgeWrite w.base x.txn = .accept := by
    rw [Session.judgeWrite_receiving hstate, if_pos hfits, if_neg (by omega)]
  have hrelease : s.releaseStaging = s.acceptStaging x := by
    unfold State.releaseStaging
    rw [hx]
    dsimp only
    rw [hp, hw]
    exact if_pos hj
  refine ⟨hrelease, ?_⟩
  have hrouted := State.routedTo_of_routed (s := { s with ptu.inHand := some { x with phase := .routed } }) rfl hw rfl hd
  rw [hk] at hrouted
  rw [hrelease, (exec_stagingWrite hrouted hj).2.2.1 rfl]
  rfl

end Sys2Proof.Machine

/-! PROOFS. The ends, timeouts and giving up of programs and erases (section 9.2). -/
namespace Sys2Proof.Machine

/-! ## The rows -/

section
variable {s : State} {o : FlashOp} (hp : s.imu.port = .busy o)
include hp

theorem exec_flashStatusPoll_eq (busy suspended fail : Bool) : exec (.flashStatusPoll busy suspended fail) s
    = match o.suspension with
      | .suspended => .next s
      | .running | .suspending _ =>
        if busy = false ∧ suspended = false then
          if o.timedOut = true ∧ giveUpUs < o.lateUs then .next (s.giveUp o)
          else .next ((({ s with imu.port := .free } : State).workEnded o fail).operationEnded o fail)
        else if suspended then .next { s with imu.port := .busy o.paused } else .next s := by
  have hrow : exec (.flashStatusPoll busy suspended fail) s = execFlashStatusPoll busy suspended fail s := rfl
  rw [hrow, execFlashStatusPoll, hp] <;> rfl

theorem exec_flashStatusPoll_of_suspended (h : o.suspension = .suspended) (busy suspended fail : Bool) :
    exec (.flashStatusPoll busy suspended fail) s = .next s := by
  rw [exec_flashStatusPoll_eq hp, h]

/-- Busy and suspended both clear: the operation has ended, or was to be given up before. -/
theorem exec_flashStatusPoll_clear (h : o.suspension ≠ .suspended) (fail : Bool) :
    exec (.flashStatusPoll false false fail) s = if o.timedOut = true ∧ giveUpUs < o.lateUs then .next (s.giveUp o)
      else .next ((({ s with imu.port := .free } : State).workEnded o fail).operationEnded o fail) := by
  rw [exec_flashStatusPoll_eq hp]
  cases hs : o.suspension with
  | suspended => exact absurd hs h
  | running => rfl
  | suspending w => rfl

/-- Suspended set: as FLASH_SUSPENDED. -/
theorem exec_flashStatusPoll_paused (busy fail : Bool) (h : o.suspension ≠ .suspended) :
    exec (.flashStatusPoll busy true fail) s = .next { s with imu.port := .busy o.paused } := by
  rw [exec_flashStatusPoll_eq hp]
  cases hs : o.suspension with
  | suspended => exact absurd hs h
  | running => cases busy <;> rfl
  | suspending w => cases busy <;> rfl

/-- Busy alone: nothing changes. -/
theorem exec_flashStatusPoll_busy (fail : Bool) : exec (.flashStatusPoll true false fail) s = .next s := by
  rw [exec_flashStatusPoll_eq hp]
  cases o.suspension <;> rfl

theorem exec_flashOperationTimeout_eq : exec .flashOperationTimeout s
    = if o.timedOut = false ∧ o.work.limitUs ≤ o.busyUs then
        .next (({ s with imu.port := .busy { o with
          timedOut := true, lateUs := 0, busyUs := max o.busyUs (o.work.limitUs + 1) } } : State).operationTimedOut o)
      else .next s := by
  have hrow : exec .flashOperationTimeout s = execFlashOperationTimeout s := rfl
  rw [hrow, execFlashOperationTimeout, hp]

theorem exec_flashOperationGiveUp_eq : exec .flashOperationGiveUp s
    = if o.timedOut = true ∧ giveUpUs ≤ o.lateUs then .next (s.giveUp o) else .next s := by
  have hrow : exec .flashOperationGiveUp s = execFlashOperationGiveUp s := rfl
  rw [hrow, execFlashOperationGiveUp, hp]

end

/-! ## The array at the end -/

/-- The array and the port at an operation's end, before its owner hears of it. -/
def State.arrayEnded (o : FlashOp) (fail : Bool) (s : State) : State := ({ s with imu.port := .free } : State).workEnded o fail

theorem State.arrayEnded_shape (o : FlashOp) (fail : Bool) (s : State) :
    ∃ m i, s.arrayEnded o fail = { s with imu.port := .free, flash := m, freeIdx := i } := by
  refine ⟨(s.arrayEnded o fail).flash, (s.arrayEnded o fail).freeIdx, ?_⟩
  unfold State.arrayEnded
  rcases State.workEnded_cases o fail { s with imu.port := .free } with ⟨h, -⟩ | ⟨h, -⟩ <;> rw [h]
  · rcases State.workLost_cases o.work o.owner { s with imu.port := .free } with ⟨h, -, -⟩ | ⟨-, -, h⟩ | ⟨-, -, h⟩ <;> rw [h]
    · cases o.work <;> rfl
    · cases o.work <;> rfl
  · cases o.work <;> rfl

/-- A success that stands takes no free value. -/
theorem State.arrayEnded_done {o : FlashOp} (s : State) (h : o.late → o.owner ≠ .startUp ∧ o.work.configPage = false) :
    s.arrayEnded o false = { s with imu.port := .free, flash := (s.arrayEnded o false).flash } := by
  unfold State.arrayEnded
  rw [State.workEnded_of_done _ h]
  cases o.work <;> rfl

/-- What a lost append leaves takes one free value. -/
theorem State.arrayEnded_lost {o : FlashOp} {fail : Bool} (s : State) (ho : o.owner = .startUp) (h : fail = true ∨ o.late) :
    s.arrayEnded o fail = { s with imu.port := .free, flash := (s.arrayEnded o fail).flash, freeIdx := s.freeIdx + 1 } := by
  unfold State.arrayEnded
  rw [State.workEnded_of_lost _ (h.imp_right fun hl => ⟨hl, .inl ho⟩), ho]
  rcases State.workLost_cases o.work .startUp { s with imu.port := .free } with ⟨h, -, -⟩ | ⟨-, -, h⟩ | ⟨h, -⟩
  · rw [h]
    cases o.work <;> rfl
  · rw [h]
  · exact absurd rfl h

section
variable {s t : State} {o : FlashOp} {fail : Bool} (ht : t.flash = (s.arrayEnded o fail).flash)
include ht

theorem State.arrayEnded_outside {a : Nat} (h : ¬o.work.covers a) : t.flashByte a = s.flashByte a :=
  (State.flashByte_congr ht a).trans (State.workEnded_outside (s := { s with imu.port := .free }) fail h)

theorem State.arrayEnded_leftPartway (h : fail = true ∨ o.late ∧ (o.owner = .startUp ∨ o.work.configPage = true)) :
    LeftPartway o.work s t := by
  rw [State.arrayEnded, State.workEnded_of_lost _ h] at ht
  exact (State.leftPartway_workLost o.work o.owner { s with imu.port := .free }).congr ht

theorem State.arrayEnded_program (hf : fail = false) (h : o.owner ≠ .startUp ∧ o.work.configPage = false ∨ ¬o.late) {p : Nat}
    {data : List Byte} (hw : o.work = .program p data) {i : Nat} (hi : i < 256) :
    t.flashByte (p + i) = s.flashByte (p + i) &&& data.getD i 0xFF := by
  rw [hf, State.arrayEnded, State.workEnded_of_done _ fun hl => h.resolve_right (not_not_intro hl), hw] at ht
  exact (State.flashByte_congr ht _).trans (State.workDone_program_inside (s := { s with imu.port := .free }) p data hi)

theorem State.arrayEnded_erase (hf : fail = false) (h : o.owner ≠ .startUp ∨ ¬o.late) {p : Nat} (hw : o.work = .erase p) {i : Nat}
    (hi : i < 65536) : t.flashByte (p + i) = 0xFF := by
  have hdone : o.late → o.owner ≠ .startUp ∧ o.work.configPage = false := fun hl => by
    rw [hw]
    exact ⟨h.resolve_right (not_not_intro hl), rfl⟩
  rw [hf, State.arrayEnded, State.workEnded_of_done _ hdone, hw] at ht
  exact (State.flashByte_congr ht _).trans (State.workDone_erase_inside (s := { s with imu.port := .free }) p hi)

theorem State.arrayEnded_configInvalid_erase (ho : o.owner ≠ .startUp) (hw : o.work = .erase 0x040000) : ConfigInvalid t := by
  cases fail with
  | true =>
    rw [State.arrayEnded, State.workEnded_of_lost _ (.inl rfl), hw] at ht
    exact State.workLost_configInvalid_erase ho _ ht
  | false =>
    refine .of_blockValid (s := t) (State.blockValid_of_erased fun i hi => ?_) rfl
    exact State.arrayEnded_erase ht rfl (.inl ho) hw (by omega)

theorem State.arrayEnded_configInvalid_page (ho : o.owner ≠ .startUp) {p : Nat} {data : List Byte} (hw : o.work = .program p data)
    (hp : p / 65536 = 4) (hl : fail = true ∨ o.late) (hs : ConfigInvalid s) : ConfigInvalid t := by
  have hpage : o.work.configPage = true := by
    rw [hw]
    exact (inConfigSector_iff p).2 hp
  rw [State.arrayEnded, State.workEnded_of_lost _ (hl.imp_right fun h => ⟨h, .inr hpage⟩), hw] at ht
  exact State.workLost_configInvalid_page (s := { s with imu.port := .free }) ho hp hs ht

section
variable (ho : o.owner = .startUp) (hl : fail = true ∨ o.late)
include ho hl

theorem State.arrayEnded_startUp : t.flash = (({ s with imu.port := .free } : State).workLost o.work .startUp).flash := by
  rw [ht, State.arrayEnded, State.workEnded_of_lost _ (hl.imp_right fun h => ⟨h, .inl ho⟩), ho]

theorem State.arrayEnded_newestKept_erase {p : Nat} (hw : o.work = .erase p) : NewestKept s t := by
  have hflash := State.arrayEnded_startUp ht ho hl
  rw [hw] at hflash
  exact (State.workLost_newestKept_erase p { s with imu.port := .free }).congr hflash

theorem State.arrayEnded_place {p : Nat} {data : List Byte} (hw : o.work = .program p data) (hs : logEntryAt s s.position = none) :
    logEntryAt t s.position = none := by
  have hflash := State.arrayEnded_startUp ht ho hl
  rw [hw] at hflash
  exact (State.entryAt_of_flash_eq hflash _).trans (State.workLost_place (s := { s with imu.port := .free }) p data hs)

theorem State.arrayEnded_append {e : Entry} (hw : o.work = .program (0x050000 + s.position / 16 * 256) (appendPage s.position e)) :
    (logEntryAt s s.position = none → NewestKept s t)
      ∧ ((∀ i, i < 65536 → s.flashByte (0x050000 + i) = 0xFF) → ∀ k, k < 4096 → logEntryAt t k = none) := by
  have hflash := State.arrayEnded_startUp ht ho hl
  rw [hw] at hflash
  refine ⟨fun hs => ?_, fun hs k hk => ?_⟩
  · exact (State.workLost_newestKept_page (s := { s with imu.port := .free }) e hs).congr hflash
  · exact (State.entryAt_of_flash_eq hflash k).trans (State.workLost_entryAt_of_erased (s := { s with imu.port := .free }) e hs hk)

end

end

/-! ## The owner at the end -/

section
variable {s : State} {o : FlashOp} {fail : Bool}

theorem State.operationEnded_of_timedOut (h : o.timedOut = true) : s.operationEnded o fail = s := if_pos h

theorem State.operationEnded_of_overdue (h : o.timedOut = false) (hb : o.work.limitUs < o.busyUs) :
    s.operationEnded o fail = s.operationTimedOut o :=
  (if_neg (by simp [h])).trans (if_pos (o.overdue_eq_true_iff.2 ⟨h, hb⟩))

theorem State.operationEnded_in_time (h : o.timedOut = false) (hb : o.busyUs ≤ o.work.limitUs) : s.operationEnded o fail =
    match o.owner with
    | .session => s.sessionOutcome o.work fail
    | .pastSession => s
    | .startUp => s.appendOutcome fail :=
  (if_neg (by simp [h])).trans (if_neg fun ho => absurd (o.overdue_eq_true_iff.1 ho).2 (not_lt.2 hb))

theorem State.operationTimedOut_session (ho : o.owner = .session) (hn : s.imu.session.working = true) :
    s.operationTimedOut o = s.failSession .flashTimeout := by
  unfold State.operationTimedOut
  rw [ho]
  exact if_pos hn

theorem State.operationTimedOut_pastSession (ho : o.owner = .pastSession) : s.operationTimedOut o = s := by
  unfold State.operationTimedOut
  rw [ho]

theorem State.operationTimedOut_append (ho : o.owner = .startUp) {x : Append} (hx : s.suc.append = some x) :
    s.operationTimedOut o = s.failAppend x .flashTimeout := by
  unfold State.operationTimedOut
  rw [ho]
  dsimp only
  rw [hx]

theorem State.operationEnded_pastSession (ho : o.owner = .pastSession) : s.operationEnded o fail = s := by
  unfold State.operationEnded
  rw [State.operationTimedOut_pastSession ho, ho, ite_self, ite_self]

theorem State.sessionOutcome_working (hn : s.imu.session.working = true) (w : FlashWork) : s.sessionOutcome w fail =
    if fail = true then s.failSession .flashFault
    else match w with
      | .program _ _ => s.pageProgrammed
      | .erase _ => s.sectorErased := if_pos hn

theorem State.appendOutcome_of_some {x : Append} (hx : s.suc.append = some x) :
    s.appendOutcome true = s.failAppend x .flashFault
      ∧ (x.phase = .erase → s.appendOutcome false
          = { s with suc.newest := none, suc.appendPos := some 0, suc.append := some { x with phase := .program } })
      ∧ (x.phase = .program → s.appendOutcome false = { s with suc.append := some { x with phase := .readback } }) := by
  unfold State.appendOutcome
  rw [hx]
  refine ⟨rfl, fun h => ?_, fun h => ?_⟩ <;> dsimp only <;> rw [h] <;> rfl

end

end Sys2Proof.Machine

/-! PROOFS. What an operation's end, its timeout and its giving up leave with its owner (section 9.2). -/
namespace Sys2Proof.Machine

/-! ## The owners of an operation that has ended -/

theorem State.operationEnded_flash (o : FlashOp) (fail : Bool) (s : State) : (s.operationEnded o fail).flash = s.flash :=
  (s.operationEnded_runs o fail).frame.flash (by decide)

theorem State.operationEnded_port (o : FlashOp) (fail : Bool) (s : State) : (s.operationEnded o fail).imu.port = s.imu.port :=
  (s.operationEnded_runs o fail).frame.flashPort (by decide)

theorem State.arrayEnded_session (o : FlashOp) (fail : Bool) (s : State) :
    (s.arrayEnded o fail).imu.session = s.imu.session ∧ (s.arrayEnded o fail).imu.lastFail = s.imu.lastFail
      ∧ (s.arrayEnded o fail).suc.append = s.suc.append ∧ (s.arrayEnded o fail).imu.port = .free := by
  obtain ⟨m, i, h⟩ := s.arrayEnded_shape o fail
  rw [h]
  exact ⟨rfl, rfl, rfl, rfl⟩

theorem State.failSession_arrayEnded (why : Reason) (o : FlashOp) (fail : Bool) (s : State) :
    let t := (s.arrayEnded o fail).failSession why
    t.cau.pending = (s.raise (.imageState .failed why s.imu.session.pages s.imu.session.version)).cau.pending
      ∧ OnlyReports { s with
          imu.port := t.imu.port, flash := t.flash, imu.lastFail := why
          imu.session := { s.imu.session with state := .failed, current := [], queue := [] } } t := by
  obtain ⟨m, i, h⟩ := s.arrayEnded_shape o fail
  rw [h]
  exact s.failSession_spec why .free m i

theorem State.arrayEnded_sectorErased {o : FlashOp} (s : State) (h : o.late → o.owner ≠ .startUp ∧ o.work.configPage = false) :
    let t := (s.arrayEnded o false).sectorErased
    t = { s with imu.port := .free, flash := t.flash, imu.session := { s.imu.session with sectors := s.imu.session.sectors + 1 } } := by
  have hdone := s.arrayEnded_done h
  generalize (s.arrayEnded o false).flash = m at hdone
  rw [hdone]
  rfl

/-- The state after a page of the session, before a held write is looked at (R167). -/
def State.pageCounted (m : Memory) (s : State) : State := { s with
  imu.port := .free, flash := m
  imu.session := { s.imu.session with pages := s.imu.session.pages + 1, queue := s.imu.session.queue.tail } }

theorem State.arrayEnded_pageProgrammed {o : FlashOp} (s : State) (h : o.late → o.owner ≠ .startUp ∧ o.work.configPage = false) :
    let t := (s.arrayEnded o false).pageProgrammed
    t = (s.pageCounted t.flash).releaseStaging := by
  have hdone := s.arrayEnded_done h
  generalize (s.arrayEnded o false).flash = m at hdone
  have hpage : (s.arrayEnded o false).pageProgrammed = (s.pageCounted m).releaseStaging := by
    rw [hdone]
    rfl
  intro t
  have hflash : t.flash = m := (congrArg State.flash hpage).trans ((State.releaseStaging_frame _).flash (by decide))
  rw [hflash]
  exact hpage

/-- An append that fails on what its operation has left: the start-up controller's state, with one free value taken. -/
theorem State.failAppend_flash (x : Append) (why : Reason) (s : State) : (s.failAppend x why).flash = s.flash :=
  (s.failAppend_runs x why).frame.flash (by decide)

theorem State.failAppend_arrayEnded {o : FlashOp} {fail : Bool} {s t : State} {x : Append} {why : Reason} (ho : o.owner = .startUp)
    (hl : fail = true ∨ o.late) (ht : (s.arrayEnded o fail).failAppend x why = t) :
    State.failAppend x why { s with imu.port := .free, flash := t.flash, freeIdx := s.freeIdx + 1 } = t := by
  have hflash : t.flash = (s.arrayEnded o fail).flash := by rw [← ht, State.failAppend_flash]
  rw [hflash, ← s.arrayEnded_lost ho hl]
  exact ht

/-! ## The timeout (R159) -/

/-- The operation once its owner has had the timeout. -/
def FlashOp.overran (o : FlashOp) : FlashOp :=
  { o with timedOut := true, lateUs := 0, busyUs := max o.busyUs (o.work.limitUs + 1) }

theorem State.operationTimedOut_flash (o : FlashOp) (s : State) : (s.operationTimedOut o).flash = s.flash :=
  (s.operationTimedOut_runs o).frame.flash (by decide)

theorem State.operationTimedOut_port (o : FlashOp) (s : State) : (s.operationTimedOut o).imu.port = s.imu.port :=
  (s.operationTimedOut_runs o).frame.flashPort (by decide)

/-! ## Giving up (R159, R188) -/

theorem State.portGivenUp_free {s : State} {o : FlashOp} (h : o.suspension ≠ .suspended ∨ s.waitingRead = none) :
    s.portGivenUp o = .free := by
  unfold State.portGivenUp
  cases hs : o.suspension with
  | suspended =>
    rw [h.resolve_left (not_not_intro hs)]
  | running => rfl
  | suspending w => rfl

theorem State.portGivenUp_reading {s : State} {o : FlashOp} {h : InHand} {a k : Nat} (hs : o.suspension = .suspended)
    (hh : s.ptu.inHand = some h) (hp : h.phase = .flashHeld a k) : s.portGivenUp o = .reading .passThrough true a k := by
  unfold State.portGivenUp
  rw [hs, State.waitingRead_of_flashHeld hh hp]

/-- The array, the port and the flag once an operation is given up, before SELECTING decides. -/
def State.arrayGivenUp (o : FlashOp) (s : State) : State :=
  ({ s with imu.port := s.portGivenUp o, suc.flashFault := true } : State).workLost o.work o.owner

theorem State.arrayGivenUp_shape (o : FlashOp) (s : State) :
    ∃ m i, s.arrayGivenUp o = { s with imu.port := s.portGivenUp o, suc.flashFault := true, flash := m, freeIdx := i } := by
  refine ⟨(s.arrayGivenUp o).flash, (s.arrayGivenUp o).freeIdx, ?_⟩
  unfold State.arrayGivenUp
  rcases State.workLost_cases o.work o.owner { s with imu.port := s.portGivenUp o, suc.flashFault := true }
    with ⟨h, -, -⟩ | ⟨-, -, h⟩ | ⟨-, -, h⟩ <;> rw [h]
  · cases o.work <;> rfl
  · cases o.work <;> rfl

theorem State.giveUp_flash (o : FlashOp) (s : State) : (s.giveUp o).flash = (s.arrayGivenUp o).flash :=
  (State.giveUpSelecting_runs _).frame.flash (by decide)

theorem State.giveUp_port (o : FlashOp) (s : State) : (s.giveUp o).imu.port = s.portGivenUp o := by
  have hport : (s.giveUp o).imu.port = (s.arrayGivenUp o).imu.port := (State.giveUpSelecting_runs _).frame.flashPort (by decide)
  obtain ⟨m, i, h⟩ := s.arrayGivenUp_shape o
  rw [hport, h]

theorem State.giveUp_flashFault (o : FlashOp) (s : State) : (s.giveUp o).suc.flashFault = true := by
  have hfault : (s.giveUp o).suc.flashFault = (s.arrayGivenUp o).suc.flashFault :=
    (State.giveUpSelecting_runs _).frame.flashFault (by decide)
  obtain ⟨m, i, h⟩ := s.arrayGivenUp_shape o
  rw [hfault, h]

theorem State.giveUp_of_decided {s : State} (o : FlashOp) (h : s.suc.startUp ≠ .selecting ∨ s.suc.decided = true) :
    s.giveUp o = { s with
      imu.port := (s.giveUp o).imu.port, suc.flashFault := true, flash := (s.giveUp o).flash, freeIdx := (s.giveUp o).freeIdx } := by
  have hgiven : s.giveUp o = s.arrayGivenUp o := by
    obtain ⟨m, i, hu⟩ := s.arrayGivenUp_shape o
    have hlast : s.giveUp o = (s.arrayGivenUp o).giveUpSelecting := rfl
    rw [hlast, hu]
    refine if_neg fun hc => ?_
    obtain ⟨hsel, hdec⟩ : s.suc.startUp = .selecting ∧ s.suc.decided = false := hc
    exact h.elim (fun h => h hsel) fun h => Bool.false_ne_true (hdec.symm.trans h)
  obtain ⟨m, i, hu⟩ := s.arrayGivenUp_shape o
  rw [hgiven, hu]

theorem State.giveUp_of_selecting {s : State} (o : FlashOp) (hsel : s.suc.startUp = .selecting) (hdec : s.suc.decided = false) :
    s.giveUp o = State.riseReady .a .confirmed [] { s with
      imu.port := (s.giveUp o).imu.port, flash := (s.giveUp o).flash, freeIdx := (s.giveUp o).freeIdx
      suc.flashFault := true, suc.stale := true, suc.noFlash := true } := by
  obtain ⟨m, i, hu⟩ := s.arrayGivenUp_shape o
  have hrise : s.giveUp o = State.riseReady .a .confirmed [] { s with
      imu.port := s.portGivenUp o, flash := m, freeIdx := i, suc.flashFault := true, suc.stale := true, suc.noFlash := true } := by
    have hlast : s.giveUp o = (s.arrayGivenUp o).giveUpSelecting := rfl
    rw [hlast, hu]
    exact if_pos ⟨hsel, hdec⟩
  have hfree : (s.giveUp o).freeIdx = i := by rw [hrise, State.riseReady_freeIdx]
  have hflash : (s.giveUp o).flash = m := by rw [s.giveUp_flash o, hu]
  rw [hfree, hflash, s.giveUp_port o]
  exact hrise

section
variable {s : State} {o : FlashOp}

theorem State.giveUp_leftPartway : LeftPartway o.work s (s.giveUp o) :=
  (State.leftPartway_workLost o.work o.owner { s with imu.port := s.portGivenUp o, suc.flashFault := true }).congr (s.giveUp_flash o)

theorem State.giveUp_place (ho : o.owner = .startUp) {p : Nat} {data : List Byte} (hw : o.work = .program p data)
    (hs : logEntryAt s s.position = none) : logEntryAt (s.giveUp o) s.position = none := by
  have hflash := s.giveUp_flash o
  rw [State.arrayGivenUp, ho, hw] at hflash
  exact (State.entryAt_of_flash_eq hflash _).trans
    (State.workLost_place (s := { s with imu.port := s.portGivenUp o, suc.flashFault := true }) p data hs)

theorem State.giveUp_newestKept (ho : o.owner = .startUp) {p : Nat} (hw : o.work = .erase p) : NewestKept s (s.giveUp o) := by
  have hflash := s.giveUp_flash o
  rw [State.arrayGivenUp, ho, hw] at hflash
  exact (State.workLost_newestKept_erase p { s with imu.port := s.portGivenUp o, suc.flashFault := true }).congr hflash

theorem State.giveUp_configInvalid_erase (ho : o.owner ≠ .startUp) (hw : o.work = .erase 0x040000) : ConfigInvalid (s.giveUp o) := by
  have hflash := s.giveUp_flash o
  rw [State.arrayGivenUp, hw] at hflash
  exact State.workLost_configInvalid_erase ho _ hflash

theorem State.giveUp_configInvalid_page (ho : o.owner ≠ .startUp) {p : Nat} {data : List Byte} (hw : o.work = .program p data)
    (hp : p / 65536 = 4) (hs : ConfigInvalid s) : ConfigInvalid (s.giveUp o) := by
  have hflash := s.giveUp_flash o
  rw [State.arrayGivenUp, hw] at hflash
  exact State.workLost_configInvalid_page (s := { s with imu.port := s.portGivenUp o, suc.flashFault := true }) ho hp hs hflash

end

end Sys2Proof.Machine

/-! PROOFS. FlashOperationEnds (section 9.2). -/
namespace Sys2Proof.Machine

theorem FlashOp.paused_of_running {o : FlashOp} (h : o.suspension = .running) : o.paused = o := by
  unfold FlashOp.paused
  rw [h]

theorem FlashOp.paused_of_suspending {o : FlashOp} {v : Bool} (h : o.suspension = .suspending v) :
    o.paused = if v = true then { o with suspension := .suspended } else { o with suspension := .running, inMinRun := true, runUs := 0 } := by
  unfold FlashOp.paused
  rw [h]
  cases v <;> rfl

/-- A READ_STATUS with both bits clear, before the operation is to be given up. -/
theorem exec_flashStatusPoll_ended {s : State} {o : FlashOp} (hp : s.imu.port = .busy o) (hs : o.suspension ≠ .suspended)
    (hg : o.timedOut = false ∨ o.lateUs ≤ 4000000) (fail : Bool) :
    exec (.flashStatusPoll false false fail) s = .next ((s.arrayEnded o fail).operationEnded o fail) := by
  rw [exec_flashStatusPoll_clear hp hs]
  refine if_neg fun hc => ?_
  obtain ⟨htimed, hlate⟩ := hc
  rcases hg with hg | hg
  · exact Bool.false_ne_true (hg.symm.trans htimed)
  · exact absurd hlate (not_lt.2 hg)

/-- Settles O51: the rows by the suspension, the end by what it leaves in the array and by the owner, the timeout, and giving up. -/
theorem flashOperationEnds : Obligations.FlashOperationEnds := by
  intro o s hport limit n fails lost gone
  have hlimit : limit = o.work.limitUs := by
    cases hw : o.work <;> simp only [limit, hw] <;> rfl
  have hlost : lost ↔ o.late := by
    rw [FlashOp.late, ← hlimit]
  have hpage : ∀ {p data}, o.work = .program p data → (o.work.configPage = true ↔ p / 65536 = 4) := fun hw => by
    rw [hw]
    exact inConfigSector_iff _
  refine ⟨exec_flashStatusPoll_busy hport, fun busy suspended fail hs => exec_flashStatusPoll_of_suspended hport hs _ _ _,
    fun busy fail hs => ?_, fun busy fail v hs => ?_, fun fail hs hg => ⟨_, exec_flashStatusPoll_ended hport hs hg fail, ?_⟩,
    fun htimed hb => ?_, fun h => ?_, fun htimed hlate => ?_, fun fail hs htimed hlate => ?_, fun h => ?_⟩
  · rw [exec_flashStatusPoll_paused hport _ _ (by simp [hs]), FlashOp.paused_of_running hs, ← hport]
  · rw [exec_flashStatusPoll_paused hport _ _ (by simp [hs]), FlashOp.paused_of_suspending hs]
  · obtain ⟨hsession, hlast, happend, hfree⟩ := s.arrayEnded_session o fail
    generalize ht : (s.arrayEnded o fail).operationEnded o fail = t
    have hflash : t.flash = _ := ht ▸ (s.arrayEnded o fail).operationEnded_flash o fail
    have hfreed : t.imu.port = .free := ht ▸ ((s.arrayEnded o fail).operationEnded_port o fail).trans hfree
    have hintime : o.timedOut = false → o.busyUs ≤ limit → ¬o.late := fun htimed hb hl =>
      hl.elim (fun h => Bool.false_ne_true (htimed.symm.trans h)) fun h => absurd h (not_lt.2 (hlimit ▸ hb))
    refine ⟨hfreed, fun a => State.arrayEnded_outside hflash, fun hf => State.arrayEnded_leftPartway hflash (.inl hf),
      fun p data i hf h hw hi => State.arrayEnded_program hflash hf ?_ hw hi,
      fun p i hf h hw hi => State.arrayEnded_erase hflash hf (h.imp_right (mt hlost.2)) hw hi,
      fun p ho hl hw => ⟨State.arrayEnded_leftPartway hflash ?_, State.arrayEnded_newestKept_erase hflash ho (hl.imp_right hlost.1) hw⟩,
      fun p data ho hl hw => ⟨State.arrayEnded_leftPartway hflash ?_, State.arrayEnded_place hflash ho (hl.imp_right hlost.1) hw,
        fun e hp hd => State.arrayEnded_append (e := e) hflash ho (hl.imp_right hlost.1) (by rw [hw, hp, hd])⟩,
      fun ho hw => State.arrayEnded_configInvalid_erase hflash ho hw,
      fun p data ho hw hp hl => ⟨State.arrayEnded_leftPartway hflash ?_,
        State.arrayEnded_configInvalid_page hflash ho hw hp (hl.imp_right hlost.1)⟩,
      fun ho hn => ⟨fun htimed hb => ?_, fun htimed hb => ?_, fun htimed => ?_⟩, fun ho => ?_, fun x ho hx htimed hb => ?_,
      fun x ho hx htimed hb => ?_⟩
    · exact h.imp (fun h => ⟨h.1, Bool.eq_false_iff.2 (mt (hpage hw).1 h.2)⟩) (mt hlost.2)
    · exact hl.imp_right fun h => ⟨hlost.1 h, .inl ho⟩
    · exact hl.imp_right fun h => ⟨hlost.1 h, .inl ho⟩
    · exact hl.imp_right fun h => ⟨hlost.1 h, .inr ((hpage hw).2 hp)⟩
    · have hworking : (s.arrayEnded o fail).imu.session.working = true := by rw [hsession]; exact (Session.working_iff _).2 hn
      have hdone : o.late → o.owner ≠ .startUp ∧ o.work.configPage = false := fun hl => absurd hl (hintime htimed hb)
      rw [State.operationEnded_in_time htimed (hlimit ▸ hb), ho] at ht
      dsimp only at ht
      rw [State.sessionOutcome_working hworking] at ht
      refine ⟨fun hf => ?_, fun p hf hw => ?_, fun p data hf hw => ?_⟩ <;> subst hf
      · subst ht
        exact s.failSession_arrayEnded .flashFault o true
      · rw [hw] at ht
        subst ht
        exact s.arrayEnded_sectorErased hdone
      · rw [hw] at ht
        have hcounted : t = (s.pageCounted t.flash).releaseStaging := ht ▸ s.arrayEnded_pageProgrammed hdone
        refine ⟨fun hno => hcounted.trans (State.releaseStaging_of_not (.inl hno)), fun h w hh hp hw hk hd =>
          ⟨fun hstate hpos hoff hlen hroom => ?_, fun hne => hcounted.trans (State.releaseStaging_of_not (.inr hne))⟩⟩
        obtain ⟨haccept, hrow⟩ := State.releaseStaging_of_fits (s := s.pageCounted t.flash) hh hp hw hk hd hstate
          ((Session.fits_eq_true_iff _ _ _).2 ⟨hpos, hoff, hlen⟩) hroom
        rw [← hcounted] at hrow haccept
        exact ⟨hrow, (congrArg (fun u => u.ptu.inHand) haccept :), (congrArg (fun u => u.ptu.reply) haccept :)⟩
    · have hworking : (s.arrayEnded o fail).imu.session.working = true := by rw [hsession]; exact (Session.working_iff _).2 hn
      rw [State.operationEnded_of_overdue htimed (hlimit ▸ hb), State.operationTimedOut_session ho hworking] at ht
      subst ht
      exact s.failSession_arrayEnded .flashTimeout o fail
    · rw [State.operationEnded_of_timedOut htimed] at ht
      subst ht
      exact ⟨hsession, hlast⟩
    · rw [State.operationEnded_pastSession ho] at ht
      subst ht
      exact ⟨hsession, hlast⟩
    · rw [State.operationEnded_of_overdue htimed (hlimit ▸ hb), State.operationTimedOut_append ho (happend.trans hx)] at ht
      have hspec := State.failAppend_spec x .flashTimeout { s with imu.port := .free, flash := t.flash, freeIdx := s.freeIdx + 1 }
      rw [State.failAppend_arrayEnded ho (.inr (.inr (hlimit ▸ hb))) ht] at hspec
      exact hspec
    · rw [State.operationEnded_in_time htimed (hlimit ▸ hb), ho] at ht
      dsimp only at ht
      have hdone : o.late → o.owner ≠ .startUp ∧ o.work.configPage = false := fun hl => absurd hl (hintime htimed hb)
      obtain ⟨hfails, herased, hprogrammed⟩ := State.appendOutcome_of_some (happend.trans hx)
      refine ⟨fun hf => ?_, fun hf hphase => ?_, fun hf hphase => ?_⟩ <;> subst hf
      · rw [hfails] at ht
        have hspec := State.failAppend_spec x .flashFault { s with imu.port := .free, flash := t.flash, freeIdx := s.freeIdx + 1 }
        rw [State.failAppend_arrayEnded ho (.inl rfl) ht] at hspec
        exact hspec
      · rw [herased hphase, s.arrayEnded_done hdone, ← hflash] at ht
        exact ht.symm
      · rw [hprogrammed hphase, s.arrayEnded_done hdone, ← hflash] at ht
        exact ht.symm
  · have hrow : exec .flashOperationTimeout s
        = .next (({ s with imu.port := .busy o.overran } : State).operationTimedOut o) := by
      rw [exec_flashOperationTimeout_eq hport]
      exact if_pos ⟨htimed, hlimit ▸ hb⟩
    generalize ht : ({ s with imu.port := .busy o.overran } : State).operationTimedOut o = t at hrow
    have hflash : t.flash = s.flash := ht ▸ State.operationTimedOut_flash o { s with imu.port := .busy o.overran }
    have hbusy : t.imu.port = .busy o.overran := ht ▸ State.operationTimedOut_port o { s with imu.port := .busy o.overran }
    refine ⟨t, _, hrow, hbusy, by rw [hlimit]; omega, hflash, fun ho hn => ?_, fun ho => ?_, fun x ho hx => ?_⟩
    · rw [State.operationTimedOut_session (s := { s with imu.port := .busy o.overran }) ho ((Session.working_iff _).2 hn)] at ht
      obtain ⟨hpending, honly⟩ := s.failSession_spec .flashTimeout (.busy o.overran) s.flash s.freeIdx
      have hfails : State.failSession .flashTimeout { s with imu.port := .busy o.overran, flash := s.flash, freeIdx := s.freeIdx } = t := ht
      rw [hfails] at hpending honly
      rw [hflash] at honly
      exact ⟨hpending, honly⟩
    · rw [State.operationTimedOut_pastSession ho] at ht
      rw [hbusy, ht]
    · rw [State.operationTimedOut_append (s := { s with imu.port := .busy o.overran }) ho hx] at ht
      have hspec := State.failAppend_spec x .flashTimeout { s with imu.port := .busy o.overran }
      rw [ht] at hspec
      rw [hbusy]
      exact hspec
  · rw [exec_flashOperationTimeout_eq hport]
    refine if_neg fun hc => ?_
    obtain ⟨htimed, hb⟩ := hc
    rcases h with h | h
    · exact Bool.false_ne_true (htimed.symm.trans h)
    · exact absurd hb (not_le.2 (hlimit ▸ h))
  · refine ⟨s.giveUp o, ?_, fun h => ?_, fun h a k hs hh hp => ?_, s.giveUp_flashFault o, State.giveUp_leftPartway,
      fun p data ho hw hs => State.giveUp_place ho hw hs, fun p ho hw => State.giveUp_newestKept ho hw,
      fun ho hw => State.giveUp_configInvalid_erase ho hw, fun p data ho hw hp hs => State.giveUp_configInvalid_page ho hw hp hs,
      fun h => State.giveUp_of_decided o h, fun hsel hdec => State.giveUp_of_selecting o hsel hdec⟩
    · rw [exec_flashOperationGiveUp_eq hport]
      exact if_pos ⟨htimed, hlate⟩
    · rw [s.giveUp_port o, State.portGivenUp_free h]
    · rw [s.giveUp_port o, State.portGivenUp_reading hs hh hp]
  · rw [exec_flashStatusPoll_clear hport hs, exec_flashOperationGiveUp_eq hport, if_pos ⟨htimed, hlate⟩,
      if_pos ⟨htimed, Nat.le_of_lt hlate⟩]
  · rw [exec_flashOperationGiveUp_eq hport]
    refine if_neg fun hc => ?_
    obtain ⟨htimed, hlate⟩ := hc
    rcases h with h | h
    · exact Bool.false_ne_true (h.symm.trans htimed)
    · exact absurd hlate (not_le.2 h)

end Sys2Proof.Machine

/-! PROOFS. The ends of verify READs, of the selector's read-backs and of a scan's READs (sections 9.6, 10.2 and 10.3). -/
namespace Sys2Proof.Machine

/-! ## Verify READs (R171) -/

theorem State.flashRead_length (s : State) (a n : Nat) (flips : List Byte) : (s.flashRead a n flips).length = n := by
  rw [State.flashRead, List.length_map, List.length_range]

/-- The session with the bytes of a verify READ taken. -/
def Session.readBack (n : Session) (bytes : List Byte) : Session :=
  { n with rbCrc := crcBytes n.rbCrc bytes, rbPos := n.rbPos + bytes.length }

theorem exec_verifyReadEnd {s : State} {live : Bool} {a n : Nat} (hp : s.imu.port = .reading .verify live a n) (flips : List Byte) :
    (live = false ∨ s.imu.session.state ≠ .closing → exec (.verifyReadEnd flips) s = .next { s with imu.port := .free })
      ∧ (live = true → s.imu.session.state = .closing → exec (.verifyReadEnd flips) s
          = .next (({ s with imu.port := .free } : State).takeReadback (s.flashRead a n flips))) := by
  have hrow : exec (.verifyReadEnd flips) s = execVerifyReadEnd flips s := rfl
  rw [hrow, execVerifyReadEnd, hp]
  dsimp only
  refine ⟨fun h => if_neg fun hc => ?_, fun hl hc => if_pos ⟨hl, hc⟩⟩
  obtain ⟨hl, hc⟩ := hc
  rcases h with h | h
  · exact Bool.false_ne_true (h.symm.trans hl)
  · exact h hc

theorem State.takeReadback_eq (bytes : List Byte) (s : State) : s.takeReadback bytes =
    if s.imu.session.length ≤ s.imu.session.rbPos + bytes.length
    then State.judgeReadback { s with imu.session := s.imu.session.readBack bytes }
    else { s with imu.session := s.imu.session.readBack bytes } := rfl

/-- The comparison of the three CRCs (R171). -/
theorem State.judgeReadback_spec (s : State) :
    (s.imu.session.rbCrc ≠ s.imu.session.crc → s.judgeReadback = s.failSession .readbackMismatch)
      ∧ (s.imu.session.rbCrc = s.imu.session.crc → ~~~s.imu.session.crc ≠ s.imu.session.expCrc →
          s.judgeReadback = s.failSession .crcMismatch)
      ∧ (s.imu.session.rbCrc = s.imu.session.crc → ~~~s.imu.session.crc = s.imu.session.expCrc →
          s.judgeReadback = s.enterSession .verified .none) :=
  ⟨fun h => if_pos h, fun h h' => (if_neg (not_not_intro h)).trans (if_pos h'),
    fun h h' => (if_neg (not_not_intro h)).trans (if_neg (not_not_intro h'))⟩

/-! ## Read-backs of the selector log (R185) -/

theorem entryOfBytes_zero : entryOfBytes (List.replicate 16 0) = none := by decide

/-- A place at 0 holds no valid entry: its check word is wrong (R184). -/
theorem State.entryAt_of_zero {s : State} {k : Nat} (h : ∀ i, i < 16 → s.flashByte (logBase + 16 * k + i) = 0) : s.entryAt k = none := by
  have hread : s.flashRead (logBase + 16 * k) 16 [] = List.replicate 16 0 := by
    refine List.eq_replicate_iff.2 ⟨s.flashRead_length _ _ _, fun b hb => ?_⟩
    obtain ⟨i, hi, rfl⟩ := List.mem_map.1 hb
    rw [h i (List.mem_range.1 hi), List.getD_nil]
    rfl
  rw [State.entryAt, hread, entryOfBytes_zero]

theorem State.placeValid_eq_false_iff (s : State) : s.placeValid = false ↔ s.entryAt s.position = none := by
  rw [State.placeValid, Option.isSome_eq_false_iff, Option.isNone_iff_eq_none]

/-- A read-back that differs leaves no valid entry at the append's place (R185, R188; log 47). -/
theorem State.voidPlace_noEntryLeft (s : State) : NoEntryLeft s s.voidPlace := by
  rcases s.voidPlace_cases with ⟨hvalid, h⟩ | ⟨f, h, hf, hnone⟩
  · rw [h]
    exact ⟨rfl, (s.placeValid_eq_false_iff).1 hvalid, fun a => BitVec.and_self, fun _ _ => rfl, fun _ => rfl⟩
  · have hinside : ∀ x, logBase + 16 * s.position ≤ x → x < logBase + 16 * s.position + 16 → s.voidPlace.flashByte x = f x :=
      fun x h1 h2 => h ▸ State.flashByte_overlay_inside _ _ _ _ _ h1 h2
    have houtside : ∀ x, x < logBase + 16 * s.position ∨ logBase + 16 * s.position + 16 ≤ x →
        s.voidPlace.flashByte x = s.flashByte x := fun x hx => h ▸ State.flashByte_overlay_outside _ _ _ _ _ hx
    refine ⟨?_, ?_, fun a => ?_, fun a ha => houtside a ha, fun hs => ?_⟩
    · rw [h]
      rfl
    · rcases hnone with hnone | hzero
      · have hposition : s.voidPlace.position = s.position := by rw [h]; rfl
        have hentry := (State.placeValid_eq_false_iff _).1 hnone
        rwa [hposition] at hentry
      · exact State.entryAt_of_zero fun i hi => by rw [hinside _ (by omega) (by omega), hzero]
    · by_cases hx : logBase + 16 * s.position ≤ a ∧ a < logBase + 16 * s.position + 16
      · rw [hinside a hx.1 hx.2, hf]
      · rw [houtside a (by omega), BitVec.and_self]
    · unfold State.voidPlace
      exact if_neg (by simpa using (s.placeValid_eq_false_iff).2 hs)

/-- The flash port is free. -/
def State.withFreePort (s : State) : State := { s with imu.port := .free }

theorem State.withFreePort_session (s : State) : s.withFreePort.imu.session = s.imu.session := rfl

theorem State.voidPlace_freePort (s : State) : s.withFreePort.voidPlace = s.voidPlace.withFreePort := by
  unfold State.voidPlace
  dsimp only
  rw [apply_ite State.withFreePort, apply_ite State.withFreePort]
  rfl

section
variable {s : State} {live : Bool} {p n : Nat} (hp : s.imu.port = .reading .readback live p n) {flips : List Byte}
include hp

theorem exec_selectorReadbackEnd_ownerless (hx : s.suc.append = none) :
    exec (.selectorReadbackEnd flips) s = .next { s with imu.port := .free } := by
  have hrow : exec (.selectorReadbackEnd flips) s = execSelectorReadbackEnd flips s := rfl
  rw [hrow, execSelectorReadbackEnd, hp]
  dsimp only
  rw [hx]

theorem exec_selectorReadbackEnd_equal {x : Append} (hx : s.suc.append = some x) (h : s.flashRead p n flips = x.entry.bytes) :
    exec (.selectorReadbackEnd flips) s = .next (s.withFreePort.finishAppend x) := by
  have hrow : exec (.selectorReadbackEnd flips) s = execSelectorReadbackEnd flips s := rfl
  rw [hrow, execSelectorReadbackEnd, hp]
  dsimp only
  rw [hx]
  exact if_pos h

theorem exec_selectorReadbackEnd_differs {x : Append} (hx : s.suc.append = some x) (h : s.flashRead p n flips ≠ x.entry.bytes) :
    exec (.selectorReadbackEnd flips) s = .next (s.voidPlace.withFreePort.failAppend x .flashFault) := by
  have hrow : exec (.selectorReadbackEnd flips) s = execSelectorReadbackEnd flips s := rfl
  rw [hrow, execSelectorReadbackEnd, hp]
  dsimp only
  rw [hx, ← State.voidPlace_freePort]
  exact if_neg h

end

/-- The copy of the log after an append that has succeeded (R185). -/
def State.appended (x : Append) (s : State) : State := { s with
  suc.append := none
  suc.newest := some x.entry
  suc.appendPos := if s.position + 1 < 4096 then some (s.position + 1) else none }

/-- An append that succeeds: what each owner makes of it. -/
theorem State.finishAppend_spec (x : Append) (s : State) :
    (x.job.owner = .confirm → s.finishAppend x
        = { s.appended x with suc.boot := .confirmed, suc.trialLeft := 0, suc.trialRunning := false })
    ∧ (x.job.owner = .commit → s.imu.session.state = .committing → s.finishAppend x = ({ s.appended x with
        lines.restartReq := true, imu.session := { s.imu.session with state := .committed } } : State).raise
          (.imageState .committed .none s.imu.session.pages s.imu.session.version))
    ∧ (x.job.owner = .nobody ∨ x.job.owner = .commit ∧ s.imu.session.state ≠ .committing → s.finishAppend x = s.appended x)
    ∧ (x.job.owner = .trialStart → s.finishAppend x = State.riseReady x.job.slot .trial [] (s.appended x))
    ∧ ∀ a, x.job.owner = .fallbackStart a →
        s.finishAppend x = State.riseReady x.job.slot .confirmed [.fallback x.job.slot a true] (s.appended x) := by
  have hdone : s.finishAppend x = (s.appended x).toOwner x.job none := rfl
  rw [hdone]
  unfold State.toOwner
  refine ⟨fun ho => ?_, fun ho hc => ?_, fun h => ?_, fun ho => ?_, fun a ho => ?_⟩
  · rw [ho]
  · rw [ho]
    exact if_pos hc
  · rcases h with ho | ⟨ho, hc⟩ <;> rw [ho]
    exact if_neg hc
  · rw [ho]
  · rw [ho]
    rfl

/-! ## READs of a scan (R184) -/

theorem exec_selectorScanReadEnd {s : State} {live : Bool} {a n : Nat} (hp : s.imu.port = .reading .scan live a n) (flips : List Byte) :
    let sc := takeScan (s.suc.scan.getD Scan.start) (s.flashRead a n flips)
    exec (.selectorScanReadEnd flips) s = if live = true then
        if sc.pos < 65536 then .next { s with imu.port := .free, suc.scan := some sc }
        else .next { s with
          imu.port := .free, suc.scan := none, suc.newest := sc.newest.map Prod.snd, suc.appendPos := sc.free, suc.stale := false }
      else .next { s with imu.port := .free } := by
  have hrow : exec (.selectorScanReadEnd flips) s = execSelectorScanReadEnd flips s := rfl
  rw [hrow, execSelectorScanReadEnd, hp]

/-- The bytes of position `k` in the READs of a scan. -/
def scanPlace (reads : List (List Byte)) (k : Nat) : List Byte := (reads.flatten.drop (16 * k)).take 16

theorem entryErased_iff {bs : List Byte} (h : bs.length = 16) : entryErased bs = true ↔ bs = List.replicate 16 0xFF := by
  rw [entryErased, List.take_of_length_le (by omega), List.all_eq_true, List.eq_replicate_iff]
  simp [h]

/-- What a scan holds after the entries at the first `n` positions. -/
structure ScanHolds (place : Nat → List Byte) (n : Nat) (sc : Scan) : Prop where
  newest : sc.newest = newestBelow (fun k => entryOfBytes (place k)) n
  free : sc.free = (List.range n).find? (fun k => decide (place k = List.replicate 16 0xFF))

/-- A scan takes one entry more. -/
theorem ScanHolds.scanEntry {place : Nat → List Byte} {n : Nat} {sc : Scan} (h : ScanHolds place n sc) (hlen : (place n).length = 16) :
    ScanHolds place (n + 1) (Machine.scanEntry sc n (place n)) := by
  obtain ⟨hnewest, hfree⟩ := h
  unfold Machine.scanEntry
  cases he : entryErased (place n) with
  | true =>
    have hplace := (entryErased_iff hlen).1 he
    refine ⟨?_, ?_⟩
    · rw [newestBelow_succ, hplace, entryOfBytes_erased]
      exact hnewest
    · rw [List.range_succ, List.find?_append, ← hfree]
      cases sc.free <;> simp [hplace]
  | false =>
    have hplace : place n ≠ List.replicate 16 0xFF := fun hp => Bool.false_ne_true (he.symm.trans ((entryErased_iff hlen).2 hp))
    have hkept : sc.free = (List.range (n + 1)).find? (fun k => decide (place k = List.replicate 16 0xFF)) := by
      rw [List.range_succ, List.find?_append, ← hfree, List.find?_singleton, decide_eq_false hplace]
      cases sc.free <;> rfl
    cases hentry : entryOfBytes (place n) with
    | some e =>
      refine ⟨?_, hkept⟩
      rw [newestBelow_succ, hentry, ← hnewest]
      rfl
    | none =>
      refine ⟨?_, hkept⟩
      rw [newestBelow_succ, hentry]
      exact hnewest

theorem ScanHolds.congr {place place' : Nat → List Byte} {n : Nat} {sc sc' : Scan} (h : ScanHolds place n sc)
    (hplace : ∀ k, k < n → place' k = place k) (hnewest : sc'.newest = sc.newest) (hfree : sc'.free = sc.free) :
    ScanHolds place' n sc' := by
  refine ⟨?_, ?_⟩
  · rw [hnewest, h.newest]
    exact newestBelow_congr _ _ _ fun k hk => by rw [hplace k hk]
  · rw [hfree, h.free]
    refine List.find?_congr fun k hk => ?_
    rw [hplace k (List.mem_range.1 hk)]

theorem flatten_length_of_blocks {reads : List (List Byte)} (h : ∀ bs ∈ reads, bs.length = 32) :
    reads.flatten.length = 32 * reads.length := by
  induction reads with
  | nil => rfl
  | cons b bs ih =>
    rw [List.flatten_cons, List.length_append, h b List.mem_cons_self, ih fun c hc => h c (List.mem_cons_of_mem b hc), List.length_cons]
    omega

/-- The whole scan of READs of 32 bytes. -/
theorem scan_holds (reads : List (List Byte)) (h : ∀ bs ∈ reads, bs.length = 32) :
    (reads.foldl takeScan Scan.start).pos = 32 * reads.length
      ∧ ScanHolds (scanPlace reads) (2 * reads.length) (reads.foldl takeScan Scan.start) := by
  induction reads using List.reverseRecOn with
  | nil => exact ⟨rfl, rfl, rfl⟩
  | append_singleton reads bs ih =>
    obtain ⟨hpos, hholds⟩ := ih fun c hc => h c (List.mem_append_left _ hc)
    have hlen : bs.length = 32 := h bs (by simp)
    have hflat := flatten_length_of_blocks fun c hc => h c (List.mem_append_left [bs] hc)
    have hflatten : (reads ++ [bs]).flatten = reads.flatten ++ bs := by simp
    have hbefore : ∀ k, k < 2 * reads.length → scanPlace (reads ++ [bs]) k = scanPlace reads k := fun k hk => by
      rw [scanPlace, hflatten, List.drop_append_of_le_length (by omega), List.take_append_of_le_length]
      · rfl
      · rw [List.length_drop]
        omega
    have hfirst : scanPlace (reads ++ [bs]) (2 * reads.length) = bs.take 16 := by
      rw [scanPlace, hflatten, List.drop_append_of_le_length (by omega), List.drop_of_length_le (by omega), List.nil_append]
    have hsecond : scanPlace (reads ++ [bs]) (2 * reads.length + 1) = bs.drop 16 := by
      have hoffset : 16 * (2 * reads.length + 1) = reads.flatten.length + 16 := by omega
      rw [scanPlace, hflatten, hoffset, List.drop_length_add_append, List.take_of_length_le]
      rw [List.length_drop]
      omega
    rw [List.foldl_append, List.foldl_cons, List.foldl_nil, List.length_append, List.length_singleton]
    generalize hsc : reads.foldl takeScan Scan.start = sc at hpos hholds
    have hposition : sc.pos / 16 = 2 * reads.length := by omega
    refine ⟨?_, ?_⟩
    · rw [takeScan]
      dsimp only
      omega
    · have hone := (hholds.congr hbefore rfl rfl).scanEntry (by rw [hfirst, List.length_take]; omega)
      have htwo := hone.scanEntry (by rw [hsecond, List.length_drop]; omega)
      rw [hfirst, hsecond] at htwo
      rw [takeScan, hposition]
      exact htwo.congr (fun _ _ => rfl) rfl rfl

/-! ## Entries (R184) -/

theorem entryOfBytes_eq_some_iff (bs : List Byte) (e : Entry) :
    entryOfBytes bs = some e ↔ byteWord bs 3 = ~~~(byteWord bs 0 ^^^ byteWord bs 1 ^^^ byteWord bs 2)
        ∧ field (byteWord bs 1) 0 8 = (if e.slot = .a then 1 else 2)
        ∧ field (byteWord bs 1) 8 8 = (if e.boot = .confirmed then 1 else 2)
        ∧ e.seq = byteWord bs 0 ∧ e.attempts = field (byteWord bs 1) 16 3 ∧ e.fallback = bit (byteWord bs 1) 24 := by
  obtain ⟨seq, slot, boot, attempts, fallback⟩ := e
  unfold entryOfBytes
  dsimp only
  by_cases hcheck : byteWord bs 3 = ~~~(byteWord bs 0 ^^^ byteWord bs 1 ^^^ byteWord bs 2)
  · rw [if_pos hcheck]
    generalize field (byteWord bs 1) 0 8 = slotCode
    generalize field (byteWord bs 1) 8 8 = bootCode
    split <;> cases slot <;> cases boot <;> simp_all [eq_comm]
  · rw [if_neg hcheck]
    simp [hcheck]

end Sys2Proof.Machine

/-! PROOFS. OwnReadsEnd (sections 9.6, 10.2 and 10.3). -/
namespace Sys2Proof.Machine

/-- The last verify READ of a session brings the comparison. -/
theorem State.takeReadback_last {s : State} {bytes : List Byte} (h : s.imu.session.length ≤ s.imu.session.rbPos + bytes.length) :
    s.takeReadback bytes = State.judgeReadback { s with imu.session := s.imu.session.readBack bytes } :=
  (s.takeReadback_eq bytes).trans (if_pos h)

theorem State.takeReadback_more {s : State} {bytes : List Byte} (h : s.imu.session.rbPos + bytes.length < s.imu.session.length) :
    s.takeReadback bytes = { s with imu.session := s.imu.session.readBack bytes } :=
  (s.takeReadback_eq bytes).trans (if_neg (not_le.2 h))

/-! ## The outcomes of a failed append with the port free -/

theorem State.failAppend_withFreePort_confirm {x : Append} (ho : x.job.owner = .confirm) (v : State) :
    v.withFreePort.failAppend x .flashFault = { v with
      imu.port := .free, suc.append := none, suc.stale := true, suc.flashFault := true, suc.trialRunning := true } := by
  rw [(State.failAppend_spec x .flashFault v.withFreePort).2.2.1 ho]
  rfl

theorem State.failAppend_withFreePort_commit {x : Append} (ho : x.job.owner = .commit) {v : State} {m : Session}
    (hm : v.imu.session = m) (hc : m.state = .committing) :
    v.withFreePort.failAppend x .flashFault = State.raise (.imageState .failed .flashFault m.pages m.version) { v with
      imu.port := .free, imu.lastFail := .flashFault, imu.session := { m with state := .failed, current := [], queue := [] }
      suc.append := none, suc.stale := true, suc.flashFault := true } := by
  subst hm
  rw [(State.failAppend_spec x .flashFault v.withFreePort).1 ho hc]
  rfl

theorem State.failAppend_withFreePort_gone {x : Append} {v : State}
    (ho : x.job.owner = .nobody ∨ x.job.owner = .commit ∧ v.imu.session.state ≠ .committing) :
    v.withFreePort.failAppend x .flashFault
      = { v with imu.port := .free, suc.append := none, suc.stale := true, suc.flashFault := true } := by
  rw [(State.failAppend_spec x .flashFault v.withFreePort).2.1 ho]
  rfl

theorem State.failAppend_withFreePort_fallback {x : Append} {a : Nat} (ho : x.job.owner = .fallbackStart a) (v : State) :
    v.withFreePort.failAppend x .flashFault = State.riseReady x.job.slot .confirmed [.fallback x.job.slot a true]
      { v with imu.port := .free, suc.append := none, suc.stale := true, suc.flashFault := true } := by
  rw [(State.failAppend_spec x .flashFault v.withFreePort).2.2.2 _ a (.inr ⟨ho, rfl⟩)]
  rfl

theorem State.voidPlace_session (s : State) : s.voidPlace.imu.session = s.imu.session :=
  (s.voidPlace_frame.session (by decide)).1

/-! ## The outcomes of a read-back, by the append's owner -/

section
variable {s : State} {live : Bool} {p n : Nat} (hp : s.imu.port = .reading .readback live p n) {flips : List Byte} {x : Append}
  (hx : s.suc.append = some x)
include hp hx

theorem readback_equal_confirm (h : s.flashRead p n flips = x.entry.bytes) (ho : x.job.owner = .confirm) :
    exec (.selectorReadbackEnd flips) s = .next { s.withFreePort.appended x with
      suc.boot := .confirmed, suc.trialLeft := 0, suc.trialRunning := false } := by
  rw [exec_selectorReadbackEnd_equal hp hx h, (s.withFreePort.finishAppend_spec x).1 ho]

theorem readback_equal_commit (h : s.flashRead p n flips = x.entry.bytes) (ho : x.job.owner = .commit)
    (hc : s.imu.session.state = .committing) :
    exec (.selectorReadbackEnd flips) s = .next (State.raise
      (.imageState .committed .none s.imu.session.pages s.imu.session.version) { s.withFreePort.appended x with
        lines.restartReq := true, imu.session := { s.imu.session with state := .committed } }) := by
  rw [exec_selectorReadbackEnd_equal hp hx h, (s.withFreePort.finishAppend_spec x).2.1 ho hc, State.withFreePort_session]

theorem readback_equal_gone (h : s.flashRead p n flips = x.entry.bytes)
    (ho : x.job.owner = .nobody ∨ x.job.owner = .commit ∧ s.imu.session.state ≠ .committing) :
    exec (.selectorReadbackEnd flips) s = .next (s.withFreePort.appended x) := by
  rw [exec_selectorReadbackEnd_equal hp hx h, (s.withFreePort.finishAppend_spec x).2.2.1 ho]

theorem readback_equal_fallback (h : s.flashRead p n flips = x.entry.bytes) {a : Nat} (ho : x.job.owner = .fallbackStart a) :
    exec (.selectorReadbackEnd flips) s
      = .next (State.riseReady x.job.slot .confirmed [.fallback x.job.slot a true] (s.withFreePort.appended x)) := by
  rw [exec_selectorReadbackEnd_equal hp hx h, (s.withFreePort.finishAppend_spec x).2.2.2.2 a ho]

theorem readback_differs_confirm (h : s.flashRead p n flips ≠ x.entry.bytes) (ho : x.job.owner = .confirm) :
    exec (.selectorReadbackEnd flips) s = .next { s.voidPlace with
      imu.port := .free, suc.append := none, suc.stale := true, suc.flashFault := true, suc.trialRunning := true } := by
  rw [exec_selectorReadbackEnd_differs hp hx h, State.failAppend_withFreePort_confirm ho]

theorem readback_differs_commit (h : s.flashRead p n flips ≠ x.entry.bytes) (ho : x.job.owner = .commit)
    (hc : s.imu.session.state = .committing) :
    exec (.selectorReadbackEnd flips) s = .next (State.raise
      (.imageState .failed .flashFault s.imu.session.pages s.imu.session.version) { s.voidPlace with
        imu.port := .free
        imu.lastFail := .flashFault
        imu.session := { s.imu.session with state := .failed, current := [], queue := [] }
        suc.append := none, suc.stale := true, suc.flashFault := true }) := by
  rw [exec_selectorReadbackEnd_differs hp hx h, State.failAppend_withFreePort_commit ho s.voidPlace_session hc]

theorem readback_differs_gone (h : s.flashRead p n flips ≠ x.entry.bytes)
    (ho : x.job.owner = .nobody ∨ x.job.owner = .commit ∧ s.imu.session.state ≠ .committing) :
    exec (.selectorReadbackEnd flips) s = .next { s.voidPlace with
      imu.port := .free, suc.append := none, suc.stale := true, suc.flashFault := true } := by
  rw [exec_selectorReadbackEnd_differs hp hx h, State.failAppend_withFreePort_gone (by rwa [s.voidPlace_session])]

theorem readback_differs_fallback (h : s.flashRead p n flips ≠ x.entry.bytes) {a : Nat} (ho : x.job.owner = .fallbackStart a) :
    exec (.selectorReadbackEnd flips) s
      = .next (State.riseReady x.job.slot .confirmed [.fallback x.job.slot a true] { s.voidPlace with
          imu.port := .free, suc.append := none, suc.stale := true, suc.flashFault := true }) := by
  rw [exec_selectorReadbackEnd_differs hp hx h, State.failAppend_withFreePort_fallback ho]

end

/-- Settles O52: the three kinds of READ by their rows, what a whole scan holds, and when sixteen bytes are an entry. -/
theorem ownReadsEnd : Obligations.OwnReadsEnd := by
  refine ⟨fun flips live a n s hp => ?_, fun flips live p n s hp => ?_, fun flips live a n s hp => ?_, fun reads hreads => ?_,
    fun bs e => entryOfBytes_eq_some_iff bs e⟩
  · intro m rb s1
    obtain ⟨hdiscarded, htaken⟩ := exec_verifyReadEnd hp flips
    have hlen : (s.flashRead a n flips).length = n := s.flashRead_length a n flips
    have hread : ({ s with imu.port := .free, imu.session := m.readBack (s.flashRead a n flips) } : State) = s1 := by
      rw [Session.readBack, hlen]
    refine ⟨hdiscarded, fun hl hc hmore => ?_, fun hl hc hlast => ?_⟩
    · rw [htaken hl hc, State.takeReadback_more (by rw [hlen]; exact hmore)]
      exact congrArg Host.Outcome.next hread
    · have hjudge : ({ s with imu.port := .free } : State).takeReadback (s.flashRead a n flips) = s1.judgeReadback := by
        rw [State.takeReadback_last (by rw [hlen]; exact hlast)]
        exact congrArg State.judgeReadback hread
      obtain ⟨hreadback, hcrc, hverified⟩ := s1.judgeReadback_spec
      rw [htaken hl hc, hjudge]
      exact ⟨_, rfl, ⟨fun h => hreadback h, fun h h' => hcrc h h'⟩, fun h h' => hverified h h'⟩
  · refine ⟨exec_selectorReadbackEnd_ownerless hp, fun x hx => ⟨s.voidPlace, s.voidPlace_noEntryLeft,
      fun h ho => readback_equal_confirm hp hx h ho, fun h ho => readback_differs_confirm hp hx h ho,
      fun h ho hc => ⟨_, readback_equal_commit hp hx h ho hc, rfl⟩, fun h ho hc => readback_differs_commit hp hx h ho hc,
      fun ho => ⟨fun h => readback_equal_gone hp hx h ho, fun h => readback_differs_gone hp hx h ho⟩,
      fun a ho => ⟨fun h => readback_equal_fallback hp hx h ho, fun h => readback_differs_fallback hp hx h ho⟩⟩⟩
  · intro sc
    have hrow := exec_selectorScanReadEnd hp flips
    refine ⟨fun hl => ?_, fun hl hmore => ?_, fun hl hlast => ?_⟩ <;> rw [hrow, hl]
    · rfl
    · exact if_pos hmore
    · exact if_neg (Nat.not_lt.2 hlast)
  · intro sc place n
    obtain ⟨hpos, hnewest, hfree⟩ := scan_holds reads hreads
    have hsc : sc = reads.foldl takeScan Scan.start := rfl
    rw [← hsc] at hpos hnewest hfree
    refine ⟨by omega, ?_, fun k e h => ?_, ?_, fun k => ?_⟩
    · rcases newestBelow_cases (fun k => entryOfBytes (place k)) n with ⟨hn, hall⟩ | ⟨k, e, hn, hk, hke, -⟩
      · exact iff_of_true (hnewest.trans hn) hall
      · refine iff_of_false (fun h => ?_) fun hall => ?_
        · exact nomatch (hnewest.symm.trans h).symm.trans hn
        · exact nomatch hke.symm.trans (hall k hk)
    · rcases newestBelow_cases (fun k => entryOfBytes (place k)) n with ⟨hn, -⟩ | ⟨j, f, hn, hj, hjf, hall⟩
      · exact nomatch (hnewest.symm.trans h).symm.trans hn
      · obtain ⟨rfl, rfl⟩ := Prod.mk.inj (Option.some.inj ((hnewest.symm.trans h).symm.trans hn))
        exact ⟨hj, hjf, hall⟩
    · rw [hfree, List.find?_eq_none]
      simp only [List.mem_range, decide_eq_true_eq]
      exact Iff.rfl
    · rw [hfree, List.find?_range_eq_some]
      simp only [List.mem_range, decide_eq_true_eq, Bool.not_eq_true', decide_eq_false_iff_not]
      exact and_left_comm

end Sys2Proof.Machine

/-! PROOFS. The decision of SELECTING and READY's rise (sections 1.1, 10.4 and 10.5). -/
namespace Sys2Proof.Machine

/-! ## A transaction held for READY (R4) -/

theorem Frame.inHand {F : List Piece} {s t : State} (h : Frame F s t) (hp : .hand ∉ F) : t.ptu.inHand = s.ptu.inHand := by
  simpa only [State.without, Piece.pick_of_not_mem hp] using congrArg (fun u => u.ptu.inHand) h

theorem State.takeUpHeld_of_empty {s : State} (h : s.ptu.inHand = none) : s.takeUpHeld = s := by
  unfold State.takeUpHeld
  rw [h]

theorem State.takeUpHeld_of_other {s : State} {h : InHand} (hh : s.ptu.inHand = some h) (hp : h.phase ≠ .readyLow) : s.takeUpHeld = s := by
  unfold State.takeUpHeld
  rw [hh]
  exact if_neg hp

/-- The hold of a transaction has exceeded the limit of its window (R3). -/
def State.holdSpent (s : State) (h : InHand) : Prop := ∃ l, s.holdLimit (s.windowAt h.txn.addr) = some l ∧ l < h.heldUs

theorem State.takeUpHeld_of_readyLow {s : State} {h : InHand} (hh : s.ptu.inHand = some h) (hp : h.phase = .readyLow) :
    (s.holdSpent h → s.takeUpHeld = s.endTxn h .err) ∧ (¬s.holdSpent h → s.takeUpHeld = s.takeUp h) := by
  unfold State.takeUpHeld State.holdSpent
  rw [hh]
  dsimp only
  rw [if_pos hp]
  cases hl : s.holdLimit (s.windowAt h.txn.addr) with
  | none => exact ⟨fun ⟨_, h, _⟩ => (nomatch h), fun _ => rfl⟩
  | some l =>
    refine ⟨fun ⟨_, h1, h2⟩ => ?_, fun hno => if_neg fun hlt => hno ⟨l, rfl, hlt⟩⟩
    obtain rfl := Option.some.inj h1
    exact if_pos h2

theorem State.holdSpent_iff (s : State) (h : InHand) : s.holdSpent h ↔ ∃ w, s.windowAt h.txn.addr = some w ∧ w.kind ≠ .report ∧
    (if w.kind = .txRing ∨ w.kind = .rxRing ∨ w.kind = .control then s.ptu.inspectLimit else s.ptu.flashLimit) < h.heldUs := by
  unfold State.holdSpent
  cases hw : s.windowAt h.txn.addr with
  | none => exact ⟨fun ⟨_, h, _⟩ => (nomatch h), fun ⟨_, h, _⟩ => (nomatch h)⟩
  | some w =>
    unfold State.holdLimit
    cases hk : w.kind <;> simp [hk]

/-- A transaction taken up after READY has risen is taken as a new one, but for the hold it has had (R4; log 34). -/
theorem State.takeUp_as_new (h : InHand) (s : State) :
    let t := State.takeUp { txn := h.txn, window := none, phase := .readyLow, heldUs := 0 } { s with ptu.inHand := none }
    s.takeUp h = { t with ptu.inHand := t.ptu.inHand.map (fun g => { g with heldUs := h.heldUs, late := h.late }) } := by
  intro t
  have ht : t = match s.windowAt h.txn.addr with
    | none =>
      if h.txn.addr < 0x8000000 then State.toPhase { txn := h.txn, window := none, phase := .readyLow, heldUs := 0 }
        (.sramWait .plain) { s with ptu.inHand := none }
      else s.endTxn h .err
    | some w =>
      if permitted w h.txn then State.toPhase { txn := h.txn, window := some w, phase := .readyLow, heldUs := 0 }
        (routeOf w h.txn) { s with ptu.inHand := none }
      else (s.endTxn h (deniedReply h.txn.dir)).protectEvent w h.txn := rfl
  clear_value t
  unfold State.takeUp
  cases hw : s.windowAt h.txn.addr with
  | none =>
    rw [hw] at ht
    dsimp only at ht ⊢
    by_cases ha : h.txn.addr < 0x8000000
    · rw [ht, if_pos ha, if_pos ha]
      rfl
    · rw [ht, if_neg ha, if_neg ha]
      rfl
  | some w =>
    rw [hw] at ht
    dsimp only at ht ⊢
    by_cases hp : permitted w h.txn = true
    · rw [ht, if_pos hp, if_pos hp]
      rfl
    · rw [if_neg hp] at ht ⊢
      have hempty : t.ptu.inHand = none := by
        rw [ht, (State.protectEvent_runs w h.txn _).frame.inHand (by decide)]
        rfl
      calc _ = t := ht.symm
        _ = { t with ptu.inHand := none } := by rw [← hempty]
        _ = _ := by rw [hempty]; rfl

theorem exec_busTransaction_of_ready {s : State} {x : Transaction} (haddr : x.addr < 2 ^ 28) (hwf : x.wf = true)
    (hempty : s.ptu.inHand = none) (hready : s.lines.ready = true) :
    exec (.busTransaction x) s = .next (s.takeUp { txn := x, window := none, phase := .readyLow, heldUs := 0 }) := by
  have hrow : exec (.busTransaction x) s = execBusTransaction x s := rfl
  rw [hrow, execBusTransaction, if_neg (not_le.2 haddr), if_pos hwf, hempty]
  exact if_pos hready

/-! ## The decision (R188) -/

theorem State.decideStart_first {s : State} (h : s.suc.newest = none ∨ s.suc.noFlash = true) :
    s.decideStart = s.riseReady .a .confirmed [] := by
  have hnone : (if s.suc.noFlash then none else s.suc.newest) = none := by
    rcases h with h | h <;> simp [h]
  unfold State.decideStart
  rw [hnone]
  rfl

theorem State.decideStart_some {s : State} {e : Entry} (h : s.suc.newest = some e) (hf : s.suc.noFlash = false) :
    s.decideStart = match selection s.suc.maxAttempts (some e) with
      | .settled sl fb => s.riseReady sl .confirmed fb
      | .appends j => { s with suc.decided := true, suc.jobs := s.suc.jobs ++ [j] } := by
  unfold State.decideStart
  rw [hf, h] <;> rfl

theorem exec_selectingDecision {s : State} (h : s.canDecide = true) : exec .selectingDecision s = .next s.decideStart := if_pos h

theorem Slot.other_eq (sl : Slot) : sl.other = if sl = .a then .b else .a := by cases sl <;> rfl

theorem State.failAppend_withFreePort_trial {x : Append} (ho : x.job.owner = .trialStart) (v : State) :
    v.withFreePort.failAppend x .flashFault
      = State.riseReady (if x.job.slot = .a then .b else .a) .confirmed
          [.fallback (if x.job.slot = .a then .b else .a) x.job.attempts true]
          { v with imu.port := .free, suc.append := none, suc.stale := true, suc.flashFault := true } := by
  rw [(State.failAppend_spec x .flashFault v.withFreePort).2.2.2 _ _ (.inl ⟨ho, rfl, rfl⟩)]
  rfl

/-- Settles O54: READY's rise by its definition, the held transaction, the two ends of a trial's append, and the decision. -/
theorem selectingDecides : Obligations.SelectingDecides := by
  refine ⟨fun sl boot fb s => rfl, fun s hready => ⟨State.takeUpHeld_of_empty, fun h hh => ⟨State.takeUpHeld_of_other hh,
    fun hp haddr hwf => ?_⟩⟩, fun flips live p n x s hp hx ho => ⟨fun h => ?_, fun h => ?_⟩, fun s hs => ⟨fun h => ?_, fun e he hf => ?_⟩⟩
  · intro spent
    obtain ⟨hspent, hkept⟩ := State.takeUpHeld_of_readyLow hh hp
    rw [s.holdSpent_iff h] at hspent hkept
    refine ⟨fun h => hspent h, fun hno => ⟨_, ?_, (hkept hno).trans (s.takeUp_as_new h)⟩⟩
    exact exec_busTransaction_of_ready (s := { s with ptu.inHand := none }) haddr hwf rfl hready
  · rw [exec_selectorReadbackEnd_equal hp hx h, (s.withFreePort.finishAppend_spec x).2.2.2.1 ho]
    rfl
  · refine ⟨s.voidPlace, s.voidPlace_noEntryLeft, ?_⟩
    rw [exec_selectorReadbackEnd_differs hp hx h, State.failAppend_withFreePort_trial ho]
  · rw [exec_selectingDecision hs, State.decideStart_first h]
  · rw [exec_selectingDecision hs, State.decideStart_some he hf]
    refine ⟨fun hb => ?_, fun hb hle => ?_, fun hb hlt => ?_⟩ <;> unfold selection <;> dsimp only <;> rw [hb] <;> dsimp only
    · rfl
    · rw [if_pos hle]
    · rw [if_neg (not_le.2 hlt), Slot.other_eq]

end Sys2Proof.Machine

/-! PROOFS. Loading the configuration (sections 1.2, 10.4 and 11.5). -/
namespace Sys2Proof.Machine

/-! ## Installing (R187) -/

theorem State.joinQueue_path (b : ReportBody) (s : State) : (s.joinQueue b).cau.path = s.cau.path := by
  unfold State.joinQueue
  split <;> rfl

/-- A report raised while the ring begins waits in the queue. -/
theorem State.raise_of_zeroing {s : State} (h : s.cau.path = .zeroing) (b : ReportBody) : s.raise b = s.joinQueue b := by
  rw [State.raise]
  rcases (s.joinQueue b).pumpReports_cases with he | ⟨r, rest, hidle, -, -, -⟩
  · exact he
  · exact nomatch h.symm.trans ((s.joinQueue_path b).symm.trans hidle)

theorem State.joinQueue_eq (b : ReportBody) (s : State) : s.joinQueue b
    = { s with cau.pending := (s.joinQueue b).cau.pending, cau.gap := (s.joinQueue b).cau.gap } := by
  unfold State.joinQueue
  split <;> rfl

/-- The built-in configuration is installed, but for its report. -/
def State.defaulted (r : DefaultedReason) (s : State) : State := { s.install builtIn with
  suc.defaulted := true, suc.flashFault := s.suc.flashFault || r == .noFlash, suc.noFlash := r == .noFlash }

theorem State.installDefaults_eq (r : DefaultedReason) (s : State) :
    s.installDefaults r = (s.defaulted r).joinQueue (.configDefaulted r) := by
  have hraise : s.installDefaults r = (s.defaulted r).raise (.configDefaulted r) := by
    cases r <;> rfl
  rw [hraise]
  exact State.raise_of_zeroing rfl _

theorem State.installDefaults_pending (r : DefaultedReason) (s : State) : (s.installDefaults r).cau.pending
    = (({ s with cau.gap := false } : State).raise (.configDefaulted r)).cau.pending := by
  rw [State.installDefaults_eq, ← State.raise_of_zeroing (s := s.defaulted r) rfl]
  exact State.raise_pending_congr _ rfl rfl rfl

theorem State.installDefaults_shape (r : DefaultedReason) (s : State) : let t := s.installDefaults r
    t = { s.defaulted r with cau.pending := t.cau.pending, cau.gap := t.cau.gap } := by
  intro t
  have ht : t = (s.defaulted r).joinQueue (.configDefaulted r) := s.installDefaults_eq r
  rw [ht]
  exact State.joinQueue_eq _ _

theorem State.installDefaults_suc (r : DefaultedReason) (s : State) : (s.installDefaults r).suc = (s.defaulted r).suc :=
  (congrArg State.suc (s.installDefaults_shape r)).trans rfl

/-! ## A flash that does not respond (R186) -/

theorem exec_flashNoResponse {s : State} (hstart : s.suc.startUp = .loading) (hload : s.suc.load = .status) :
    exec .flashNoResponse s = if 4000000 ≤ s.suc.loadUs then .next s.noResponse else .next s := by
  have hrow : exec .flashNoResponse s = execFlashNoResponse s := rfl
  rw [hrow, execFlashNoResponse]
  exact if_congr ⟨fun h => h.2.2, fun h => ⟨hstart, hload, h⟩⟩ rfl rfl

theorem exec_loadingReadStatus {s : State} (hstart : s.suc.startUp = .loading) (hload : s.suc.load = .status) :
    exec (.loadingReadStatus true) s = .next s
      ∧ exec (.loadingReadStatus false) s
        = if 4000000 < s.suc.loadUs then .next s.noResponse else .next { s with suc.load := .header } :=
  ⟨if_neg fun h => Bool.noConfusion h.2.2, if_pos ⟨hstart, hload, rfl⟩⟩

theorem State.noResponse_eq (s : State) :
    s.noResponse = ({ s with suc.loadUs := s.noResponse.suc.loadUs } : State).installDefaults .noFlash := by
  have hsuc : s.noResponse.suc.loadUs = max s.suc.loadUs noResponseUs :=
    congrArg Suc.loadUs (State.installDefaults_suc .noFlash { s with suc.loadUs := max s.suc.loadUs noResponseUs })
  rw [hsuc]
  rfl

/-! ## The window map (R7) -/

theorem windowKindOfCode_of_le {c : Nat} (h : c ≠ 0) (hc : c ≤ 8) : windowKindOfCode c
    = some ([.txRing, .rxRing, .control, .report, .boot, .config, .image, .staging].getD (c - 1) .control) := by
  interval_cases c <;> simp_all [windowKindOfCode]

theorem windowKindOfCode_of_gt {c : Nat} (h : 8 < c) : windowKindOfCode c = none := by
  unfold windowKindOfCode
  split <;> simp_all

/-- The kind code of map entry `e`. -/
def kindCode (bs : List Byte) (e : Nat) : Nat := field (byteWord bs (10 + 4 * e)) 0 4

/-- Map entry `e` as section 11.5 lays it out. -/
def mapEntry (bs : List Byte) (e : Nat) : Window :=
  { entry := e, base := (byteWord bs (8 + 4 * e)).toNat, size := (byteWord bs (9 + 4 * e)).toNat
    kind := [.txRing, .rxRing, .control, .report, .boot, .config, .image, .staging].getD (kindCode bs e - 1) .control
    readMask := BitVec.ofNat 16 (field (byteWord bs (11 + 4 * e)) 0 16)
    writeMask := BitVec.ofNat 16 (field (byteWord bs (11 + 4 * e)) 16 16)
    ringId := field (byteWord bs (10 + 4 * e)) 8 3, ringMaster := field (byteWord bs (10 + 4 * e)) 12 4
    descCount := field (byteWord bs (10 + 4 * e)) 16 16 }

theorem windowOfBlock_eq (bs : List Byte) (e : Nat) :
    windowOfBlock bs e = if kindCode bs e = 0 then some none else if 8 < kindCode bs e then none else some (some (mapEntry bs e)) := by
  have h1 : 8 + 4 * e + 1 = 9 + 4 * e := by omega
  have h2 : 8 + 4 * e + 2 = 10 + 4 * e := by omega
  have h3 : 8 + 4 * e + 3 = 11 + 4 * e := by omega
  unfold windowOfBlock
  simp only [Nat.add_zero, h1, h2, h3]
  by_cases hzero : kindCode bs e = 0
  · rw [if_pos hzero]
    exact if_pos hzero
  · rw [if_neg hzero]
    refine (if_neg hzero).trans ?_
    by_cases hgt : 8 < kindCode bs e
    · rw [if_pos hgt]
      rw [kindCode] at hgt
      rw [windowKindOfCode_of_gt hgt]
    · rw [if_neg hgt]
      rw [kindCode] at hgt hzero
      rw [windowKindOfCode_of_le hzero (Nat.le_of_not_lt hgt)]
      rfl

/-- The used entries of a block's map. -/
def usedEntries (bs : List Byte) : List Window := ((List.range 24).filter (fun e => kindCode bs e != 0)).map (mapEntry bs)

theorem mapM_eq_some {α β : Type} {f : α → Option β} {g : α → β} {l : List α} (h : ∀ a ∈ l, f a = some (g a)) :
    l.mapM f = some (l.map g) := by
  induction l with
  | nil => rfl
  | cons a l ih =>
    rw [List.mapM_cons, h a List.mem_cons_self, ih fun b hb => h b (List.mem_cons_of_mem a hb)]
    rfl

theorem mapM_eq_none {α β : Type} {f : α → Option β} {l : List α} (h : ∃ a ∈ l, f a = none) : l.mapM f = none := by
  obtain ⟨a, ha, hf⟩ := h
  induction l with
  | nil => exact absurd ha List.not_mem_nil
  | cons b l ih =>
    rw [List.mapM_cons]
    rcases List.mem_cons.1 ha with rfl | ha
    · rw [hf]
      rfl
    · rw [ih ha]
      cases f b <;> rfl

theorem windowsOfBlock_of_bad {bs : List Byte} (h : ∃ e, e < 24 ∧ 8 < kindCode bs e) : windowsOfBlock bs = none := by
  obtain ⟨e, he, hcode⟩ := h
  have hentry : windowOfBlock bs e = none := by
    rw [windowOfBlock_eq, if_neg (Nat.ne_of_gt (Nat.zero_lt_of_lt hcode)), if_pos hcode]
  rw [windowsOfBlock, mapM_eq_none ⟨e, List.mem_range.2 he, hentry⟩, Option.map_none]

theorem filterMap_used (bs : List Byte) (l : List Nat) :
    (l.map fun e => if kindCode bs e = 0 then none else some (mapEntry bs e)).filterMap id
      = (l.filter (fun e => kindCode bs e != 0)).map (mapEntry bs) := by
  induction l with
  | nil => rfl
  | cons e l ih =>
    rw [List.map_cons, List.filterMap_cons, ih]
    by_cases hzero : kindCode bs e = 0
    · rw [if_pos hzero, List.filter_cons_of_neg (by simp [hzero])]
      rfl
    · rw [if_neg hzero, List.filter_cons_of_pos (by simp [hzero])]
      rfl

theorem windowsOfBlock_of_good {bs : List Byte} (h : ∀ e, e < 24 → kindCode bs e ≤ 8) : windowsOfBlock bs = some (usedEntries bs) := by
  have hentries : (List.range 24).mapM (windowOfBlock bs)
      = some ((List.range 24).map fun e => if kindCode bs e = 0 then none else some (mapEntry bs e)) :=
    mapM_eq_some fun e he => by
      rw [windowOfBlock_eq, if_neg (not_lt.2 (h e (List.mem_range.1 he)))]
      split <;> rfl
  rw [windowsOfBlock, hentries, Option.map_some, filterMap_used, usedEntries]

end Sys2Proof.Machine

/-! PROOFS. LoadingTheConfiguration (section 10.4). -/
namespace Sys2Proof.Machine

theorem clamp_eq {lo hi : Nat} (h : lo ≤ hi) (v : Nat) : clamp lo hi v = max lo (min hi v) := by
  unfold clamp
  split
  · omega
  · split <;> omega

/-! ## The tests of a whole block (R186) -/

section
variable {bs : List Byte} {crc : Word}

theorem judgeBlock_crc (h : crcOf crc ≠ byteWord bs 3) : judgeBlock bs crc = .error .crc := if_pos h

theorem judgeBlock_node (h : crcOf crc = byteWord bs 3) (hnode : 7 < field (byteWord bs 4) 0 8) : judgeBlock bs crc = .error .node := by
  rw [judgeBlock, if_neg (not_not_intro h), if_pos hnode]

theorem judgeBlock_port (h : crcOf crc = byteWord bs 3) (hnode : field (byteWord bs 4) 0 8 ≤ 7) (hport : 15 < field (byteWord bs 4) 8 8) :
    judgeBlock bs crc = .error .port := by
  rw [judgeBlock, if_neg (not_not_intro h), if_neg (not_lt.2 hnode), if_pos hport]

section
variable (h : crcOf crc = byteWord bs 3) (hnode : field (byteWord bs 4) 0 8 ≤ 7) (hport : field (byteWord bs 4) 8 8 ≤ 15)
include h hnode hport

theorem judgeBlock_windows (hbad : (∃ e, e < 24 ∧ 8 < kindCode bs e) ∨ ¬MapRules (usedEntries bs)) :
    judgeBlock bs crc = .error .windows := by
  rw [judgeBlock, if_neg (not_not_intro h), if_neg (not_lt.2 hnode), if_neg (not_lt.2 hport)]
  by_cases hcode : ∃ e, e < 24 ∧ 8 < kindCode bs e
  · rw [windowsOfBlock_of_bad hcode]
  · have hle : ∀ e, e < 24 → kindCode bs e ≤ 8 := fun e he => not_lt.1 fun hgt => hcode ⟨e, he, hgt⟩
    rw [windowsOfBlock_of_good hle]
    exact if_neg fun hvalid => hbad.resolve_left hcode ((mapValid_iff_mapRules _).1 hvalid)

theorem judgeBlock_ok (hcode : ∀ e, e < 24 → kindCode bs e ≤ 8) (hrules : MapRules (usedEntries bs)) : judgeBlock bs crc = .ok
    { windows := usedEntries bs
      inspectLimit := max 2 (min 32 (field (byteWord bs 5) 0 16)), flashLimit := max 20 (min 500 (field (byteWord bs 5) 16 16))
      node := field (byteWord bs 4) 0 8, backhaul := field (byteWord bs 4) 8 8
      trialWindow := max 60 (min 1800 (field (byteWord bs 6) 0 16)), maxAttempts := max 1 (min 7 (field (byteWord bs 6) 16 8)) } := by
  rw [judgeBlock, if_neg (not_not_intro h), if_neg (not_lt.2 hnode), if_neg (not_lt.2 hport), windowsOfBlock_of_good hcode]
  dsimp only
  rw [if_pos ((mapValid_iff_mapRules _).2 hrules), clamp_eq (by decide), clamp_eq (by decide), clamp_eq (by decide), clamp_eq (by decide)]

end

end

/-! ## READs of the block -/

theorem exec_configBlockReadEnd {s : State} {live : Bool} {a n : Nat} (hp : s.imu.port = .reading .config live a n)
    (hl : s.suc.startUp = .loading) (flips : List Byte) : exec (.configBlockReadEnd flips) s
      = .next (({ s with imu.port := .free } : State).takeConfig (s.flashRead a n flips)).judgeConfig := by
  have hrow : exec (.configBlockReadEnd flips) s = execConfigBlockReadEnd flips s := rfl
  rw [hrow, execConfigBlockReadEnd, hp]
  exact if_pos hl

theorem headerFault_eq (bs : List Byte) : headerFault bs =
    if byteWord bs 0 ≠ 0x53374C43#32 then some .magic
    else if field (byteWord bs 1) 0 8 ≠ 1 then some .format
    else if blockLength bs < 416 ∨ 65536 < blockLength bs then some .length else none := by
  unfold headerFault
  have hlength : (blockLength bs < 64 ∨ 65536 < blockLength bs ∨ blockLength bs < 416) ↔ (blockLength bs < 416 ∨ 65536 < blockLength bs) := by
    omega
  rw [if_congr hlength rfl rfl]

theorem State.judgeConfig_header {s : State} (h : s.suc.load = .header) :
    s.judgeConfig = if s.suc.cfgPos < 16 then s
      else match headerFault s.suc.cfgBytes with
        | some r => s.installDefaults r
        | none => { s with suc.load := .body } := by
  unfold State.judgeConfig
  rw [h] <;> rfl

theorem State.judgeConfig_body {s : State} (h : s.suc.load = .body) :
    s.judgeConfig = if s.suc.cfgPos < blockLength s.suc.cfgBytes then s
      else match judgeBlock s.suc.cfgBytes s.suc.cfgCrc with
        | .error r => s.installDefaults r
        | .ok c => s.install c := by
  unfold State.judgeConfig
  rw [h] <;> rfl

/-- Settles O53: the wait for the flash, what a default installs, the built-in map, an install, the block's tests, and its READs. -/
theorem loadingTheConfiguration : Obligations.LoadingTheConfiguration := by
  refine ⟨fun s hstart hload => ?_, fun r s => ?_, (mapValid_iff_mapRules _).1 (by decide), by decide, by decide, fun c s => rfl,
    fun bs crc => ⟨judgeBlock_crc, fun h => ⟨judgeBlock_node h, judgeBlock_port h, fun hnode hport =>
      ⟨judgeBlock_windows h hnode hport, judgeBlock_ok h hnode hport⟩⟩⟩, fun flips live a n s hp hl => ?_⟩
  · obtain ⟨hbusy, hclear⟩ := exec_loadingReadStatus hstart hload
    have hnone := exec_flashNoResponse hstart hload
    refine ⟨hbusy, fun h => ?_, fun h => ?_, fun h => ?_, fun h => ⟨s.noResponse, ?_, s.noResponse_eq, ?_, ?_, ?_⟩⟩
    · rw [hclear, if_neg (not_lt.2 h)]
    · rw [hclear, if_pos h, hnone, if_pos (Nat.le_of_lt h)]
    · rw [hnone, if_neg (not_le.2 h)]
    · rw [hnone, if_pos h]
    all_goals rw [s.noResponse_eq, State.installDefaults_suc]
    · rfl
    · rfl
    · exact Bool.or_true _
  · exact ⟨s.installDefaults_pending r, s.installDefaults_shape r⟩
  · intro bs crc s1
    have hread : ({ s with imu.port := .free } : State).takeConfig (s.flashRead a n flips) = s1 := by
      rw [State.takeConfig, s.flashRead_length]
    rw [exec_configBlockReadEnd hp hl, hread]
    refine ⟨fun hload => ?_, fun hload => ?_⟩
    · have hjudge := State.judgeConfig_header (s := s1) hload
      rw [headerFault_eq] at hjudge
      refine ⟨fun h => ?_, fun h => ?_⟩
      · rw [hjudge, if_pos h]
      · rw [if_neg (not_lt.2 h)] at hjudge
        refine ⟨fun h0 => ?_, fun h0 h1 => ?_, fun h0 h1 => ⟨fun hlen => ?_, fun hlo hhi => ?_⟩⟩
        · rw [hjudge, if_pos h0]
        · rw [hjudge, if_neg (not_not_intro h0), if_pos h1]
        · rw [hjudge, if_neg (not_not_intro h0), if_neg (not_not_intro h1), if_pos hlen]
        · rw [hjudge, if_neg (not_not_intro h0), if_neg (not_not_intro h1), if_neg (not_or.2 ⟨not_lt.2 hlo, not_lt.2 hhi⟩)]
    · have hjudge := State.judgeConfig_body (s := s1) hload
      refine ⟨fun h => ?_, fun h => ⟨fun r hr => ?_, fun c hc => ?_⟩⟩
      · rw [hjudge, if_pos h]
      · rw [hjudge, if_neg (not_lt.2 h), show judgeBlock s1.suc.cfgBytes s1.suc.cfgCrc = _ from hr]
      · rw [hjudge, if_neg (not_lt.2 h), show judgeBlock s1.suc.cfgBytes s1.suc.cfgCrc = _ from hc]

end Sys2Proof.Machine

/-! PROOFS. PeerReportFetch (sections 3.7, 4.8, 8.3). -/
namespace Sys2Proof.Machine

/-! ## Raising reports does not see how many entries have been handed -/

/-- The count of entries handed to the RMU is set. -/
def State.withHanded (k : Nat) (s : State) : State := { s with diu.fetch.handed := k }

theorem State.withHanded_self {k : Nat} {s : State} (h : s.diu.fetch.handed = k) : s.withHanded k = s := by
  subst h
  rfl

theorem State.pumpReports_withHanded (k : Nat) (s : State) : (s.withHanded k).pumpReports = s.pumpReports.withHanded k := by
  have hpath : (s.withHanded k).cau.path = s.cau.path := rfl
  have hpending : (s.withHanded k).cau.pending = s.cau.pending := rfl
  have hroom : (s.withHanded k).ringRoom = s.ringRoom := rfl
  unfold State.pumpReports
  rw [hpath, hpending, hroom]
  split
  · split <;> rfl
  · rfl

theorem State.raise_withHanded (b : ReportBody) (k : Nat) (s : State) : (s.withHanded k).raise b = (s.raise b).withHanded k := by
  have hjoin : (s.withHanded k).joinQueue b = (s.joinQueue b).withHanded k := by
    have hpending : (s.withHanded k).cau.pending = s.cau.pending := rfl
    unfold State.joinQueue
    rw [hpending]
    split <;> rfl
  unfold State.raise
  rw [hjoin, State.pumpReports_withHanded]

theorem State.raiseAll_withHanded (bs : List ReportBody) (k : Nat) (s : State) :
    (s.withHanded k).raiseAll bs = (s.raiseAll bs).withHanded k := by
  induction bs generalizing s with
  | nil => rfl
  | cons b bs ih =>
    have hcons : ∀ u : State, u.raiseAll (b :: bs) = (u.raise b).raiseAll bs := fun _ => rfl
    rw [hcons, hcons, State.raise_withHanded, ih]

theorem State.raiseTogether_withHanded (groups : List (List ReportBody)) (k : Nat) (s : State) :
    (s.withHanded k).raiseTogether groups = (s.raiseTogether groups).withHanded k :=
  State.raiseAll_withHanded _ k { s with freeIdx := (mergeUnits s.freeIdx groups).2 }

theorem State.peerEstimate_withHanded (n : Nat) (e : PeerEntry) (k : Nat) (s : State) :
    (s.withHanded k).peerEstimate n e = (s.peerEstimate n e).withHanded k := by
  have hrecord : (s.withHanded k).recordOf e.addr = s.recordOf e.addr := rfl
  unfold State.peerEstimate
  rw [hrecord]
  split
  · rfl
  · dsimp only
    split
    · exact State.raiseTogether_withHanded _ k (s.putRecord _)
    · rfl

theorem State.peerEstimates_withHanded (f : Nat → PeerEntry) (n k : Nat) (is : List Nat) (s : State) :
    is.foldl (fun s i => s.peerEstimate n (f i)) (s.withHanded k) = (is.foldl (fun s i => s.peerEstimate n (f i)) s).withHanded k := by
  induction is generalizing s with
  | nil => rfl
  | cons i is ih => rw [List.foldl_cons, List.foldl_cons, State.peerEstimate_withHanded, ih]

/-! ## Entries are handed one after another (R58) -/

theorem Frame.fetch {F : List Piece} {s t : State} (h : Frame F s t) (hp : .peers ∉ F) : t.diu.fetch = s.diu.fetch := by
  simpa only [State.without, Piece.pick_of_not_mem hp] using congrArg (fun u => u.diu.fetch) h

theorem State.peerEstimate_fetch (n : Nat) (e : PeerEntry) (s : State) : (s.peerEstimate n e).diu.fetch = s.diu.fetch :=
  (s.peerEstimate_runs n e).frame.fetch (by decide)

/-- The number of entries whose twelve bytes have been read. -/
def Fetch.there (f : Fetch) (used : Nat) : Nat := min used ((f.bytes.length - 16) / 12)

/-- The first of the entries that are there is handed, and then the rest. -/
theorem State.handEntries_next {node used : Nat} {s : State} (h : s.diu.fetch.handed < s.diu.fetch.there used) :
    s.handEntries node used
      = ((s.peerEstimate node (Machine.entryAt s.diu.fetch.bytes s.diu.fetch.handed)).withHanded
          (s.diu.fetch.handed + 1)).handEntries node used := by
  obtain ⟨m, hm⟩ : ∃ m, s.diu.fetch.there used - s.diu.fetch.handed = m + 1 := ⟨_, (Nat.succ_pred (by omega)).symm⟩
  have hleft : s.diu.fetch.there used - (s.diu.fetch.handed + 1) = m := by omega
  have hfetch := s.peerEstimate_fetch node (Machine.entryAt s.diu.fetch.bytes s.diu.fetch.handed)
  have hbytes := congrArg Fetch.bytes hfetch
  generalize hu : s.peerEstimate node (Machine.entryAt s.diu.fetch.bytes s.diu.fetch.handed) = u at hfetch hbytes ⊢
  have hshift : (fun (s' : State) i => s'.peerEstimate node (Machine.entryAt s.diu.fetch.bytes (s.diu.fetch.handed + (i + 1))))
      = fun (s' : State) i => s'.peerEstimate node (Machine.entryAt s.diu.fetch.bytes (s.diu.fetch.handed + 1 + i)) := by
    funext s' i
    rw [Nat.add_assoc, Nat.add_comm 1 i]
  have hrange : ∀ v : State, (List.range (m + 1)).foldl
        (fun s' i => s'.peerEstimate node (Machine.entryAt s.diu.fetch.bytes (s.diu.fetch.handed + i))) v
      = (List.range m).foldl (fun s' i => s'.peerEstimate node (Machine.entryAt s.diu.fetch.bytes (s.diu.fetch.handed + 1 + i)))
          (v.peerEstimate node (Machine.entryAt s.diu.fetch.bytes s.diu.fetch.handed)) := by
    intro v
    rw [List.range_succ_eq_map, List.foldl_cons, List.foldl_map, Nat.add_zero]
    exact congrArg (fun f => List.foldl f _ _) hshift
  have hbytes' : (u.withHanded (s.diu.fetch.handed + 1)).diu.fetch.bytes = s.diu.fetch.bytes := hbytes
  have hhanded : (u.withHanded (s.diu.fetch.handed + 1)).diu.fetch.handed = s.diu.fetch.handed + 1 := rfl
  unfold State.handEntries
  dsimp only
  rw [hbytes', hhanded]
  change (if used ≤ s.diu.fetch.there used then _ else _) = if used ≤ s.diu.fetch.there used then _ else _
  have hstart : (List.range (s.diu.fetch.there used - s.diu.fetch.handed)).foldl
        (fun s' i => s'.peerEstimate node (Machine.entryAt s.diu.fetch.bytes (s.diu.fetch.handed + i))) s
      = (List.range m).foldl (fun s' i => s'.peerEstimate node (Machine.entryAt s.diu.fetch.bytes (s.diu.fetch.handed + 1 + i))) u := by
    rw [hm, hrange, hu]
  have hrest : (List.range (s.diu.fetch.there used - (s.diu.fetch.handed + 1))).foldl
        (fun s' i => s'.peerEstimate node (Machine.entryAt s.diu.fetch.bytes (s.diu.fetch.handed + 1 + i)))
        (u.withHanded (s.diu.fetch.handed + 1))
      = ((List.range m).foldl (fun s' i => s'.peerEstimate node (Machine.entryAt s.diu.fetch.bytes (s.diu.fetch.handed + 1 + i)))
          u).withHanded (s.diu.fetch.handed + 1) := by
    rw [hleft]
    exact State.peerEstimates_withHanded _ _ _ _ _
  have hthere : s.diu.fetch.there used = min used ((s.diu.fetch.bytes.length - 16) / 12) := rfl
  rw [hthere] at hstart hrest ⊢
  rw [hstart, hrest]
  split <;> rfl

theorem State.handEntries_done {node used : Nat} {s : State} (h : s.diu.fetch.handed = s.diu.fetch.there used) :
    s.handEntries node used = if used ≤ s.diu.fetch.there used then s.endFetch else s.issueFetch := by
  have hnone : s.diu.fetch.there used - s.diu.fetch.handed = 0 := by omega
  have hrow : s.handEntries node used =
      let u := (List.range (s.diu.fetch.there used - s.diu.fetch.handed)).foldl
        (fun s' i => s'.peerEstimate node (Machine.entryAt s.diu.fetch.bytes (s.diu.fetch.handed + i))) s
      if used ≤ s.diu.fetch.there used then u.endFetch else (u.withHanded (s.diu.fetch.there used)).issueFetch := rfl
  rw [hrow, hnone]
  dsimp only [List.range_zero, List.foldl_nil]
  rw [State.withHanded_self h]

/-! ## One entry (R138, R139) -/

theorem clampInt_eq {lo hi : Int} (h : lo ≤ hi) (v : Int) : clampInt lo hi v = max lo (min hi v) := by
  unfold clampInt
  split
  · omega
  · split <;> omega

theorem entryAt_eq (bytes : List Byte) (i : Nat) : Machine.entryAt bytes i =
    { addr := macOfWords (wordOfBytes ((bytes.drop (16 + 12 * i + 4 * 0)).take 4)) (wordOfBytes ((bytes.drop (16 + 12 * i + 4 * 1)).take 4))
      value := signed 16 (field (wordOfBytes ((bytes.drop (16 + 12 * i + 4 * 1)).take 4)) 16 16)
      claim := bit (wordOfBytes ((bytes.drop (16 + 12 * i + 4 * 2)).take 4)) 0 } := by
  have hfirst : ((bytes.drop (16 + 12 * i)).take 12).take 4 = (bytes.drop (16 + 12 * i + 4 * 0)).take 4 := by
    rw [List.take_take]
    rfl
  have hsecond : (((bytes.drop (16 + 12 * i)).take 12).drop 4).take 4 = (bytes.drop (16 + 12 * i + 4 * 1)).take 4 := by
    rw [List.drop_take, List.take_take, List.drop_drop]
    rfl
  have hthird : ((bytes.drop (16 + 12 * i)).take 12).drop 8 = (bytes.drop (16 + 12 * i + 4 * 2)).take 4 := by
    rw [List.drop_take, List.drop_drop]
  unfold Machine.entryAt peerEntry
  rw [hfirst, hsecond, hthird]

section
variable {n : Nat} {e : PeerEntry} {s : State} {r : Station}

theorem State.peerEstimate_of_recorded (hr : s.recordOf e.addr = some r) : s.peerEstimate n e =
    let r1 := { r with estimates := putEstimate n (max (-2048) (min 0 e.value)) r.estimates }
    if e.claim then (s.putRecord (claimRecord n r1).1).raiseTogether [(claimRecord n r1).2.1, (claimRecord n r1).2.2]
    else s.putRecord r1 := by
  unfold State.peerEstimate
  rw [hr, clampInt_eq (by decide)]

theorem State.raiseTogether_none (s : State) : s.raiseTogether [[], []] = s := State.raiseTogether_second [] s

/-- No claim, or one that an EXPECTED record or one AWAY at the node itself does not follow. -/
theorem State.peerEstimate_of_stays (hr : s.recordOf e.addr = some r)
    (h : e.claim = false ∨ r.state = .expected ∨ (r.state = .away ∧ r.current = some n)) :
    s.peerEstimate n e = s.putRecord { r with estimates := putEstimate n (max (-2048) (min 0 e.value)) r.estimates } := by
  rw [State.peerEstimate_of_recorded hr]
  dsimp only
  split
  · next hclaim =>
    have hstays : claimRecord n { r with estimates := putEstimate n (max (-2048) (min 0 e.value)) r.estimates }
        = ({ r with estimates := putEstimate n (max (-2048) (min 0 e.value)) r.estimates }, [], []) := by
      rcases h with hno | hstate | ⟨hstate, hcurrent⟩
      · exact absurd hclaim (by simp [hno])
      · simp only [claimRecord, hstate]
      · simp only [claimRecord, hstate, hcurrent, if_true]
    rw [hstays]
    exact State.raiseTogether_none _
  · rfl

/-- A claim takes the record AWAY. -/
theorem State.peerEstimate_of_taken (hr : s.recordOf e.addr = some r) (hclaim : e.claim = true)
    (hstate : r.state = .idle ∨ r.state = .associated ∨ r.state = .steering) :
    s.peerEstimate n e = (s.putRecord { r with
        estimates := putEstimate n (max (-2048) (min 0 e.value)) r.estimates, state := .away, hold := some 120, current := some n
        dwell := 0, candidate := none, steerTo := none, steerTimer := 0, backoff := 0, failures := 0, unmovable := false }).raiseTogether
      [[.contextExport r.addr r.pause r.ext r.level r.gameActive (if r.gameActive then r.linger else 0) r.failures],
       [.stationAway r.addr n r.state]] := by
  rw [State.peerEstimate_of_recorded hr]
  dsimp only
  rw [if_pos hclaim]
  rcases hstate with hstate | hstate | hstate <;> simp only [claimRecord, hstate] <;> rfl

/-- A claim moves an AWAY record to its node. -/
theorem State.peerEstimate_of_moved (hr : s.recordOf e.addr = some r) (hclaim : e.claim = true) (hstate : r.state = .away)
    (hcurrent : r.current ≠ some n) :
    s.peerEstimate n e = (s.putRecord { r with
        estimates := putEstimate n (max (-2048) (min 0 e.value)) r.estimates, current := some n }).raise (.stationAway r.addr n .away) := by
  rw [State.peerEstimate_of_recorded hr]
  dsimp only
  rw [if_pos hclaim]
  simp only [claimRecord, hstate, if_neg hcurrent]
  exact State.raiseTogether_second _ _

end

/-! ## The reads of a fetch (R57, R58) -/

theorem State.issueFetch_of_cons {b : PeerBuffer} {bs : List PeerBuffer} {s : State} (h : s.diu.peerQueue = b :: bs) :
    s.issueFetch = s.issue { kind := .peerFetch, addr := b.addr + s.diu.fetch.bytes.length, data := []
                             len := readLength (b.addr + s.diu.fetch.bytes.length) (s.diu.fetch.span - s.diu.fetch.bytes.length) } := by
  unfold State.issueFetch
  rw [h]

theorem State.issueFetch_of_nil {s : State} (h : s.diu.peerQueue = []) : s.issueFetch = s := by
  unfold State.issueFetch
  rw [h]

theorem Fetch.span_of_none {f : Fetch} (h : f.taken = Option.none) : f.span = 16 := by
  unfold Fetch.span
  rw [h]

theorem Fetch.span_of_some {f : Fetch} {node used : Nat} (h : f.taken = some (node, used)) : f.span = 16 + 12 * used := by
  unfold Fetch.span
  rw [h]

theorem State.queuePeer_of_fits {b : PeerBuffer} {s : State} (hword : b.addr % 4 = 0) (hlower : b.addr + b.len ≤ 0x8000000) :
    s.queuePeer b = if b.len < 16 then s.raise (.peerReportIgnored .short)
      else if 4 ≤ s.diu.peerQueue.length then s.raise (.peerReportIgnored .queueFull)
      else if s.diu.peerQueue.isEmpty then ({ s with diu.peerQueue := s.diu.peerQueue ++ [b] } : State).issueFetch
      else { s with diu.peerQueue := s.diu.peerQueue ++ [b] } :=
  if_neg fun h => h.elim (fun hne => hne hword) fun hover => absurd hover.2 (not_lt.2 hlower)

theorem exec_peerFetchReadDone {a : InternalAccess} {b : PeerBuffer} {bs : List PeerBuffer} {s : State} (hk : a.kind = .peerFetch)
    (hd : a.data = []) (hport : s.ptu.port = .internal a false) (hq : s.diu.peerQueue = b :: bs) :
    let s1 : State := { s with ptu.port := .free, diu.fetch.bytes := s.diu.fetch.bytes ++ s.sramBytes a.addr a.len }
    exec .peerFetchReadDone s = match s.diu.fetch.taken with
      | some (node, used) => .next (s1.handEntries node used)
      | none => if s1.diu.fetch.bytes.length < 16 then .next s1.issueFetch else .next (s1.takeHeader b) := by
  have hrow : exec .peerFetchReadDone s = execPeerFetchReadDone s := rfl
  have hdone : s.finishAccess a = { s with ptu.port := .free } := by
    rw [State.finishAccess, hd]
    rfl
  rw [hrow, execPeerFetchReadDone, State.portAccess_of_port hport hk]
  dsimp only
  rw [hdone, hq] <;> rfl

/-- Settles O29: the queue's tests, the handing of the entries, the reads, the fields and the effect of an entry, and a read's end. -/
theorem peerReportFetch : Obligations.PeerReportFetch := by
  refine ⟨fun b s => ⟨fun h => if_pos (.inl h), fun hlen hover => if_pos (.inr ⟨hlen, hover⟩), fun hword hlower =>
      ⟨fun h => ?_, fun h hfull => ?_, fun h hsome hroom => ?_, fun h hnone => ?_⟩⟩,
    fun node used s => ⟨State.handEntries_next, fun h hless => ?_, fun h hall => ?_⟩,
    fun s => ⟨State.issueFetch_of_nil, fun b bs hq => ⟨fun h => ?_, fun node used h => ?_⟩, rfl⟩,
    entryAt_eq, fun n m v r => ?_, fun n e s => ⟨fun h => ?_, fun r hr => ⟨State.peerEstimate_of_stays hr, State.peerEstimate_of_taken hr,
      State.peerEstimate_of_moved hr⟩⟩,
    fun a s hk hd => ⟨fun hport => ?_, fun b bs hport hq => ⟨fun node used htaken => ?_, fun htaken => ⟨fun h => ?_, fun h => ?_⟩⟩⟩⟩
  · rw [State.queuePeer_of_fits hword hlower, if_pos h]
  · rw [State.queuePeer_of_fits hword hlower, if_neg (not_lt.2 h), if_pos hfull]
  · rw [State.queuePeer_of_fits hword hlower, if_neg (not_lt.2 h), if_neg (not_le.2 hroom),
      if_neg (by simpa [List.isEmpty_iff] using List.length_pos_iff.1 hsome)]
  · rw [State.queuePeer_of_fits hword hlower, if_neg (not_lt.2 h), hnone]
    rfl
  · rw [State.handEntries_done h, if_neg (by unfold Fetch.there; omega)]
  · rw [State.handEntries_done h, if_pos (by unfold Fetch.there; omega)]
  · rw [State.issueFetch_of_cons hq, Fetch.span_of_none h]
    rfl
  · rw [State.issueFetch_of_cons hq, Fetch.span_of_some h]
    rfl
  · unfold Station.entryOf
    split
    · next h => rw [h, putEstimate_find_same]
    · next h => exact putEstimate_find_other h _ _
  · unfold State.peerEstimate
    rw [h]
  · have hrow : exec .peerFetchReadDone s = execPeerFetchReadDone s := rfl
    rw [hrow, execPeerFetchReadDone, State.portAccess_of_port hport hk]
    dsimp only
    rw [State.finishAccess, hd]
    rfl
  · rw [exec_peerFetchReadDone hk hd hport hq, htaken]
  · rw [exec_peerFetchReadDone hk hd hport hq, htaken]
    exact if_pos h
  · have hhead : exec .peerFetchReadDone s = .next (({ s with
        ptu.port := .free, diu.fetch.bytes := s.diu.fetch.bytes ++ s.sramBytes a.addr a.len } : State).takeHeader b) := by
      rw [exec_peerFetchReadDone hk hd hport hq, htaken]
      exact if_neg (not_lt.2 h)
    rw [hhead]
    dsimp only
    refine ⟨fun hformat => ?_, fun hformat hown => ?_, fun hformat hown hbad => ?_, fun hformat hown hgood hused => ?_,
      fun hformat hown hgood hused => ?_⟩ <;> rw [State.takeHeader]
    · rw [if_pos hformat]
    · rw [if_neg (not_not_intro hformat), if_pos hown]
    · rw [if_neg (not_not_intro hformat), if_neg hown, if_pos hbad]
    · rw [if_neg (not_not_intro hformat), if_neg hown, if_neg (not_lt.2 hgood), if_pos hused]
    · rw [if_neg (not_not_intro hformat), if_neg hown, if_neg (not_lt.2 hgood), if_neg (Nat.pos_iff_ne_zero.1 hused)]

end Sys2Proof.Machine

/-! PROOFS. SecondAndMinuteBoundaries (sections 1.3, 2.6, 7.1 to 7.5, 10.1, 10.5): the clock at a whole boundary, the order of the
units, and what five of them do. -/
namespace Sys2Proof.Machine

/-! ## The order of one boundary (log 8) -/

theorem nodup_foldl_addNew (l : List BoundaryUnit) {acc : List BoundaryUnit} (h : acc.Nodup) :
    (l.foldl (fun acc u => if acc.contains u then acc else acc ++ [u]) acc).Nodup := by
  induction l generalizing acc with
  | nil => exact h
  | cons u l ih =>
    rw [List.foldl_cons]
    refine ih ?_
    split
    · exact h
    · next hnew =>
      have hmem : u ∉ acc := by simpa using hnew
      exact List.nodup_append.2 ⟨h, List.nodup_singleton u, fun v hv w hw => by
        rw [List.mem_singleton.1 hw]
        exact fun heq => hmem (heq ▸ hv)⟩

theorem nodup_wholeOrder (order : List BoundaryUnit) : (wholeOrder order).Nodup := nodup_foldl_addNew _ List.nodup_nil

/-- A list without repeats is taken over whole. -/
theorem foldl_addNew_of_nodup {l acc : List BoundaryUnit} (h : (acc ++ l).Nodup) :
    l.foldl (fun acc u => if acc.contains u then acc else acc ++ [u]) acc = acc ++ l := by
  induction l generalizing acc with
  | nil => simp
  | cons u l ih =>
    have hsplit : acc ++ u :: l = (acc ++ [u]) ++ l := by simp
    have hnew : acc.contains u = false := by
      have hmem : u ∉ acc := fun hmem => (List.nodup_append.1 h).2.2 u hmem u (List.mem_cons_self ..) rfl
      simpa using hmem
    rw [List.foldl_cons, hnew, hsplit]
    exact ih (hsplit ▸ h)

/-- Units that stand already add nothing. -/
theorem foldl_addNew_of_subset {l acc : List BoundaryUnit} (h : l ⊆ acc) :
    l.foldl (fun acc u => if acc.contains u then acc else acc ++ [u]) acc = acc := by
  induction l with
  | nil => rfl
  | cons u l ih =>
    obtain ⟨hu, hl⟩ := List.cons_subset.1 h
    rw [List.foldl_cons, if_pos (by simpa using hu), ih hl]

/-- A well-formed order names every unit once. -/
theorem wholeOrder_of_wf {order : List BoundaryUnit} (h : orderWf order = true) : wholeOrder order = order := by
  simp only [orderWf, Bool.and_eq_true, beq_iff_eq, List.all_eq_true, List.contains_iff_mem] at h
  obtain ⟨hlength, hall⟩ := h
  have hperm : allBoundaryUnits.Perm order :=
    (List.subperm_of_subset (by decide) hall).perm_of_length_le hlength.le
  have hnodup : order.Nodup := hperm.nodup_iff.1 (by decide)
  have hfirst := foldl_addNew_of_nodup (l := order) (acc := []) (by simpa using hnodup)
  rw [wholeOrder, List.foldl_append, hfirst, List.nil_append]
  exact foldl_addNew_of_subset hall

/-! ## The clock at a whole boundary (R116) -/

/-- A part of the state that one unit alone moves has moved once after every unit's event. -/
theorem foldl_unitBoundary_once {β : Type} (v : State → β) (g : β → β) (w : BoundaryUnit)
    (hother : ∀ u, u ≠ w → ∀ s : State, v (s.unitBoundary u) = v s) (hown : ∀ s : State, v (s.unitBoundary w) = g (v s))
    {l : List BoundaryUnit} (hnodup : l.Nodup) (hmem : w ∈ l) (s : State) :
    v (l.foldl (fun s u => s.unitBoundary u) s) = g (v s) := by
  have hnone : ∀ {l : List BoundaryUnit}, w ∉ l → ∀ s : State, v (l.foldl (fun s u => s.unitBoundary u) s) = v s := by
    intro l hl s
    induction l generalizing s with
    | nil => rfl
    | cons u l ih =>
      obtain ⟨hu, hl⟩ := not_or.1 (fun h => hl (List.mem_cons.2 h))
      exact (ih hl _).trans (hother u (Ne.symm hu) s)
  induction l generalizing s with
  | nil => exact absurd hmem (List.not_mem_nil)
  | cons u l ih =>
    obtain ⟨hu, hl⟩ := List.nodup_cons.1 hnodup
    rw [List.foldl_cons]
    by_cases huw : u = w
    · subst huw
      rw [hnone hu, hown]
    · rw [ih hl ((List.mem_cons.1 hmem).resolve_left (Ne.symm huw)), hother u huw]

theorem Frame.scu {F : List Piece} {s t : State} (h : Frame F s t) (hp : .profiles ∉ F) (hm : .maint ∉ F) : t.scu = s.scu := by
  simpa only [State.without, Piece.pick_of_not_mem hp, Piece.pick_of_not_mem hm] using congrArg State.scu h

/-- The SCU's own state after its event, of the time base after it: at a minute boundary evaluated anew. -/
def scuAdvanced (c : TimeBase × Bool) (p : Policy) (u : Scu) : Scu :=
  if c.2 then
    { profiles := u.profiles.map (fun q => { q with target := targetAt c.1 q })
      maintOpen := c.1.valid && (p.maintWindows.take p.maintCount).any (fun w => minuteIn w.1 w.2 c.1.minute) }
  else u

theorem State.clockAdvanced_eq (s : State) :
    s.clockAdvanced = { s with time := (advanceClock s.time).1, scu := scuAdvanced (advanceClock s.time) s.policy s.scu } := by
  unfold State.clockAdvanced scuAdvanced
  split <;> rfl

/-- What the SCU's event leaves: the clock, its own state and its records, and beyond those only reports. -/
theorem State.scheduleBoundary_onlyReports (s : State) :
    OnlyReports { s.clockAdvanced with stu.stations := (s.stu.stations.map (s.scuRecord s.clockAdvanced)).map Prod.fst }
      s.scheduleBoundary := by
  rw [State.scheduleBoundary_eq]
  exact ((State.raiseAll_runs _ _).trans (State.raiseAll_runs _ _)).onlyReports

theorem State.scheduleBoundary_time (s : State) : s.scheduleBoundary.time = (advanceClock s.time).1 :=
  s.scheduleBoundary_onlyReports.time.trans (congrArg State.time s.clockAdvanced_eq)

theorem State.scheduleBoundary_scu (s : State) :
    s.scheduleBoundary.scu = scuAdvanced (advanceClock s.time) s.policy s.scu :=
  s.scheduleBoundary_onlyReports.scu.trans (congrArg State.scu s.clockAdvanced_eq)

theorem State.scheduleBoundary_policy (s : State) : s.scheduleBoundary.policy = s.policy :=
  s.scheduleBoundary_onlyReports.policy.trans s.clockAdvanced_inputs.1

/-- The clock, the policy and the SCU's own state. -/
def State.schedule (s : State) : TimeBase × Policy × Scu := (s.time, s.policy, s.scu)

theorem Frame.schedule {F : List Piece} {s t : State} (h : Frame F s t)
    (hF : .clock ∉ F ∧ .wall ∉ F ∧ .policy ∉ F ∧ .profiles ∉ F ∧ .maint ∉ F := by decide) : t.schedule = s.schedule := by
  obtain ⟨hclock, hwall, hpolicy, hprofiles, hmaint⟩ := hF
  rw [State.schedule, h.time hclock hwall, h.policy hpolicy, h.scu hprofiles hmaint]
  rfl

/-- Of the units' events only the SCU's moves the clock and the SCU's state. -/
theorem State.unitBoundary_schedule {u : BoundaryUnit} (hu : u ≠ .scu) (s : State) : (s.unitBoundary u).schedule = s.schedule := by
  cases u with
  | ptu => rfl
  | cau => exact s.statusBoundary_runs.frame.schedule
  | stu => exact s.stationBoundary_runs.frame.schedule
  | cgu => exact s.gameBoundary_runs.frame.schedule
  | scu => exact absurd rfl hu
  | rmu => exact s.roamBoundary_runs.frame.schedule
  | imu => exact s.imageBoundary_runs.frame.schedule
  | suc => exact s.trialSecond_frame.schedule

theorem State.boundary_schedule (order : List BoundaryUnit) (s : State) :
    (s.boundary order).schedule = ((advanceClock s.toBoundary.time).1, s.policy,
      scuAdvanced (advanceClock s.toBoundary.time) s.policy s.scu) := by
  have hown : ∀ u : State, (u.unitBoundary .scu).schedule
      = ((advanceClock u.schedule.1).1, u.schedule.2.1, scuAdvanced (advanceClock u.schedule.1) u.schedule.2.1 u.schedule.2.2) := by
    intro u
    have hscu : u.unitBoundary .scu = u.scheduleBoundary := rfl
    rw [hscu, State.schedule, u.scheduleBoundary_time, u.scheduleBoundary_policy, u.scheduleBoundary_scu]
    rfl
  exact foldl_unitBoundary_once State.schedule
    (fun v => ((advanceClock v.1).1, v.2.1, scuAdvanced (advanceClock v.1) v.2.1 v.2.2)) .scu (fun u hu s => s.unitBoundary_schedule hu) hown (nodup_wholeOrder _)
    (mem_wholeOrder _ _) s.toBoundary

theorem State.boundary_time (order : List BoundaryUnit) (s : State) : (s.boundary order).time = (advanceClock s.toBoundary.time).1 :=
  congrArg Prod.fst (s.boundary_schedule order)

theorem State.boundary_scu (order : List BoundaryUnit) (s : State) :
    (s.boundary order).scu = scuAdvanced (advanceClock s.toBoundary.time) s.policy s.scu :=
  congrArg (fun p => p.2.2) (s.boundary_schedule order)

/-! ## The wall clock (R116) -/

theorem advanceClock_of_invalid {t : TimeBase} (h : t.valid = false) : advanceClock t = (t, false) := by
  unfold advanceClock
  rw [h]
  rfl

theorem advanceClock_of_second {t : TimeBase} (h : t.valid = true) (hs : t.second < 59) :
    advanceClock t = ({ t with second := t.second + 1 }, false) := by
  unfold advanceClock
  rw [if_pos h, if_neg (not_le.2 hs)]

theorem advanceClock_of_minute {t : TimeBase} (h : t.valid = true) (hs : 59 ≤ t.second) : advanceClock t =
    ({ t with second := 0, minute := if 10079 ≤ t.minute then 0 else t.minute + 1 }, true) := by
  unfold advanceClock
  rw [if_pos h, if_pos hs]

theorem advanceClock_valid (t : TimeBase) : (advanceClock t).1.valid = t.valid := by
  unfold advanceClock
  split
  · split <;> rfl
  · rfl

/-! ## A refresh of the status block (R35, R36) -/

theorem State.statusParked_iff (s : State) : s.statusParked = true ↔ ∃ a, s.ptu.behind = some a ∧ a.kind = .status := by
  have hkind : ∀ k : InternalKind, (k.path == InternalKind.status.path) = true ↔ k = .status := by
    intro k
    cases k <;> decide
  unfold State.statusParked
  cases s.ptu.behind with
  | none => simp
  | some a => simp [hkind]

/-- The refresh count one up. -/
def State.refreshCounted (s : State) : State := { s with cau.refreshCount := s.cau.refreshCount + 1 }

theorem State.refreshStatus_of_parked {s : State} (h : s.statusParked = true) :
    s.refreshStatus = ({ s.refreshCounted with
      ptu.behind := none, cau.statusOut := false, cau.statusLeft := s.refreshCounted.statusWrites } : State).pumpStatus := by
  have hdrop : s.refreshCounted.dropParked = { s.refreshCounted with ptu.behind := none, cau.statusOut := false } := if_pos h
  have hrow : s.refreshStatus
      = ({ s.refreshCounted.dropParked with cau.statusLeft := s.refreshCounted.dropParked.statusWrites } : State).pumpStatus := rfl
  rw [hrow, hdrop]
  rfl

theorem State.refreshStatus_of_not_parked {s : State} (h : s.statusParked = false) :
    s.refreshStatus = ({ s.refreshCounted with cau.statusLeft := s.refreshCounted.statusWrites } : State).pumpStatus := by
  have hdrop : s.refreshCounted.dropParked = s.refreshCounted := if_neg (Bool.eq_false_iff.1 h)
  have hrow : s.refreshStatus
      = ({ s.refreshCounted.dropParked with cau.statusLeft := s.refreshCounted.dropParked.statusWrites } : State).pumpStatus := rfl
  rw [hrow, hdrop]

/-! ## The trial and the session at a boundary (R179, R180, R190) -/

theorem State.trialCounts_iff (s : State) : s.trialCounts = true ↔
    s.suc.startUp = .ready ∧ s.suc.boot = .trial ∧ s.suc.trialRunning = true ∧ 0 < s.suc.trialLeft := by
  simp only [State.trialCounts, Bool.and_eq_true, beq_iff_eq, decide_eq_true_eq, and_assoc]

theorem exec_drainDeadline {s : State} (h : s.imu.session.state = .draining) (hleft : s.imu.session.drainLeft ≤ 1) :
    exec .drainDeadline s
      = .next (({ s with imu.session := { s.imu.session with drainLeft := 0 } } : State).enterCommitting .drainDeadline) := by
  have hrow : exec .drainDeadline s = execDrainDeadline s := rfl
  rw [hrow]
  exact if_pos ⟨h, hleft⟩

theorem State.imageBoundary_of_armed {s : State} (h : s.imu.session.state = .armed) : s.imageBoundary =
    if (s.scu.maintOpen = true ∨ s.imu.session.now = true) ∧ (s.cgu.count = 0 ∨ s.imu.session.force = true) then s.enterDraining else s := by
  unfold State.imageBoundary
  rw [h]

theorem State.imageBoundary_of_draining {s : State} (h : s.imu.session.state = .draining) : s.imageBoundary =
    if s.imu.session.drainLeft ≤ 1 then
      ({ s with imu.session := { s.imu.session with drainLeft := 0 } } : State).enterCommitting .drainDeadline
    else { s with imu.session := { s.imu.session with drainLeft := s.imu.session.drainLeft - 1 } } := by
  unfold State.imageBoundary
  rw [h]

theorem State.imageBoundary_of_other {s : State} (harmed : s.imu.session.state ≠ .armed) (hdraining : s.imu.session.state ≠ .draining) :
    s.imageBoundary = s := by
  unfold State.imageBoundary
  cases h : s.imu.session.state with
  | armed => exact absurd h harmed
  | draining => exact absurd h hdraining
  | _ => rfl

/-! ## The SCU's event (R126) -/

theorem overrideEnds_iff (r : Station) : overrideEnds r = true ↔ r.pause = .timed 0 ∨ r.pause = .timed 1 ∨ r.ext = 1 := by
  unfold overrideEnds
  cases hp : r.pause with
  | none => simp
  | indefinite => simp
  | timed n =>
    simp only [Bool.or_eq_true, decide_eq_true_eq, Pause.timed.injEq]
    omega

/-- The countdowns do not touch the slopes. -/
theorem State.slopeOf_of_profileRecords {s t : State} (h : t.profileRecords = s.profileRecords) (r : Station) :
    t.slopeOf r = s.slopeOf r := by
  have hslopes : ∀ u : State, u.slopeOf r = (u.profileRecords.map (fun p => p.slope)).getD r.profile 0 := fun u => by
    have hdefault : (0 : Nat) = Profile.powerOn.slope := rfl
    have hmap : u.profileRecords.map (fun p => p.slope) = u.scu.profiles.map (fun p => p.slope) := List.map_map
    rw [hmap, hdefault, State.slopeOf, State.profileOf]
    simp only [List.getD_eq_getElem?_getD, List.getElem?_map]
    cases u.scu.profiles[r.profile]? <;> rfl
  rw [hslopes t, hslopes s, h]

end Sys2Proof.Machine

/-! PROOFS. SecondAndMinuteBoundaries: the SCU's five steps, and the whole. -/
namespace Sys2Proof.Machine

theorem State.raiseAll_append (as bs : List ReportBody) (s : State) : s.raiseAll (as ++ bs) = (s.raiseAll as).raiseAll bs :=
  List.foldl_append

section
variable {s t : State} (hscu : t.scu = s.clockAdvanced.scu) (r : Station)
include hscu

/-- A record meets its target anew where an override ends or its profile's target changes. -/
theorem State.scuMeets_iff :
    (r.pause = .timed 0 ∨ r.pause = .timed 1 ∨ r.ext = 1 ∨ (s.profileOf r.profile).target ≠ (t.profileOf r.profile).target)
      ↔ (overrideEnds r || (s.profileOf r.profile).target != (s.clockAdvanced.profileOf r.profile).target) = true := by
  have hprofile : t.profileOf r.profile = s.clockAdvanced.profileOf r.profile := by
    rw [State.profileOf, hscu]
    rfl
  rw [Bool.or_eq_true, overrideEnds_iff, bne_iff_ne, hprofile]
  simp only [or_assoc]

theorem State.stationTarget_of_scu (q : Station) : t.stationTarget q = s.clockAdvanced.stationTarget q := by
  simp only [State.stationTarget, State.profileOf, hscu]

/-- The level after the event, said of the state after it. -/
theorem State.scuLevel_eq {P : Prop} [Decidable P] (hP : P ↔ r.pause = .timed 0 ∨ r.pause = .timed 1 ∨ r.ext = 1
      ∨ (s.profileOf r.profile).target ≠ (t.profileOf r.profile).target) :
    (if P then moveLevel (s.slopeOf r) r.pause.count.inForce
        (t.stationTarget { r with level := rampLevel (s.slopeOf r) (s.stationTarget r) r.level, pause := r.pause.count, ext := r.ext - 1 })
        (rampLevel (s.slopeOf r) (s.stationTarget r) r.level)
      else rampLevel (s.slopeOf r) (s.stationTarget r) r.level) = s.scuLevel s.clockAdvanced r := by
  have hslope : s.clockAdvanced.slopeOf r = s.slopeOf r := State.slopeOf_of_profileRecords s.clockAdvanced_profileRecords r
  rw [if_congr (hP.trans (State.scuMeets_iff hscu r)) rfl rfl, State.stationTarget_of_scu hscu, State.scuLevel, hslope]
  rfl

/-- The edges of step 5, said of the state after it. -/
theorem State.scuEdges_eq {P : Prop} [Decidable P] (hP : P ↔ r.pause = .timed 0 ∨ r.pause = .timed 1 ∨ r.ext = 1
      ∨ (s.profileOf r.profile).target ≠ (t.profileOf r.profile).target) :
    (s.scuRecord s.clockAdvanced r).2.2 =
      if P then levelEdges r.addr (s.stationTarget r) (rampLevel (s.slopeOf r) (s.stationTarget r) r.level)
        (t.stationTarget { r with level := rampLevel (s.slopeOf r) (s.stationTarget r) r.level, pause := r.pause.count, ext := r.ext - 1 })
        (s.scuLevel s.clockAdvanced r)
      else [] := by
  rw [if_congr (hP.trans (State.scuMeets_iff hscu r)) rfl rfl, State.stationTarget_of_scu hscu]
  rfl

end

theorem State.scuRecord_stands {s : State} {r : Station} (h : s.scuLevel s.clockAdvanced r = r.level) :
    (s.scuRecord s.clockAdvanced r).1 = { r with pause := r.pause.count, ext := r.ext - 1 } := by
  rw [State.scuRecord_fst, if_neg (not_not_intro h), State.scuCounted, h]

theorem State.scuRecord_moves {s : State} {r : Station} (h : s.scuLevel s.clockAdvanced r ≠ r.level) :
    (s.scuRecord s.clockAdvanced r).1 = s.clockAdvanced.rateChange
      { r with level := s.scuLevel s.clockAdvanced r, pause := r.pause.count, ext := r.ext - 1 } := by
  rw [State.scuRecord_fst, if_pos h, State.scuCounted]

theorem State.scheduleBoundary_stations (s : State) :
    s.scheduleBoundary.stu.stations = s.stu.stations.map (fun r => (s.scuRecord s.clockAdvanced r).1) :=
  (congrArg Stu.stations s.scheduleBoundary_onlyReports.stu).trans List.map_map

theorem State.scheduleBoundary_rateChange (s : State) (r : Station) :
    s.scheduleBoundary.rateChange r = s.clockAdvanced.rateChange r :=
  s.scheduleBoundary_onlyReports.rateChange r

theorem State.scheduleBoundary_pending (s : State) : s.scheduleBoundary.cau.pending =
    (({ s with time := s.scheduleBoundary.time } : State).raiseAll
      (s.stu.stations.flatMap (fun r => (s.scuRecord s.clockAdvanced r).2.1)
        ++ s.stu.stations.flatMap (fun r => (s.scuRecord s.clockAdvanced r).2.2))).cau.pending := by
  have hclock := s.clockAdvanced_eq
  have hcau : s.clockAdvanced.cau = s.cau := by rw [hclock]
  have htime : s.clockAdvanced.time = s.scheduleBoundary.time := by rw [hclock, s.scheduleBoundary_time]
  rw [← htime, State.scheduleBoundary_eq, ← State.raiseAll_append, List.flatMap_map, List.flatMap_map]
  exact State.raiseAll_pending_congr _ rfl (congrArg Cau.pending hcau) (congrArg Cau.gap hcau)

theorem State.scheduleBoundary_rest (s : State) : OnlyReports { s with
    time := s.scheduleBoundary.time, scu := s.scheduleBoundary.scu, stu.stations := s.scheduleBoundary.stu.stations }
      s.scheduleBoundary := by
  have h := s.scheduleBoundary_onlyReports
  have hclock := s.clockAdvanced_eq
  have hstations : (s.stu.stations.map (s.scuRecord s.clockAdvanced)).map Prod.fst = s.scheduleBoundary.stu.stations :=
    (congrArg Stu.stations h.stu).symm
  have hbase : ({ s.clockAdvanced with stu.stations := s.scheduleBoundary.stu.stations } : State)
      = { s with time := s.scheduleBoundary.time, scu := s.scheduleBoundary.scu
                 stu.stations := s.scheduleBoundary.stu.stations } := by
    rw [s.scheduleBoundary_time, s.scheduleBoundary_scu]
    exact congrArg (fun u : State => { u with stu.stations := s.scheduleBoundary.stu.stations }) hclock
  rw [hstations, hbase] at h
  exact h

/-- Settles O55: the clock and what stands at a whole boundary, the order of the units, and the events of PTU, CAU, SUC, IMU and SCU. -/
theorem secondAndMinuteBoundaries : Obligations.SecondAndMinuteBoundaries := by
  refine ⟨fun order s => ⟨⟨s.boundary order, rfl, ?_⟩, fun hvalid hsecond => ⟨s.boundary order, if_pos ⟨hvalid, hsecond⟩, rfl, ?_⟩⟩,
    fun order s hwf => ?_, fun s => ⟨rfl, fun h => if_pos h, fun h => if_neg h, ⟨fun hout hfree => ?_, fun o bs rest hwrites =>
      ⟨fun hout hfree => ?_, fun hparked => ?_⟩⟩, ⟨fun h => ?_, fun h => ?_⟩,
      ⟨State.imageBoundary_of_other, fun h hmet => ?_, fun h hmet => ?_, fun h hleft => ?_, fun h hleft => ?_⟩, ?_⟩⟩
  · have hframe := (s.boundary_runs order).frame
    have htime := s.boundary_time order
    have hscu := s.boundary_scu order
    have hpolicy : (s.boundary order).policy = s.policy := congrArg (fun p => p.2.1) (s.boundary_schedule order)
    obtain ⟨hms, hsub⟩ := advanceClock_ms_sub s.toBoundary.time
    refine ⟨htime ▸ hsub, htime ▸ hms, htime ▸ advanceClock_valid _, fun hinvalid => ?_, fun hvalid hsecond => ?_, fun h => ?_,
      hframe.sram (by decide), hframe.flash (by decide), hpolicy, hframe.pins (by decide)⟩
    · rw [htime, advanceClock_of_invalid (t := s.toBoundary.time) hinvalid]
      exact ⟨rfl, rfl⟩
    · rw [htime, advanceClock_of_second (t := s.toBoundary.time) hvalid hsecond]
      exact ⟨rfl, rfl⟩
    · have hno : (advanceClock s.toBoundary.time).2 = false := by
        cases hv : s.time.valid with
        | false => rw [advanceClock_of_invalid (t := s.toBoundary.time) hv]
        | true => rw [advanceClock_of_second (t := s.toBoundary.time) hv (h.resolve_left (by simp [hv]))]
      rw [hscu, scuAdvanced, hno]
      rfl
  · have hclock := advanceClock_of_minute (t := s.toBoundary.time) hvalid hsecond
    rw [s.boundary_time order, s.boundary_scu order, hclock, scuAdvanced]
    refine ⟨rfl, rfl, rfl, ?_⟩
    exact (congrArg (· && _) (hvalid : s.toBoundary.time.valid = true)).trans (Bool.true_and _)
  · have hrow : exec (.secondBoundary order) s = .next (s.boundary order) := rfl
    rw [hrow, State.boundary, wholeOrder_of_wf hwf]
  · rw [State.refreshStatus_of_not_parked (Bool.eq_false_iff.2 fun h => hfree ((State.statusParked_iff s).1 h))]
    exact if_pos hout
  · rw [State.refreshStatus_of_not_parked (Bool.eq_false_iff.2 fun h => hfree ((State.statusParked_iff s).1 h))]
    exact State.pumpStatus_of_cons (s := { s.refreshCounted with cau.statusLeft := s.refreshCounted.statusWrites }) hout hwrites
  · rw [State.refreshStatus_of_parked ((State.statusParked_iff s).2 hparked)]
    exact State.pumpStatus_of_cons (s := { s.refreshCounted with
      ptu.behind := none, cau.statusOut := false, cau.statusLeft := s.refreshCounted.statusWrites }) rfl hwrites
  · exact if_neg fun hcounts => h (s.trialCounts_iff.1 hcounts)
  · have hone : decide (s.suc.trialLeft ≤ 1) = (s.suc.trialLeft == 1) := by
      obtain ⟨-, -, -, hpos⟩ := h
      rw [Bool.eq_iff_iff, decide_eq_true_eq, beq_iff_eq]
      omega
    have htrial : s.unitBoundary .suc = { s with
        suc.trialLeft := s.suc.trialLeft - 1
        lines.restartReq := s.lines.restartReq || decide (s.suc.trialLeft ≤ 1) } := if_pos (s.trialCounts_iff.2 h)
    rw [htrial, hone]
  · exact (State.imageBoundary_of_armed h).trans (if_neg hmet)
  · exact (State.imageBoundary_of_armed h).trans (if_pos hmet)
  · exact (State.imageBoundary_of_draining h).trans (if_neg (not_le.2 hleft))
  · rw [exec_drainDeadline h hleft]
    exact congrArg _ ((State.imageBoundary_of_draining h).trans (if_pos hleft)).symm
  · have hunit : s.unitBoundary .scu = s.scheduleBoundary := rfl
    have hscu : s.scheduleBoundary.scu = s.clockAdvanced.scu := s.scheduleBoundary_onlyReports.scu
    rw [hunit]
    refine ⟨fun h => ?_, fun h hsecond => ?_, fun h hsecond => ?_, ?_, ?_, s.scheduleBoundary_rest⟩
    · rw [s.scheduleBoundary_time, s.scheduleBoundary_scu, advanceClock_of_invalid h]
      exact ⟨rfl, rfl⟩
    · rw [s.scheduleBoundary_time, s.scheduleBoundary_scu, advanceClock_of_second h hsecond]
      exact ⟨rfl, rfl⟩
    · rw [s.scheduleBoundary_time, s.scheduleBoundary_scu, advanceClock_of_minute h hsecond]
      refine ⟨rfl, ?_⟩
      simp only [scuAdvanced, if_true, h, Bool.true_and]
    · rw [s.scheduleBoundary_stations]
      refine List.map_congr_left fun r _ => ?_
      have hlevel := State.scuLevel_eq hscu r Iff.rfl
      split
      · next hstands => exact State.scuRecord_stands (hlevel.symm.trans hstands)
      · next hmoves =>
        rw [s.scheduleBoundary_rateChange]
        refine (State.scuRecord_moves fun hstands => hmoves (hlevel.trans hstands)).trans ?_
        exact congrArg (fun l => s.clockAdvanced.rateChange { r with level := l, pause := r.pause.count, ext := r.ext - 1 }) hlevel.symm
    · rw [s.scheduleBoundary_pending]
      refine congrArg (fun bs => (({ s with time := s.scheduleBoundary.time } : State).raiseAll bs).cau.pending) ?_
      refine congrArg₂ (· ++ ·) rfl (List.flatMap_congr fun r _ => ?_)
      have hlevel := State.scuLevel_eq hscu r Iff.rfl
      have hedges := State.scuEdges_eq hscu r Iff.rfl
      rw [← hlevel] at hedges
      exact hedges

end Sys2Proof.Machine

/-! PROOFS. RecordCountdownsEnd (sections 4.2, 4.3, 5.4, 5.5, 7.4, 8.4, 8.5): the last second of a record's countdowns, and the events
of STU and CGU at a second boundary. -/
namespace Sys2Proof.Machine

/-! ## A table whose game flags have moved (R93, R94) -/

/-- A table is put, the count follows its flags, and reports are raised. -/
def State.withGames (rs : List Station) (bs : List ReportBody) (s : State) : State :=
  (({ s with stu.stations := rs } : State).recounted).raiseAll bs

section
variable (rs : List Station) (bs : List ReportBody) (s : State)

theorem State.withGames_onlyReports : OnlyReports ({ s with stu.stations := rs } : State).recounted (s.withGames rs bs) :=
  (State.raiseAll_runs _ _).onlyReports

theorem State.withGames_unmarked : unmarked (s.withGames rs bs).stu.stations = unmarked rs := by
  rw [(s.withGames_onlyReports rs bs).stu]
  exact State.recounted_unmarked _

theorem State.withGames_count : (s.withGames rs bs).cgu.count = flagged (s.withGames rs bs).stu.stations := by
  rw [(s.withGames_onlyReports rs bs).stu, (s.withGames_onlyReports rs bs).cgu]
  exact State.recounted_count _

theorem State.withGames_contention :
    (s.withGames rs bs).cgu.contention = decide (0 < (s.withGames rs bs).cgu.count) := by
  rw [(s.withGames_onlyReports rs bs).cgu, State.recounted_eq]

theorem State.withGames_marks (h : s.cgu.contention ≠ (s.withGames rs bs).cgu.contention) :
    ∀ r ∈ (s.withGames rs bs).stu.stations, r.mark = true := by
  rw [(s.withGames_onlyReports rs bs).cgu, State.recounted_eq] at h
  rw [(s.withGames_onlyReports rs bs).stu, State.recounted_eq]
  intro r hr
  have hmarked : markedFor s.cgu.contention (decide (0 < flagged rs)) rs = rs.map (fun r => { r with mark := true }) := if_neg h
  obtain ⟨q, -, rfl⟩ := List.mem_map.1 (hmarked ▸ hr)
  rfl

theorem State.withGames_pending : (s.withGames rs bs).cau.pending = (s.raiseAll bs).cau.pending :=
  State.raiseAll_pending_congr bs (by rw [State.recounted_eq]) (by rw [State.recounted_eq]) (by rw [State.recounted_eq])

theorem State.withGames_rest :
    OnlyReports { s with stu.stations := (s.withGames rs bs).stu.stations, cgu := (s.withGames rs bs).cgu } (s.withGames rs bs) := by
  have h := s.withGames_onlyReports rs bs
  have hbase : ({ s with stu.stations := (s.withGames rs bs).stu.stations, cgu := (s.withGames rs bs).cgu } : State)
      = ({ s with stu.stations := rs } : State).recounted := by
    rw [h.stu, h.cgu, State.recounted_eq]
  rw [hbase]
  exact h

end

/-! ## One record's second (R89, R90) -/

theorem State.gameStep_eq (s : State) (r : Station) : s.gameStep r =
    if (gameEvaluate s.policy r).2.isSome then s.rateChange (gameEvaluate s.policy r).1 else (gameEvaluate s.policy r).1 := by
  unfold State.gameStep
  dsimp only
  cases (gameEvaluate s.policy r).2 <;> rfl

theorem gameEdge_eq (p : Policy) (n : Nat) (r : Station) : gameEdge p n r =
    ((gameEvaluate p r).2.map (fun e => ReportBody.gameEdge r.addr e.1 e.2 n)).toList := by
  unfold gameEdge
  cases (gameEvaluate p r).2 <;> rfl

theorem State.gameBoundary_eq (s : State) : s.gameBoundary =
    s.withGames (s.stu.stations.map s.gameStep)
      (s.stu.stations.flatMap (gameEdge s.policy (flagged (s.stu.stations.map s.gameStep)))) := rfl

section
variable {p : Policy} {r : Station}

theorem gameEvaluate_of_qualifies (h : p.threshold ≤ r.gameCount) : gameEvaluate p r =
    if r.gameActive then ({ r with sustain := min p.sustain (r.sustain + 1), gameCount := 0, linger := p.linger }, none)
    else if min p.sustain (r.sustain + 1) = p.sustain then
      ({ r with sustain := min p.sustain (r.sustain + 1), gameCount := 0, gameActive := true, linger := p.linger },
        some (true, .detected))
    else ({ r with sustain := min p.sustain (r.sustain + 1), gameCount := 0 }, none) := if_pos h

theorem gameEvaluate_of_falls_short (h : r.gameCount < p.threshold) : gameEvaluate p r =
    if r.gameActive then
      if r.linger ≤ 1 then
        ({ r with sustain := 0, gameCount := 0, linger := 0, gameActive := false }, some (false, .lingerEnd))
      else ({ r with sustain := 0, gameCount := 0, linger := r.linger - 1 }, none)
    else ({ r with sustain := 0, gameCount := 0 }, none) := if_neg (not_le.2 h)

end

/-! ## An override ends (R127) -/

section
variable {slot : Nat} {r : Station} {s : State} (hr : s.recordAt slot = some r)
include hr

theorem exec_gameLingerEnd (hactive : r.gameActive = true) (hlinger : r.linger = 1) (hcount : r.gameCount < s.policy.threshold) :
    exec (.gameLingerEnd slot) s = .next (s.withGames
      (s.putRecord (s.rateChange { r with sustain := 0, gameCount := 0, linger := 0, gameActive := false })).stu.stations
      [.gameEdge r.addr false .lingerEnd (flagged
        (s.putRecord (s.rateChange { r with sustain := 0, gameCount := 0, linger := 0, gameActive := false })).stu.stations)]) := by
  have hends : gameEvaluate s.policy r
      = ({ r with sustain := 0, gameCount := 0, linger := 0, gameActive := false }, some (false, .lingerEnd)) := by
    rw [gameEvaluate_of_falls_short hcount, if_pos hactive, if_pos hlinger.le]
  have hrow : exec (.gameLingerEnd slot) s = execGameLingerEnd slot s := rfl
  rw [hrow, execGameLingerEnd, hr]
  dsimp only
  rw [if_pos ⟨hactive, hlinger.le, hcount⟩, State.gameStep_eq, gameEdge_eq, hends]
  rfl

theorem exec_pauseExpiry (hpause : r.pause = .timed 1) :
    exec (.pauseExpiry slot) s = .next (s.override r { r with pause := .none }) := by
  have hrow : exec (.pauseExpiry slot) s = execPauseExpiry slot s := rfl
  rw [hrow, execPauseExpiry, hr]
  dsimp only
  rw [hpause]
  exact if_pos le_rfl

theorem exec_extensionExpiry (hext : r.ext = 1) :
    exec (.extensionExpiry slot) s = .next (s.override r { r with ext := 0 }) := by
  have hrow : exec (.extensionExpiry slot) s = execExtensionExpiry slot s := rfl
  rw [hrow, execExtensionExpiry, hr]
  exact if_pos hext

theorem exec_backoffExpiry (hbackoff : r.backoff = 1) :
    exec (.backoffExpiry slot) s = .next (s.putRecord { r with backoff := 0 }) := by
  have hrow : exec (.backoffExpiry slot) s = execBackoffExpiry slot s := rfl
  rw [hrow, execBackoffExpiry, hr]
  exact if_pos hbackoff

theorem exec_estimateEntryExpiry (node : Nat) : exec (.estimateEntryExpiry slot node) s = .next (s.putRecord
    { r with estimates := r.estimates.filter (fun e => !(e.node == node && decide (60 ≤ e.age))) }) := by
  have hrow : exec (.estimateEntryExpiry slot node) s = execEstimateEntryExpiry slot node s := rfl
  rw [hrow, execEstimateEntryExpiry, hr]

theorem exec_steerTimeout (hstate : r.state = .steering) (htimer : r.steerTimer ≤ 1) : exec (.steerTimeout slot) s
    = .next ((s.putRecord (timeOutRecord s.rmu.drain r).1).raiseAll (timeOutRecord s.rmu.drain r).2) := by
  have hrow : exec (.steerTimeout slot) s = execSteerTimeout slot s := rfl
  rw [hrow, execSteerTimeout, hr]
  exact if_pos ⟨hstate, htimer⟩

end

/-! ## The holds at a second boundary (R69, R71) -/

theorem stuCount_eq (r : Station) :
    stuCount r = { r with age := min 65535 (r.age + 1), hold := r.hold.map (fun n => n - 1) } := by
  have hage : (if r.age < 65535 then r.age + 1 else 65535) = min 65535 (r.age + 1) := by
    split <;> omega
  unfold stuCount
  rw [hage]
  cases r.hold <;> rfl

/-- The reason of a free by hold (R71). -/
def freeReason (r : Station) : FreeReason :=
  if r.state = .idle then .idleTimeout else if r.state = .expected then .expectedTimeout else .awayRelease

/-- A record's hold has run out. -/
def holdRunOut (r : Station) : Bool := r.hold == some 0 && (r.state == .idle || r.state == .expected || r.state == .away)

/-- A free looks at no mark. -/
theorem State.freeRecord_congr {r q : Station} (h : { q with mark := false } = ({ r with mark := false } : Station))
    (why : FreeReason) (u : State) : u.freeRecord q why = u.freeRecord r why := by
  have hslot : q.slot = r.slot := (congrArg Station.slot h :)
  have haddr : q.addr = r.addr := (congrArg Station.addr h :)
  have hstate : q.state = r.state := (congrArg Station.state h :)
  have hgame : q.gameActive = r.gameActive := (congrArg Station.gameActive h :)
  unfold State.freeRecord State.removeRecord freedEdge
  rw [hslot, haddr, hstate, hgame]

theorem State.recordAt_unmarked (u : State) (k : Nat) :
    (u.recordAt k).map (fun r => { r with mark := false }) = (unmarked u.stu.stations).find? (fun r => r.slot == k) := by
  rw [unmarked, List.find?_map]
  rfl

theorem State.freeRecord_unmarked (r : Station) (why : FreeReason) (u : State) :
    unmarked (u.freeRecord r why).stu.stations = unmarked (withoutSlot r.slot u.stu.stations) := by
  rw [(u.freeRecord_onlyReports r why).stu]
  exact u.removeRecord_unmarked r

/-- A free leaves the records of other slots, but for their marks. -/
theorem State.freeRecord_recordAt (r : Station) (why : FreeReason) (u : State) {k : Nat} (hk : r.slot ≠ k) :
    ((u.freeRecord r why).recordAt k).map (fun r => { r with mark := false })
      = (u.recordAt k).map (fun r => { r with mark := false }) := by
  rw [State.recordAt_unmarked, State.freeRecord_unmarked, State.recordAt_unmarked, withoutSlot,
    unmarked_filter _ (fun _ => rfl), List.find?_filter]
  congr 1
  funext q
  by_cases hq : q.slot = k
  · simp [hq, Ne.symm hk]
  · simp [hq]

/-- The free of a slot whose record, but for its mark, is `r`. -/
theorem State.freeExpired_eq {u : State} {r : Station}
    (h : (u.recordAt r.slot).map (fun r => { r with mark := false }) = some { r with mark := false }) :
    u.freeExpired r.slot = if holdRunOut r = true then u.freeRecord r (freeReason r) else u := by
  obtain ⟨q, hq, hmark⟩ := Option.map_eq_some_iff.1 h
  have hhold : q.hold = r.hold := (congrArg Station.hold hmark :)
  have hstate : q.state = r.state := (congrArg Station.state hmark :)
  unfold State.freeExpired
  rw [hq]
  dsimp only
  rw [hhold, hstate]
  split
  · next reason hzero hreason =>
    have hspent : holdRunOut r = true ∧ freeReason r = reason := by
      revert hreason
      rw [holdRunOut, hzero, freeReason]
      cases r.state <;> simp [holdReason]
    rw [if_pos hspent.1, State.freeRecord_congr hmark, hspent.2]
  · next hnone =>
    have hspent : ¬holdRunOut r = true := by
      intro hspent
      simp only [holdRunOut, Bool.and_eq_true, Bool.or_eq_true, beq_iff_eq] at hspent
      obtain ⟨hzero, (hs | hs) | hs⟩ := hspent <;> exact hnone _ hzero (congrArg holdReason hs)
    rw [if_neg hspent]

/-- Freed one after another, each for its own reason. -/
def State.freeAll (rs : List Station) (u : State) : State := rs.foldl (fun u r => u.freeRecord r (freeReason r)) u

theorem State.freeAll_cons (r : Station) (rs : List Station) (u : State) :
    u.freeAll (r :: rs) = (u.freeRecord r (freeReason r)).freeAll rs := rfl

theorem State.foldl_freeExpired {rs : List Station} (hnodup : (rs.map (fun r => r.slot)).Nodup) {u : State}
    (hfound : ∀ r ∈ rs, (u.recordAt r.slot).map (fun r => { r with mark := false }) = some { r with mark := false }) :
    (rs.map (fun r => r.slot)).foldl (fun s k => s.freeExpired k) u = u.freeAll (rs.filter holdRunOut) := by
  induction rs generalizing u with
  | nil => rfl
  | cons r rs ih =>
    obtain ⟨hnew, hnodup⟩ := List.nodup_cons.1 hnodup
    have hrest := fun q hq => hfound q (List.mem_cons_of_mem _ hq)
    rw [List.map_cons, List.foldl_cons, State.freeExpired_eq (hfound r (List.mem_cons_self ..)), List.filter_cons]
    by_cases hspent : holdRunOut r = true
    · rw [if_pos hspent, if_pos hspent, State.freeAll_cons]
      refine ih hnodup fun q hq => ?_
      have hne : r.slot ≠ q.slot := fun heq => hnew (List.mem_map.2 ⟨q, hq, heq.symm⟩)
      rw [State.freeRecord_recordAt r _ u hne]
      exact hrest q hq
    · rw [if_neg hspent, if_neg hspent]
      exact ih hnodup hrest

/-! ## What frees leave -/

theorem State.freeAll_unmarked (rs : List Station) (u : State) : unmarked (u.freeAll rs).stu.stations
    = unmarked (u.stu.stations.filter (fun q => decide (q.slot ∉ rs.map (fun r => r.slot)))) := by
  induction rs generalizing u with
  | nil => simp [State.freeAll]
  | cons r rs ih =>
    rw [State.freeAll_cons, ih, unmarked_filter _ (fun _ => rfl), State.freeRecord_unmarked, ← unmarked_filter _ (fun _ => rfl),
      withoutSlot, List.filter_filter]
    congr 2
    funext q
    by_cases hq : q.slot = r.slot <;> simp [hq]

theorem State.freeAll_count (rs : List Station) {u : State} (h : u.cgu.count = flagged u.stu.stations) :
    (u.freeAll rs).cgu.count = flagged (u.freeAll rs).stu.stations := by
  induction rs generalizing u with
  | nil => exact h
  | cons r rs ih =>
    refine ih ?_
    rw [(u.freeRecord_onlyReports r _).cgu, (u.freeRecord_onlyReports r _).stu]
    exact (u.removeRecord_count r).1

theorem State.raise_gap_congr (b : ReportBody) {s t : State} (hpending : t.cau.pending = s.cau.pending) : (t.raise b).cau.gap = (s.raise b).cau.gap := by
  rw [(State.raise_pending_gap b t).2, (State.raise_pending_gap b s).2]
  rcases Nat.lt_or_ge s.cau.pending.length 16 with h | h
  · rw [State.joinQueue_of_room h, State.joinQueue_of_room (hpending ▸ h)]
  · rw [State.joinQueue_of_full h, State.joinQueue_of_full (hpending ▸ h)]

theorem State.raiseTogether_first (bs : List ReportBody) (s : State) : s.raiseTogether [bs, []] = s.raiseAll bs := by
  have hmerge : mergeUnits s.freeIdx [bs, []] = (bs, s.freeIdx) := by
    cases bs <;> rfl
  rw [State.raiseTogether, hmerge]

/-- Where no freed record is game-active the frees raise STATION_FREED alone, in their order. -/
theorem State.freeAll_pending {rs : List Station} (hgame : ∀ r ∈ rs, r.gameActive = false) {u v : State} (htime : u.time = v.time)
    (hpending : u.cau.pending = v.cau.pending) (hgap : u.cau.gap = v.cau.gap) : (u.freeAll rs).cau.pending
      = (v.raiseAll (rs.map (fun r => .stationFreed r.addr r.state (freeReason r)))).cau.pending := by
  induction rs generalizing u v with
  | nil => exact hpending
  | cons r rs ih =>
    have hfreed : u.freeRecord r (freeReason r) = (u.removeRecord r).raise (.stationFreed r.addr r.state (freeReason r)) := by
      have hedge : freedEdge r (u.removeRecord r).cgu.count = [] := if_neg (by simp [hgame r (List.mem_cons_self ..)])
      unfold State.freeRecord
      dsimp only
      rw [hedge, State.raiseTogether_first]
      rfl
    have htimeKept : ∀ (w : State) (b : ReportBody), (w.raise b).time = w.time := fun w b =>
      (w.raise_frame b).time (by decide) (by decide)
    have hremoved : (u.removeRecord r).time = v.time ∧ (u.removeRecord r).cau.pending = v.cau.pending
        ∧ (u.removeRecord r).cau.gap = v.cau.gap := by
      rw [State.removeRecord_eq]
      exact ⟨htime, hpending, hgap⟩
    obtain ⟨hrt, hrp, hrg⟩ := hremoved
    rw [State.freeAll_cons, hfreed]
    exact ih (fun q hq => hgame q (List.mem_cons_of_mem _ hq)) (v := v.raise (.stationFreed r.addr r.state (freeReason r)))
      (by rw [htimeKept, htimeKept, hrt]) (State.raise_pending_congr _ hrt hrp hrg) (State.raise_gap_congr _ hrp)

/-- Only the table, the CGU's state, the summaries still due and the reports differ. -/
def FreesOnly (s t : State) : Prop :=
  OnlyReports { s with stu.stations := t.stu.stations, cgu := t.cgu, rmu.summaries := t.rmu.summaries } t

theorem FreesOnly.refl (s : State) : FreesOnly s s := rfl

theorem FreesOnly.trans {s t u : State} (h : FreesOnly s t) (h' : FreesOnly t u) : FreesOnly s u := by
  have hst : t = State.withReports { s with stu.stations := t.stu.stations, cgu := t.cgu, rmu.summaries := t.rmu.summaries } t := h
  have htu : u = State.withReports { t with stu.stations := u.stu.stations, cgu := u.cgu, rmu.summaries := u.rmu.summaries } u := h'
  exact htu.trans ((congrArg (fun v : State => State.withReports
    { v with stu.stations := u.stu.stations, cgu := u.cgu, rmu.summaries := u.rmu.summaries } u) hst).trans rfl)

theorem State.freeRecord_freesOnly (r : Station) (why : FreeReason) (u : State) : FreesOnly u (u.freeRecord r why) := by
  have h := u.freeRecord_onlyReports r why
  have hparts := u.removeRecord_onlyTable r
  unfold FreesOnly
  rw [h.stu, h.cgu, h.rmu, ← hparts]
  exact h

theorem State.freeAll_freesOnly (rs : List Station) (u : State) : FreesOnly u (u.freeAll rs) := by
  induction rs generalizing u with
  | nil => exact .refl u
  | cons r rs ih => exact (u.freeRecord_freesOnly r _).trans (ih _)

/-! ## The STU's event -/

/-- The table with ages and holds one second on. -/
def State.counted (s : State) : State := { s with stu.stations := s.stu.stations.map stuCount }

theorem State.counted_proper {s : State} (h : TableProper s) : TableProper s.counted :=
  TableOf.map h fun r _ => ⟨by rw [stuCount_eq], by rw [stuCount_eq]⟩

theorem State.stationBoundary_eq {s : State} (h : TableProper s) :
    s.stationBoundary = s.counted.freeAll (s.counted.stu.stations.filter holdRunOut) := by
  have hproper := s.counted_proper h
  refine State.foldl_freeExpired (hproper.1.imp fun hlt => ne_of_lt hlt) (u := s.counted) fun r hr => ?_
  rw [State.recordAt_of_mem hproper hr]
  rfl

/-- In a proper table the slots of the spent records are those records' own. -/
theorem State.filter_unspent {s : State} (h : TableProper s) :
    s.stu.stations.filter (fun q => decide (q.slot ∉ (s.stu.stations.filter holdRunOut).map (fun r => r.slot)))
      = s.stu.stations.filter (fun q => !holdRunOut q) := by
  refine List.filter_congr fun q hq => ?_
  rw [Bool.eq_iff_iff, decide_eq_true_eq, Bool.not_eq_true']
  constructor
  · intro hno
    by_contra hspent
    exact hno (List.mem_map_of_mem (List.mem_filter.2 ⟨hq, by simpa using hspent⟩))
  · intro hunspent hmem
    obtain ⟨r, hr, hslot⟩ := List.mem_map.1 hmem
    obtain ⟨hr, hspent⟩ := List.mem_filter.1 hr
    rw [TableOf.eq_of_slot h hr hq hslot, hunspent] at hspent
    exact Bool.false_ne_true hspent

end Sys2Proof.Machine

/-! PROOFS. RecordCountdownsEnd: the whole. -/
namespace Sys2Proof.Machine

/-- The last second of each of a record's own countdowns. -/
theorem recordCountdowns {slot : Nat} {r : Station} {s : State} (hr : s.recordAt slot = some r) :
    (r.gameActive = true → r.linger = 1 → r.gameCount < s.policy.threshold → ∃ t,
      let r' := s.rateChange { r with sustain := 0, gameCount := 0, linger := 0, gameActive := false }
      exec (.gameLingerEnd slot) s = .next t
      ∧ t.stu.stations.map (fun q => { q with mark := false })
          = (s.putRecord r').stu.stations.map (fun q => { q with mark := false })
      ∧ t.cgu.count = flagged t.stu.stations
      ∧ t.cau.pending = (s.raise (.gameEdge r.addr false .lingerEnd t.cgu.count)).cau.pending
      ∧ OnlyReports { s with stu.stations := t.stu.stations, cgu := t.cgu } t)
    ∧ (r.pause = .timed 1 →
        let target := if 0 < r.ext then 4096 else (s.profileOf r.profile).target
        let l := moveLevel (s.slopeOf r) false target r.level
        let p := { r with pause := .none, level := l }
        exec (.pauseExpiry slot) s = .next ((s.putRecord (if l = r.level then p else s.rateChange p)).raiseAll
          (levelEdges r.addr 0 r.level target l)))
    ∧ (r.ext = 1 → r.pause = .none →
        let target := (s.profileOf r.profile).target
        let l := moveLevel (s.slopeOf r) false target r.level
        let p := { r with ext := 0, level := l }
        exec (.extensionExpiry slot) s = .next ((s.putRecord (if l = r.level then p else s.rateChange p)).raiseAll
          (levelEdges r.addr 4096 r.level target l))) := by
  refine ⟨fun hactive hlinger hcount => ⟨_, exec_gameLingerEnd hr hactive hlinger hcount, State.withGames_unmarked _ _ s,
    State.withGames_count _ _ s, ?_, State.withGames_rest _ _ s⟩, fun hpause => ?_, fun hext hpause => ?_⟩
  · rw [State.withGames_pending, State.withGames_count, flagged_congr (State.withGames_unmarked _ _ s)]
    rfl
  · have hbefore : s.stationTarget r = 0 := State.stationTarget_of_pause (by rw [hpause]; rfl) s
    rw [exec_pauseExpiry hr hpause, State.override_eq rfl rfl, hbefore]
    rfl
  · have hbefore : s.stationTarget r = 4096 := by
      rw [State.stationTarget, hpause, hext]
      rfl
    have hafter : s.stationTarget { r with ext := 0 } = (s.profileOf r.profile).target := by
      rw [State.stationTarget, hpause]
      rfl
    rw [exec_extensionExpiry hr hext, State.override_eq hafter rfl, hbefore, hpause]
    rfl

/-- Settles O56: a record's last seconds, the holds at a second boundary, one record's game second, and the CGU's event. -/
theorem recordCountdownsEnd : Obligations.RecordCountdownsEnd := by
  refine ⟨fun slot r s hr => ?_, fun s hproper => ?_, fun p r => ?_, fun s => ?_⟩
  · obtain ⟨hgame, hpause, hext⟩ := recordCountdowns hr
    refine ⟨hgame, hpause, hext, exec_backoffExpiry hr, exec_estimateEntryExpiry hr, fun n hstate hto htimer => ?_⟩
    rw [exec_steerTimeout hr hstate htimer.le, timeOutRecord, hto]
    rfl
  · have hcounted : s.stu.stations.map (fun r => { r with age := min 65535 (r.age + 1), hold := r.hold.map (fun n => n - 1) })
        = s.counted.stu.stations := List.map_congr_left fun r _ => (stuCount_eq r).symm
    have hboundary : s.unitBoundary .stu = s.counted.freeAll (s.counted.stu.stations.filter holdRunOut) :=
      State.stationBoundary_eq hproper
    dsimp only
    rw [hcounted, hboundary]
    refine ⟨?_, fun hgames => ?_, fun hnone => ?_, rfl, fun r why u => ⟨rfl, (u.removeRecord_count r).1⟩, ?_⟩
    · rw [State.freeAll_unmarked, State.filter_unspent (State.counted_proper hproper)]
      rfl
    · refine State.freeAll_count _ (hgames.1.trans ?_)
      have hflagged : flagged (s.stu.stations.map stuCount) = flagged s.stu.stations := by
        rw [flagged_eq_countP, flagged_eq_countP, List.map_map]
        exact congrArg (fun l : List Bool => (l.filter id).length) (List.map_congr_left fun r _ => by
          rw [Function.comp_apply, stuCount_eq])
      exact hflagged.symm
    · exact State.freeAll_pending (fun r hr => hnone r (List.mem_filter.1 hr).1 (List.mem_filter.1 hr).2) rfl rfl rfl
    · exact State.freeAll_freesOnly _ s.counted
  · refine ⟨fun h => ⟨fun hactive => ?_, fun hactive hreached => ?_, fun hactive hless => ?_⟩,
      fun h => ⟨fun hactive => ?_, fun hactive hlinger => ?_, fun hactive hlinger => ?_⟩⟩
    · rw [gameEvaluate_of_qualifies h, if_pos hactive]
    · rw [gameEvaluate_of_qualifies h, if_neg (by simp [hactive]), if_pos hreached]
    · rw [gameEvaluate_of_qualifies h, if_neg (by simp [hactive]), if_neg (ne_of_lt hless)]
    · rw [gameEvaluate_of_falls_short h, if_neg (by simp [hactive])]
    · rw [gameEvaluate_of_falls_short h, if_pos hactive, if_neg (not_le.2 hlinger)]
    · rw [gameEvaluate_of_falls_short h, if_pos hactive, if_pos hlinger]
  · have hboundary : s.unitBoundary .cgu = s.gameBoundary := rfl
    have hstep : s.stu.stations.map s.gameStep = s.stu.stations.map (fun r =>
        if (gameEvaluate s.policy r).2.isSome then s.rateChange (gameEvaluate s.policy r).1 else (gameEvaluate s.policy r).1) :=
      List.map_congr_left fun r _ => s.gameStep_eq r
    rw [hboundary, State.gameBoundary_eq]
    dsimp only
    refine ⟨?_, State.withGames_count _ _ s, State.withGames_contention _ _ s, State.withGames_marks _ _ s, ?_,
      State.withGames_rest _ _ s⟩
    · rw [State.withGames_unmarked, hstep]
    · rw [State.withGames_pending, State.withGames_count, flagged_congr (State.withGames_unmarked _ _ s)]
      exact congrArg (fun bs => (s.raiseAll bs).cau.pending) (List.flatMap_congr fun r _ => gameEdge_eq _ _ r)

end Sys2Proof.Machine

/-! PROOFS. NodeCountdownsAndSweep (sections 6.5, 8.4 to 8.7, 10.1): the drain's end, the sweep, the due summary, and one record's
second in the RMU. -/
namespace Sys2Proof.Machine

/-! ## Entry to COMMITTING (R180, R182) -/

/-- The commit append of the target's slot is asked for. -/
def State.commitAsked (s : State) : State := { s with suc.jobs := s.suc.jobs ++
  [{ owner := .commit, slot := s.imu.session.slot, boot := .trial, attempts := 0, fallback := false }] }

/-- The session in COMMITTING, and drain mode cleared. -/
def State.drained (s : State) : State := { s with
  imu.session := { s.imu.session with state := .committing, now := false, force := false }
  rmu.drain := false
  stu.stations := s.stu.stations.map (fun r => { r with unmovable := false, dwell := 0, candidate := none }) }

theorem OnlyReports.commitAsked {s t : State} (h : OnlyReports s t) : OnlyReports s.commitAsked t.commitAsked :=
  (congrArg State.commitAsked h.eq).trans rfl

theorem State.enterCommitting_eq (reason : Reason) (s : State) : s.enterCommitting reason
    = (s.drained.raise (.imageState .committing reason s.imu.session.pages s.imu.session.version)).commitAsked := rfl

theorem State.enterCommitting_onlyReports (reason : Reason) (s : State) :
    OnlyReports s.drained.commitAsked (s.enterCommitting reason) := by
  rw [State.enterCommitting_eq]
  exact (State.raise_onlyReports _ _).commitAsked

theorem State.enterCommitting_pending (reason : Reason) (s : State) : (s.enterCommitting reason).cau.pending
    = (s.raise (.imageState .committing reason s.imu.session.pages s.imu.session.version)).cau.pending :=
  State.raise_pending_congr (t := s.drained) _ rfl rfl rfl

theorem Session.slot_of_image {n : Session} {sl : Slot} (h : n.target = some (.image sl)) : n.slot = sl := by
  rw [Session.slot, h]

/-! ## The sweep and the summary (R110, R150) -/

theorem exec_sweepVisit_of_none {s : State} (h : ∀ r ∈ s.stu.stations, r.mark = false) : exec .sweepVisit s = .next s := by
  have hnone : s.stu.stations.find? (fun r => r.mark) = none := by simpa using h
  have hrow : exec .sweepVisit s = execSweepVisit s := rfl
  rw [hrow, execSweepVisit, hnone]

theorem exec_sweepVisit_of_some {s : State} {r : Station} (h : s.stu.stations.find? (fun q => q.mark) = some r) :
    exec .sweepVisit s = .next (s.putRecord (s.rateChange r)) := by
  have hrow : exec .sweepVisit s = execSweepVisit s := rfl
  rw [hrow, execSweepVisit, h]

theorem exec_signalSummary {s : State} {k : Nat} {ks : List Nat} {b : ReportBody} (hdue : s.rmu.summaries = k :: ks)
    (hb : s.summaryOf k = some b) : exec .signalSummary s =
      if s.cau.pending.length < 16 then .next (({ s with rmu.summaries := ks } : State).raise b) else .next s := by
  have hdrop : s.rmu.summaries.dropWhile (fun k => (s.summaryOf k).isNone) = k :: ks := by
    rw [hdue, List.dropWhile_cons, hb]
    rfl
  have hself : ({ s with rmu.summaries := k :: ks } : State) = s := by rw [← hdue]
  have hrow : exec .signalSummary s = execSignalSummary s := rfl
  rw [hrow, execSignalSummary, hdrop]
  dsimp only
  rw [hb]
  dsimp only
  rw [hself]

/-! ## Steps 1 to 3 for one record (R141, R146, R148) -/

theorem roamCount_rests {drain : Bool} {r : Station} (h : r.state ≠ .steering) :
    roamCount drain r = (ageEstimates { r with backoff := r.backoff - 1 }, []) := if_neg h

theorem roamCount_counts {drain : Bool} {r : Station} (h : r.state = .steering) (htimer : 1 < r.steerTimer) :
    roamCount drain r = ({ ageEstimates { r with backoff := r.backoff - 1 } with steerTimer := r.steerTimer - 1 }, []) :=
  (if_pos h).trans (if_neg (not_le.2 htimer))

theorem roamCount_timesOut {drain : Bool} {r : Station} (h : r.state = .steering) (htimer : r.steerTimer ≤ 1) :
    roamCount drain r = timeOutRecord drain (ageEstimates { r with backoff := r.backoff - 1 }) :=
  (if_pos h).trans (if_pos htimer)

/-! ## The best candidate (R143) -/

/-- One entry is no better a candidate than another. -/
def Estimate.NotBetter (e b : Estimate) : Prop := e.value < b.value ∨ (e.value = b.value ∧ b.node ≤ e.node)

theorem Estimate.NotBetter.refl (e : Estimate) : e.NotBetter e := .inr ⟨rfl, le_rfl⟩

theorem Estimate.NotBetter.trans {e b c : Estimate} (h : e.NotBetter b) (h' : b.NotBetter c) : e.NotBetter c := by
  unfold Estimate.NotBetter at *
  omega

/-- The better of the entry held and the next. -/
def takeBetter (best : Option Estimate) (e : Estimate) : Option Estimate :=
  match best with
  | none => some e
  | some b => if b.value < e.value ∨ (b.value = e.value ∧ e.node < b.node) then some e else some b

theorem takeBetter_some (b e : Estimate) : ∃ c, takeBetter (some b) e = some c ∧ (c = b ∨ c = e) ∧ b.NotBetter c ∧ e.NotBetter c := by
  unfold takeBetter
  dsimp only
  split
  · next h =>
    refine ⟨e, rfl, .inr rfl, ?_, .refl e⟩
    unfold Estimate.NotBetter
    omega
  · next h =>
    refine ⟨b, rfl, .inl rfl, .refl b, ?_⟩
    unfold Estimate.NotBetter
    omega

theorem foldl_takeBetter (es : List Estimate) (b : Estimate) :
    ∃ c, es.foldl takeBetter (some b) = some c ∧ c ∈ b :: es ∧ ∀ e ∈ b :: es, e.NotBetter c := by
  induction es generalizing b with
  | nil => exact ⟨b, rfl, List.mem_singleton.2 rfl, fun e he => List.mem_singleton.1 he ▸ .refl b⟩
  | cons e es ih =>
    obtain ⟨c, hc, hor, hb, he⟩ := takeBetter_some b e
    obtain ⟨d, hd, hmem, hall⟩ := ih c
    have hcd := hall c (List.mem_cons_self ..)
    refine ⟨d, by rw [List.foldl_cons, hc, hd], ?_, fun f hf => ?_⟩
    · rcases List.mem_cons.1 hmem with rfl | hmem
      · rcases hor with rfl | rfl <;> simp
      · exact List.mem_cons_of_mem _ (List.mem_cons_of_mem _ hmem)
    · rcases List.mem_cons.1 hf with rfl | hf
      · exact hb.trans hcd
      · rcases List.mem_cons.1 hf with rfl | hf
        · exact he.trans hcd
        · exact hall f (List.mem_cons_of_mem _ hf)

theorem bestCandidate_eq (own : Nat) (r : Station) :
    bestCandidate own r = (r.estimates.filter (fun e => e.fresh && e.node != own)).foldl takeBetter none := rfl

/-- The entries a steering may aim at. -/
theorem mem_candidates {own : Nat} {r : Station} {e : Estimate} :
    e ∈ r.estimates.filter (fun e => e.fresh && e.node != own) ↔ e ∈ r.estimates ∧ e.age ≤ 10 ∧ e.node ≠ own := by
  rw [List.mem_filter, Bool.and_eq_true, bne_iff_ne, Estimate.fresh, decide_eq_true_eq]

theorem bestCandidate_none_iff (own : Nat) (r : Station) :
    bestCandidate own r = none ↔ ∀ e ∈ r.estimates, e.age ≤ 10 → e.node = own := by
  have hcandidates : (∀ e, e ∉ r.estimates.filter (fun e => e.fresh && e.node != own))
      ↔ ∀ e ∈ r.estimates, e.age ≤ 10 → e.node = own := by
    simp only [mem_candidates, not_and, not_not]
  rw [bestCandidate_eq, ← hcandidates, ← List.eq_nil_iff_forall_not_mem]
  cases hes : r.estimates.filter (fun e => e.fresh && e.node != own) with
  | nil => simp
  | cons e es =>
    obtain ⟨c, hc, -⟩ := foldl_takeBetter es e
    have hsome : (e :: es).foldl takeBetter none = some c := hc
    simp [hsome]

theorem bestCandidate_some {own : Nat} {r : Station} {b : Estimate} (h : bestCandidate own r = some b) :
    b ∈ r.estimates ∧ b.age ≤ 10 ∧ b.node ≠ own ∧ ∀ e ∈ r.estimates, e.age ≤ 10 → e.node ≠ own → e.NotBetter b := by
  rw [bestCandidate_eq] at h
  cases hes : r.estimates.filter (fun e => e.fresh && e.node != own) with
  | nil => exact absurd (hes ▸ h) (by simp)
  | cons e es =>
    obtain ⟨c, hc, hmem, hall⟩ := foldl_takeBetter es e
    have hsome : (e :: es).foldl takeBetter none = some c := hc
    rw [hes, hsome] at h
    obtain rfl := Option.some.inj h
    rw [← hes] at hmem hall
    obtain ⟨hin, hage, hnode⟩ := mem_candidates.1 hmem
    exact ⟨hin, hage, hnode, fun f hf hfage hfnode => hall f (mem_candidates.2 ⟨hf, hfage, hfnode⟩)⟩

/-! ## Step 4 for one record (R143 to R145, R151 to R153) -/

/-- A record whose evaluation finds nothing to do. -/
def Station.rested (r : Station) : Station := { r with dwell := 0, candidate := none }

theorem freshLocal_some {own : Nat} {r : Station} {l : Estimate} (h : freshLocal own r = some l) :
    r.entryOf own = some l ∧ l.age ≤ 10 := by
  unfold freshLocal at h
  split at h
  · next e he =>
    split at h
    · next hfresh =>
      obtain rfl := Option.some.inj h
      exact ⟨he, of_decide_eq_true hfresh⟩
    · exact nomatch h
  · exact nomatch h

theorem steerCondition_iff (p : Policy) (game : Bool) (here there : Int) : steerCondition p game here there = true ↔
    here < 16 * p.trigger ∧ 16 * p.floor ≤ there ∧ 16 * (if game then (p.gameMargin : Int) else p.margin) ≤ there - here := by
  have hmargin : (((if game then p.gameMargin else p.margin : Nat)) : Int) = if game then (p.gameMargin : Int) else p.margin := by
    split <;> rfl
  unfold steerCondition
  rw [hmargin]
  simp only [Bool.and_eq_true, decide_eq_true_eq, and_assoc]

section
variable {p : Policy} {own : Nat} {r : Station}

theorem evaluateRecord_rests (h : r.state ≠ .associated ∨ r.backoff ≠ 0 ∨ freshLocal own r = none ∨ bestCandidate own r = none) :
    evaluateRecord p own r = (r.rested, []) := by
  unfold evaluateRecord
  dsimp only
  split
  · next hable =>
    rcases h with hs | hb | hl | hn
    · exact absurd hable.1 hs
    · exact absurd hable.2 hb
    · rw [hl]
      rfl
    · rw [hn]
      cases freshLocal own r <;> rfl
  · rfl

theorem evaluateRecord_of_both {l b : Estimate} (hs : r.state = .associated) (hb : r.backoff = 0) (hl : freshLocal own r = some l)
    (hbest : bestCandidate own r = some b) : evaluateRecord p own r =
      if steerCondition p r.gameActive l.value b.value then
        if (if r.gameActive then p.gameDwell else p.dwell) ≤ (if r.candidate = some b.node then r.dwell + 1 else 1) then
          beginSteering p own .evaluation b r
        else ({ r with dwell := if r.candidate = some b.node then r.dwell + 1 else 1, candidate := some b.node }, [])
      else (r.rested, []) := by
  unfold evaluateRecord
  dsimp only
  rw [if_pos ⟨hs, hb⟩, hl, hbest]
  rfl

theorem beginSteering_eq (cause : SteerCause) (b : Estimate) : beginSteering p own cause b r =
    ({ r with state := .steering, hold := none, steerTo := some b.node, steerTimer := p.steerTimeout, dwell := 0
              candidate := none, unmovable := false },
      [.steer r.addr b.node cause (((r.entryOf own).map (fun e => e.value)).getD 0) b.value]) := by
  unfold beginSteering
  cases r.entryOf own <;> rfl

theorem movable_iff : movable p own r = true ↔ r.state = .associated ∧ r.unmovable = false ∧
    ∃ b, bestCandidate own r = some b ∧ 16 * p.floor ≤ b.value := by
  unfold movable
  rw [Bool.and_eq_true, Bool.and_eq_true, beq_iff_eq, Bool.not_eq_true', and_assoc]
  cases bestCandidate own r <;> simp

theorem drainRecord_of_movable {b : Estimate} (h : movable p own r = true) (hbest : bestCandidate own r = some b) :
    drainRecord p own r = beginSteering p own .drain b r.rested := by
  unfold drainRecord
  dsimp only
  rw [if_pos h, hbest]
  rfl

theorem drainRecord_of_not_movable (h : movable p own r = false) : drainRecord p own r = (r.rested, []) :=
  if_neg (by simp [h])

/-- The drain step makes no record movable. -/
theorem drainRecord_not_movable : movable p own (drainRecord p own r).1 = false := by
  cases h : movable p own r with
  | true =>
    obtain ⟨-, -, b, hbest, -⟩ := movable_iff.1 h
    rw [drainRecord_of_movable h hbest, beginSteering_eq]
    rfl
  | false =>
    rw [drainRecord_of_not_movable h]
    exact h

end

end Sys2Proof.Machine

/-! PROOFS. NodeCountdownsAndSweep: the summaries, the RMU's event, and the whole. -/
namespace Sys2Proof.Machine

theorem OnlyReports.trans {s t u : State} (h : OnlyReports s t) (h' : OnlyReports t u) : OnlyReports s u :=
  h'.eq.trans ((congrArg (fun v : State => v.withReports u) h.eq).trans rfl)

theorem OnlyReports.drained {s t : State} (h : OnlyReports s t) : OnlyReports s.drained t.drained :=
  (congrArg State.drained h.eq).trans rfl

/-! ## Summaries (R150) -/

/-- The RMU's own state is put. -/
def State.withRmu (x : Rmu) (s : State) : State := { s with rmu := x }

theorem OnlyReports.withRmu {s t : State} (h : OnlyReports s t) (x : Rmu) : OnlyReports (s.withRmu x) (t.withRmu x) :=
  (congrArg (State.withRmu x) h.eq).trans rfl

theorem OnlyReports.summaryOf {s t : State} {x : Rmu} (h : OnlyReports (s.withRmu x) t) : t.summaryOf = s.summaryOf :=
  (congrArg (fun u : State => u.summaryOf) h.eq).trans rfl

theorem OnlyReports.summariesDue {s t : State} {x : Rmu} (h : OnlyReports (s.withRmu x) t) : t.summariesDue = s.summariesDue :=
  (congrArg (fun u : State => u.summariesDue) h.eq).trans rfl

theorem State.summaryOf_of_recordAt {s : State} {k : Nat} {r : Station} (h : s.recordAt k = some r) : s.summaryOf k =
    (r.entryOf s.suc.node).bind (fun e =>
      if e.age ≤ 10 then some (.signalSummary r.addr e.value (r.state == .associated || r.state == .steering)) else none) := by
  unfold State.summaryOf freshLocal
  rw [h]
  dsimp only
  cases r.entryOf s.suc.node with
  | none => rfl
  | some e => by_cases hage : e.age ≤ 10 <;> simp [Estimate.fresh, hage]

theorem State.summaryOf_of_none {s : State} {k : Nat} (h : s.recordAt k = none) : s.summaryOf k = none := by
  unfold State.summaryOf
  rw [h]

theorem State.mem_summariesDue (s : State) (k : Nat) : k ∈ s.summariesDue ↔
    ∃ r e, s.recordAt k = some r ∧ r.entryOf s.suc.node = some e ∧ e.age ≤ 10 := by
  rw [State.summariesDue, List.mem_filter]
  constructor
  · rintro ⟨-, hsome⟩
    cases hr : s.recordAt k with
    | none => simp [State.summaryOf_of_none hr] at hsome
    | some r =>
      rw [State.summaryOf_of_recordAt hr] at hsome
      cases he : r.entryOf s.suc.node with
      | none => simp [he] at hsome
      | some e => exact ⟨r, e, rfl, he, by simpa [he] using hsome⟩
  · rintro ⟨r, e, hr, he, hage⟩
    obtain ⟨hmem, hslot⟩ := State.recordAt_some hr
    refine ⟨List.mem_map.2 ⟨r, hmem, hslot⟩, ?_⟩
    rw [State.summaryOf_of_recordAt hr, he]
    simp [hage]

theorem State.summariesDue_isSome {s : State} {k : Nat} (h : k ∈ s.summariesDue) : (s.summaryOf k).isSome = true :=
  (List.mem_filter.1 h).2

/-- Of the summaries due the first are raised while the queue has room, and the rest wait. -/
theorem raiseSummaries_spec {ks : List Nat} {s : State} (hks : ∀ k ∈ ks, (s.summaryOf k).isSome = true) :
    ∃ raised, ks = raised ++ (raiseSummaries ks s).rmu.summaries
      ∧ ((raiseSummaries ks s).rmu.summaries ≠ [] → 16 ≤ (raiseSummaries ks s).cau.pending.length)
      ∧ (raiseSummaries ks s).cau.pending = (s.raiseAll (raised.filterMap s.summaryOf)).cau.pending
      ∧ OnlyReports (s.withRmu { s.rmu with summaries := (raiseSummaries ks s).rmu.summaries }) (raiseSummaries ks s) := by
  induction ks generalizing s with
  | nil => exact ⟨[], rfl, fun h => absurd rfl h, rfl, rfl⟩
  | cons k ks ih =>
    obtain ⟨b, hb⟩ := Option.isSome_iff_exists.1 (hks k (List.mem_cons_self ..))
    rw [raiseSummaries, hb]
    dsimp only
    split
    · have hraise := State.raise_onlyReports b s
      have hsame : (s.raise b).summaryOf = s.summaryOf := hraise.summaryOf (x := s.rmu)
      obtain ⟨raised, hsplit, hfull, hpending, honly⟩ := ih (s := s.raise b) fun q hq => by
        rw [hsame]
        exact hks q (List.mem_cons_of_mem _ hq)
      refine ⟨k :: raised, congrArg (k :: ·) hsplit, hfull, ?_, ?_⟩
      · rw [hpending, hsame, List.filterMap_cons, hb]
        rfl
      · rw [hraise.rmu] at honly
        exact (hraise.withRmu _).trans honly
    · next hroom => exact ⟨[], rfl, fun _ => not_lt.1 hroom, rfl, rfl⟩

/-- The summaries left over raised, and the toggle flipped. -/
def State.summaryFlipped (s : State) : State :=
  (s.raiseAll (s.rmu.summaries.filterMap s.summaryOf)).withRmu { s.rmu with toggle := !s.rmu.toggle, summaries := [] }

/-- The summaries that a set toggle makes due are raised. -/
def State.dueRaised (s : State) : State := if s.rmu.toggle = true then raiseSummaries s.summariesDue s else s

theorem State.summaryStep_eq (s : State) : s.summaryStep = s.summaryFlipped.dueRaised := by
  have hrmu : (s.raiseAll (s.rmu.summaries.filterMap s.summaryOf)).rmu = s.rmu := (State.raiseAll_runs _ s).onlyReports.rmu
  have hput : ({ s.flushSummaries with rmu.toggle := !s.flushSummaries.rmu.toggle } : State) = s.summaryFlipped := by
    unfold State.flushSummaries State.summaryFlipped State.withRmu
    dsimp only
    rw [hrmu]
  exact congrArg State.dueRaised hput

theorem State.summaryFlipped_onlyReports (s : State) :
    OnlyReports (s.withRmu { s.rmu with toggle := !s.rmu.toggle, summaries := [] }) s.summaryFlipped :=
  (State.raiseAll_runs _ s).onlyReports.withRmu _

/-- Step 6 of the RMU's event (R150). -/
theorem State.summaryStep_spec (s : State) : ∃ raised,
    s.summaryStep.rmu = { s.rmu with toggle := !s.rmu.toggle, summaries := s.summaryStep.rmu.summaries }
      ∧ (s.summaryStep.rmu.toggle = false → raised = [] ∧ s.summaryStep.rmu.summaries = [])
      ∧ (s.summaryStep.rmu.toggle = true → s.summariesDue = raised ++ s.summaryStep.rmu.summaries)
      ∧ (s.summaryStep.rmu.summaries ≠ [] → 16 ≤ s.summaryStep.cau.pending.length)
      ∧ s.summaryStep.cau.pending = (s.raiseAll ((s.rmu.summaries ++ raised).filterMap s.summaryOf)).cau.pending
      ∧ OnlyReports (s.withRmu s.summaryStep.rmu) s.summaryStep := by
  have hflipped := s.summaryFlipped_onlyReports
  have hrmu : s.summaryFlipped.rmu = { s.rmu with toggle := !s.rmu.toggle, summaries := [] } := hflipped.rmu
  have hsame : s.summaryFlipped.summaryOf = s.summaryOf := hflipped.summaryOf
  rw [State.summaryStep_eq]
  cases htoggle : s.rmu.toggle with
  | true =>
    have hend : s.summaryFlipped.dueRaised = s.summaryFlipped := if_neg (by rw [hrmu, htoggle]; exact Bool.false_ne_true)
    rw [hend, hrmu]
    refine ⟨[], by rw [htoggle], fun _ => ⟨rfl, rfl⟩, fun h => ?_, fun h => absurd rfl h, ?_, hflipped⟩
    · rw [htoggle] at h
      exact nomatch h
    · rw [List.append_nil]
      rfl
  | false =>
    have hend : s.summaryFlipped.dueRaised = raiseSummaries s.summariesDue s.summaryFlipped := by
      rw [State.dueRaised, hflipped.summariesDue, if_pos (by rw [hrmu, htoggle]; rfl)]
    obtain ⟨raised, hsplit, hfull, hpending, honly⟩ := raiseSummaries_spec (ks := s.summariesDue) (s := s.summaryFlipped) fun k hk => by
      rw [hsame]
      exact State.summariesDue_isSome hk
    rw [hrmu, htoggle] at honly
    have hafter := honly.rmu
    rw [hend]
    refine ⟨raised, hafter, fun h => ?_, fun _ => hsplit, hfull, ?_, ?_⟩
    · rw [hafter] at h
      exact nomatch h
    · rw [hpending, hsame, List.filterMap_append, State.raiseAll_append]
      exact State.raiseAll_pending_congr _ rfl rfl rfl
    · have htrans := (hflipped.withRmu _).trans honly
      rw [hafter]
      exact htrans

/-! ## Steps 1 to 5 -/

/-- The table is put. -/
def State.withStations (rs : List Station) (s : State) : State := { s with stu.stations := rs }

theorem OnlyReports.withStations {s t : State} (h : OnlyReports s t) (rs : List Station) :
    OnlyReports (s.withStations rs) (t.withStations rs) := (congrArg (State.withStations rs) h.eq).trans rfl

theorem State.eachRecord_onlyReports (f : Station → Station × List ReportBody) (s : State) :
    OnlyReports { s with stu.stations := (s.stu.stations.map f).map Prod.fst } (s.eachRecord f) := (State.raiseAll_runs _ _).onlyReports

theorem State.eachRecord_eq (f : Station → Station × List ReportBody) (s : State) : s.eachRecord f = State.raiseAll
    ((s.stu.stations.map f).flatMap Prod.snd) { s with stu.stations := (s.stu.stations.map f).map Prod.fst } := rfl

/-- Step 4 for the records as steps 1 to 3 leave them. -/
def State.roamSteps (s : State) : List (Station × List ReportBody) :=
  (s.stu.stations.map (roamCount s.rmu.drain)).map (fun c => s.roamStep c.1)

theorem State.roamStep_eq (s : State) (r : Station) : s.roamStep r =
    if s.rmu.drain then drainRecord s.policy s.suc.node r else evaluateRecord s.policy s.suc.node r := by
  unfold State.roamStep
  split <;> rfl

theorem State.roamMoved_eq (s : State) : s.roamMoved = State.raiseAll (s.roamSteps.flatMap Prod.snd)
    { s.eachRecord (roamCount s.rmu.drain) with stu.stations := s.roamSteps.map Prod.fst } := by
  have hstations : (s.eachRecord (roamCount s.rmu.drain)).stu.stations = (s.stu.stations.map (roamCount s.rmu.drain)).map Prod.fst :=
    congrArg Stu.stations (s.eachRecord_onlyReports _).stu
  rw [State.roamMoved, State.eachRecord_eq _ (s.eachRecord _), hstations, List.map_map]
  rfl

theorem State.roamMoved_onlyReports (s : State) : OnlyReports { s with stu.stations := s.roamSteps.map Prod.fst } s.roamMoved := by
  have hfirst := s.eachRecord_onlyReports (roamCount s.rmu.drain)
  have hput : OnlyReports { s with stu.stations := s.roamSteps.map Prod.fst }
      { s.eachRecord (roamCount s.rmu.drain) with stu.stations := s.roamSteps.map Prod.fst } :=
    hfirst.withStations (s.roamSteps.map Prod.fst)
  rw [State.roamMoved_eq]
  exact hput.trans (State.raiseAll_runs _ _).onlyReports

theorem State.roamMoved_pending (s : State) (bs : List ReportBody) : (s.roamMoved.raiseAll bs).cau.pending
    = (s.raiseAll ((s.stu.stations.map (roamCount s.rmu.drain)).flatMap Prod.snd ++ s.roamSteps.flatMap Prod.snd ++ bs)).cau.pending := by
  have hput : ∀ (u : State) (rs : List Station) (cs : List ReportBody),
      (({ u with stu.stations := rs } : State).raiseAll cs).cau.pending = (u.raiseAll cs).cau.pending := fun u rs cs =>
    State.raiseAll_pending_congr cs rfl rfl rfl
  rw [State.roamMoved_eq, ← State.raiseAll_append, hput, State.eachRecord_eq, ← State.raiseAll_append, hput, List.append_assoc]

end Sys2Proof.Machine

/-! PROOFS. NodeCountdownsAndSweep: step 5 of the RMU's event, and the whole. -/
namespace Sys2Proof.Machine

/-! ## A complete drain (R154) -/

/-- After a drain step the drain is complete where no record is STEERING. -/
theorem State.drainComplete_iff {s : State} (hdrain : s.rmu.drain = true) :
    s.roamMoved.drainComplete = true ↔ ∀ m ∈ s.roamSteps, m.1.state ≠ .steering := by
  have hmoved := s.roamMoved_onlyReports
  have hstations : s.roamMoved.stu.stations = s.roamSteps.map Prod.fst := congrArg Stu.stations hmoved.stu
  have hpolicy : s.roamMoved.policy = s.policy := hmoved.policy
  have hnode : s.roamMoved.suc = s.suc := hmoved.suc
  have hstep : ∀ m ∈ s.roamSteps, movable s.policy s.suc.node m.1 = false := by
    intro m hm
    obtain ⟨c, -, rfl⟩ := List.mem_map.1 hm
    rw [State.roamStep_eq, if_pos hdrain]
    exact drainRecord_not_movable
  rw [State.drainComplete, hstations, hpolicy, hnode, List.all_eq_true, List.forall_mem_map]
  refine forall_congr' fun m => forall_congr' fun hm => ?_
  rw [hstep m hm, Bool.not_false, Bool.and_true, bne_iff_ne]

/-- The drain ends at this boundary. -/
def State.DrainEnds (s : State) : Prop :=
  s.rmu.drain = true ∧ s.imu.session.state = .draining ∧ ∀ m ∈ s.roamSteps, m.1.state ≠ .steering

theorem State.roamJudged_iff (s : State) :
    (s.roamMoved.rmu.drain = true ∧ s.roamMoved.drainComplete = true ∧ s.roamMoved.imu.session.state = .draining) ↔ s.DrainEnds := by
  have hrmu : s.roamMoved.rmu = s.rmu := s.roamMoved_onlyReports.rmu
  have himu : s.roamMoved.imu = s.imu := s.roamMoved_onlyReports.imu
  rw [hrmu, himu, State.DrainEnds]
  constructor
  · rintro ⟨hdrain, hcomplete, hstate⟩
    exact ⟨hdrain, hstate, (State.drainComplete_iff hdrain).1 hcomplete⟩
  · rintro ⟨hdrain, hstate, hnone⟩
    exact ⟨hdrain, (State.drainComplete_iff hdrain).2 hnone, hstate⟩

theorem State.roamJudged_of_ends {s : State} (h : s.DrainEnds) :
    s.roamMoved.roamJudged = s.roamMoved.enterCommitting .drainComplete := if_pos (s.roamJudged_iff.2 h)

theorem State.roamJudged_of_not {s : State} (h : ¬s.DrainEnds) : s.roamMoved.roamJudged = s.roamMoved :=
  if_neg fun hjudged => h (s.roamJudged_iff.1 hjudged)

/-! ## The RMU's event -/

/-- The state before step 6, but for its reports. -/
theorem State.roamJudged_onlyReports_of_ends {s : State} (h : s.DrainEnds) :
    OnlyReports (s.withStations (s.roamSteps.map Prod.fst)).drained.commitAsked s.roamMoved.roamJudged := by
  rw [State.roamJudged_of_ends h]
  exact s.roamMoved_onlyReports.drained.commitAsked.trans (State.enterCommitting_onlyReports _ _)

theorem State.roamJudged_onlyReports_of_not {s : State} (h : ¬s.DrainEnds) :
    OnlyReports (s.withStations (s.roamSteps.map Prod.fst)) s.roamMoved.roamJudged := by
  rw [State.roamJudged_of_not h]
  exact s.roamMoved_onlyReports

/-- What step 5 leaves of the RMU's own state: drain mode cleared where the drain ends. -/
theorem State.roamJudged_rmu (s : State) : s.roamMoved.roamJudged.rmu.toggle = s.rmu.toggle
    ∧ s.roamMoved.roamJudged.rmu.summaries = s.rmu.summaries ∧ s.roamMoved.roamJudged.suc.node = s.suc.node := by
  by_cases h : s.DrainEnds
  · rw [(State.roamJudged_onlyReports_of_ends h).rmu, (State.roamJudged_onlyReports_of_ends h).suc]
    exact ⟨rfl, rfl, rfl⟩
  · rw [(State.roamJudged_onlyReports_of_not h).rmu, (State.roamJudged_onlyReports_of_not h).suc]
    exact ⟨rfl, rfl, rfl⟩

/-- The reports of steps 1 to 4. -/
def State.roamReports (s : State) : List ReportBody :=
  (s.stu.stations.map (roamCount s.rmu.drain)).flatMap Prod.snd ++ s.roamSteps.flatMap Prod.snd

theorem State.roamJudged_pending_of_ends {s : State} (h : s.DrainEnds) (bs : List ReportBody) :
    (s.roamMoved.roamJudged.raiseAll bs).cau.pending = (s.raiseAll (s.roamReports
      ++ [.imageState .committing .drainComplete s.imu.session.pages s.imu.session.version] ++ bs)).cau.pending := by
  have himu : s.roamMoved.imu = s.imu := s.roamMoved_onlyReports.imu
  have hsplit : s.roamMoved.raiseAll (.imageState .committing .drainComplete s.imu.session.pages s.imu.session.version :: bs)
      = (s.roamMoved.raise (.imageState .committing .drainComplete s.imu.session.pages s.imu.session.version)).raiseAll bs := rfl
  have hgap : (s.roamMoved.drained.raise (.imageState .committing .drainComplete s.imu.session.pages s.imu.session.version)).cau.gap
      = (s.roamMoved.raise (.imageState .committing .drainComplete s.imu.session.pages s.imu.session.version)).cau.gap :=
    State.raise_gap_congr _ rfl
  rw [State.roamJudged_of_ends h, List.append_assoc, State.roamReports, ← State.roamMoved_pending, List.singleton_append, hsplit]
  refine State.raiseAll_pending_congr bs ?_ ?_ ?_
  · rw [(State.enterCommitting_onlyReports _ _).time, (State.raise_onlyReports _ _).time]
    rfl
  · rw [State.enterCommitting_pending, himu]
  · rw [State.enterCommitting_eq, himu]
    exact hgap

theorem State.roamJudged_pending_of_not {s : State} (h : ¬s.DrainEnds) (bs : List ReportBody) :
    (s.roamMoved.roamJudged.raiseAll bs).cau.pending = (s.raiseAll (s.roamReports ++ bs)).cau.pending := by
  rw [State.roamJudged_of_not h]
  exact s.roamMoved_pending bs

/-- The RMU's event at a second boundary (R142). -/
theorem State.roamBoundary_spec (s : State) : let t := s.roamBoundary; let n := s.imu.session
    (¬s.DrainEnds → t.stu.stations = s.roamSteps.map Prod.fst ∧ t.rmu.drain = s.rmu.drain
        ∧ OnlyReports { s with stu.stations := t.stu.stations, rmu := t.rmu } t)
      ∧ (s.DrainEnds → t.rmu.drain = false
        ∧ t.stu.stations = s.roamSteps.map (fun m => { m.1 with unmovable := false, dwell := 0, candidate := none })
        ∧ t.imu = { s.imu with session := { n with state := .committing, now := false, force := false } }
        ∧ (∀ sl, n.target = some (.image sl) → t.suc.jobs = s.suc.jobs ++
            [{ owner := .commit, slot := sl, boot := .trial, attempts := 0, fallback := false }])
        ∧ OnlyReports { s with stu.stations := t.stu.stations, rmu := t.rmu, imu := t.imu, suc.jobs := t.suc.jobs } t)
      ∧ t.suc.node = s.suc.node
      ∧ t.rmu.toggle = (!s.rmu.toggle)
      ∧ (∃ raised,
        (t.rmu.toggle = false → raised = [] ∧ t.rmu.summaries = [])
        ∧ (t.rmu.toggle = true → t.summariesDue = raised ++ t.rmu.summaries)
        ∧ (t.rmu.summaries ≠ [] → 16 ≤ t.cau.pending.length)
        ∧ (¬s.DrainEnds → t.cau.pending
            = (s.raiseAll (s.roamReports ++ (s.rmu.summaries ++ raised).filterMap t.summaryOf)).cau.pending)
        ∧ (s.DrainEnds → t.cau.pending
            = (s.raiseAll (s.roamReports ++ [.imageState .committing .drainComplete n.pages n.version]
              ++ (s.rmu.summaries ++ raised).filterMap t.summaryOf)).cau.pending)) := by
  obtain ⟨htoggle, hsummaries, hnode⟩ := s.roamJudged_rmu
  obtain ⟨raised, hrmu, hoff, hon, hfull, hpending, honly⟩ := s.roamMoved.roamJudged.summaryStep_spec
  have hdue := honly.summariesDue
  have hof := honly.summaryOf
  have hsuc : s.roamMoved.roamJudged.summaryStep.suc = s.roamMoved.roamJudged.suc := honly.suc
  rw [State.roamBoundary_eq]
  generalize hj : s.roamMoved.roamJudged = j at htoggle hsummaries hnode hrmu hoff hon hfull hpending honly hdue hof hsuc ⊢
  generalize j.summaryStep = t at hrmu hoff hon hfull hpending honly hdue hof hsuc ⊢
  dsimp only
  refine ⟨fun h => ?_, fun h => ?_, hsuc ▸ hnode, ?_, raised, hoff, fun h => hdue.trans (hon h), hfull, fun h => ?_, fun h => ?_⟩
  · have hbase := hj ▸ State.roamJudged_onlyReports_of_not h
    have hall := (hbase.withRmu t.rmu).trans honly
    have hstu : t.stu = (s.withStations (s.roamSteps.map Prod.fst)).stu := hall.stu
    refine ⟨congrArg Stu.stations hstu, ?_, ?_⟩
    · rw [hrmu]
      exact (congrArg Rmu.drain hbase.rmu :)
    · rw [hstu]
      exact hall
  · have hbase := hj ▸ State.roamJudged_onlyReports_of_ends h
    have hall := (hbase.withRmu t.rmu).trans honly
    have hstu : t.stu = (s.withStations (s.roamSteps.map Prod.fst)).drained.stu := hall.stu
    have himu : t.imu = (s.withStations (s.roamSteps.map Prod.fst)).drained.imu := hall.imu
    have hjobs : t.suc = (s.withStations (s.roamSteps.map Prod.fst)).drained.commitAsked.suc := hall.suc
    refine ⟨?_, (congrArg Stu.stations hstu).trans List.map_map, himu, fun sl htarget => ?_, ?_⟩
    · rw [hrmu]
      exact congrArg Rmu.drain hbase.rmu
    · have hslot : (s.withStations (s.roamSteps.map Prod.fst)).drained.imu.session.slot = sl := Session.slot_of_image htarget
      rw [hjobs, State.commitAsked, hslot]
      rfl
    · rw [hstu, himu, hjobs]
      exact hall
  · rw [hrmu, ← htoggle]
  · rw [hpending, hsummaries, hof, ← hj]
    exact State.roamJudged_pending_of_not h _
  · rw [hpending, hsummaries, hof, ← hj]
    exact State.roamJudged_pending_of_ends h _

/-! ## The whole -/

theorem exec_drainDeadline_spec {sl : Slot} {s : State} (hstate : s.imu.session.state = .draining)
    (hleft : s.imu.session.drainLeft = 1) (htarget : s.imu.session.target = some (.image sl)) : ∃ t, exec .drainDeadline s = .next t
      ∧ t.imu.session = { s.imu.session with state := .committing, drainLeft := 0, now := false, force := false }
      ∧ t.rmu.drain = false
      ∧ t.stu.stations = s.stu.stations.map (fun r => { r with unmovable := false, dwell := 0, candidate := none })
      ∧ t.suc = { s.suc with jobs := s.suc.jobs ++ [{ owner := .commit, slot := sl, boot := .trial, attempts := 0
                                                      fallback := false }] }
      ∧ t.cau.pending = (s.raise (.imageState .committing .drainDeadline s.imu.session.pages
          s.imu.session.version)).cau.pending
      ∧ OnlyReports { s with
          imu.session := t.imu.session, rmu.drain := false, stu.stations := t.stu.stations, suc := t.suc } t := by
  have hpending := State.enterCommitting_pending .drainDeadline
    ({ s with imu.session := { s.imu.session with drainLeft := 0 } } : State)
  have honly := State.enterCommitting_onlyReports .drainDeadline
    ({ s with imu.session := { s.imu.session with drainLeft := 0 } } : State)
  refine ⟨_, exec_drainDeadline hstate hleft.le, ?_⟩
  generalize State.enterCommitting .drainDeadline ({ s with imu.session := { s.imu.session with drainLeft := 0 } } : State) = t
    at hpending honly ⊢
  have himu := congrArg Imu.session honly.imu
  have hstu := congrArg Stu.stations honly.stu
  have hslot : s.imu.session.slot = sl := Session.slot_of_image htarget
  refine ⟨himu, congrArg Rmu.drain honly.rmu, hstu, ?_, hpending.trans (State.raise_pending_congr _ rfl rfl rfl), ?_⟩
  · rw [← hslot]
    exact honly.suc
  · rw [himu, hstu, honly.suc]
    exact honly

/-- Settles O57: the drain's end, the sweep, a due summary, one record's second, and the RMU's event. -/
theorem nodeCountdownsAndSweep : Obligations.NodeCountdownsAndSweep := by
  refine ⟨fun sl s hstate hleft htarget => exec_drainDeadline_spec hstate hleft htarget,
    fun s => ⟨exec_sweepVisit_of_none, fun r hr => ⟨exec_sweepVisit_of_some hr, rfl, rfl, rfl, rfl, ?_, rfl⟩⟩,
    fun k ks b s hdue hb => ⟨fun hroom => ?_, fun hfull => ?_⟩,
    fun drain r => ⟨roamCount_rests, roamCount_counts, fun n hstate htimer hto => ?_⟩,
    fun p own r => ⟨bestCandidate_none_iff own r, fun b => bestCandidate_some, evaluateRecord_rests,
      fun l b hs hb hl hbest => ⟨fun hmet => ?_, fun hmet hless => ?_, fun hmet hreached => ?_⟩,
      fun b hs hu hbest hfloor => ?_, fun h => ?_⟩,
    fun s => ?_⟩
  · exact s.recompute_tokens (settle s.time.ms r)
  · rw [exec_signalSummary hdue hb, if_pos hroom]
  · rw [exec_signalSummary hdue hb, if_neg (not_lt.2 hfull)]
  · have hsteerTo : (ageEstimates { r with backoff := r.backoff - 1 }).steerTo = some n := hto
    rw [roamCount_timesOut hstate htimer, timeOutRecord, hsteerTo]
    rfl
  · rw [evaluateRecord_of_both hs hb hl hbest, if_neg (fun h => hmet ((steerCondition_iff ..).1 h))]
    rfl
  · rw [evaluateRecord_of_both hs hb hl hbest, if_pos ((steerCondition_iff ..).2 hmet), if_neg (not_le.2 hless)]
  · rw [evaluateRecord_of_both hs hb hl hbest, if_pos ((steerCondition_iff ..).2 hmet), if_pos hreached, beginSteering_eq,
      (freshLocal_some hl).1]
    rfl
  · rw [drainRecord_of_movable (movable_iff.2 ⟨hs, hu, b, hbest, hfloor⟩) hbest, beginSteering_eq]
    rfl
  · have hstays : movable p own r = false := by
      rw [Bool.eq_false_iff, ne_eq, movable_iff]
      rintro ⟨hs, hu, b, hbest, hfloor⟩
      rcases h with hne | hmark | hlow
      · exact hne hs
      · exact Bool.false_ne_true (hu.symm.trans hmark)
      · exact absurd hfloor (not_le.2 (hlow b hbest))
    rw [drainRecord_of_not_movable hstays]
    rfl
  · have hsteps : (s.stu.stations.map (fun r => roamCount s.rmu.drain r)).map (fun c =>
        if s.rmu.drain then drainRecord s.policy s.suc.node c.1 else evaluateRecord s.policy s.suc.node c.1) = s.roamSteps :=
      List.map_congr_left fun c _ => (s.roamStep_eq c.1).symm
    have hunit : s.unitBoundary .rmu = s.roamBoundary := rfl
    obtain ⟨hgoes, hends, hnode, htoggle, hsummaries⟩ := s.roamBoundary_spec
    dsimp only
    rw [hsteps, hunit]
    refine ⟨hgoes, hends, htoggle, hsummaries, fun k r hr => ?_, List.filter_sublist, fun k => ?_⟩
    · rw [State.summaryOf_of_recordAt hr, hnode]
    · rw [State.mem_summariesDue, hnode]

end Sys2Proof.Machine

/-! PROOFS. NodeRestartKeepsAndClears (R5, R20; section 1.6): what a restart does with the transaction in hand, and the rows that it
lets go first. -/
namespace Sys2Proof.Machine

/-! ## The transaction in hand (R5) -/

theorem exec_nodeRestart (s : State) : exec .nodeRestart s = .next s.restartTransaction.restartRest := rfl

theorem State.mustHold_iff (s : State) (w : Window) (x : Transaction) : s.mustHold w x = true ↔
    w.kind = .rxRing ∧ x.dir = .write ∧ closingWrite x = true
      ∨ w.kind = .control ∧ x.dir = .write ∧ controlUse w.base x = .request ∧ s.cau.slot = .pending
      ∨ w.kind = .staging ∧ x.dir = .write ∧ s.imu.session.judgeWrite w.base x = .hold
      ∨ w.kind = .staging ∧ x.dir = .read ∧ s.imu.session.state = .idle
      ∨ (w.kind = .boot ∨ w.kind = .config ∨ w.kind = .image) ∧ x.dir = .read := by
  unfold State.mustHold
  cases w.kind <;> cases x.dir <;> simp

/-- What a restart makes of a transaction that ends with ERR. -/
def State.errEnded (h : InHand) (s : State) : State :=
  { s.endTxn h .err with
    ptu.port := match s.ptu.port with
      | .passThrough => .free
      | .free => .free
      | .internal a g => .internal a g }

section
variable {s : State} {h : InHand} (hh : s.ptu.inHand = some h)
include hh

theorem State.restartTransaction_of_err (hr : h.atRestart s = .err) : s.restartTransaction = s.errEnded h := by
  rw [State.restartTransaction, hh]
  dsimp only
  rw [hr]
  rfl

theorem State.restartTransaction_of_goesOn (hr : h.atRestart s = .goesOn) : s.restartTransaction = s := by
  rw [State.restartTransaction, hh]
  dsimp only
  rw [hr]

theorem State.restartTransaction_of_taken (hr : h.atRestart s = .taken) : s.restartTransaction = s.takeRouted h := by
  rw [State.restartTransaction, hh]
  dsimp only
  rw [hr]

end

theorem State.restartTransaction_of_none {s : State} (hh : s.ptu.inHand = none) : s.restartTransaction = s := by
  rw [State.restartTransaction, hh]

theorem InHand.atRestart_routed {h : InHand} {w : Window} {s : State} (hp : h.phase = .routed) (hw : h.window = some w) :
    h.atRestart s = if s.mustHold w h.txn then .err else .taken := by
  rw [InHand.atRestart, hp]
  dsimp only
  rw [hw]

theorem InHand.atRestart_plain {h : InHand} {s : State} (hp : h.phase = .sramWait .plain ∨ h.phase = .sramBusy .plain) :
    h.atRestart s = .goesOn := by
  unfold InHand.atRestart
  rcases hp with hp | hp <;> rw [hp]

/-- The phases in which a transaction ends with ERR. -/
def Phase.Held (p : Phase) : Prop :=
  p = .readyLow ∨ p = .requestHeld ∨ p = .stagingHeld ∨ (∃ d, p = .txHeld d) ∨ (∃ d, p = .fetched d) ∨ (∃ a n, p = .flashHeld a n)
    ∨ (∃ k, k ≠ .plain ∧ (p = .sramWait k ∨ p = .sramBusy k))

theorem InHand.atRestart_held {h : InHand} {s : State} (hp : h.phase.Held) : h.atRestart s = .err := by
  unfold InHand.atRestart
  rcases hp with hp | hp | hp | ⟨d, hp⟩ | ⟨d, hp⟩ | ⟨a, n, hp⟩ | ⟨k, hk, hp⟩
  case inr.inr.inr.inr.inr.inr =>
    cases k with
    | plain => exact absurd rfl hk
    | _ => rcases hp with hp | hp <;> rw [hp]
  all_goals rw [hp]

/-! ## A routed transaction that no owner holds (log 17) -/

/-- A node restart makes the same of both states. -/
def SameRestart (s t : State) : Prop := exec .nodeRestart s = exec .nodeRestart t

theorem SameRestart.refl (s : State) : SameRestart s s := rfl

/-- A transaction that has ended, or waits for the SRAM port, is left by a restart. -/
def State.PastOwner (u : State) : Prop := u.ptu.inHand = none ∨ ∃ x, u.ptu.inHand = some x ∧ x.phase = .sramWait .plain

theorem State.restartTransaction_of_pastOwner {u : State} (hu : u.PastOwner) : u.restartTransaction = u := by
  rcases hu with hnone | ⟨x, hx, hp⟩
  · exact State.restartTransaction_of_none hnone
  · exact State.restartTransaction_of_goesOn hx (InHand.atRestart_plain (.inl hp))

/-- The restart takes a transaction that its owner does not hold as the owner's row does. -/
theorem SameRestart.of_taken {s u : State} {k : WindowKind} {d : Dir} {h : InHand} {w : Window}
    (hr : s.routedTo k d = some (h, w)) (hhold : s.mustHold w h.txn = false) (htaken : s.takeRouted h = u) (hu : u.PastOwner) :
    SameRestart s u := by
  obtain ⟨hh, hw, hp, -, -⟩ := (State.routedTo_eq_some_iff s k d h w).1 hr
  have hrouted : h.atRestart s = .taken := by
    rw [InHand.atRestart_routed hp hw, hhold]
    rfl
  rw [SameRestart, exec_nodeRestart, exec_nodeRestart, State.restartTransaction_of_taken hh hrouted, htaken,
    State.restartTransaction_of_pastOwner hu]

theorem State.afterRow_of_next {row : State → Host.Outcome State Fault Refusal} {s u : State} (h : row s = .next u) :
    s.afterRow row = u := by
  rw [State.afterRow, h]

theorem execRxRingWrite_sameRestart (s : State) : Answers (SameRestart s) (execRxRingWrite s) := by
  cases hx : s.rxInHand false with
  | none =>
    have hrow : execRxRingWrite s = .next s := by rw [execRxRingWrite, hx]
    rw [hrow]
    exact .next (.refl s)
  | some x =>
    obtain ⟨h, w⟩ := x
    have hrow : execRxRingWrite s
        = .next ((s.putCapture w.ringId (captureWrite (s.captureOf w.ringId) h.txn)).toPhase h (.sramWait .plain)) := by
      rw [execRxRingWrite, hx]
    cases hr : s.routedTo .rxRing .write with
    | none =>
      rw [State.rxInHand, hr] at hx
      exact nomatch hx
    | some y =>
      obtain ⟨g, v⟩ := y
      rw [State.rxInHand_eq hr] at hx
      split at hx
      · next hopen =>
        obtain ⟨rfl, rfl⟩ := Prod.mk.inj (Option.some.inj hx)
        obtain ⟨-, hw, -, hkind, hdir⟩ := (State.routedTo_eq_some_iff s _ _ g v).1 hr
        have hhold : s.mustHold v g.txn = false := by rw [State.mustHold, hkind, hdir]; exact hopen
        have htaken : s.takeRouted g = s.afterRow execRxRingWrite := by
          rw [State.takeRouted, hw]
          dsimp only
          rw [hkind, hdir]
        rw [hrow]
        exact .next (.of_taken hr hhold (htaken.trans (State.afterRow_of_next hrow)) (.inr ⟨_, rfl, rfl⟩))
      · exact nomatch hx

/-- A row of the control area that acts for one use alone, and keeps the transaction that its copy has sent to SRAM. -/
theorem SameRestart.of_control {s : State} {use : ControlUse} {row : State → Host.Outcome State Fault Refusal} (huse : use ≠ .request)
    (htake : s.takeControl use = s.afterRow row) (hnone : s.controlFor use = none → row s = .next s)
    (hsome : ∀ h w, s.controlFor use = some (h, w) → ∃ u, row s = .next u ∧ u.ptu.inHand = (s.absorb h w).ptu.inHand) :
    Answers (SameRestart s) (row s) := by
  cases hx : s.controlFor use with
  | none =>
    rw [hnone hx]
    exact .next (.refl s)
  | some x =>
    obtain ⟨h, w⟩ := x
    obtain ⟨u, hrow, hhand⟩ := hsome h w hx
    obtain ⟨hr, hfor⟩ := (s.controlFor_eq_some_iff use h w).1 hx
    obtain ⟨-, hw, -, hkind, hdir⟩ := (State.routedTo_eq_some_iff s _ _ h w).1 hr
    have hhold : s.mustHold w h.txn = false := by
      rw [State.mustHold, hkind, hdir]
      dsimp only
      rw [hfor, beq_false_of_ne huse]
      rfl
    have htaken : s.takeRouted h = s.afterRow row := by
      rw [State.takeRouted, hw]
      dsimp only
      rw [hkind, hdir]
      dsimp only
      rw [hfor, htake]
    rw [hrow]
    exact .next (.of_taken hr hhold (htaken.trans (State.afterRow_of_next hrow)) (.inr ⟨_, hhand, rfl⟩))

theorem execControlWrite_sameRestart (s : State) : Answers (SameRestart s) (execControlWrite s) :=
  .of_control (use := .plain) (by decide) rfl (fun h => by rw [execControlWrite, h]) fun h w hx =>
    ⟨s.absorb h w, by rw [execControlWrite, hx], rfl⟩

theorem execConsumerIndexWrite_sameRestart (s : State) : Answers (SameRestart s) (execConsumerIndexWrite s) :=
  .of_control (use := .consumerIndex) (by decide) rfl (fun h => by rw [execConsumerIndexWrite, h]) fun h w hx =>
    ⟨(s.absorb h w).takeConsumer, by rw [execConsumerIndexWrite, hx], (State.takeConsumer_frame _).inHand (by decide)⟩

theorem execClassMapWrite_sameRestart (s : State) : Answers (SameRestart s) (execClassMapWrite s) :=
  .of_control (use := .classMap) (by decide) rfl (fun h => by rw [execClassMapWrite, h]) fun h w hx =>
    ⟨(s.absorb h w).storeClasses _, by rw [execClassMapWrite, hx], rfl⟩

theorem execNodePolicyRecord_sameRestart (s : State) : Answers (SameRestart s) (execNodePolicyRecord s) :=
  .of_control (use := .policy) (by decide) rfl (fun h => by rw [execNodePolicyRecord, h]) fun h w hx =>
    ⟨(s.absorb h w).takePolicy _, by rw [execNodePolicyRecord, hx], (State.takePolicy_frame _ _).inHand (by decide)⟩

theorem execProfileRecord_sameRestart (s : State) : Answers (SameRestart s) (execProfileRecord s) :=
  .of_control (use := .profile) (by decide) rfl (fun h => by rw [execProfileRecord, h]) fun h w hx =>
    ⟨_, by rw [execProfileRecord, hx], (Runs.foldl (F := [.profiles, .stations] ++ reportPieces) _
      (fun s o => s.takeProfile_runs _ _) _ (s.absorb h w)).frame.inHand (by decide)⟩

theorem execPinRecord_sameRestart (s : State) : Answers (SameRestart s) (execPinRecord s) :=
  .of_control (use := .pin) (by decide) rfl (fun h => by rw [execPinRecord, h]) fun h w hx =>
    ⟨_, by rw [execPinRecord, hx], (Runs.foldl (F := [.stations, .pins] ++ reportPieces) _
      (fun s o => s.takePin_runs _ _) _ (s.absorb h w)).frame.inHand (by decide)⟩

/-- A write that is acknowledged, with or without its PROTECT event, is past its owner. -/
theorem State.protectEvent_pastOwner (h : InHand) (e : Ending) (w : Window) (x : Transaction) (s : State) :
    ((s.endTxn h e).protectEvent w x).PastOwner :=
  .inl (((s.endTxn h e).protectEvent_runs w x).frame.inHand (by decide))

theorem execStagingWrite_sameRestart (s : State) : Answers (SameRestart s) (execStagingWrite s) := by
  cases hr : s.routedTo .staging .write with
  | none =>
    have hrow : execStagingWrite s = .next s := by rw [execStagingWrite, hr]
    rw [hrow]
    exact .next (.refl s)
  | some x =>
    obtain ⟨h, w⟩ := x
    obtain ⟨hh, hw, hp, hkind, hdir⟩ := (State.routedTo_eq_some_iff s _ _ h w).1 hr
    have hmust : s.mustHold w h.txn = (s.imu.session.judgeWrite w.base h.txn == .hold) := by rw [State.mustHold, hkind, hdir]
    have htaken : s.takeRouted h = s.afterRow execStagingWrite := by
      rw [State.takeRouted, hw]
      dsimp only
      rw [hkind, hdir]
    have htake : ∀ u, s.imu.session.judgeWrite w.base h.txn ≠ .hold → execStagingWrite s = .next u → u.PastOwner →
        Answers (SameRestart s) (execStagingWrite s) := fun u hj hrow hu => by
      rw [hrow]
      exact .next (.of_taken hr (hmust.trans (beq_false_of_ne hj)) (htaken.trans (State.afterRow_of_next hrow)) hu)
    cases hj : s.imu.session.judgeWrite w.base h.txn with
    | protect =>
      refine htake _ (by rw [hj]; decide) (by rw [execStagingWrite, hr]; dsimp only; rw [hj]) (State.protectEvent_pastOwner ..)
    | refuse => exact htake (s.refuseStaging h) (by rw [hj]; decide) (by rw [execStagingWrite, hr]; dsimp only; rw [hj]) (.inl rfl)
    | accept => exact htake (s.acceptStaging h) (by rw [hj]; decide) (by rw [execStagingWrite, hr]; dsimp only; rw [hj]) (.inl rfl)
    | hold =>
      have hrow : execStagingWrite s = .next (s.toPhase h .stagingHeld) := by
        rw [execStagingWrite, hr]
        dsimp only
        rw [hj]
      have herr : h.atRestart s = .err := by
        rw [InHand.atRestart_routed hp hw, hmust, hj]
        rfl
      rw [hrow]
      refine .next ?_
      rw [SameRestart, exec_nodeRestart, exec_nodeRestart, State.restartTransaction_of_err hh herr,
        State.restartTransaction_of_err (s := s.toPhase h .stagingHeld) (h := { h with phase := .stagingHeld }) rfl
          (InHand.atRestart_held (.inr (.inr (.inl rfl))))]
      rfl

theorem execStagingRead_sameRestart (s : State) : Answers (SameRestart s) (execStagingRead s) := by
  cases hr : s.routedTo .staging .read with
  | none =>
    have hrow : execStagingRead s = .next s := by rw [execStagingRead, hr]
    rw [hrow]
    exact .next (.refl s)
  | some x =>
    obtain ⟨h, w⟩ := x
    obtain ⟨-, hw, -, hkind, hdir⟩ := (State.routedTo_eq_some_iff s _ _ h w).1 hr
    by_cases hidle : s.imu.session.state = .idle
    · have hrow : execStagingRead s = .next s := by
        rw [execStagingRead, hr]
        exact if_pos hidle
      rw [hrow]
      exact .next (.refl s)
    · have hrow : execStagingRead s = .next (s.afterRow execStagingRead) ∧ (s.afterRow execStagingRead).ptu.inHand = none := by
        rw [State.afterRow, execStagingRead, hr]
        dsimp only
        rw [if_neg hidle]
        exact ⟨rfl, rfl⟩
      have hhold : s.mustHold w h.txn = false := by
        rw [State.mustHold, hkind, hdir]
        exact beq_false_of_ne hidle
      have htaken : s.takeRouted h = s.afterRow execStagingRead := by
        rw [State.takeRouted, hw]
        dsimp only
        rw [hkind, hdir]
      rw [hrow.1]
      exact .next (.of_taken hr hhold htaken (.inl hrow.2))

theorem execFlashWindowWrite_sameRestart (s : State) : Answers (SameRestart s) (execFlashWindowWrite s) := by
  cases hr : s.flashRouted .write with
  | none =>
    have hrow : execFlashWindowWrite s = .next s := by rw [execFlashWindowWrite, hr]
    rw [hrow]
    exact .next (.refl s)
  | some x =>
    obtain ⟨h, w⟩ := x
    have hrow : execFlashWindowWrite s = .next ((s.endTxn h .ack).protectEvent w h.txn) := by rw [execFlashWindowWrite, hr]
    have hkinds : ∃ k, (k = .boot ∨ k = .config ∨ k = .image) ∧ s.routedTo k .write = some (h, w) := by
      unfold State.flashRouted at hr
      split at hr
      · next hboot => exact ⟨.boot, .inl rfl, hboot.trans hr⟩
      · split at hr
        · next hconfig => exact ⟨.config, .inr (.inl rfl), hconfig.trans hr⟩
        · exact ⟨.image, .inr (.inr rfl), hr⟩
    obtain ⟨k, hk, hrouted⟩ := hkinds
    obtain ⟨-, hw, -, hkind, hdir⟩ := (State.routedTo_eq_some_iff s _ _ h w).1 hrouted
    have hhold : s.mustHold w h.txn = false := by
      rw [State.mustHold, hkind, hdir]
      rcases hk with rfl | rfl | rfl <;> rfl
    have htaken : s.takeRouted h = s.afterRow execFlashWindowWrite := by
      rw [State.takeRouted, hw]
      dsimp only
      rw [hkind, hdir]
      rcases hk with rfl | rfl | rfl <;> rfl
    rw [hrow]
    exact .next (.of_taken hrouted hhold (htaken.trans (State.afterRow_of_next hrow)) (State.protectEvent_pastOwner ..))

/-- A closing write of the FREE request slot is taken and not carried out (R5, R27). -/
theorem SameRestart.of_request {s : State} {h : InHand} {w : Window} (hr : s.routedTo .control .write = some (h, w))
    (huse : controlUse w.base h.txn = .request) (hfree : s.cau.slot = .free) : SameRestart s (s.absorb h w).takeRequest := by
  obtain ⟨-, hw, -, hkind, hdir⟩ := (State.routedTo_eq_some_iff s _ _ h w).1 hr
  have hhold : s.mustHold w h.txn = false := by
    rw [State.mustHold, hkind, hdir]
    dsimp only
    rw [hfree, Bool.and_eq_false_iff]
    exact .inr rfl
  have htaken : s.takeRouted h = (s.absorb h w).takeRequest := by
    rw [State.takeRouted, hw]
    dsimp only
    rw [hkind, hdir]
    dsimp only
    rw [huse, State.takeControl, State.takeClosing, (s.controlFor_eq_some_iff .request h w).2 ⟨hr, huse⟩]
    exact if_pos hfree
  exact .of_taken hr hhold htaken (.inr ⟨_, rfl, rfl⟩)

end Sys2Proof.Machine

/-! PROOFS. NodeRestartKeepsAndClears: what a restart does unit by unit, and the whole. -/
namespace Sys2Proof.Machine

/-! ## The rest of a restart, field by field -/

/-- The state after a restart, but for what its PTU, its shadow and its flash port hold, which are given by `t`. -/
def State.restarted (s t : State) : State := { s with
  ptu.inHand := t.ptu.inHand, ptu.reply := t.ptu.reply, ptu.port := t.ptu.port
  ptu.queue := t.ptu.queue, ptu.behind := t.ptu.behind, ptu.quiet := false, ptu.further := 0
  cau.shadow := t.cau.shadow, cau.slot := .free, cau.request := none, cau.pending := [], cau.gap := false
  cau.writeIdx := 0, cau.published := 0, cau.consumer := 0, cau.statusLeft := [], cau.statusOut := false
  cau.path := if s.cau.path = .notBegun then .notBegun else .zeroing
  lines := { attn := false, restartReq := false, ready := false }
  diu := Diu.powerOn
  stu.stations := []
  cgu.count := 0, cgu.contention := false
  rmu.drain := false, rmu.summaries := []
  imu.session :=
    if s.imu.session.state = .committed then s.imu.session else { Session.idle with refused := s.imu.session.refused }
  imu.port := t.imu.port
  suc.startUp := if s.suc.startUp = .loading then .loading else .selecting
  suc.decided := false, suc.noFlash := false, suc.jobs := [], suc.scan := none, suc.trialRunning := false
  suc.append := s.suc.append.map (fun a => { a with job := { a.job with owner := .nobody } }) }

/-- What a restart makes of the SRAM port (R20). -/
def SramPort.restart : SramPort → SramPort
  | .internal a _ => .internal a true
  | .free => .free
  | .passThrough => .passThrough

/-- The first write of the report ring (R34). -/
def State.zeroWrite (s : State) : InternalAccess :=
  { kind := .producerIndex, addr := s.controlBase + 0x2080, data := [0, 0, 0, 0], len := 0 }

/-- The access that a restart issues, before the table, IMU and SUC. -/
theorem State.restartCau_of_begun {s : State} (h : s.cau.path ≠ .notBegun) : s.restartCau = State.beginRing { s with
    cau.shadow := s.cau.shadow.filter (fun c => decide (0x44 ≤ c.1))
    cau.slot := .free, cau.request := none, cau.pending := [], cau.gap := false
    cau.writeIdx := 0, cau.published := 0, cau.consumer := 0
    cau.statusLeft := [], cau.statusOut := false
    lines.attn := false } := if_neg h

theorem State.restartCau_of_notBegun {s : State} (h : s.cau.path = .notBegun) : s.restartCau = { s with
    cau.shadow := s.cau.shadow.filter (fun c => decide (0x44 ≤ c.1))
    cau.slot := .free, cau.request := none, cau.pending := [], cau.gap := false
    cau.writeIdx := 0, cau.published := 0, cau.consumer := 0
    cau.statusLeft := [], cau.statusOut := false
    lines.attn := false } := if_pos h

theorem State.restartRest_eq (s : State) :
    s.restartRest = s.restartArbiter.restartCau.restartTable.restartImu.restartSuc := rfl

theorem State.restartRest_shape (s : State) : s.restartRest = s.restarted s.restartRest := by
  rw [State.restartRest_eq, State.restarted]
  by_cases h : s.cau.path = .notBegun
  · rw [State.restartCau_of_notBegun (s := s.restartArbiter) h, if_pos h, ← h]
    rfl
  · rw [State.restartCau_of_begun (s := s.restartArbiter) h, if_neg h]
    rfl

section
variable (s : State)

theorem State.restartRest_hand : s.restartRest.ptu.inHand = s.ptu.inHand ∧ s.restartRest.ptu.reply = s.ptu.reply
    ∧ s.restartRest.ptu.port = s.ptu.port.restart := by
  rw [State.restartRest_eq]
  by_cases h : s.cau.path = .notBegun
  · rw [State.restartCau_of_notBegun (s := s.restartArbiter) h]
    exact ⟨rfl, rfl, rfl⟩
  · rw [State.restartCau_of_begun (s := s.restartArbiter) h]
    exact ⟨rfl, rfl, rfl⟩

theorem State.restartRest_shadow : s.restartRest.cau.shadow = s.cau.shadow.filter (fun c => decide (0x44 ≤ c.1)) := by
  rw [State.restartRest_eq]
  by_cases h : s.cau.path = .notBegun
  · rw [State.restartCau_of_notBegun (s := s.restartArbiter) h]
    rfl
  · rw [State.restartCau_of_begun (s := s.restartArbiter) h]
    rfl

theorem State.restartRest_flashPort : s.restartRest.imu.port = s.imu.port.restart := by
  rw [State.restartRest_eq]
  by_cases h : s.cau.path = .notBegun
  · rw [State.restartCau_of_notBegun (s := s.restartArbiter) h]
    rfl
  · rw [State.restartCau_of_begun (s := s.restartArbiter) h]
    rfl

variable {s}

theorem State.restartRest_waiting_of_notBegun (h : s.cau.path = .notBegun) :
    s.restartRest.ptu.queue = [] ∧ s.restartRest.ptu.behind = none := by
  rw [State.restartRest_eq, State.restartCau_of_notBegun (s := s.restartArbiter) h]
  exact ⟨rfl, rfl⟩

/-- The producer index write joins the queue, or waits behind an overtaken access of its path (section 1.5). -/
theorem State.restartRest_waiting_of_begun (h : s.cau.path ≠ .notBegun) :
    s.restartRest.ptu.queue = (if s.restartArbiter.pathBlocked 0 then [] else [{ access := s.zeroWrite, wait := 0 }])
      ∧ s.restartRest.ptu.behind = (if s.restartArbiter.pathBlocked 0 then some s.zeroWrite else none) := by
  rw [State.restartRest_eq, State.restartCau_of_begun (s := s.restartArbiter) h]
  exact ⟨rfl, rfl⟩

end

theorem State.restartArbiter_pathBlocked (s : State) :
    s.restartArbiter.pathBlocked 0 = true ↔ ∃ a g, s.ptu.port = .internal a g ∧ a.kind.path = 0 := by
  cases hp : s.ptu.port <;> simp [State.pathBlocked, State.restartArbiter, hp]

/-! ## The shadow and the flash port -/

theorem Memory.read_filter_out (d : Byte) (m : Memory) (p : Nat → Bool) {x : Nat} (h : p x = false) :
    Memory.read d (m.filter (fun c => p c.1)) x = d :=
  Memory.read_eq_of_not_mem d _ x fun _ hc heq => Bool.false_ne_true (h.symm.trans (heq ▸ (List.mem_filter.1 hc).2))

theorem State.restartRest_shadowByte (s : State) (o : Nat) :
    s.restartRest.shadowByte o = if o < 0x44 then 0 else s.shadowByte o := by
  rw [State.shadowByte, State.restartRest_shadow]
  split
  · next h =>
    exact Memory.read_filter_out Config.shadowZero s.cau.shadow (fun k => decide (0x44 ≤ k)) (decide_eq_false (not_le.2 h))
  · next h =>
    exact Memory.read_filter Config.shadowZero s.cau.shadow (fun k => decide (0x44 ≤ k)) o (decide_eq_true (not_lt.1 h))

theorem FlashPort.restart_reading (p : ReadFor) (live : Bool) (a n : Nat) : (FlashPort.reading p live a n).restart
    = .reading p (if p = .passThrough ∨ p = .verify ∨ p = .scan then false else live) a n := by
  cases p <;> rfl

/-- An operation on the port without the session that owned it. -/
def FlashOp.disowned (o : FlashOp) : FlashOp := { o with owner := if o.owner = .session then .pastSession else o.owner }

section
variable {o : FlashOp}

theorem FlashPort.restart_running (h : o.suspension = .running) : (FlashPort.busy o).restart = .busy o.disowned := by
  rw [FlashPort.restart, FlashPort.dropRead_running h]
  rfl

theorem FlashPort.restart_suspending {v : Bool} (h : o.suspension = .suspending v) :
    (FlashPort.busy o).restart = .busy { o.disowned with suspension := .suspending false } := by
  rw [FlashPort.restart, FlashPort.dropRead_suspending h]
  rfl

theorem FlashPort.restart_suspended (h : o.suspension = .suspended) :
    (FlashPort.busy o).restart = .busy { o.disowned with suspension := .running, inMinRun := true, runUs := 0 } := by
  rw [FlashPort.restart, FlashPort.dropRead_suspended h]
  rfl

end

/-! ## The transaction in hand, where its owner need not take it first -/

/-- No routed transaction is in hand but one that its owner holds from its taking. -/
def State.HeldFromTaking (s : State) : Prop :=
  ∀ h, s.ptu.inHand = some h → h.phase = .routed → ∃ w, h.window = some w ∧ s.mustHold w h.txn = true

/-- Every phase but the routed one ends with ERR at a restart, or goes on to the SRAM port. -/
theorem Phase.held_or_plain {p : Phase} (h : p ≠ .routed) : p.Held ∨ p = .sramWait .plain ∨ p = .sramBusy .plain := by
  cases p with
  | routed => exact absurd rfl h
  | readyLow => exact .inl (.inl rfl)
  | requestHeld => exact .inl (.inr (.inl rfl))
  | stagingHeld => exact .inl (.inr (.inr (.inl rfl)))
  | txHeld d => exact .inl (.inr (.inr (.inr (.inl ⟨d, rfl⟩))))
  | fetched d => exact .inl (.inr (.inr (.inr (.inr (.inl ⟨d, rfl⟩)))))
  | flashHeld a n => exact .inl (.inr (.inr (.inr (.inr (.inr (.inl ⟨a, n, rfl⟩))))))
  | sramWait k =>
    by_cases hk : k = .plain
    · exact .inr (.inl (hk ▸ rfl))
    · exact .inl (.inr (.inr (.inr (.inr (.inr (.inr ⟨k, hk, .inl rfl⟩))))))
  | sramBusy k =>
    by_cases hk : k = .plain
    · exact .inr (.inr (hk ▸ rfl))
    · exact .inl (.inr (.inr (.inr (.inr (.inr (.inr ⟨k, hk, .inr rfl⟩))))))

section
variable {s : State} {h : InHand} (hh : s.ptu.inHand = some h)
include hh

/-- A transaction that is held ends with ERR, and gives up the SRAM port. -/
theorem State.restartTransaction_of_held (hheld : s.HeldFromTaking) (hp : h.phase.Held ∨ h.phase = .routed) :
    s.restartTransaction = s.errEnded h := by
  refine State.restartTransaction_of_err hh ?_
  rcases hp with hp | hp
  · exact InHand.atRestart_held hp
  · obtain ⟨w, hw, hmust⟩ := hheld h hh hp
    rw [InHand.atRestart_routed hp hw, hmust]
    rfl

theorem State.restartTransaction_of_plain (hp : h.phase = .sramWait .plain ∨ h.phase = .sramBusy .plain) : s.restartTransaction = s :=
  State.restartTransaction_of_goesOn hh (InHand.atRestart_plain hp)

end

/-- The hand, the reply and the port alone are touched before the units' own part. -/
theorem State.restartTransaction_shape {s : State} (hheld : s.HeldFromTaking) : s.restartTransaction = { s with
    ptu.inHand := s.restartTransaction.ptu.inHand, ptu.reply := s.restartTransaction.ptu.reply
    ptu.port := s.restartTransaction.ptu.port } := by
  cases hh : s.ptu.inHand with
  | none => rw [State.restartTransaction_of_none hh]
  | some h =>
    by_cases hp : h.phase = .routed
    · rw [State.restartTransaction_of_held hh hheld (.inr hp)]
      rfl
    · rcases Phase.held_or_plain hp with hp | hp
      · rw [State.restartTransaction_of_held hh hheld (.inl hp)]
        rfl
      · rw [State.restartTransaction_of_plain hh hp]

/-- The SL7's own access keeps the port, and the free port stays free. -/
theorem State.restartTransaction_port {s : State} (hheld : s.HeldFromTaking) (hport : s.ptu.port ≠ .passThrough) :
    s.restartTransaction.ptu.port = s.ptu.port := by
  have herr : ∀ h, (s.errEnded h).ptu.port = s.ptu.port := fun h => by
    unfold State.errEnded
    cases hp : s.ptu.port with
    | passThrough => exact absurd hp hport
    | free => rfl
    | internal a g => rfl
  cases hh : s.ptu.inHand with
  | none => rw [State.restartTransaction_of_none hh]
  | some h =>
    by_cases hp : h.phase = .routed
    · rw [State.restartTransaction_of_held hh hheld (.inr hp), herr]
    · rcases Phase.held_or_plain hp with hp | hp
      · rw [State.restartTransaction_of_held hh hheld (.inl hp), herr]
      · rw [State.restartTransaction_of_plain hh hp]

end Sys2Proof.Machine

/-! PROOFS. NodeRestartKeepsAndClears: the whole. -/
namespace Sys2Proof.Machine

/-- The ten rows that a restart lets go first. -/
theorem sameRestart_of_row {row : Instr} (hrow : row ∈ [Instr.rxRingWrite, .controlWrite, .consumerIndexWrite, .classMapWrite,
      .nodePolicyRecord, .profileRecord, .pinRecord, .stagingWrite, .stagingRead, .flashWindowWrite]) (s : State) :
    Answers (SameRestart s) (exec row s) := by
  simp only [List.mem_cons, List.not_mem_nil, or_false] at hrow
  rcases hrow with rfl | rfl | rfl | rfl | rfl | rfl | rfl | rfl | rfl | rfl
  · exact execRxRingWrite_sameRestart s
  · exact execControlWrite_sameRestart s
  · exact execConsumerIndexWrite_sameRestart s
  · exact execClassMapWrite_sameRestart s
  · exact execNodePolicyRecord_sameRestart s
  · exact execProfileRecord_sameRestart s
  · exact execPinRecord_sameRestart s
  · exact execStagingWrite_sameRestart s
  · exact execStagingRead_sameRestart s
  · exact execFlashWindowWrite_sameRestart s

section
variable {s : State} (hheld : s.HeldFromTaking)
include hheld

/-- A restart as a whole: what it sets is said of `s`, what PTU, shadow and flash port hold of its own end. -/
theorem State.restart_shape : s.restartTransaction.restartRest = s.restarted s.restartTransaction.restartRest := by
  have hshape := State.restartTransaction_shape hheld
  have hrest := State.restartRest_shape s.restartTransaction
  have hsame : ∀ t, s.restartTransaction.restarted t = s.restarted t := fun t => by rw [hshape]; rfl
  rwa [hsame] at hrest

/-- A transaction that is held ends with ERR, and an access of its own gives up the port (log 43). -/
theorem State.restart_of_held {h : InHand} (hh : s.ptu.inHand = some h) (hp : h.phase.Held ∨ h.phase = .routed) :
    s.restartTransaction.restartRest.ptu.inHand = none
      ∧ s.restartTransaction.restartRest.ptu.reply = some { txn := h.txn, ending := .err }
      ∧ (s.ptu.port = .passThrough → s.restartTransaction.restartRest.ptu.port = .free) := by
  obtain ⟨hhand, hreply, hport⟩ := s.restartTransaction.restartRest_hand
  rw [hhand, hreply, hport, State.restartTransaction_of_held hh hheld hp]
  refine ⟨rfl, rfl, fun hpass => ?_⟩
  rw [State.errEnded, hpass]
  rfl

omit hheld in
/-- One that waits for the SRAM port or is on it goes on. -/
theorem State.restart_of_plain {h : InHand} (hh : s.ptu.inHand = some h)
    (hp : h.phase = .sramWait .plain ∨ h.phase = .sramBusy .plain) :
    s.restartTransaction.restartRest.ptu.inHand = some h ∧ s.restartTransaction.restartRest.ptu.reply = s.ptu.reply
      ∧ (s.ptu.port = .passThrough → s.restartTransaction.restartRest.ptu.port = .passThrough) := by
  obtain ⟨hhand, hreply, hport⟩ := s.restartTransaction.restartRest_hand
  rw [hhand, hreply, hport, State.restartTransaction_of_plain hh hp]
  exact ⟨hh, rfl, fun hpass => by rw [hpass]; rfl⟩

omit hheld in
theorem State.restart_of_none (hh : s.ptu.inHand = none) :
    s.restartTransaction.restartRest.ptu.inHand = none ∧ s.restartTransaction.restartRest.ptu.reply = s.ptu.reply := by
  obtain ⟨hhand, hreply, -⟩ := s.restartTransaction.restartRest_hand
  rw [hhand, hreply, State.restartTransaction_of_none hh]
  exact ⟨hh, rfl⟩

theorem State.restart_port (hport : s.ptu.port ≠ .passThrough) :
    s.restartTransaction.restartRest.ptu.port = s.ptu.port.restart := by
  obtain ⟨-, -, h⟩ := s.restartTransaction.restartRest_hand
  rw [h, State.restartTransaction_port hheld hport]

/-- An internal access of path 0 holds the port before and after the end of the transaction in hand, or neither. -/
theorem State.restart_pathBlocked : s.restartTransaction.restartArbiter.pathBlocked 0 = true
    ↔ ∃ a g, s.ptu.port = .internal a g ∧ a.kind.path = 0 := by
  rw [State.restartArbiter_pathBlocked]
  by_cases hpass : s.ptu.port = .passThrough
  · have hother : ∀ a g, s.restartTransaction.ptu.port ≠ .internal a g := by
      intro a g
      rcases s.restartTransaction_cases with h | ⟨h, w, hh, hp, hw, hmust, -⟩ | ⟨h, p, hh, h', hp⟩
      · rw [h, hpass]
        exact nofun
      · obtain ⟨v, hv, hmust'⟩ := hheld h hh hp
        cases hw.symm.trans hv
        exact absurd (hmust.symm.trans hmust') Bool.false_ne_true
      · rw [h']
        rcases hp with ⟨-, rfl⟩ | rfl
        · exact nofun
        · change s.ptu.port ≠ _
          rw [hpass]
          exact nofun
    exact iff_of_false (fun ⟨a, g, hp, _⟩ => hother a g hp) fun ⟨a, g, hp, _⟩ => nomatch hpass.symm.trans hp
  · rw [State.restartTransaction_port hheld hpass]

/-- What waits for the SRAM port after a restart: nothing, or the first write of the ring begun again (R20, R34). -/
theorem State.restart_waiting :
    (s.cau.path = .notBegun →
      s.restartTransaction.restartRest.ptu.queue = [] ∧ s.restartTransaction.restartRest.ptu.behind = none)
    ∧ (s.cau.path ≠ .notBegun →
      ((∀ a g, s.ptu.port = .internal a g → a.kind.path ≠ 0) →
        s.restartTransaction.restartRest.ptu.queue = [{ access := s.zeroWrite, wait := 0 }]
          ∧ s.restartTransaction.restartRest.ptu.behind = none)
      ∧ ∀ a g, s.ptu.port = .internal a g → a.kind.path = 0 →
        s.restartTransaction.restartRest.ptu.queue = [] ∧ s.restartTransaction.restartRest.ptu.behind = some s.zeroWrite) := by
  have hshape := State.restartTransaction_shape hheld
  have hpath : s.restartTransaction.cau.path = s.cau.path := by rw [hshape]
  have hzero : s.restartTransaction.zeroWrite = s.zeroWrite := by rw [hshape]; rfl
  have hblocked := State.restart_pathBlocked hheld
  refine ⟨fun h => State.restartRest_waiting_of_notBegun (hpath.trans h), fun h => ?_⟩
  obtain ⟨hqueue, hbehind⟩ := State.restartRest_waiting_of_begun (s := s.restartTransaction) (fun hp => h (hpath.symm.trans hp))
  rw [hqueue, hbehind, hzero]
  refine ⟨fun hother => ?_, fun a g hport hown => ?_⟩
  · have hfree : ¬s.restartTransaction.restartArbiter.pathBlocked 0 = true := fun hb =>
      let ⟨a, g, hport, hown⟩ := hblocked.1 hb
      hother a g hport hown
    rw [if_neg hfree, if_neg hfree]
    exact ⟨rfl, rfl⟩
  · have hfull : s.restartTransaction.restartArbiter.pathBlocked 0 = true := hblocked.2 ⟨a, g, hport, hown⟩
    rw [if_pos hfull, if_pos hfull]
    exact ⟨rfl, rfl⟩

theorem State.restart_shadowByte (o : Nat) :
    s.restartTransaction.restartRest.shadowByte o = if o < 0x44 then 0 else s.shadowByte o := by
  rw [State.restartRest_shadowByte, State.restartTransaction_shape hheld]
  rfl

theorem State.restart_flashPort : s.restartTransaction.restartRest.imu.port = s.imu.port.restart := by
  rw [State.restartRest_flashPort, State.restartTransaction_shape hheld]

end

/-- Settles O60: the rows let go first, a request so taken, and the restart itself, part by part. -/
theorem nodeRestartKeepsAndClears : Obligations.NodeRestartKeepsAndClears := by
  intro s held
  refine ⟨fun row hrow u hu => sameRestart_of_row hrow s u hu, fun h w hr huse hfree => SameRestart.of_request hr huse hfree,
    fun hrouted => ⟨s.restartTransaction.restartRest, rfl, ?_⟩⟩
  have hheld : s.HeldFromTaking := fun h hh hp =>
    let ⟨w, hw, hmust⟩ := hrouted h hh hp
    ⟨w, hw, (s.mustHold_iff w h.txn).2 hmust⟩
  have hport := State.restart_port hheld
  have hflash := State.restart_flashPort hheld
  refine ⟨State.restart_shape hheld, fun h hh hp => State.restart_of_held hheld hh ?_, fun h hh hp => State.restart_of_plain hh hp,
    State.restart_of_none, fun hfree => ?_, fun a g hown => ?_, (State.restart_waiting hheld).1, (State.restart_waiting hheld).2,
    State.restart_shadowByte hheld, fun hfree => ?_, fun p live a n hread => ?_, fun o hbusy => ?_⟩
  · rcases hp with hp | hp | hp | hp | hp | hp | hp | ⟨hp, -⟩
    · exact .inl (.inl hp)
    · exact .inl (.inr (.inl hp))
    · exact .inl (.inr (.inr (.inl hp)))
    · exact .inl (.inr (.inr (.inr (.inl hp))))
    · exact .inl (.inr (.inr (.inr (.inr (.inl hp)))))
    · exact .inl (.inr (.inr (.inr (.inr (.inr (.inl hp))))))
    · exact .inl (.inr (.inr (.inr (.inr (.inr (.inr hp))))))
    · exact .inr hp
  · rw [hport (by rw [hfree]; exact nofun), hfree]
    rfl
  · rw [hport (by rw [hown]; exact nofun), hown]
    rfl
  · rw [hflash, hfree]
    rfl
  · rw [hflash, hread]
    exact FlashPort.restart_reading p live a n
  · rw [hflash, hbusy]
    exact ⟨FlashPort.restart_running, fun v => FlashPort.restart_suspending, FlashPort.restart_suspended⟩

end Sys2Proof.Machine
